-- ==== Sys2Proof/Word.lean ====
section
/-! DEFINITION. The word types of the NDC-4200 and their plainest arithmetic (R3, R4, R7, R65). -/

namespace Sys2Proof

/-- A byte of memory, of a fetch line or of a record (R4). -/
abbrev Byte := BitVec 8

/-- One 32-bit lane of a V register, and one K register: one bit per lane (R7, R11). -/
abbrev W32 := BitVec 32

/-- One S register (R8). -/
abbrev W64 := BitVec 64

/-- One V register: 32 lanes of 32 bits (R7, R8). -/
abbrev VReg := Vector (BitVec 32) 32

/-- A register field naming a V register (R158). -/
abbrev VR := BitVec 8

/-- A register field naming an S register, 0 to 63 (R158). -/
abbrev SR := BitVec 6

/-- A register field naming a K register, 0 to 15 (R158). -/
abbrev KR := BitVec 4

/-- A register field naming a Q register, 0 to 15 (R158). -/
abbrev QR := BitVec 4

end Sys2Proof
end

