-- ==== Sys2Proof/Config.lean ====
section
/-! DEFINITION. What one device fixes and the spec leaves open: the free values, which nothing constrains (R6, log 5),
and the fused and cryptographic constants of bring-up (R384 to R386, log 8). No constant here has a body. -/

namespace Sys2Proof

/-- A firmware image slot (R384): the public key and the signature, 64 bytes each with byte 0 in the low bits, the security version
and the body. -/
structure ImageSlot where
  key  : BitVec 512
  sig  : BitVec 512
  svn  : BitVec 16
  body : List Byte
  deriving DecidableEq, Repr, Inhabited

/-- The free value of one lane of an undefined V register: the seed of its block and the register, then the lane (R6, R9). -/
opaque Config.freeLane : Nat → Nat → Nat → BitVec 32

/-- A free 64-bit value, by number (R6). -/
opaque Config.freeWord : Nat → BitVec 64

/-- The maximum of two F32 values one of which is a NaN, in a CHMERGE record that software wrote (R89, log 85). -/
opaque Config.freeMax : BitVec 32 → BitVec 32 → BitVec 32

/-- The first of two pairs, one of them with a NaN, ranks above the second in CHMERGE (R89, log 85). -/
opaque Config.freeAbove : BitVec 32 → BitVec 32 → Bool

/-- By how many cycles the CLOCK a core reads lags at a moment: 0 to 3, so two cores differ by less than 4 (R227). -/
opaque Config.clockLag : Nat → Nat → Nat → BitVec 2

/-- SM3 over a byte string (R384, R385). -/
opaque Config.sm3 : List Byte → BitVec 256

/-- SM2 verification with SM3: key, signature, message (R384). -/
opaque Config.sm2Verify : BitVec 512 → BitVec 512 → List Byte → Bool

/-- An SM2 signature with the identity key over a byte string (R385, R386). -/
opaque Config.sign : List Byte → List Byte

/-- The fused hash of the firmware key (R384). -/
opaque Config.keyHash : BitVec 256

/-- The minimum security version as the part was fused (R384). -/
opaque Config.minSvn : BitVec 16

/-- Image slot A, or B where the argument is true (R384). -/
opaque Config.slot : Bool → ImageSlot

/-- Measurement 1, the SM3 of the boot ROM (R385). -/
opaque Config.romDigest : BitVec 256

/-- The certificate chain of SPDM slot 0 (R385). -/
opaque Config.certChain : List Byte

/-- The capabilities word the SPDM responder reports, which the spec does not list (R386). -/
opaque Config.spdmCaps : List Byte

end Sys2Proof
end

