-- ==== Sys2Proof/Syntax.lean ====
section
/-! DEFINITION. The syntax: one constructor of `Instr` for each row of spec/opcode_table.json. The rows
are of two kinds. An INSTRUCTION row has a 96-bit word (R157 to R164) and its constructor holds every field of
that word. An EVENT row is a step of the device outside the instruction stream (spec/95_what_each_step_holds.md);
its constructor names the piece of state it acts on and the data the outside world brings with it. -/

namespace Sys2Proof

/-- The scheduling control every instruction word carries (Table 07.2). -/
structure Ctl where
  yld   : Bool
  setf  : BitVec 4
  wait  : BitVec 12
  stall : BitVec 3
  deriving DecidableEq, Repr

/-- The predicate of a lane-predicated instruction: K register and inversion (R159). -/
structure Pred where
  pg : KR
  pn : Bool
  deriving DecidableEq, Repr

/-- The conditions of the integer compares (R180, R187). -/
inductive ICond where
  | eq | ne | lt | le | gt | ge | ltu | leu | gtu | geu
  deriving DecidableEq, Repr

/-- The conditions of VFCMP (R193). -/
inductive FCond where
  | eq | ne | lt | le | gt | ge | ord | unord
  deriving DecidableEq, Repr

/-- The SALU functions that SALUI accepts (Table 08.1). -/
inductive SFn where
  | add | sub | mul | mulhi | mulhu | div | divu | rem | remu | and | or | xor | andn
  | shl | shr | sar | min | max | minu | maxu
  deriving DecidableEq, Repr

/-- The VALU functions that VALUI accepts (R186). -/
inductive VFn where
  | add | sub | mul | mulhi | mulhu | div | divu | rem | remu | and | or | xor | andn
  | shl | shr | sar | min | max | minu | maxu | adds | subs
  deriving DecidableEq, Repr

/-- The atomic functions (Table 09.4). -/
inductive AFn where
  | add | sub | min | max | minu | maxu | and | or | xor | xchg | cas
  | faddF32 | faddBf16x2 | fminF32 | fmaxF32
  deriving DecidableEq, Repr

/-- A branch target field: signed line offset and slot (R163). -/
structure BTgt where
  line : BitVec 18
  slot : BitVec 3
  deriving DecidableEq, Repr

/-- The target of JMP and CALL: direct, or an S register (R217). -/
inductive JTgt where
  | direct (t : BTgt)
  | indirect (sa : SR)
  deriving DecidableEq, Repr

/-- The memory operand of a format M word without scope (Table 07.4, R164). -/
structure MemOp where
  pol  : BitVec 2
  scl  : BitVec 2
  sx   : Bool
  wid  : BitVec 3
  base : SR
  off  : VR
  disp : BitVec 18
  deriving DecidableEq, Repr

/-- The memory operand of a format M word with scope (R164): POL and SX are 0 in every form that has one. -/
structure ScopedOp where
  scl   : BitVec 2
  wid   : BitVec 3
  base  : SR
  off   : VR
  scope : BitVec 3
  disp  : BitVec 15
  deriving DecidableEq, Repr

/-- The place of a gang: die, enabled core, slot (R8, R34). -/
structure GRef where
  die  : Nat
  core : Nat
  slot : Nat
  deriving DecidableEq, Repr

/-- A copy-engine context: die, core, number 0 to 3 (R246). -/
structure EngRef where
  die  : Nat
  core : Nat
  num  : Nat
  deriving DecidableEq, Repr

/-- A copy of a line, as the write-update fan-out names it (R115, R356, R360, R368). -/
inductive CopyRef where
  | l1 (die core : Nat)
  | l2 (die : Nat)
  | stash (gang page : Nat)
  | host
  deriving DecidableEq, Repr

/-- Where a load may be performed (R116, R121, Table 05.2). -/
inductive LoadSrc where
  | orderPoint
  | l1
  | l2
  | own
  deriving DecidableEq, Repr

/-- The AtomicOps a host may send (R381). -/
inductive HostAtomic where
  | fetchAdd | swap | cas | other
  deriving DecidableEq, Repr

/-- The function a host request comes through: the physical function, or virtual function n (R331, R381). -/
inductive HostFn where
  | pf
  | vf (n : Nat)
  deriving DecidableEq, Repr

/-- What the firmware writes at stage 3 of the boot (Table 23.2, R387, R388). -/
structure PlatformRegs where
  ncore  : BitVec 64
  nchan  : BitVec 64
  chloc  : BitVec 64
  pkgpwr : BitVec 64
  deriving DecidableEq, Repr

/-- One row of spec/opcode_table.json each. The group comments give the major opcode (Table 07.5). -/
inductive Instr where
  -- MISC 0x00 (R225)
  | nop (c : Ctl)
  | pause (c : Ctl) (n : BitVec 18)
  | waitf (c : Ctl) (mask : BitVec 12) (t : BitVec 6)
  | exit (c : Ctl)
  | trap (c : Ctl) (code : BitVec 16)
  | brk (c : Ctl) (code : BitVec 16)
  | sget (c : Ctl) (num : BitVec 4) (d : VR)
  | setfmt (c : Ctl) (v : BitVec 16)
  | getfmt (c : Ctl) (d : SR)
  | setexec (c : Ctl) (k : KR)
  | getexec (c : Ctl) (k : KR)
  | sset (c : Ctl) (num : BitVec 4) (a : SR)
  -- SYS 0x01 (R321)
  | eret (c : Ctl)
  | sysget (c : Ctl) (num : BitVec 12) (d : VR)
  | sysset (c : Ctl) (num : BitVec 12) (a : VR)
  | tlbinv (c : Ctl) (a : SR) (b : SR)
  | kill (c : Ctl) (code : BitVec 16)
  | idle (c : Ctl) (a : SR)
  | pgpool (c : Ctl) (d : SR) (a : SR)
  -- SALU 0x08, SALUI 0x09 (R178)
  | sadd (c : Ctl) (d a b : SR)
  | ssub (c : Ctl) (d a b : SR)
  | smul (c : Ctl) (d a b : SR)
  | smulhi (c : Ctl) (d a b : SR)
  | smulhu (c : Ctl) (d a b : SR)
  | sdiv (c : Ctl) (d a b : SR)
  | sdivu (c : Ctl) (d a b : SR)
  | srem (c : Ctl) (d a b : SR)
  | sremu (c : Ctl) (d a b : SR)
  | sand (c : Ctl) (d a b : SR)
  | sor (c : Ctl) (d a b : SR)
  | sxor (c : Ctl) (d a b : SR)
  | sandn (c : Ctl) (d a b : SR)
  | sshl (c : Ctl) (d a b : SR)
  | sshr (c : Ctl) (d a b : SR)
  | ssar (c : Ctl) (d a b : SR)
  | smin (c : Ctl) (d a b : SR)
  | smax (c : Ctl) (d a b : SR)
  | sminu (c : Ctl) (d a b : SR)
  | smaxu (c : Ctl) (d a b : SR)
  | spopc (c : Ctl) (d a : SR)
  | sclz (c : Ctl) (d a : SR)
  | sctz (c : Ctl) (d a : SR)
  | smov (c : Ctl) (d a : SR)
  | ssel (c : Ctl) (d a b : SR) (k : KR)
  | salui (c : Ctl) (f : SFn) (d a : SR) (imm : BitVec 18)
  -- SCMP 0x0A, SCMPI 0x0B, SMOVI 0x0C (R180, R181)
  | scmp (c : Ctl) (cond : ICond) (k : KR) (a b : SR)
  | scmpi (c : Ctl) (cond : ICond) (k : KR) (a : SR) (imm : BitVec 18)
  | smovi (c : Ctl) (d : SR) (imm : BitVec 32)
  | smoviz (c : Ctl) (d : SR) (imm : BitVec 32)
  | smovhi (c : Ctl) (d : SR) (imm : BitVec 32)
  -- SMEM 0x0D (R211); m.off is 0xFF
  | sld (c : Ctl) (d : SR) (m : MemOp)
  | sst (c : Ctl) (d : SR) (m : MemOp)
  -- VALU 0x10, VALUI 0x11 (R182, R183)
  | vadd (c : Ctl) (p : Pred) (w : BitVec 2) (d a b : VR)
  | vsub (c : Ctl) (p : Pred) (w : BitVec 2) (d a b : VR)
  | vmul (c : Ctl) (p : Pred) (w : BitVec 2) (d a b : VR)
  | vmulhi (c : Ctl) (p : Pred) (w : BitVec 2) (d a b : VR)
  | vmulhu (c : Ctl) (p : Pred) (w : BitVec 2) (d a b : VR)
  | vmad (c : Ctl) (p : Pred) (w : BitVec 2) (d a b e : VR)
  | vdiv (c : Ctl) (p : Pred) (w : BitVec 2) (d a b : VR)
  | vdivu (c : Ctl) (p : Pred) (w : BitVec 2) (d a b : VR)
  | vrem (c : Ctl) (p : Pred) (w : BitVec 2) (d a b : VR)
  | vremu (c : Ctl) (p : Pred) (w : BitVec 2) (d a b : VR)
  | vand (c : Ctl) (p : Pred) (w : BitVec 2) (d a b : VR)
  | vor (c : Ctl) (p : Pred) (w : BitVec 2) (d a b : VR)
  | vxor (c : Ctl) (p : Pred) (w : BitVec 2) (d a b : VR)
  | vandn (c : Ctl) (p : Pred) (w : BitVec 2) (d a b : VR)
  | vshl (c : Ctl) (p : Pred) (w : BitVec 2) (d a b : VR)
  | vshr (c : Ctl) (p : Pred) (w : BitVec 2) (d a b : VR)
  | vsar (c : Ctl) (p : Pred) (w : BitVec 2) (d a b : VR)
  | vmin (c : Ctl) (p : Pred) (w : BitVec 2) (d a b : VR)
  | vmax (c : Ctl) (p : Pred) (w : BitVec 2) (d a b : VR)
  | vminu (c : Ctl) (p : Pred) (w : BitVec 2) (d a b : VR)
  | vmaxu (c : Ctl) (p : Pred) (w : BitVec 2) (d a b : VR)
  | vabs (c : Ctl) (p : Pred) (w : BitVec 2) (d a : VR)
  | vneg (c : Ctl) (p : Pred) (w : BitVec 2) (d a : VR)
  | vpopc (c : Ctl) (p : Pred) (w : BitVec 2) (d a : VR)
  | vclz (c : Ctl) (p : Pred) (w : BitVec 2) (d a : VR)
  | vadds (c : Ctl) (p : Pred) (u : Bool) (w : BitVec 2) (d a b : VR)
  | vsubs (c : Ctl) (p : Pred) (u : Bool) (w : BitVec 2) (d a b : VR)
  | vsel (c : Ctl) (p : Pred) (w : BitVec 2) (d a b : VR) (k : KR)
  | vmov (c : Ctl) (p : Pred) (w : BitVec 2) (d a : VR)
  | vfroms (c : Ctl) (p : Pred) (w : BitVec 2) (d : VR) (a : SR)
  | sfromv (c : Ctl) (p : Pred) (w : BitVec 2) (d : SR) (a : VR) (b : SR)
  | valui (c : Ctl) (p : Pred) (f : VFn) (u : Bool) (w : BitVec 2) (d a : VR) (imm : BitVec 18)
  -- VCMP 0x12, VCMPI 0x13 (R187); w is 0 or 1
  | vcmp (c : Ctl) (p : Pred) (cond : ICond) (w : BitVec 2) (k : KR) (a b : VR)
  | vcmpi (c : Ctl) (p : Pred) (cond : ICond) (w : BitVec 2) (k : KR) (a : VR) (imm : BitVec 18)
  -- VFPU 0x14 (R188, R189)
  | vfadd (c : Ctl) (p : Pred) (r w : BitVec 2) (d a b : VR)
  | vfsub (c : Ctl) (p : Pred) (r w : BitVec 2) (d a b : VR)
  | vfmul (c : Ctl) (p : Pred) (r w : BitVec 2) (d a b : VR)
  | vfma (c : Ctl) (p : Pred) (r w : BitVec 2) (d a b e : VR)
  | vfms (c : Ctl) (p : Pred) (r w : BitVec 2) (d a b e : VR)
  | vfnma (c : Ctl) (p : Pred) (r w : BitVec 2) (d a b e : VR)
  | vfmin (c : Ctl) (p : Pred) (w : BitVec 2) (d a b : VR)
  | vfmax (c : Ctl) (p : Pred) (w : BitVec 2) (d a b : VR)
  | vfdiv (c : Ctl) (p : Pred) (r w : BitVec 2) (d a b : VR)
  | vfsqrt (c : Ctl) (p : Pred) (r w : BitVec 2) (d a : VR)
  | vfrcp (c : Ctl) (p : Pred) (r w : BitVec 2) (d a : VR)
  | vfrsq (c : Ctl) (p : Pred) (r w : BitVec 2) (d a : VR)
  | vfexp2 (c : Ctl) (p : Pred) (r w : BitVec 2) (d a : VR)
  | vflog2 (c : Ctl) (p : Pred) (r w : BitVec 2) (d a : VR)
  | vfabs (c : Ctl) (p : Pred) (w : BitVec 2) (d a : VR)
  | vfneg (c : Ctl) (p : Pred) (w : BitVec 2) (d a : VR)
  | vfclass (c : Ctl) (p : Pred) (w : BitVec 2) (d a : VR)
  | vfscale (c : Ctl) (p : Pred) (r w : BitVec 2) (d a b : VR)
  | vfrint (c : Ctl) (p : Pred) (r w : BitVec 2) (d a : VR)
  -- VFCMP 0x15, VCVT 0x16 (R193, R195)
  | vfcmp (c : Ctl) (p : Pred) (cond : FCond) (w : BitVec 2) (k : KR) (a b : VR)
  | vcvt (c : Ctl) (p : Pred) (sat : Bool) (dt st : BitVec 4) (r : BitVec 2) (pos : BitVec 3) (d a : VR) (b : SR)
  -- LANE 0x18 (R198, R199)
  | vshuf (c : Ctl) (p : Pred) (w : BitVec 2) (d a b : VR)
  | vbcast (c : Ctl) (p : Pred) (w : BitVec 2) (d a : VR) (b : SR)
  | vrot (c : Ctl) (p : Pred) (w : BitVec 2) (d a : VR) (n : BitVec 5)
  | vreduce (c : Ctl) (p : Pred) (r : BitVec 2) (op : BitVec 3) (w : BitVec 2) (d : SR) (a : VR)
  | vscan (c : Ctl) (p : Pred) (r : BitVec 2) (op : BitVec 3) (w : BitVec 2) (d a : VR)
  | vmatch (c : Ctl) (p : Pred) (w : BitVec 2) (d a : VR)
  -- KOP 0x1A (R200)
  | kand (c : Ctl) (d a b : KR)
  | kor (c : Ctl) (d a b : KR)
  | kxor (c : Ctl) (d a b : KR)
  | kandn (c : Ctl) (d a b : KR)
  | knot (c : Ctl) (d a : KR)
  | kmov (c : Ctl) (d a : KR)
  | kpopc (c : Ctl) (d : SR) (a : KR)
  | kffs (c : Ctl) (d : SR) (a : KR)
  | kfroms (c : Ctl) (d : KR) (a : SR)
  | ktos (c : Ctl) (d : SR) (a : KR)
  -- BR 0x20 (R217)
  | bra (c : Ctl) (mode : BitVec 2) (k : KR) (t : BTgt)
  | brx (c : Ctl) (clear : Bool) (k : KR) (t r : BTgt)
  | jmp (c : Ctl) (t : JTgt)
  | call (c : Ctl) (t : JTgt)
  | ret (c : Ctl) (a : SR)
  -- REGN 0x22 (R221)
  | region (c : Ctl) (vb : VR) (a : SR)
  | rcommit (c : Ctl)
  | rabort (c : Ctl)
  -- COH 0x24 (R223)
  | join (c : Ctl) (d : SR) (n : BitVec 4)
  | leave (c : Ctl)
  | bar (c : Ctl)
  | bara (c : Ctl)
  | barw (c : Ctl)
  | rquota (c : Ctl) (d : SR) (n : BitVec 18)
  -- VMEM 0x28 (R206)
  | vld (c : Ctl) (p : Pred) (d : VR) (m : MemOp)
  | vst (c : Ctl) (p : Pred) (d : VR) (m : MemOp)
  | vldc (c : Ctl) (p : Pred) (d : VR) (ver : SR) (m : MemOp)
  | vstc (c : Ctl) (p : Pred) (d : VR) (ver : SR) (m : MemOp)
  | ldacq (c : Ctl) (p : Pred) (d : VR) (sx : Bool) (m : ScopedOp)
  | strel (c : Ctl) (p : Pred) (d : VR) (m : ScopedOp)
  | prefetch (c : Ctl) (p : Pred) (m : MemOp)
  | cflush (c : Ctl) (p : Pred) (m : MemOp)
  -- VATOM 0x29, SATOM 0x2A (R212)
  | vatom (c : Ctl) (p : Pred) (f : AFn) (d : VR) (cmp : VR) (m : ScopedOp)
  | satom (c : Ctl) (f : AFn) (d : SR) (cmp : SR) (m : ScopedOp)
  -- FENCE 0x2B (R214), STASH 0x2C (R215)
  | fenceAcq (c : Ctl) (scope : BitVec 3)
  | fenceRel (c : Ctl) (scope : BitVec 3)
  | fenceAcqrel (c : Ctl) (scope : BitVec 3)
  | fenceSc (c : Ctl) (scope : BitVec 3)
  | stashMap (c : Ctl) (d a : SR) (sel : SR) (disp : BitVec 18)
  | stashUnmap (c : Ctl) (d sel : SR)
  | stashFlush (c : Ctl) (d sel : SR)
  | stashInval (c : Ctl) (d sel : SR)
  -- MTX 0x40
  | mclaim (c : Ctl) (d a : SR)
  | mtry (c : Ctl) (d a : SR)
  | mrel (c : Ctl) (a : SR)
  | mload (c : Ctl) (side : Bool) (a b t : SR)
  | mzero (c : Ctl) (a : SR)
  | mmac (c : Ctl) (a : SR)
  | mloop (c : Ctl) (d a : SR)
  | maccrd (c : Ctl) (ef : BitVec 2) (row0 nrow : BitVec 5) (d : VR) (a : SR)
  | maccwr (c : Ctl) (ef : BitVec 2) (row0 nrow : BitVec 5) (d : VR) (a : SR)
  | mstore (c : Ctl) (hi tr tom : Bool) (of : BitVec 2) (a b t : SR)
  | mdrain (c : Ctl) (ord : Bool) (d a b t : SR)
  | mstate (c : Ctl) (d a : SR)
  -- QENG 0x48 (R247)
  | qbind (c : Ctl) (d : SR) (q : QR) (b : SR)
  | qpush (c : Ctl) (d : SR) (q : QR) (b : SR) (n : BitVec 3)
  | qpop (c : Ctl) (d : SR) (q : QR)
  | qtry (c : Ctl) (d : SR) (q : QR)
  | tlwait (c : Ctl) (q : QR) (b : SR)
  | tlread (c : Ctl) (d : SR) (q : QR)
  -- GRD 0x50 (R261)
  | gnew (c : Ctl) (d a b : SR)
  | gfree (c : Ctl) (d a : SR)
  | gpub (c : Ctl) (nb : Bool) (g : BitVec 2) (d a b : SR)
  | gprom (c : Ctl) (g : BitVec 2) (d a b : SR)
  | gqry (c : Ctl) (d a : SR)
  | tspawn (c : Ctl) (p : Pred) (one keep : Bool) (d a : SR) (b : VR)
  -- NAMED 0x54 (R269)
  | rstv (c : Ctl) (p : Pred) (rel sts : Bool) (scope : BitVec 3) (d : VR) (a : SR) (b : VR) (st : SR)
  | hold (c : Ctl) (regm : Bool) (d : VR) (k : BitVec 4) (n : BitVec 6)
  | regroup (c : Ctl) (p : Pred) (vt key vl : VR) (n : BitVec 6)
  -- COLL 0x58 (R274)
  | collPut (c : Ctl) (p : Pred) (d : VR) (a : SR) (scl : BitVec 2) (off rank : VR) (disp : BitVec 15)
  | collGet (c : Ctl) (p : Pred) (d : VR) (a : SR) (scl : BitVec 2) (off rank : VR) (disp : BitVec 15)
  | collRaddF32 (c : Ctl) (p : Pred) (d : VR) (a : SR) (scl : BitVec 2) (off rank : VR) (disp : BitVec 15)
  | collRaddBf16 (c : Ctl) (p : Pred) (d : VR) (a : SR) (scl : BitVec 2) (off rank : VR) (disp : BitVec 15)
  | collRmaxF32 (c : Ctl) (p : Pred) (d : VR) (a : SR) (scl : BitVec 2) (off rank : VR) (disp : BitVec 15)
  | collRaddI32 (c : Ctl) (p : Pred) (d : VR) (a : SR) (scl : BitVec 2) (off rank : VR) (disp : BitVec 15)
  -- INFER 0x5C (R276)
  | confx (c : Ctl) (p : Pred) (emit : Bool) (k : KR) (a : VR) (b : SR) (ver : VR) (q : QR)
  | accept (c : Ctl) (p : Pred) (prob : Bool) (k : KR) (a : VR) (b : SR) (seg : KR)
  | apport (c : Ctl) (p : Pred) (d a : VR) (b : SR)
  | vrand (c : Ctl) (p : Pred) (raw : Bool) (d a : VR) (b : SR)
  -- EVENTS of a core: issue, splits, cohorts, tiles
  | pauseEnd (g : GRef)
  | fixedResultWrite (g : GRef)
  | longLatencyComplete (op : Nat)
  | activeSetExchange (g h : GRef)
  | lineFetch (g : GRef) (sid : Nat)
  | deferredSplitResume (g : GRef)
  | splitMerge (g : GRef)
  | barrierReconverge (g : GRef)
  | barrierPhaseComplete (die core num : Nat)
  | rquotaGrant (g : GRef)
  | regroupStep (die core num : Nat)
  | claimGrant (die core : Nat)
  | mloopStep (op : Nat)
  | tileFillDone (die core : Nat) (acm : Bool) (idx : Nat)
  | tileDrainDone (die core : Nat) (acm : Bool) (idx : Nat)
  | mdrainArrival (k : Nat)
  | heldAdditionApply (die core unit : Nat)
  | powerLeaveGrant (die : Nat)
  | powerLeaveRelease (die id : Nat)
  | trapEntry (g : GRef)
  | parkedRetry (g : GRef)
  | coreGate (die core : Nat)
  | coreWake (die core : Nat)
  -- EVENTS of the engines
  | engineCommandStart (e : EngRef)
  | copy (e : EngRef) (n : Nat)
  | copy2d (e : EngRef) (n : Nat)
  | fill (e : EngRef) (n : Nat)
  | convert (e : EngRef) (n : Nat)
  | chisel (e : EngRef) (n : Nat)
  | chmerge (e : EngRef) (n : Nat)
  | engineCommandComplete (e : EngRef) (n : Nat)
  | eventPost (e : EngRef) (n : Nat)
  | bfcfg (op : Nat)
  | arm (op : Nat)
  | disarm (op : Nat)
  | bfeBatchTimeout (die cfg layer : Nat)
  | halyardEvaluate (die : Nat)
  -- EVENTS of the ordering machine
  | outboundSend (item : Nat)
  | loadPerform (item : Nat) (src : LoadSrc) (lanes : BitVec 32)
  | orderPointApply (line : Nat)
  | writeExpose (line : Nat)
  | update (line : Nat) (copy : CopyRef)
  | invalidation (line die : Nat)
  | dirtyHolderNotice (item : Nat)
  | writeBack (line die : Nat)
  | evictionNotice (line die : Nat)
  | sliceDirectoryOverflow (die line : Nat)
  | snoopFilterVictim (line : Nat)
  | birsp (line : Nat) (data : List Byte)
  | pendStoreRetry (item : Nat)
  | tlbSweepDone (id : Nat)
  | translationDirectoryOverflow (die idx : Nat)
  -- EVENTS of the Armature
  | taskLaunch (id : Nat)
  | fire (ctx inst : Nat)
  | gangPlacement (queue : Nat)
  | runComplete (ctx inst : Nat)
  | gradedFaultDelivery (ctx : Nat)
  | egressHoldRelease (ctx inst : Nat)
  | preemptRequest (queue : Nat)
  | preemptEntry (g : GRef)
  | resume (id : Nat)
  | contextKill (ctx : Nat)
  -- EVENTS of named gangs and collectives
  | rstvArrival (k : Nat)
  | forwardEntryExpiry (die core : Nat)
  | injectionGrant (die core : Nat)
  | communicatorAbort (ten comm : Nat)
  -- EVENTS of the fabric
  | flitReceive (port seq : Nat) (crcOk : Bool) (flit : Nat)
  | flitAcknowledgement (port seq : Nat)
  | flitReplay (port : Nat)
  | linkRetrain (port : Nat)
  | portTrainingEnd (port : Nat) (ok : Bool) (lanes peer : Nat)
  | creditReturn (port p1 d1 p2 d2 : Nat)
  | custodyTake (port : Nat)
  | custodyAck (port tag sdev : Nat)
  | packetForward (k : Nat)
  | packetHoldTimeout (k : Nat)
  | remoteRequest (k : Nat)
  | remoteResponse (k : Nat)
  | errorNotice (k : Nat)
  | inDoubtNotice (k : Nat)
  | probe (k : Nat)
  | probeResponse (k : Nat)
  | abortNotice (k : Nat)
  | refusalExpiry (k : Nat)
  -- EVENTS of the host link
  | hostWrite (f : HostFn) (pa : Nat) (data : List Byte) (relaxed : Bool)
  | hostRead (f : HostFn) (pa n id : Nat) (own : Bool)
  | hostAtomicop (f : HostFn) (k : HostAtomic) (pa n : Nat) (v cmp : BitVec 64) (id : Nat)
  | hostCompletion (item : Nat) (ok : Bool) (data : List Byte)
  | hostLinkTrain (mode width : Nat)
  | hostLinkDown
  -- EVENTS of the driver
  | ctxcmdKill (ctx : Nat)
  | ctxcmdReset (ctx : Nat)
  | ctxcfg (ctx : Nat) (v : BitVec 64)
  | tinv (ctx : Nat) (v : BitVec 64)
  | pfva (ctx : Nat)
  | pfrel (ctx : Nat) (v : BitVec 64)
  | pgreqSplit (ctx : Nat) (v : BitVec 64)
  | pgreqPromote (ctx : Nat) (v : BitVec 64)
  | splinterSwap (ctx : Nat)
  | splinterSweep (ctx : Nat)
  | promotionCopy (ctx : Nat)
  | promotionSwap (ctx : Nat)
  | promotionSweep (ctx : Nat)
  | hwcmdArm (ctx : Nat) (v : BitVec 64)
  | hwcmdDisarm (ctx : Nat) (v : BitVec 64)
  | portctlEn (port : Nat) (v : BitVec 64)
  | portctlReenable (port : Nat)
  | devid (v : BitVec 64)
  | plbudget (die : Nat) (fw : Bool) (v : BitVec 64)
  | configWrite (f : HostFn) (off : Nat) (v : BitVec 64)
  -- EVENTS of bring-up and attestation
  | deviceReset
  | bootRomVerify
  | memoryTrain (ok : Bool)
  | platformConfig (ok : Bool) (r : PlatformRegs)
  | ready
  | getVersion
  | getCapabilities
  | negotiateAlgorithms
  | getDigests
  | getCertificate
  | challenge (nonce : BitVec 256)
  | getMeasurements (sign : Bool) (nonce : BitVec 256)
  | spdmUnsupportedRequest (code : BitVec 8)
  deriving DecidableEq, Repr

end Sys2Proof
end

