-- ==== Sys2Proof/WellFormed.lean ====
section
/-! DEFINITION. Which instructions the encodings of the spec admit, as far as their own bits decide it (R157 to R166 and
the class entries). What the issuing state decides stands in Machine/Issue.lean. An event is always well formed. -/

namespace Sys2Proof

/-- SETF names a flag, or none (Table 07.2). -/
def Ctl.wf (c : Ctl) : Bool := c.setf.toNat ≤ 11 || c.setf == 15

/-- An even register when the element is 64 bits wide (R158). -/
def pairOk (wide : Bool) (v : VR) : Bool := !wide || v.toNat % 2 == 0

/-- WID 1 of Tables 08.2 and 08.4 names pairs. -/
def wide (w : BitVec 2) : Bool := w == 1

/-- A V register names a whole datum of width WID (Table 09.1, R158). -/
def vdatumOk (wid : BitVec 3) (v : VR) : Bool :=
  match wid.toNat with
  | 3 => v.toNat % 2 == 0
  | 4 => v.toNat % 4 == 0
  | _ => true

/-- The limits of Table 07.4 that every memory operand keeps. -/
def MemOp.wf (m : MemOp) : Bool :=
  m.pol != 3 && (m.off != 0xFF || m.scl == 0) && m.wid.toNat ≤ 4

/-- The same for an operand with a scope (R113, R164). -/
def ScopedOp.wf (m : ScopedOp) : Bool :=
  (m.off != 0xFF || m.scl == 0) && m.wid.toNat ≤ 4 && m.scope.toNat ≤ 5

/-- The widths an atomic function takes (Table 09.4). -/
def AFn.widOk (f : AFn) (wid : BitVec 3) : Bool :=
  match f with
  | .faddF32 | .faddBf16x2 | .fminF32 | .fmaxF32 => wid == 2
  | _ => wid == 2 || wid == 3

/-- The functions that use a comparand (Table 09.4). -/
def AFn.hasCmp : AFn → Bool
  | .cas => true
  | _ => false

/-- Slots 0 to 4 exist (R163). -/
def BTgt.wf (t : BTgt) : Bool := t.slot.toNat ≤ 4

def JTgt.wf : JTgt → Bool
  | .direct t => t.wf
  | .indirect _ => true

/-- The FMT values SETFMT accepts (R225). -/
def fmtWf (v : BitVec 16) : Bool :=
  (v.extractLsb' 0 4).toNat ≤ 3 && (v.extractLsb' 4 4).toNat ≤ 3 && v.extractLsb' 8 2 != 3 && (v.extractLsb' 10 2).toNat ≤ 1

/-- The register numbers Table 17.1 defines. -/
def sysDefined (n : BitVec 12) : Bool :=
  let n := n.toNat
  n ≤ 3 || n == 8 || n == 9 || (0x10 ≤ n && n ≤ 0x17) || (0x20 ≤ n && n ≤ 0x27) || (0x30 ≤ n && n ≤ 0x3B) ||
    (0x40 ≤ n && n ≤ 0x4B) || n == 0x50 || n == 0x51 || n == 0x60 || (0x100 ≤ n && n < 0x220 && n % 4 != 3) ||
    (0x300 ≤ n && n < 0x400) || (0x400 ≤ n && n < 0x410)

/-- The registers whose Access column admits a write at some level (Table 17.1). -/
def sysWritable (n : BitVec 12) : Bool :=
  let n := n.toNat
  (0x11 ≤ n && n ≤ 0x16) || (0x21 ≤ n && n ≤ 0x26) || n == 0x60 || (0x100 ≤ n && n < 0x220 && n % 4 != 3) ||
    (0x300 ≤ n && n < 0x400) || (0x400 ≤ n && n < 0x410)

/-- A SYSGET or SYSSET operand: a V register for TIDX, an S register for every other number (Table 17.5). -/
def sysOperandOk (n : BitVec 12) (r : VR) : Bool := n == 0x60 || r.toNat < 64

/-- Table 08.7: HS types, floating types, the width and the last position of a type code. -/
def cvtIsHs (t : BitVec 4) : Bool := t == 12 || t == 13
def cvtIsFloat (t : BitVec 4) : Bool := t.toNat ≤ 3
def cvtWide (t : BitVec 4) : Bool := t == 1 || t == 10 || t == 11
def cvtPosMax (t : BitVec 4) : Option Nat :=
  match t.toNat with
  | 2 | 3 | 6 | 7 => some 1
  | 4 | 5 | 12 => some 3
  | 13 => some 7
  | _ => none

/-- The positions a pair admits: a narrow type bounds POS, and with none of them POS is 0 (R194, R197; DEDUCED, log 9:
fragment (08.8) writes POS 1 with an F32 source). -/
def cvtPosOk (dt st : BitVec 4) (pos : BitVec 3) : Bool :=
  match cvtPosMax dt, cvtPosMax st with
  | none, none => pos == 0
  | some a, none => pos.toNat ≤ a
  | none, some b => pos.toNat ≤ b
  | some a, some b => pos.toNat ≤ a && pos.toNat ≤ b

/-- R196: the pairs VCVT accepts. -/
def cvtWf (sat : Bool) (dt st : BitVec 4) (pos : BitVec 3) : Bool :=
  dt.toNat ≤ 13 && st.toNat ≤ 13 && dt != st &&
  !(cvtIsHs dt && (cvtIsHs st || !cvtIsFloat st)) && !(cvtIsHs st && !cvtIsFloat dt) &&
  !(sat && (cvtIsFloat dt || cvtIsFloat st || cvtIsHs dt || cvtIsHs st)) &&
  cvtPosOk dt st pos

/-- The WID and RND a VREDUCE or VSCAN accepts (Table 08.8). -/
def redWf (r : BitVec 2) (op : BitVec 3) (w : BitVec 2) : Bool :=
  if op.toNat ≤ 4 then r == 0 && w.toNat ≤ 1 else (op == 5 || r == 0)

/-- A width of Table 08.2 limited to 32-bit lanes and pairs. -/
def laneW (w : BitVec 2) : Bool := w.toNat ≤ 1

/-- The fields of a COLL word that its own bits limit (R274). -/
def collWf (c : Ctl) (scl : BitVec 2) (off : VR) : Bool := c.wf && (off != 0xFF || scl == 0)

/-- What the bits of an instruction word must keep (R166). -/
def Instr.wf : Instr → Bool
  | .nop c | .pause c _ | .waitf c _ _ | .exit c | .trap c _ | .brk c _ => c.wf
  | .sget c n d => c.wf && n.toNat ≤ 12 && (n == 0 || d.toNat < 64)
  | .setfmt c v => c.wf && fmtWf v
  | .getfmt c _ | .setexec c _ => c.wf
  | .getexec c k => c.wf && k != 0
  | .sset c n _ => c.wf && 9 ≤ n.toNat && n.toNat ≤ 11
  | .eret c => c.setf == 15
  | .sysget c n d => c.wf && sysDefined n && sysOperandOk n d
  | .sysset c n a => c.wf && sysWritable n && sysOperandOk n a
  | .tlbinv c _ _ | .kill c _ | .idle c _ | .pgpool c _ _ => c.wf
  | .sadd c _ _ _ | .ssub c _ _ _ | .smul c _ _ _ | .smulhi c _ _ _ | .smulhu c _ _ _ | .sdiv c _ _ _ | .sdivu c _ _ _
  | .srem c _ _ _ | .sremu c _ _ _ | .sand c _ _ _ | .sor c _ _ _ | .sxor c _ _ _ | .sandn c _ _ _ | .sshl c _ _ _
  | .sshr c _ _ _ | .ssar c _ _ _ | .smin c _ _ _ | .smax c _ _ _ | .sminu c _ _ _ | .smaxu c _ _ _ => c.wf
  | .spopc c _ _ | .sclz c _ _ | .sctz c _ _ | .smov c _ _ | .ssel c _ _ _ _ | .salui c _ _ _ _ => c.wf
  | .scmp c _ k _ _ => c.wf && k != 0
  | .scmpi c _ k _ _ => c.wf && k != 0
  | .smovi c _ _ | .smoviz c _ _ | .smovhi c _ _ => c.wf
  | .sld c _ m => c.wf && m.wf && m.off == 0xFF && m.wid.toNat ≤ 3 && (!m.sx || m.wid.toNat ≤ 2)
  | .sst c _ m => c.wf && m.wf && m.off == 0xFF && m.wid.toNat ≤ 3 && !m.sx
  | .vadd c _ w d a b | .vsub c _ w d a b | .vmul c _ w d a b | .vmulhi c _ w d a b | .vmulhu c _ w d a b
  | .vdiv c _ w d a b | .vdivu c _ w d a b | .vrem c _ w d a b | .vremu c _ w d a b | .vand c _ w d a b
  | .vor c _ w d a b | .vxor c _ w d a b | .vandn c _ w d a b | .vshl c _ w d a b | .vshr c _ w d a b
  | .vsar c _ w d a b | .vmin c _ w d a b | .vmax c _ w d a b | .vminu c _ w d a b | .vmaxu c _ w d a b
  | .vadds c _ _ w d a b | .vsubs c _ _ w d a b | .vsel c _ w d a b _ =>
    c.wf && pairOk (wide w) d && pairOk (wide w) a && pairOk (wide w) b
  | .vmad c _ w d a b e => c.wf && pairOk (wide w) d && pairOk (wide w) a && pairOk (wide w) b && pairOk (wide w) e
  | .vabs c _ w d a | .vneg c _ w d a | .vpopc c _ w d a | .vclz c _ w d a | .vmov c _ w d a =>
    c.wf && pairOk (wide w) d && pairOk (wide w) a
  | .vfroms c _ w d _ => c.wf && pairOk (wide w) d
  | .sfromv c _ w _ a _ => c.wf && laneW w && pairOk (wide w) a
  | .valui c _ f u w d a _ => c.wf && (!u || f == .adds || f == .subs) && pairOk (wide w) d && pairOk (wide w) a
  | .vcmp c _ _ w k a b => c.wf && laneW w && k != 0 && pairOk (wide w) a && pairOk (wide w) b
  | .vcmpi c _ _ w k a _ => c.wf && laneW w && k != 0 && pairOk (wide w) a
  | .vfadd c _ _ w d a b | .vfsub c _ _ w d a b | .vfmul c _ _ w d a b | .vfdiv c _ _ w d a b | .vfscale c _ _ w d a b =>
    c.wf && pairOk (wide w) d && pairOk (wide w) a && pairOk (wide w) b
  | .vfmin c _ w d a b | .vfmax c _ w d a b => c.wf && pairOk (wide w) d && pairOk (wide w) a && pairOk (wide w) b
  | .vfma c _ _ w d a b e | .vfms c _ _ w d a b e | .vfnma c _ _ w d a b e =>
    c.wf && pairOk (wide w) d && pairOk (wide w) a && pairOk (wide w) b && pairOk (wide w) e
  | .vfsqrt c _ _ w d a | .vfrint c _ _ w d a => c.wf && pairOk (wide w) d && pairOk (wide w) a
  | .vfrcp c _ _ w _ _ | .vfrsq c _ _ w _ _ | .vfexp2 c _ _ w _ _ | .vflog2 c _ _ w _ _ => c.wf && w != 1
  | .vfabs c _ w d a | .vfneg c _ w d a | .vfclass c _ w d a => c.wf && pairOk (wide w) d && pairOk (wide w) a
  | .vfcmp c _ _ w k a b => c.wf && laneW w && k != 0 && pairOk (wide w) a && pairOk (wide w) b
  | .vcvt c _ sat dt st _ pos d a b =>
    c.wf && cvtWf sat dt st pos && pairOk (cvtWide dt) d && pairOk (cvtWide st) a && (cvtIsHs dt || cvtIsHs st || b == 0)
  | .vshuf c _ w d a b => c.wf && laneW w && pairOk (wide w) d && pairOk (wide w) a && pairOk false b
  | .vbcast c _ w d a _ | .vrot c _ w d a _ => c.wf && laneW w && pairOk (wide w) d && pairOk (wide w) a
  | .vreduce c _ r op w _ a => c.wf && redWf r op w && pairOk (wide w) a
  | .vscan c _ r op w d a => c.wf && redWf r op w && pairOk (wide w) a && pairOk (wide w) d
  | .vmatch c _ w _ a => c.wf && laneW w && pairOk (wide w) a
  | .kand c d _ _ | .kor c d _ _ | .kxor c d _ _ | .kandn c d _ _ | .knot c d _ | .kmov c d _ | .kfroms c d _ => c.wf && d != 0
  | .kpopc c _ _ | .kffs c _ _ | .ktos c _ _ => c.wf
  | .bra c mode k t => c.wf && t.wf && (mode != 3 || k == 0)
  | .brx c _ _ t r => c.wf && t.wf && r.wf
  | .jmp c t | .call c t => c.wf && t.wf
  | .ret c _ => c.wf
  | .region c vb _ => c.wf && vb.toNat % 32 == 0
  | .rcommit c | .rabort c | .join c _ _ | .leave c | .bar c | .bara c | .barw c => c.wf
  | .rquota c _ n => c.wf && n.toNat % 32 == 0 && 32 ≤ n.toNat && n.toNat ≤ 256
  | .vld c _ d m => c.wf && m.wf && vdatumOk m.wid d && (!m.sx || m.wid.toNat ≤ 1)
  | .vst c _ d m => c.wf && m.wf && vdatumOk m.wid d && !m.sx
  | .vldc c _ d _ m => c.wf && m.wf && vdatumOk m.wid d && m.pol == 0 && (!m.sx || m.wid.toNat ≤ 1)
  | .vstc c _ d _ m => c.wf && m.wf && vdatumOk m.wid d && m.pol == 0 && !m.sx
  | .ldacq c _ d sx m => c.wf && m.wf && vdatumOk m.wid d && (!sx || m.wid.toNat ≤ 1)
  | .strel c _ d m => c.wf && m.wf && vdatumOk m.wid d
  | .prefetch c _ m => c.wf && m.wf && m.wid == 0 && !m.sx
  | .cflush c _ m => c.wf && m.wf && m.wid == 0 && !m.sx && m.pol == 0
  | .vatom c _ f d cmp m => c.wf && m.wf && f.widOk m.wid && vdatumOk m.wid d && (if f.hasCmp then vdatumOk m.wid cmp else cmp == 0)
  | .satom c f _ cmp m => c.wf && m.wf && m.off == 0xFF && f.widOk m.wid && (f.hasCmp || cmp == 0)
  | .fenceAcq c sc | .fenceRel c sc | .fenceAcqrel c sc | .fenceSc c sc => c.wf && sc.toNat ≤ 5
  | .stashMap c _ _ _ _ | .stashUnmap c _ _ | .stashFlush c _ _ | .stashInval c _ _ => c.wf
  | .mclaim c _ _ | .mtry c _ _ | .mrel c _ | .mload c _ _ _ _ | .mzero c _ | .mmac c _ | .mstate c _ _ => c.wf
  | .mloop c _ a => c.wf && a.toNat % 4 == 0
  | .maccrd c ef row0 nrow d _ | .maccwr c ef row0 nrow d _ =>
    c.wf && ef != 1 && row0.toNat + nrow.toNat < 32 && d.toNat + nrow.toNat ≤ 255
  | .mstore c hi tr tom ef _ b t => c.wf && (if tom then 2 ≤ ef.toNat && b == 0 && t == 0 else !hi && !tr)
  | .mdrain c ord _ _ _ t => c.wf && (ord || t == 0)
  | .qbind c _ _ _ | .qpop c _ _ | .qtry c _ _ | .tlwait c _ _ | .tlread c _ _ => c.wf
  | .qpush c _ _ b n => c.wf && b.toNat + n.toNat + 1 ≤ 64
  | .gnew c _ _ _ | .gfree c _ _ | .gqry c _ _ => c.wf
  | .gpub c nb g _ _ b => c.wf && g != 0 && (nb || b == 0)
  | .gprom c g _ _ _ => c.wf && g != 0
  | .tspawn c _ _ keep _ _ b => c.wf && (if keep then b == 0 else b.toNat % 2 == 0)
  | .rstv c _ rel sts sc _ _ _ st => c.wf && (sts || st == 0) && (if rel then sc.toNat ≤ 5 else sc == 0)
  | .hold c regm d k n => c.setf == 15 && k.toNat ≤ 11 && n != 0 && (regm || d == 0)
  | .regroup c _ vt _ vl n =>
    c.setf == 15 && vl.toNat + n.toNat ≤ 255 && !(vl.toNat ≤ vt.toNat && vt.toNat ≤ vl.toNat + n.toNat)
  | .collPut c _ _ _ scl off _ _ | .collGet c _ _ _ scl off _ _ | .collRaddF32 c _ _ _ scl off _ _
  | .collRaddBf16 c _ _ _ scl off _ _ | .collRmaxF32 c _ _ _ scl off _ _ | .collRaddI32 c _ _ _ scl off _ _ => collWf c scl off
  | .confx c _ emit k a _ ver q => c.wf && k != 0 && (if emit then a.toNat % 2 == 0 else ver == 0 && q == 0)
  | .accept c _ prob k a b _ => c.wf && k != 0 && b.toNat % 2 == 0 && (if prob then a.toNat % 4 == 0 else a.toNat % 2 == 0)
  | .apport c _ _ _ _ | .vrand c _ _ _ _ _ => c.wf
  | _ => true

/-- True of an instruction word's constructors, false of the events: those are never fetched. -/
def Instr.ctl? : Instr → Option Ctl
  | .nop c | .pause c _ | .waitf c _ _ | .exit c | .trap c _ | .brk c _ | .sget c _ _ | .setfmt c _ | .getfmt c _
  | .setexec c _ | .getexec c _ | .sset c _ _ | .eret c | .sysget c _ _ | .sysset c _ _ | .tlbinv c _ _ | .kill c _
  | .idle c _ | .pgpool c _ _ => some c
  | .sadd c _ _ _ | .ssub c _ _ _ | .smul c _ _ _ | .smulhi c _ _ _ | .smulhu c _ _ _ | .sdiv c _ _ _ | .sdivu c _ _ _
  | .srem c _ _ _ | .sremu c _ _ _ | .sand c _ _ _ | .sor c _ _ _ | .sxor c _ _ _ | .sandn c _ _ _ | .sshl c _ _ _
  | .sshr c _ _ _ | .ssar c _ _ _ | .smin c _ _ _ | .smax c _ _ _ | .sminu c _ _ _ | .smaxu c _ _ _ | .spopc c _ _
  | .sclz c _ _ | .sctz c _ _ | .smov c _ _ | .ssel c _ _ _ _ | .salui c _ _ _ _ | .scmp c _ _ _ _ | .scmpi c _ _ _ _
  | .smovi c _ _ | .smoviz c _ _ | .smovhi c _ _ | .sld c _ _ | .sst c _ _ => some c
  | .vadd c _ _ _ _ _ | .vsub c _ _ _ _ _ | .vmul c _ _ _ _ _ | .vmulhi c _ _ _ _ _ | .vmulhu c _ _ _ _ _
  | .vmad c _ _ _ _ _ _ | .vdiv c _ _ _ _ _ | .vdivu c _ _ _ _ _ | .vrem c _ _ _ _ _ | .vremu c _ _ _ _ _
  | .vand c _ _ _ _ _ | .vor c _ _ _ _ _ | .vxor c _ _ _ _ _ | .vandn c _ _ _ _ _ | .vshl c _ _ _ _ _
  | .vshr c _ _ _ _ _ | .vsar c _ _ _ _ _ | .vmin c _ _ _ _ _ | .vmax c _ _ _ _ _ | .vminu c _ _ _ _ _
  | .vmaxu c _ _ _ _ _ | .vabs c _ _ _ _ | .vneg c _ _ _ _ | .vpopc c _ _ _ _ | .vclz c _ _ _ _
  | .vadds c _ _ _ _ _ _ | .vsubs c _ _ _ _ _ _ | .vsel c _ _ _ _ _ _ | .vmov c _ _ _ _ | .vfroms c _ _ _ _
  | .sfromv c _ _ _ _ _ | .valui c _ _ _ _ _ _ _ | .vcmp c _ _ _ _ _ _ | .vcmpi c _ _ _ _ _ _ => some c
  | .vfadd c _ _ _ _ _ _ | .vfsub c _ _ _ _ _ _ | .vfmul c _ _ _ _ _ _ | .vfma c _ _ _ _ _ _ _ | .vfms c _ _ _ _ _ _ _
  | .vfnma c _ _ _ _ _ _ _ | .vfmin c _ _ _ _ _ | .vfmax c _ _ _ _ _ | .vfdiv c _ _ _ _ _ _ | .vfsqrt c _ _ _ _ _
  | .vfrcp c _ _ _ _ _ | .vfrsq c _ _ _ _ _ | .vfexp2 c _ _ _ _ _ | .vflog2 c _ _ _ _ _ | .vfabs c _ _ _ _
  | .vfneg c _ _ _ _ | .vfclass c _ _ _ _ | .vfscale c _ _ _ _ _ _ | .vfrint c _ _ _ _ _ | .vfcmp c _ _ _ _ _ _
  | .vcvt c _ _ _ _ _ _ _ _ _ | .vshuf c _ _ _ _ _ | .vbcast c _ _ _ _ _ | .vrot c _ _ _ _ _ | .vreduce c _ _ _ _ _ _
  | .vscan c _ _ _ _ _ _ | .vmatch c _ _ _ _ => some c
  | .kand c _ _ _ | .kor c _ _ _ | .kxor c _ _ _ | .kandn c _ _ _ | .knot c _ _ | .kmov c _ _ | .kpopc c _ _ | .kffs c _ _
  | .kfroms c _ _ | .ktos c _ _ | .bra c _ _ _ | .brx c _ _ _ _ | .jmp c _ | .call c _ | .ret c _ | .region c _ _
  | .rcommit c | .rabort c | .join c _ _ | .leave c | .bar c | .bara c | .barw c | .rquota c _ _ => some c
  | .vld c _ _ _ | .vst c _ _ _ | .vldc c _ _ _ _ | .vstc c _ _ _ _ | .ldacq c _ _ _ _ | .strel c _ _ _ | .prefetch c _ _
  | .cflush c _ _ | .vatom c _ _ _ _ _ | .satom c _ _ _ _ | .fenceAcq c _ | .fenceRel c _ | .fenceAcqrel c _ | .fenceSc c _
  | .stashMap c _ _ _ _ | .stashUnmap c _ _ | .stashFlush c _ _ | .stashInval c _ _ => some c
  | .mclaim c _ _ | .mtry c _ _ | .mrel c _ | .mload c _ _ _ _ | .mzero c _ | .mmac c _ | .mloop c _ _ | .maccrd c _ _ _ _ _
  | .maccwr c _ _ _ _ _ | .mstore c _ _ _ _ _ _ _ | .mdrain c _ _ _ _ _ | .mstate c _ _ | .qbind c _ _ _ | .qpush c _ _ _ _
  | .qpop c _ _ | .qtry c _ _ | .tlwait c _ _ | .tlread c _ _ => some c
  | .gnew c _ _ _ | .gfree c _ _ | .gpub c _ _ _ _ _ | .gprom c _ _ _ _ | .gqry c _ _ | .tspawn c _ _ _ _ _ _
  | .rstv c _ _ _ _ _ _ _ _ | .hold c _ _ _ _ | .regroup c _ _ _ _ _ | .collPut c _ _ _ _ _ _ _ | .collGet c _ _ _ _ _ _ _
  | .collRaddF32 c _ _ _ _ _ _ _ | .collRaddBf16 c _ _ _ _ _ _ _ | .collRmaxF32 c _ _ _ _ _ _ _ | .collRaddI32 c _ _ _ _ _ _ _
  | .confx c _ _ _ _ _ _ _ | .accept c _ _ _ _ _ _ | .apport c _ _ _ _ | .vrand c _ _ _ _ _ => some c
  | _ => none

/-- Rows of the opcode table that are steps of the device and not instruction words. -/
def Instr.isEvent (i : Instr) : Bool := i.ctl?.isNone

end Sys2Proof
end

