-- ==== Sys2Proof/Decode.lean ====
section
/-! DEFINITION. Decoding an instruction word, a fetch line and their fields, total on any bits and rejecting by name, and
after it the encoder, written from the same tables (R149 to R166 and the class entries). A word is accepted when its
fields name an instruction, the instruction is well formed, and every bit the instruction does not define is zero:
the last is asked by encoding the instruction again (R5, R158, R166). -/

namespace Sys2Proof

/-- Why bits are no instruction (R166). -/
inductive Reject where
  | opcode
  | function
  | field
  | length
  deriving DecidableEq, Repr

/-- The fields common to every format, and the body [75:18] (Table 07.2). -/
structure Word96 where
  c    : Ctl
  body : BitVec 58
  z    : Bool
  p    : Pred
  fn   : BitVec 5
  opc  : BitVec 7
  deriving DecidableEq, Repr

def Word96.ofBits (w : BitVec 96) : Word96 :=
  { c := { yld := w.getLsbD 95, setf := w.extractLsb' 91 4, wait := w.extractLsb' 79 12, stall := w.extractLsb' 76 3 },
    body := w.extractLsb' 18 58, z := w.getLsbD 17, p := { pg := w.extractLsb' 12 4, pn := w.getLsbD 16 },
    fn := w.extractLsb' 7 5, opc := w.extractLsb' 0 7 }

/-- The word of the common fields and a body (Table 07.2). -/
def packWord (c : Ctl) (p : Pred) (opc fn : Nat) (body : BitVec 58) : BitVec 96 :=
  BitVec.ofBool c.yld ++ c.setf ++ c.wait ++ c.stall ++ body ++ 0#1 ++ BitVec.ofBool p.pn ++ p.pg ++
    BitVec.ofNat 5 fn ++ BitVec.ofNat 7 opc

/-- No predicate: PG and PN zero (R159). -/
def Pred.none : Pred := { pg := 0, pn := false }

/-- Format R, bits [75:18] (Table 07.3). -/
structure FmtR where
  imm : BitVec 18
  mod : BitVec 8
  sc  : BitVec 8
  sb  : BitVec 8
  sa  : BitVec 8
  dst : BitVec 8
  deriving DecidableEq, Repr

def FmtR.ofBody (b : BitVec 58) : FmtR :=
  { imm := b.extractLsb' 40 18, mod := b.extractLsb' 32 8, sc := b.extractLsb' 24 8, sb := b.extractLsb' 16 8,
    sa := b.extractLsb' 8 8, dst := b.extractLsb' 0 8 }

def FmtR.body (f : FmtR) : BitVec 58 := f.imm ++ f.mod ++ f.sc ++ f.sb ++ f.sa ++ f.dst

/-- Format I, bits [75:18] (R162). -/
def bodyI (imm : BitVec 32) (dst : BitVec 8) : BitVec 58 := 0#2 ++ imm ++ 0#8 ++ 0#8 ++ dst

/-- Format B, bits [75:18] (R163). -/
structure FmtB where
  r    : BTgt
  t    : BTgt
  sa   : BitVec 8
  mode : BitVec 2
  kc   : BitVec 4
  deriving DecidableEq, Repr

def FmtB.ofBody (b : BitVec 58) : FmtB :=
  { r := { slot := b.extractLsb' 55 3, line := b.extractLsb' 37 18 },
    t := { slot := b.extractLsb' 34 3, line := b.extractLsb' 16 18 }, sa := b.extractLsb' 8 8,
    mode := b.extractLsb' 4 2, kc := b.extractLsb' 0 4 }

def FmtB.body (f : FmtB) : BitVec 58 :=
  f.r.slot ++ f.r.line ++ f.t.slot ++ f.t.line ++ f.sa ++ 0#2 ++ f.mode ++ f.kc

/-- A target field that is zero. -/
def BTgt.zero : BTgt := { line := 0, slot := 0 }

/-! Register fields narrower than eight bits, read and written (R158). -/

def srOf (f : BitVec 8) : SR := f.setWidth 6
def krOf (f : BitVec 8) : KR := f.setWidth 4
def ofSr (r : SR) : BitVec 8 := r.setWidth 8
def ofKr (r : KR) : BitVec 8 := r.setWidth 8

/-- MOD of format M (Table 07.4). -/
def modM (pol scl : BitVec 2) (sx : Bool) (wid : BitVec 3) : BitVec 8 := pol ++ scl ++ BitVec.ofBool sx ++ wid

def MemOp.ofR (f : FmtR) : MemOp :=
  { pol := f.mod.extractLsb' 6 2, scl := f.mod.extractLsb' 4 2, sx := f.mod.getLsbD 3, wid := f.mod.extractLsb' 0 3,
    base := srOf f.sa, off := f.sb, disp := f.imm }

def ScopedOp.ofR (f : FmtR) : ScopedOp :=
  { scl := f.mod.extractLsb' 4 2, wid := f.mod.extractLsb' 0 3, base := srOf f.sa, off := f.sb,
    scope := f.imm.extractLsb' 15 3, disp := f.imm.extractLsb' 0 15 }

def MemOp.toR (m : MemOp) (dst sc : BitVec 8) : FmtR :=
  { imm := m.disp, mod := modM m.pol m.scl m.sx m.wid, sc := sc, sb := m.off, sa := ofSr m.base, dst := dst }

def ScopedOp.toR (m : ScopedOp) (sx : Bool) (dst sc : BitVec 8) : FmtR :=
  { imm := m.scope ++ m.disp, mod := modM 0 m.scl sx m.wid, sc := sc, sb := m.off, sa := ofSr m.base, dst := dst }

/-! Functions that the immediate groups and the atomics name by number (Tables 08.1, 08.3, 09.4). -/

def SFn.code : SFn → Nat
  | .add => 0
  | .sub => 1
  | .mul => 2
  | .mulhi => 3
  | .mulhu => 4
  | .div => 5
  | .divu => 6
  | .rem => 7
  | .remu => 8
  | .and => 9
  | .or => 10
  | .xor => 11
  | .andn => 12
  | .shl => 13
  | .shr => 14
  | .sar => 15
  | .min => 16
  | .max => 17
  | .minu => 18
  | .maxu => 19

def SFn.ofCode (n : Nat) : Option SFn :=
  match n with
  | 0 => some .add
  | 1 => some .sub
  | 2 => some .mul
  | 3 => some .mulhi
  | 4 => some .mulhu
  | 5 => some .div
  | 6 => some .divu
  | 7 => some .rem
  | 8 => some .remu
  | 9 => some .and
  | 10 => some .or
  | 11 => some .xor
  | 12 => some .andn
  | 13 => some .shl
  | 14 => some .shr
  | 15 => some .sar
  | 16 => some .min
  | 17 => some .max
  | 18 => some .minu
  | 19 => some .maxu
  | _ => none

def VFn.code : VFn → Nat
  | .add => 0
  | .sub => 1
  | .mul => 2
  | .mulhi => 3
  | .mulhu => 4
  | .div => 6
  | .divu => 7
  | .rem => 8
  | .remu => 9
  | .and => 10
  | .or => 11
  | .xor => 12
  | .andn => 13
  | .shl => 14
  | .shr => 15
  | .sar => 16
  | .min => 17
  | .max => 18
  | .minu => 19
  | .maxu => 20
  | .adds => 25
  | .subs => 26

def VFn.ofCode (n : Nat) : Option VFn :=
  match n with
  | 0 => some .add
  | 1 => some .sub
  | 2 => some .mul
  | 3 => some .mulhi
  | 4 => some .mulhu
  | 6 => some .div
  | 7 => some .divu
  | 8 => some .rem
  | 9 => some .remu
  | 10 => some .and
  | 11 => some .or
  | 12 => some .xor
  | 13 => some .andn
  | 14 => some .shl
  | 15 => some .shr
  | 16 => some .sar
  | 17 => some .min
  | 18 => some .max
  | 19 => some .minu
  | 20 => some .maxu
  | 25 => some .adds
  | 26 => some .subs
  | _ => none

def AFn.code : AFn → Nat
  | .add => 0
  | .sub => 1
  | .min => 2
  | .max => 3
  | .minu => 4
  | .maxu => 5
  | .and => 6
  | .or => 7
  | .xor => 8
  | .xchg => 9
  | .cas => 10
  | .faddF32 => 11
  | .faddBf16x2 => 12
  | .fminF32 => 13
  | .fmaxF32 => 14

def AFn.ofCode (n : Nat) : Option AFn :=
  match n with
  | 0 => some .add
  | 1 => some .sub
  | 2 => some .min
  | 3 => some .max
  | 4 => some .minu
  | 5 => some .maxu
  | 6 => some .and
  | 7 => some .or
  | 8 => some .xor
  | 9 => some .xchg
  | 10 => some .cas
  | 11 => some .faddF32
  | 12 => some .faddBf16x2
  | 13 => some .fminF32
  | 14 => some .fmaxF32
  | _ => none

def ICond.code : ICond → Nat
  | .eq => 0
  | .ne => 1
  | .lt => 2
  | .le => 3
  | .gt => 4
  | .ge => 5
  | .ltu => 6
  | .leu => 7
  | .gtu => 8
  | .geu => 9

def ICond.ofCode (n : Nat) : Option ICond :=
  match n with
  | 0 => some .eq
  | 1 => some .ne
  | 2 => some .lt
  | 3 => some .le
  | 4 => some .gt
  | 5 => some .ge
  | 6 => some .ltu
  | 7 => some .leu
  | 8 => some .gtu
  | 9 => some .geu
  | _ => none

def FCond.code : FCond → Nat
  | .eq => 0
  | .ne => 1
  | .lt => 2
  | .le => 3
  | .gt => 4
  | .ge => 5
  | .ord => 6
  | .unord => 7

def FCond.ofCode (n : Nat) : Option FCond :=
  match n with
  | 0 => some .eq
  | 1 => some .ne
  | 2 => some .lt
  | 3 => some .le
  | 4 => some .gt
  | 5 => some .ge
  | 6 => some .ord
  | 7 => some .unord
  | _ => none

/-! ### The encoder -/

/-- Format R. -/
def encR (c : Ctl) (p : Pred) (opc fn : Nat) (f : FmtR) : Option (BitVec 96) := some (packWord c p opc fn f.body)

/-- Format B. -/
def encB (c : Ctl) (fn : Nat) (f : FmtB) : Option (BitVec 96) := some (packWord c Pred.none 0x20 fn f.body)

/-- The word of an instruction (Tables 07.2 to 07.5 and the class entries); an event has none. -/
def encode : Instr → Option (BitVec 96)
  | .nop c => encR c Pred.none 0 1 { imm := 0, mod := 0, sc := 0, sb := 0, sa := 0, dst := 0 }
  | .pause c n => encR c Pred.none 0 2 { imm := n, mod := 0, sc := 0, sb := 0, sa := 0, dst := 0 }
  | .waitf c mask t => encR c Pred.none 0 3 { imm := t ++ mask, mod := 0, sc := 0, sb := 0, sa := 0, dst := 0 }
  | .exit c => encR c Pred.none 0 4 { imm := 0, mod := 0, sc := 0, sb := 0, sa := 0, dst := 0 }
  | .trap c n => encR c Pred.none 0 5 { imm := 0#2 ++ n, mod := 0, sc := 0, sb := 0, sa := 0, dst := 0 }
  | .brk c n => encR c Pred.none 0 6 { imm := 0#2 ++ n, mod := 0, sc := 0, sb := 0, sa := 0, dst := 0 }
  | .sget c n d => encR c Pred.none 0 7 { imm := n.setWidth 18, mod := 0, sc := 0, sb := 0, sa := 0, dst := d }
  | .setfmt c n => encR c Pred.none 0 8 { imm := 0#2 ++ n, mod := 0, sc := 0, sb := 0, sa := 0, dst := 0 }
  | .getfmt c d => encR c Pred.none 0 9 { imm := 0, mod := 0, sc := 0, sb := 0, sa := 0, dst := ofSr d }
  | .setexec c k => encR c Pred.none 0 10 { imm := 0, mod := 0, sc := 0, sb := 0, sa := ofKr k, dst := 0 }
  | .getexec c k => encR c Pred.none 0 11 { imm := 0, mod := 0, sc := 0, sb := 0, sa := 0, dst := ofKr k }
  | .sset c n a => encR c Pred.none 0 12 { imm := n.setWidth 18, mod := 0, sc := 0, sb := 0, sa := ofSr a, dst := 0 }
  | .eret c => encR c Pred.none 1 0 { imm := 0, mod := 0, sc := 0, sb := 0, sa := 0, dst := 0 }
  | .sysget c n d => encR c Pred.none 1 1 { imm := n.setWidth 18, mod := 0, sc := 0, sb := 0, sa := 0, dst := d }
  | .sysset c n a => encR c Pred.none 1 2 { imm := n.setWidth 18, mod := 0, sc := 0, sb := 0, sa := a, dst := 0 }
  | .tlbinv c a b => encR c Pred.none 1 3 { imm := 0, mod := 0, sc := 0, sb := ofSr b, sa := ofSr a, dst := 0 }
  | .kill c n => encR c Pred.none 1 4 { imm := 0#2 ++ n, mod := 0, sc := 0, sb := 0, sa := 0, dst := 0 }
  | .idle c a => encR c Pred.none 1 5 { imm := 0, mod := 0, sc := 0, sb := 0, sa := ofSr a, dst := 0 }
  | .pgpool c d a => encR c Pred.none 1 6 { imm := 0, mod := 0, sc := 0, sb := 0, sa := ofSr a, dst := ofSr d }
  | .sadd c d a b => encR c Pred.none 8 0 { imm := 0, mod := 0, sc := 0, sb := ofSr b, sa := ofSr a, dst := ofSr d }
  | .ssub c d a b => encR c Pred.none 8 1 { imm := 0, mod := 0, sc := 0, sb := ofSr b, sa := ofSr a, dst := ofSr d }
  | .smul c d a b => encR c Pred.none 8 2 { imm := 0, mod := 0, sc := 0, sb := ofSr b, sa := ofSr a, dst := ofSr d }
  | .smulhi c d a b => encR c Pred.none 8 3 { imm := 0, mod := 0, sc := 0, sb := ofSr b, sa := ofSr a, dst := ofSr d }
  | .smulhu c d a b => encR c Pred.none 8 4 { imm := 0, mod := 0, sc := 0, sb := ofSr b, sa := ofSr a, dst := ofSr d }
  | .sdiv c d a b => encR c Pred.none 8 5 { imm := 0, mod := 0, sc := 0, sb := ofSr b, sa := ofSr a, dst := ofSr d }
  | .sdivu c d a b => encR c Pred.none 8 6 { imm := 0, mod := 0, sc := 0, sb := ofSr b, sa := ofSr a, dst := ofSr d }
  | .srem c d a b => encR c Pred.none 8 7 { imm := 0, mod := 0, sc := 0, sb := ofSr b, sa := ofSr a, dst := ofSr d }
  | .sremu c d a b => encR c Pred.none 8 8 { imm := 0, mod := 0, sc := 0, sb := ofSr b, sa := ofSr a, dst := ofSr d }
  | .sand c d a b => encR c Pred.none 8 9 { imm := 0, mod := 0, sc := 0, sb := ofSr b, sa := ofSr a, dst := ofSr d }
  | .sor c d a b => encR c Pred.none 8 10 { imm := 0, mod := 0, sc := 0, sb := ofSr b, sa := ofSr a, dst := ofSr d }
  | .sxor c d a b => encR c Pred.none 8 11 { imm := 0, mod := 0, sc := 0, sb := ofSr b, sa := ofSr a, dst := ofSr d }
  | .sandn c d a b => encR c Pred.none 8 12 { imm := 0, mod := 0, sc := 0, sb := ofSr b, sa := ofSr a, dst := ofSr d }
  | .sshl c d a b => encR c Pred.none 8 13 { imm := 0, mod := 0, sc := 0, sb := ofSr b, sa := ofSr a, dst := ofSr d }
  | .sshr c d a b => encR c Pred.none 8 14 { imm := 0, mod := 0, sc := 0, sb := ofSr b, sa := ofSr a, dst := ofSr d }
  | .ssar c d a b => encR c Pred.none 8 15 { imm := 0, mod := 0, sc := 0, sb := ofSr b, sa := ofSr a, dst := ofSr d }
  | .smin c d a b => encR c Pred.none 8 16 { imm := 0, mod := 0, sc := 0, sb := ofSr b, sa := ofSr a, dst := ofSr d }
  | .smax c d a b => encR c Pred.none 8 17 { imm := 0, mod := 0, sc := 0, sb := ofSr b, sa := ofSr a, dst := ofSr d }
  | .sminu c d a b => encR c Pred.none 8 18 { imm := 0, mod := 0, sc := 0, sb := ofSr b, sa := ofSr a, dst := ofSr d }
  | .smaxu c d a b => encR c Pred.none 8 19 { imm := 0, mod := 0, sc := 0, sb := ofSr b, sa := ofSr a, dst := ofSr d }
  | .spopc c d a => encR c Pred.none 8 20 { imm := 0, mod := 0, sc := 0, sb := 0, sa := ofSr a, dst := ofSr d }
  | .sclz c d a => encR c Pred.none 8 21 { imm := 0, mod := 0, sc := 0, sb := 0, sa := ofSr a, dst := ofSr d }
  | .sctz c d a => encR c Pred.none 8 22 { imm := 0, mod := 0, sc := 0, sb := 0, sa := ofSr a, dst := ofSr d }
  | .smov c d a => encR c Pred.none 8 23 { imm := 0, mod := 0, sc := 0, sb := 0, sa := ofSr a, dst := ofSr d }
  | .ssel c d a b k => encR c Pred.none 8 24 { imm := 0, mod := 0, sc := ofKr k, sb := ofSr b, sa := ofSr a, dst := ofSr d }
  | .smovi c d imm => some (packWord c Pred.none 0xC 0 (bodyI imm (ofSr d)))
  | .smoviz c d imm => some (packWord c Pred.none 0xC 1 (bodyI imm (ofSr d)))
  | .smovhi c d imm => some (packWord c Pred.none 0xC 2 (bodyI imm (ofSr d)))
  | .vadd c p w d a b => encR c p 16 0 { imm := 0, mod := w.setWidth 8, sc := 0, sb := b, sa := a, dst := d }
  | .vsub c p w d a b => encR c p 16 1 { imm := 0, mod := w.setWidth 8, sc := 0, sb := b, sa := a, dst := d }
  | .vmul c p w d a b => encR c p 16 2 { imm := 0, mod := w.setWidth 8, sc := 0, sb := b, sa := a, dst := d }
  | .vmulhi c p w d a b => encR c p 16 3 { imm := 0, mod := w.setWidth 8, sc := 0, sb := b, sa := a, dst := d }
  | .vmulhu c p w d a b => encR c p 16 4 { imm := 0, mod := w.setWidth 8, sc := 0, sb := b, sa := a, dst := d }
  | .vmad c p w d a b e => encR c p 16 5 { imm := 0, mod := w.setWidth 8, sc := e, sb := b, sa := a, dst := d }
  | .vdiv c p w d a b => encR c p 16 6 { imm := 0, mod := w.setWidth 8, sc := 0, sb := b, sa := a, dst := d }
  | .vdivu c p w d a b => encR c p 16 7 { imm := 0, mod := w.setWidth 8, sc := 0, sb := b, sa := a, dst := d }
  | .vrem c p w d a b => encR c p 16 8 { imm := 0, mod := w.setWidth 8, sc := 0, sb := b, sa := a, dst := d }
  | .vremu c p w d a b => encR c p 16 9 { imm := 0, mod := w.setWidth 8, sc := 0, sb := b, sa := a, dst := d }
  | .vand c p w d a b => encR c p 16 10 { imm := 0, mod := w.setWidth 8, sc := 0, sb := b, sa := a, dst := d }
  | .vor c p w d a b => encR c p 16 11 { imm := 0, mod := w.setWidth 8, sc := 0, sb := b, sa := a, dst := d }
  | .vxor c p w d a b => encR c p 16 12 { imm := 0, mod := w.setWidth 8, sc := 0, sb := b, sa := a, dst := d }
  | .vandn c p w d a b => encR c p 16 13 { imm := 0, mod := w.setWidth 8, sc := 0, sb := b, sa := a, dst := d }
  | .vshl c p w d a b => encR c p 16 14 { imm := 0, mod := w.setWidth 8, sc := 0, sb := b, sa := a, dst := d }
  | .vshr c p w d a b => encR c p 16 15 { imm := 0, mod := w.setWidth 8, sc := 0, sb := b, sa := a, dst := d }
  | .vsar c p w d a b => encR c p 16 16 { imm := 0, mod := w.setWidth 8, sc := 0, sb := b, sa := a, dst := d }
  | .vmin c p w d a b => encR c p 16 17 { imm := 0, mod := w.setWidth 8, sc := 0, sb := b, sa := a, dst := d }
  | .vmax c p w d a b => encR c p 16 18 { imm := 0, mod := w.setWidth 8, sc := 0, sb := b, sa := a, dst := d }
  | .vminu c p w d a b => encR c p 16 19 { imm := 0, mod := w.setWidth 8, sc := 0, sb := b, sa := a, dst := d }
  | .vmaxu c p w d a b => encR c p 16 20 { imm := 0, mod := w.setWidth 8, sc := 0, sb := b, sa := a, dst := d }
  | .vabs c p w d a => encR c p 16 21 { imm := 0, mod := w.setWidth 8, sc := 0, sb := 0, sa := a, dst := d }
  | .vneg c p w d a => encR c p 16 22 { imm := 0, mod := w.setWidth 8, sc := 0, sb := 0, sa := a, dst := d }
  | .vpopc c p w d a => encR c p 16 23 { imm := 0, mod := w.setWidth 8, sc := 0, sb := 0, sa := a, dst := d }
  | .vclz c p w d a => encR c p 16 24 { imm := 0, mod := w.setWidth 8, sc := 0, sb := 0, sa := a, dst := d }
  | .vadds c p u w d a b => encR c p 16 25 { imm := 0, mod := 0#5 ++ BitVec.ofBool u ++ w, sc := 0, sb := b, sa := a, dst := d }
  | .vsubs c p u w d a b => encR c p 16 26 { imm := 0, mod := 0#5 ++ BitVec.ofBool u ++ w, sc := 0, sb := b, sa := a, dst := d }
  | .vsel c p w d a b k => encR c p 16 27 { imm := 0, mod := w.setWidth 8, sc := ofKr k, sb := b, sa := a, dst := d }
  | .vmov c p w d a => encR c p 16 28 { imm := 0, mod := w.setWidth 8, sc := 0, sb := 0, sa := a, dst := d }
  | .vfroms c p w d a => encR c p 16 29 { imm := 0, mod := w.setWidth 8, sc := 0, sb := 0, sa := ofSr a, dst := d }
  | .sfromv c p w d a b => encR c p 16 30 { imm := 0, mod := w.setWidth 8, sc := 0, sb := ofSr b, sa := a, dst := ofSr d }
  | .vfadd c p r w d a b => encR c p 20 0 { imm := 0, mod := 0#4 ++ r ++ w, sc := 0, sb := b, sa := a, dst := d }
  | .vfsub c p r w d a b => encR c p 20 1 { imm := 0, mod := 0#4 ++ r ++ w, sc := 0, sb := b, sa := a, dst := d }
  | .vfmul c p r w d a b => encR c p 20 2 { imm := 0, mod := 0#4 ++ r ++ w, sc := 0, sb := b, sa := a, dst := d }
  | .vfma c p r w d a b e => encR c p 20 3 { imm := 0, mod := 0#4 ++ r ++ w, sc := e, sb := b, sa := a, dst := d }
  | .vfms c p r w d a b e => encR c p 20 4 { imm := 0, mod := 0#4 ++ r ++ w, sc := e, sb := b, sa := a, dst := d }
  | .vfnma c p r w d a b e => encR c p 20 5 { imm := 0, mod := 0#4 ++ r ++ w, sc := e, sb := b, sa := a, dst := d }
  | .vfmin c p w d a b => encR c p 20 6 { imm := 0, mod := w.setWidth 8, sc := 0, sb := b, sa := a, dst := d }
  | .vfmax c p w d a b => encR c p 20 7 { imm := 0, mod := w.setWidth 8, sc := 0, sb := b, sa := a, dst := d }
  | .vfdiv c p r w d a b => encR c p 20 8 { imm := 0, mod := 0#4 ++ r ++ w, sc := 0, sb := b, sa := a, dst := d }
  | .vfsqrt c p r w d a => encR c p 20 9 { imm := 0, mod := 0#4 ++ r ++ w, sc := 0, sb := 0, sa := a, dst := d }
  | .vfrcp c p r w d a => encR c p 20 10 { imm := 0, mod := 0#4 ++ r ++ w, sc := 0, sb := 0, sa := a, dst := d }
  | .vfrsq c p r w d a => encR c p 20 11 { imm := 0, mod := 0#4 ++ r ++ w, sc := 0, sb := 0, sa := a, dst := d }
  | .vfexp2 c p r w d a => encR c p 20 12 { imm := 0, mod := 0#4 ++ r ++ w, sc := 0, sb := 0, sa := a, dst := d }
  | .vflog2 c p r w d a => encR c p 20 13 { imm := 0, mod := 0#4 ++ r ++ w, sc := 0, sb := 0, sa := a, dst := d }
  | .vfabs c p w d a => encR c p 20 14 { imm := 0, mod := w.setWidth 8, sc := 0, sb := 0, sa := a, dst := d }
  | .vfneg c p w d a => encR c p 20 15 { imm := 0, mod := w.setWidth 8, sc := 0, sb := 0, sa := a, dst := d }
  | .vfclass c p w d a => encR c p 20 16 { imm := 0, mod := w.setWidth 8, sc := 0, sb := 0, sa := a, dst := d }
  | .vfscale c p r w d a b => encR c p 20 17 { imm := 0, mod := 0#4 ++ r ++ w, sc := 0, sb := b, sa := a, dst := d }
  | .vfrint c p r w d a => encR c p 20 18 { imm := 0, mod := 0#4 ++ r ++ w, sc := 0, sb := 0, sa := a, dst := d }
  | .vshuf c p w d a b => encR c p 24 0 { imm := 0, mod := w.setWidth 8, sc := 0, sb := b, sa := a, dst := d }
  | .vbcast c p w d a b => encR c p 24 1 { imm := 0, mod := w.setWidth 8, sc := 0, sb := ofSr b, sa := a, dst := d }
  | .vrot c p w d a n => encR c p 24 2 { imm := n.setWidth 18, mod := w.setWidth 8, sc := 0, sb := 0, sa := a, dst := d }
  | .vreduce c p r o w d a => encR c p 24 3 { imm := 0, mod := 0#1 ++ r ++ o ++ w, sc := 0, sb := 0, sa := a, dst := ofSr d }
  | .vscan c p r o w d a => encR c p 24 4 { imm := 0, mod := 0#1 ++ r ++ o ++ w, sc := 0, sb := 0, sa := a, dst := d }
  | .vmatch c p w d a => encR c p 24 5 { imm := 0, mod := w.setWidth 8, sc := 0, sb := 0, sa := a, dst := d }
  | .kand c d a b => encR c Pred.none 26 0 { imm := 0, mod := 0, sc := 0, sb := ofKr b, sa := ofKr a, dst := ofKr d }
  | .kor c d a b => encR c Pred.none 26 1 { imm := 0, mod := 0, sc := 0, sb := ofKr b, sa := ofKr a, dst := ofKr d }
  | .kxor c d a b => encR c Pred.none 26 2 { imm := 0, mod := 0, sc := 0, sb := ofKr b, sa := ofKr a, dst := ofKr d }
  | .kandn c d a b => encR c Pred.none 26 3 { imm := 0, mod := 0, sc := 0, sb := ofKr b, sa := ofKr a, dst := ofKr d }
  | .knot c d a => encR c Pred.none 26 4 { imm := 0, mod := 0, sc := 0, sb := 0, sa := ofKr a, dst := ofKr d }
  | .kmov c d a => encR c Pred.none 26 5 { imm := 0, mod := 0, sc := 0, sb := 0, sa := ofKr a, dst := ofKr d }
  | .kpopc c d a => encR c Pred.none 26 6 { imm := 0, mod := 0, sc := 0, sb := 0, sa := ofKr a, dst := ofSr d }
  | .kffs c d a => encR c Pred.none 26 7 { imm := 0, mod := 0, sc := 0, sb := 0, sa := ofKr a, dst := ofSr d }
  | .kfroms c d a => encR c Pred.none 26 8 { imm := 0, mod := 0, sc := 0, sb := 0, sa := ofSr a, dst := ofKr d }
  | .ktos c d a => encR c Pred.none 26 9 { imm := 0, mod := 0, sc := 0, sb := 0, sa := ofKr a, dst := ofSr d }
  | .region c d a => encR c Pred.none 34 0 { imm := 0, mod := 0, sc := 0, sb := 0, sa := ofSr a, dst := d }
  | .rcommit c => encR c Pred.none 34 1 { imm := 0, mod := 0, sc := 0, sb := 0, sa := 0, dst := 0 }
  | .rabort c => encR c Pred.none 34 2 { imm := 0, mod := 0, sc := 0, sb := 0, sa := 0, dst := 0 }
  | .join c d n => encR c Pred.none 36 0 { imm := n.setWidth 18, mod := 0, sc := 0, sb := 0, sa := 0, dst := ofSr d }
  | .leave c => encR c Pred.none 36 1 { imm := 0, mod := 0, sc := 0, sb := 0, sa := 0, dst := 0 }
  | .bar c => encR c Pred.none 36 2 { imm := 0, mod := 0, sc := 0, sb := 0, sa := 0, dst := 0 }
  | .bara c => encR c Pred.none 36 3 { imm := 0, mod := 0, sc := 0, sb := 0, sa := 0, dst := 0 }
  | .barw c => encR c Pred.none 36 4 { imm := 0, mod := 0, sc := 0, sb := 0, sa := 0, dst := 0 }
  | .rquota c d n => encR c Pred.none 36 5 { imm := n, mod := 0, sc := 0, sb := 0, sa := 0, dst := ofSr d }
  | .sld c d m => encR c Pred.none 13 0 (m.toR (ofSr d) (0))
  | .sst c d m => encR c Pred.none 13 1 (m.toR (ofSr d) (0))
  | .vld c p d m => encR c p 40 0 (m.toR (d) (0))
  | .vst c p d m => encR c p 40 1 (m.toR (d) (0))
  | .vldc c p d ver m => encR c p 40 2 (m.toR (d) (ofSr ver))
  | .vstc c p d ver m => encR c p 40 3 (m.toR (d) (ofSr ver))
  | .ldacq c p d sx m => encR c p 40 4 (m.toR sx (d) (0))
  | .strel c p d m => encR c p 40 5 (m.toR false (d) (0))
  | .prefetch c p m => encR c p 40 6 (m.toR (0) (0))
  | .cflush c p m => encR c p 40 7 (m.toR (0) (0))
  | .fenceAcq c o => encR c Pred.none 43 0 { imm := o ++ 0#15, mod := 0, sc := 0, sb := 0, sa := 0, dst := 0 }
  | .fenceRel c o => encR c Pred.none 43 1 { imm := o ++ 0#15, mod := 0, sc := 0, sb := 0, sa := 0, dst := 0 }
  | .fenceAcqrel c o => encR c Pred.none 43 2 { imm := o ++ 0#15, mod := 0, sc := 0, sb := 0, sa := 0, dst := 0 }
  | .fenceSc c o => encR c Pred.none 43 3 { imm := o ++ 0#15, mod := 0, sc := 0, sb := 0, sa := 0, dst := 0 }
  | .stashMap c d a b n => encR c Pred.none 44 0 { imm := n, mod := 0, sc := ofSr b, sb := 0xFF, sa := ofSr a, dst := ofSr d }
  | .stashUnmap c d b => encR c Pred.none 44 1 { imm := 0, mod := 0, sc := ofSr b, sb := 0xFF, sa := 0, dst := ofSr d }
  | .stashFlush c d b => encR c Pred.none 44 2 { imm := 0, mod := 0, sc := ofSr b, sb := 0xFF, sa := 0, dst := ofSr d }
  | .stashInval c d b => encR c Pred.none 44 3 { imm := 0, mod := 0, sc := ofSr b, sb := 0xFF, sa := 0, dst := ofSr d }
  | .mclaim c d a => encR c Pred.none 64 0 { imm := 0, mod := 0, sc := 0, sb := 0, sa := ofSr a, dst := ofSr d }
  | .mtry c d a => encR c Pred.none 64 1 { imm := 0, mod := 0, sc := 0, sb := 0, sa := ofSr a, dst := ofSr d }
  | .mrel c a => encR c Pred.none 64 2 { imm := 0, mod := 0, sc := 0, sb := 0, sa := ofSr a, dst := 0 }
  | .mload c u a b e => encR c Pred.none 64 3 { imm := 0, mod := (BitVec.ofBool u).setWidth 8, sc := ofSr e, sb := ofSr b, sa := ofSr a, dst := 0 }
  | .mzero c a => encR c Pred.none 64 4 { imm := 0, mod := 0, sc := 0, sb := 0, sa := ofSr a, dst := 0 }
  | .mmac c a => encR c Pred.none 64 5 { imm := 0, mod := 0, sc := 0, sb := 0, sa := ofSr a, dst := 0 }
  | .mloop c d a => encR c Pred.none 64 6 { imm := 0, mod := 0, sc := 0, sb := 0, sa := ofSr a, dst := ofSr d }
  | .maccrd c o x y d a => encR c Pred.none 64 7 { imm := 0#8 ++ y ++ x, mod := o.setWidth 8, sc := 0, sb := 0, sa := ofSr a, dst := d }
  | .maccwr c o x y d a => encR c Pred.none 64 8 { imm := 0#8 ++ y ++ x, mod := o.setWidth 8, sc := 0, sb := 0, sa := ofSr a, dst := d }
  | .mstore c h r u o a b e => encR c Pred.none 64 9 { imm := 0, mod := 0#3 ++ BitVec.ofBool h ++ BitVec.ofBool r ++ BitVec.ofBool u ++ o, sc := ofSr e, sb := ofSr b, sa := ofSr a, dst := 0 }
  | .mdrain c u d a b e => encR c Pred.none 64 10 { imm := 0, mod := (BitVec.ofBool u).setWidth 8, sc := ofSr e, sb := ofSr b, sa := ofSr a, dst := ofSr d }
  | .mstate c d a => encR c Pred.none 64 11 { imm := 0, mod := 0, sc := 0, sb := 0, sa := ofSr a, dst := ofSr d }
  | .qbind c d q b => encR c Pred.none 72 0 { imm := 0, mod := 0, sc := 0, sb := ofSr b, sa := ofKr q, dst := ofSr d }
  | .qpush c d q b n => encR c Pred.none 72 1 { imm := n.setWidth 18, mod := 0, sc := 0, sb := ofSr b, sa := ofKr q, dst := ofSr d }
  | .qpop c d q => encR c Pred.none 72 2 { imm := 0, mod := 0, sc := 0, sb := 0, sa := ofKr q, dst := ofSr d }
  | .qtry c d q => encR c Pred.none 72 3 { imm := 0, mod := 0, sc := 0, sb := 0, sa := ofKr q, dst := ofSr d }
  | .tlwait c q b => encR c Pred.none 72 4 { imm := 0, mod := 0, sc := 0, sb := ofSr b, sa := ofKr q, dst := 0 }
  | .tlread c d q => encR c Pred.none 72 5 { imm := 0, mod := 0, sc := 0, sb := 0, sa := ofKr q, dst := ofSr d }
  | .gnew c d a b => encR c Pred.none 80 0 { imm := 0, mod := 0, sc := 0, sb := ofSr b, sa := ofSr a, dst := ofSr d }
  | .gfree c d a => encR c Pred.none 80 1 { imm := 0, mod := 0, sc := 0, sb := 0, sa := ofSr a, dst := ofSr d }
  | .gpub c u g d a b => encR c Pred.none 80 2 { imm := g.setWidth 18, mod := (BitVec.ofBool u).setWidth 8, sc := 0, sb := ofSr b, sa := ofSr a, dst := ofSr d }
  | .gprom c g d a b => encR c Pred.none 80 3 { imm := g.setWidth 18, mod := 0, sc := 0, sb := ofSr b, sa := ofSr a, dst := ofSr d }
  | .gqry c d a => encR c Pred.none 80 4 { imm := 0, mod := 0, sc := 0, sb := 0, sa := ofSr a, dst := ofSr d }
  | .tspawn c p u r d a b => encR c p 80 5 { imm := 0, mod := (BitVec.ofBool r ++ BitVec.ofBool u).setWidth 8, sc := 0, sb := b, sa := ofSr a, dst := ofSr d }
  | .rstv c p u r o d a b e => encR c p 84 0 { imm := o ++ 0#15, mod := (BitVec.ofBool r ++ BitVec.ofBool u).setWidth 8, sc := ofSr e, sb := b, sa := ofSr a, dst := d }
  | .hold c u d x n => encR c Pred.none 84 1 { imm := 0#8 ++ n ++ x, mod := (BitVec.ofBool u).setWidth 8, sc := 0, sb := 0, sa := 0, dst := d }
  | .regroup c p d a b n => encR c p 84 2 { imm := n.setWidth 18, mod := 0, sc := 0, sb := b, sa := a, dst := d }
  | .collPut c p d a o b e n => encR c p 88 0 { imm := 4#3 ++ n, mod := modM 0 o false 2, sc := e, sb := b, sa := ofSr a, dst := d }
  | .collGet c p d a o b e n => encR c p 88 1 { imm := 4#3 ++ n, mod := modM 0 o false 2, sc := e, sb := b, sa := ofSr a, dst := d }
  | .collRaddF32 c p d a o b e n => encR c p 88 2 { imm := 4#3 ++ n, mod := modM 0 o false 2, sc := e, sb := b, sa := ofSr a, dst := d }
  | .collRaddBf16 c p d a o b e n => encR c p 88 3 { imm := 4#3 ++ n, mod := modM 0 o false 2, sc := e, sb := b, sa := ofSr a, dst := d }
  | .collRmaxF32 c p d a o b e n => encR c p 88 4 { imm := 4#3 ++ n, mod := modM 0 o false 2, sc := e, sb := b, sa := ofSr a, dst := d }
  | .collRaddI32 c p d a o b e n => encR c p 88 5 { imm := 4#3 ++ n, mod := modM 0 o false 2, sc := e, sb := b, sa := ofSr a, dst := d }
  | .confx c p u k a b e n => encR c p 92 0 { imm := n.setWidth 18, mod := (BitVec.ofBool u).setWidth 8, sc := e, sb := ofSr b, sa := a, dst := ofKr k }
  | .accept c p u k a b n => encR c p 92 1 { imm := n.setWidth 18, mod := (BitVec.ofBool u).setWidth 8, sc := 0, sb := ofSr b, sa := a, dst := ofKr k }
  | .apport c p d a b => encR c p 92 2 { imm := 0, mod := 0, sc := 0, sb := ofSr b, sa := a, dst := d }
  | .vrand c p u d a b => encR c p 92 3 { imm := 0, mod := (BitVec.ofBool u).setWidth 8, sc := 0, sb := ofSr b, sa := a, dst := d }
  | .salui c fn d a imm => encR c Pred.none 9 fn.code { imm := imm, mod := 0, sc := 0, sb := 0, sa := ofSr a, dst := ofSr d }
  | .scmp c cond k a b => encR c Pred.none 0xA cond.code { imm := 0, mod := 0, sc := 0, sb := ofSr b, sa := ofSr a, dst := ofKr k }
  | .scmpi c cond k a imm => encR c Pred.none 0xB cond.code { imm := imm, mod := 0, sc := 0, sb := 0, sa := ofSr a, dst := ofKr k }
  | .valui c p fn u w d a imm => encR c p 0x11 fn.code { imm := imm, mod := 0#5 ++ BitVec.ofBool u ++ w, sc := 0, sb := 0, sa := a, dst := d }
  | .vcmp c p cond w k a b => encR c p 0x12 cond.code { imm := 0, mod := w.setWidth 8, sc := 0, sb := b, sa := a, dst := ofKr k }
  | .vcmpi c p cond w k a imm => encR c p 0x13 cond.code { imm := imm, mod := w.setWidth 8, sc := 0, sb := 0, sa := a, dst := ofKr k }
  | .vfcmp c p cond w k a b => encR c p 0x15 cond.code { imm := 0, mod := w.setWidth 8, sc := 0, sb := b, sa := a, dst := ofKr k }
  | .vcvt c p sat dt st r pos d a b => encR c p 0x16 (BitVec.ofBool sat ++ dt).toNat { imm := pos.setWidth 18, mod := st ++ r ++ 0#2, sc := 0, sb := ofSr b, sa := a, dst := d }
  | .vatom c p fn d cmp m => encR c p 0x29 fn.code (m.toR false d cmp)
  | .satom c fn d cmp m => encR c Pred.none 0x2A fn.code (m.toR false (ofSr d) (ofSr cmp))
  | .bra c mode k t => encB c 0 { r := BTgt.zero, t := t, sa := 0, mode := mode, kc := k }
  | .brx c clear k t r => encB c 1 { r := r, t := t, sa := 0, mode := if clear then 2 else 0, kc := k }
  | .jmp c (.direct t) => encB c 2 { r := BTgt.zero, t := t, sa := 0, mode := 3, kc := 0 }
  | .jmp c (.indirect a) => encB c 2 { r := BTgt.zero, t := BTgt.zero, sa := ofSr a, mode := 3, kc := 1 }
  | .call c (.direct t) => encB c 3 { r := BTgt.zero, t := t, sa := 0, mode := 3, kc := 0 }
  | .call c (.indirect a) => encB c 3 { r := BTgt.zero, t := BTgt.zero, sa := ofSr a, mode := 3, kc := 1 }
  | .ret c a => encB c 4 { r := BTgt.zero, t := BTgt.zero, sa := ofSr a, mode := 3, kc := 0 }
  | _ => none

/-! ### The decoder -/

def decMisc (c : Ctl) (_p : Pred) (fn : Nat) (f : FmtR) : Except Reject Instr :=
  match fn with
  | 1 => .ok (.nop c )
  | 2 => .ok (.pause c f.imm)
  | 3 => .ok (.waitf c (f.imm.extractLsb' 0 12) (f.imm.extractLsb' 12 6))
  | 4 => .ok (.exit c )
  | 5 => .ok (.trap c (f.imm.extractLsb' 0 16))
  | 6 => .ok (.brk c (f.imm.extractLsb' 0 16))
  | 7 => .ok (.sget c (f.imm.extractLsb' 0 4) f.dst)
  | 8 => .ok (.setfmt c (f.imm.extractLsb' 0 16))
  | 9 => .ok (.getfmt c (srOf f.dst))
  | 10 => .ok (.setexec c (krOf f.sa))
  | 11 => .ok (.getexec c (krOf f.dst))
  | 12 => .ok (.sset c (f.imm.extractLsb' 0 4) (srOf f.sa))
  | _ => .error .function

def decSys (c : Ctl) (_p : Pred) (fn : Nat) (f : FmtR) : Except Reject Instr :=
  match fn with
  | 0 => .ok (.eret c )
  | 1 => .ok (.sysget c (f.imm.extractLsb' 0 12) f.dst)
  | 2 => .ok (.sysset c (f.imm.extractLsb' 0 12) f.sa)
  | 3 => .ok (.tlbinv c (srOf f.sa) (srOf f.sb))
  | 4 => .ok (.kill c (f.imm.extractLsb' 0 16))
  | 5 => .ok (.idle c (srOf f.sa))
  | 6 => .ok (.pgpool c (srOf f.dst) (srOf f.sa))
  | _ => .error .function

def decSalu (c : Ctl) (_p : Pred) (fn : Nat) (f : FmtR) : Except Reject Instr :=
  match fn with
  | 0 => .ok (.sadd c (srOf f.dst) (srOf f.sa) (srOf f.sb))
  | 1 => .ok (.ssub c (srOf f.dst) (srOf f.sa) (srOf f.sb))
  | 2 => .ok (.smul c (srOf f.dst) (srOf f.sa) (srOf f.sb))
  | 3 => .ok (.smulhi c (srOf f.dst) (srOf f.sa) (srOf f.sb))
  | 4 => .ok (.smulhu c (srOf f.dst) (srOf f.sa) (srOf f.sb))
  | 5 => .ok (.sdiv c (srOf f.dst) (srOf f.sa) (srOf f.sb))
  | 6 => .ok (.sdivu c (srOf f.dst) (srOf f.sa) (srOf f.sb))
  | 7 => .ok (.srem c (srOf f.dst) (srOf f.sa) (srOf f.sb))
  | 8 => .ok (.sremu c (srOf f.dst) (srOf f.sa) (srOf f.sb))
  | 9 => .ok (.sand c (srOf f.dst) (srOf f.sa) (srOf f.sb))
  | 10 => .ok (.sor c (srOf f.dst) (srOf f.sa) (srOf f.sb))
  | 11 => .ok (.sxor c (srOf f.dst) (srOf f.sa) (srOf f.sb))
  | 12 => .ok (.sandn c (srOf f.dst) (srOf f.sa) (srOf f.sb))
  | 13 => .ok (.sshl c (srOf f.dst) (srOf f.sa) (srOf f.sb))
  | 14 => .ok (.sshr c (srOf f.dst) (srOf f.sa) (srOf f.sb))
  | 15 => .ok (.ssar c (srOf f.dst) (srOf f.sa) (srOf f.sb))
  | 16 => .ok (.smin c (srOf f.dst) (srOf f.sa) (srOf f.sb))
  | 17 => .ok (.smax c (srOf f.dst) (srOf f.sa) (srOf f.sb))
  | 18 => .ok (.sminu c (srOf f.dst) (srOf f.sa) (srOf f.sb))
  | 19 => .ok (.smaxu c (srOf f.dst) (srOf f.sa) (srOf f.sb))
  | 20 => .ok (.spopc c (srOf f.dst) (srOf f.sa))
  | 21 => .ok (.sclz c (srOf f.dst) (srOf f.sa))
  | 22 => .ok (.sctz c (srOf f.dst) (srOf f.sa))
  | 23 => .ok (.smov c (srOf f.dst) (srOf f.sa))
  | 24 => .ok (.ssel c (srOf f.dst) (srOf f.sa) (srOf f.sb) (krOf f.sc))
  | _ => .error .function

def decMovi (c : Ctl) (fn : Nat) (b : BitVec 58) : Except Reject Instr :=
  match fn with
  | 0 => .ok (.smovi c (srOf (b.extractLsb' 0 8)) (b.extractLsb' 24 32))
  | 1 => .ok (.smoviz c (srOf (b.extractLsb' 0 8)) (b.extractLsb' 24 32))
  | 2 => .ok (.smovhi c (srOf (b.extractLsb' 0 8)) (b.extractLsb' 24 32))
  | _ => .error .function

def decValu (c : Ctl) (p : Pred) (fn : Nat) (f : FmtR) : Except Reject Instr :=
  match fn with
  | 0 => .ok (.vadd c p (f.mod.extractLsb' 0 2) f.dst f.sa f.sb)
  | 1 => .ok (.vsub c p (f.mod.extractLsb' 0 2) f.dst f.sa f.sb)
  | 2 => .ok (.vmul c p (f.mod.extractLsb' 0 2) f.dst f.sa f.sb)
  | 3 => .ok (.vmulhi c p (f.mod.extractLsb' 0 2) f.dst f.sa f.sb)
  | 4 => .ok (.vmulhu c p (f.mod.extractLsb' 0 2) f.dst f.sa f.sb)
  | 5 => .ok (.vmad c p (f.mod.extractLsb' 0 2) f.dst f.sa f.sb f.sc)
  | 6 => .ok (.vdiv c p (f.mod.extractLsb' 0 2) f.dst f.sa f.sb)
  | 7 => .ok (.vdivu c p (f.mod.extractLsb' 0 2) f.dst f.sa f.sb)
  | 8 => .ok (.vrem c p (f.mod.extractLsb' 0 2) f.dst f.sa f.sb)
  | 9 => .ok (.vremu c p (f.mod.extractLsb' 0 2) f.dst f.sa f.sb)
  | 10 => .ok (.vand c p (f.mod.extractLsb' 0 2) f.dst f.sa f.sb)
  | 11 => .ok (.vor c p (f.mod.extractLsb' 0 2) f.dst f.sa f.sb)
  | 12 => .ok (.vxor c p (f.mod.extractLsb' 0 2) f.dst f.sa f.sb)
  | 13 => .ok (.vandn c p (f.mod.extractLsb' 0 2) f.dst f.sa f.sb)
  | 14 => .ok (.vshl c p (f.mod.extractLsb' 0 2) f.dst f.sa f.sb)
  | 15 => .ok (.vshr c p (f.mod.extractLsb' 0 2) f.dst f.sa f.sb)
  | 16 => .ok (.vsar c p (f.mod.extractLsb' 0 2) f.dst f.sa f.sb)
  | 17 => .ok (.vmin c p (f.mod.extractLsb' 0 2) f.dst f.sa f.sb)
  | 18 => .ok (.vmax c p (f.mod.extractLsb' 0 2) f.dst f.sa f.sb)
  | 19 => .ok (.vminu c p (f.mod.extractLsb' 0 2) f.dst f.sa f.sb)
  | 20 => .ok (.vmaxu c p (f.mod.extractLsb' 0 2) f.dst f.sa f.sb)
  | 21 => .ok (.vabs c p (f.mod.extractLsb' 0 2) f.dst f.sa)
  | 22 => .ok (.vneg c p (f.mod.extractLsb' 0 2) f.dst f.sa)
  | 23 => .ok (.vpopc c p (f.mod.extractLsb' 0 2) f.dst f.sa)
  | 24 => .ok (.vclz c p (f.mod.extractLsb' 0 2) f.dst f.sa)
  | 25 => .ok (.vadds c p (f.mod.getLsbD 2) (f.mod.extractLsb' 0 2) f.dst f.sa f.sb)
  | 26 => .ok (.vsubs c p (f.mod.getLsbD 2) (f.mod.extractLsb' 0 2) f.dst f.sa f.sb)
  | 27 => .ok (.vsel c p (f.mod.extractLsb' 0 2) f.dst f.sa f.sb (krOf f.sc))
  | 28 => .ok (.vmov c p (f.mod.extractLsb' 0 2) f.dst f.sa)
  | 29 => .ok (.vfroms c p (f.mod.extractLsb' 0 2) f.dst (srOf f.sa))
  | 30 => .ok (.sfromv c p (f.mod.extractLsb' 0 2) (srOf f.dst) f.sa (srOf f.sb))
  | _ => .error .function

def decVfpu (c : Ctl) (p : Pred) (fn : Nat) (f : FmtR) : Except Reject Instr :=
  match fn with
  | 0 => .ok (.vfadd c p (f.mod.extractLsb' 2 2) (f.mod.extractLsb' 0 2) f.dst f.sa f.sb)
  | 1 => .ok (.vfsub c p (f.mod.extractLsb' 2 2) (f.mod.extractLsb' 0 2) f.dst f.sa f.sb)
  | 2 => .ok (.vfmul c p (f.mod.extractLsb' 2 2) (f.mod.extractLsb' 0 2) f.dst f.sa f.sb)
  | 3 => .ok (.vfma c p (f.mod.extractLsb' 2 2) (f.mod.extractLsb' 0 2) f.dst f.sa f.sb f.sc)
  | 4 => .ok (.vfms c p (f.mod.extractLsb' 2 2) (f.mod.extractLsb' 0 2) f.dst f.sa f.sb f.sc)
  | 5 => .ok (.vfnma c p (f.mod.extractLsb' 2 2) (f.mod.extractLsb' 0 2) f.dst f.sa f.sb f.sc)
  | 6 => .ok (.vfmin c p (f.mod.extractLsb' 0 2) f.dst f.sa f.sb)
  | 7 => .ok (.vfmax c p (f.mod.extractLsb' 0 2) f.dst f.sa f.sb)
  | 8 => .ok (.vfdiv c p (f.mod.extractLsb' 2 2) (f.mod.extractLsb' 0 2) f.dst f.sa f.sb)
  | 9 => .ok (.vfsqrt c p (f.mod.extractLsb' 2 2) (f.mod.extractLsb' 0 2) f.dst f.sa)
  | 10 => .ok (.vfrcp c p (f.mod.extractLsb' 2 2) (f.mod.extractLsb' 0 2) f.dst f.sa)
  | 11 => .ok (.vfrsq c p (f.mod.extractLsb' 2 2) (f.mod.extractLsb' 0 2) f.dst f.sa)
  | 12 => .ok (.vfexp2 c p (f.mod.extractLsb' 2 2) (f.mod.extractLsb' 0 2) f.dst f.sa)
  | 13 => .ok (.vflog2 c p (f.mod.extractLsb' 2 2) (f.mod.extractLsb' 0 2) f.dst f.sa)
  | 14 => .ok (.vfabs c p (f.mod.extractLsb' 0 2) f.dst f.sa)
  | 15 => .ok (.vfneg c p (f.mod.extractLsb' 0 2) f.dst f.sa)
  | 16 => .ok (.vfclass c p (f.mod.extractLsb' 0 2) f.dst f.sa)
  | 17 => .ok (.vfscale c p (f.mod.extractLsb' 2 2) (f.mod.extractLsb' 0 2) f.dst f.sa f.sb)
  | 18 => .ok (.vfrint c p (f.mod.extractLsb' 2 2) (f.mod.extractLsb' 0 2) f.dst f.sa)
  | _ => .error .function

def decLane (c : Ctl) (p : Pred) (fn : Nat) (f : FmtR) : Except Reject Instr :=
  match fn with
  | 0 => .ok (.vshuf c p (f.mod.extractLsb' 0 2) f.dst f.sa f.sb)
  | 1 => .ok (.vbcast c p (f.mod.extractLsb' 0 2) f.dst f.sa (srOf f.sb))
  | 2 => .ok (.vrot c p (f.mod.extractLsb' 0 2) f.dst f.sa (f.imm.extractLsb' 0 5))
  | 3 => .ok (.vreduce c p (f.mod.extractLsb' 5 2) (f.mod.extractLsb' 2 3) (f.mod.extractLsb' 0 2) (srOf f.dst) f.sa)
  | 4 => .ok (.vscan c p (f.mod.extractLsb' 5 2) (f.mod.extractLsb' 2 3) (f.mod.extractLsb' 0 2) f.dst f.sa)
  | 5 => .ok (.vmatch c p (f.mod.extractLsb' 0 2) f.dst f.sa)
  | _ => .error .function

def decKop (c : Ctl) (_p : Pred) (fn : Nat) (f : FmtR) : Except Reject Instr :=
  match fn with
  | 0 => .ok (.kand c (krOf f.dst) (krOf f.sa) (krOf f.sb))
  | 1 => .ok (.kor c (krOf f.dst) (krOf f.sa) (krOf f.sb))
  | 2 => .ok (.kxor c (krOf f.dst) (krOf f.sa) (krOf f.sb))
  | 3 => .ok (.kandn c (krOf f.dst) (krOf f.sa) (krOf f.sb))
  | 4 => .ok (.knot c (krOf f.dst) (krOf f.sa))
  | 5 => .ok (.kmov c (krOf f.dst) (krOf f.sa))
  | 6 => .ok (.kpopc c (srOf f.dst) (krOf f.sa))
  | 7 => .ok (.kffs c (srOf f.dst) (krOf f.sa))
  | 8 => .ok (.kfroms c (krOf f.dst) (srOf f.sa))
  | 9 => .ok (.ktos c (srOf f.dst) (krOf f.sa))
  | _ => .error .function

def decRegn (c : Ctl) (_p : Pred) (fn : Nat) (f : FmtR) : Except Reject Instr :=
  match fn with
  | 0 => .ok (.region c f.dst (srOf f.sa))
  | 1 => .ok (.rcommit c )
  | 2 => .ok (.rabort c )
  | _ => .error .function

def decCoh (c : Ctl) (_p : Pred) (fn : Nat) (f : FmtR) : Except Reject Instr :=
  match fn with
  | 0 => .ok (.join c (srOf f.dst) (f.imm.extractLsb' 0 4))
  | 1 => .ok (.leave c )
  | 2 => .ok (.bar c )
  | 3 => .ok (.bara c )
  | 4 => .ok (.barw c )
  | 5 => .ok (.rquota c (srOf f.dst) f.imm)
  | _ => .error .function

def decSmem (c : Ctl) (_p : Pred) (fn : Nat) (f : FmtR) : Except Reject Instr :=
  match fn with
  | 0 => .ok (.sld c (srOf f.dst) (MemOp.ofR f))
  | 1 => .ok (.sst c (srOf f.dst) (MemOp.ofR f))
  | _ => .error .function

def decVmem (c : Ctl) (p : Pred) (fn : Nat) (f : FmtR) : Except Reject Instr :=
  match fn with
  | 0 => .ok (.vld c p f.dst (MemOp.ofR f))
  | 1 => .ok (.vst c p f.dst (MemOp.ofR f))
  | 2 => .ok (.vldc c p f.dst (srOf f.sc) (MemOp.ofR f))
  | 3 => .ok (.vstc c p f.dst (srOf f.sc) (MemOp.ofR f))
  | 4 => .ok (.ldacq c p f.dst (f.mod.getLsbD 3) (ScopedOp.ofR f))
  | 5 => .ok (.strel c p f.dst (ScopedOp.ofR f))
  | 6 => .ok (.prefetch c p (MemOp.ofR f))
  | 7 => .ok (.cflush c p (MemOp.ofR f))
  | _ => .error .function

def decFence (c : Ctl) (_p : Pred) (fn : Nat) (f : FmtR) : Except Reject Instr :=
  match fn with
  | 0 => .ok (.fenceAcq c (f.imm.extractLsb' 15 3))
  | 1 => .ok (.fenceRel c (f.imm.extractLsb' 15 3))
  | 2 => .ok (.fenceAcqrel c (f.imm.extractLsb' 15 3))
  | 3 => .ok (.fenceSc c (f.imm.extractLsb' 15 3))
  | _ => .error .function

def decStash (c : Ctl) (_p : Pred) (fn : Nat) (f : FmtR) : Except Reject Instr :=
  match fn with
  | 0 => .ok (.stashMap c (srOf f.dst) (srOf f.sa) (srOf f.sc) f.imm)
  | 1 => .ok (.stashUnmap c (srOf f.dst) (srOf f.sc))
  | 2 => .ok (.stashFlush c (srOf f.dst) (srOf f.sc))
  | 3 => .ok (.stashInval c (srOf f.dst) (srOf f.sc))
  | _ => .error .function

def decMtx (c : Ctl) (_p : Pred) (fn : Nat) (f : FmtR) : Except Reject Instr :=
  match fn with
  | 0 => .ok (.mclaim c (srOf f.dst) (srOf f.sa))
  | 1 => .ok (.mtry c (srOf f.dst) (srOf f.sa))
  | 2 => .ok (.mrel c (srOf f.sa))
  | 3 => .ok (.mload c (f.mod.getLsbD 0) (srOf f.sa) (srOf f.sb) (srOf f.sc))
  | 4 => .ok (.mzero c (srOf f.sa))
  | 5 => .ok (.mmac c (srOf f.sa))
  | 6 => .ok (.mloop c (srOf f.dst) (srOf f.sa))
  | 7 => .ok (.maccrd c (f.mod.extractLsb' 0 2) (f.imm.extractLsb' 0 5) (f.imm.extractLsb' 5 5) f.dst (srOf f.sa))
  | 8 => .ok (.maccwr c (f.mod.extractLsb' 0 2) (f.imm.extractLsb' 0 5) (f.imm.extractLsb' 5 5) f.dst (srOf f.sa))
  | 9 => .ok (.mstore c (f.mod.getLsbD 4) (f.mod.getLsbD 3) (f.mod.getLsbD 2) (f.mod.extractLsb' 0 2) (srOf f.sa) (srOf f.sb) (srOf f.sc))
  | 10 => .ok (.mdrain c (f.mod.getLsbD 0) (srOf f.dst) (srOf f.sa) (srOf f.sb) (srOf f.sc))
  | 11 => .ok (.mstate c (srOf f.dst) (srOf f.sa))
  | _ => .error .function

def decQeng (c : Ctl) (_p : Pred) (fn : Nat) (f : FmtR) : Except Reject Instr :=
  match fn with
  | 0 => .ok (.qbind c (srOf f.dst) (krOf f.sa) (srOf f.sb))
  | 1 => .ok (.qpush c (srOf f.dst) (krOf f.sa) (srOf f.sb) (f.imm.extractLsb' 0 3))
  | 2 => .ok (.qpop c (srOf f.dst) (krOf f.sa))
  | 3 => .ok (.qtry c (srOf f.dst) (krOf f.sa))
  | 4 => .ok (.tlwait c (krOf f.sa) (srOf f.sb))
  | 5 => .ok (.tlread c (srOf f.dst) (krOf f.sa))
  | _ => .error .function

def decGrd (c : Ctl) (p : Pred) (fn : Nat) (f : FmtR) : Except Reject Instr :=
  match fn with
  | 0 => .ok (.gnew c (srOf f.dst) (srOf f.sa) (srOf f.sb))
  | 1 => .ok (.gfree c (srOf f.dst) (srOf f.sa))
  | 2 => .ok (.gpub c (f.mod.getLsbD 0) (f.imm.extractLsb' 0 2) (srOf f.dst) (srOf f.sa) (srOf f.sb))
  | 3 => .ok (.gprom c (f.imm.extractLsb' 0 2) (srOf f.dst) (srOf f.sa) (srOf f.sb))
  | 4 => .ok (.gqry c (srOf f.dst) (srOf f.sa))
  | 5 => .ok (.tspawn c p (f.mod.getLsbD 0) (f.mod.getLsbD 1) (srOf f.dst) (srOf f.sa) f.sb)
  | _ => .error .function

def decNamed (c : Ctl) (p : Pred) (fn : Nat) (f : FmtR) : Except Reject Instr :=
  match fn with
  | 0 => .ok (.rstv c p (f.mod.getLsbD 0) (f.mod.getLsbD 1) (f.imm.extractLsb' 15 3) f.dst (srOf f.sa) f.sb (srOf f.sc))
  | 1 => .ok (.hold c (f.mod.getLsbD 0) f.dst (f.imm.extractLsb' 0 4) (f.imm.extractLsb' 4 6))
  | 2 => .ok (.regroup c p f.dst f.sa f.sb (f.imm.extractLsb' 0 6))
  | _ => .error .function

def decColl (c : Ctl) (p : Pred) (fn : Nat) (f : FmtR) : Except Reject Instr :=
  match fn with
  | 0 => .ok (.collPut c p f.dst (srOf f.sa) (f.mod.extractLsb' 4 2) f.sb f.sc (f.imm.extractLsb' 0 15))
  | 1 => .ok (.collGet c p f.dst (srOf f.sa) (f.mod.extractLsb' 4 2) f.sb f.sc (f.imm.extractLsb' 0 15))
  | 2 => .ok (.collRaddF32 c p f.dst (srOf f.sa) (f.mod.extractLsb' 4 2) f.sb f.sc (f.imm.extractLsb' 0 15))
  | 3 => .ok (.collRaddBf16 c p f.dst (srOf f.sa) (f.mod.extractLsb' 4 2) f.sb f.sc (f.imm.extractLsb' 0 15))
  | 4 => .ok (.collRmaxF32 c p f.dst (srOf f.sa) (f.mod.extractLsb' 4 2) f.sb f.sc (f.imm.extractLsb' 0 15))
  | 5 => .ok (.collRaddI32 c p f.dst (srOf f.sa) (f.mod.extractLsb' 4 2) f.sb f.sc (f.imm.extractLsb' 0 15))
  | _ => .error .function

def decInfer (c : Ctl) (p : Pred) (fn : Nat) (f : FmtR) : Except Reject Instr :=
  match fn with
  | 0 => .ok (.confx c p (f.mod.getLsbD 0) (krOf f.dst) f.sa (srOf f.sb) f.sc (f.imm.extractLsb' 0 4))
  | 1 => .ok (.accept c p (f.mod.getLsbD 0) (krOf f.dst) f.sa (srOf f.sb) (f.imm.extractLsb' 0 4))
  | 2 => .ok (.apport c p f.dst f.sa (srOf f.sb))
  | 3 => .ok (.vrand c p (f.mod.getLsbD 0) f.dst f.sa (srOf f.sb))
  | _ => .error .function

/-- A function named by number, or no instruction (R166). -/
def byCode {α : Type} (o : Option α) (k : α → Instr) : Except Reject Instr :=
  match o with
  | some x => .ok (k x)
  | none => .error .function

def decJtgt (f : FmtB) : JTgt := if f.kc == 0 then .direct f.t else .indirect (srOf f.sa)

def decBr (c : Ctl) (fn : Nat) (f : FmtB) : Except Reject Instr :=
  match fn with
  | 0 => .ok (.bra c f.mode f.kc f.t)
  | 1 => .ok (.brx c (f.mode == 2) f.kc f.t f.r)
  | 2 => .ok (.jmp c (decJtgt f))
  | 3 => .ok (.call c (decJtgt f))
  | 4 => .ok (.ret c (srOf f.sa))
  | _ => .error .function

/-- The instruction that the major opcode, the function and the fields name (Table 07.5). -/
def decFields (w : Word96) : Except Reject Instr :=
  let f := FmtR.ofBody w.body
  let fn := w.fn.toNat
  match w.opc.toNat with
  | 0x00 => decMisc w.c w.p fn f
  | 0x01 => decSys w.c w.p fn f
  | 0x08 => decSalu w.c w.p fn f
  | 0x09 => byCode (SFn.ofCode fn) fun x => .salui w.c x (srOf f.dst) (srOf f.sa) f.imm
  | 0x0A => byCode (ICond.ofCode fn) fun x => .scmp w.c x (krOf f.dst) (srOf f.sa) (srOf f.sb)
  | 0x0B => byCode (ICond.ofCode fn) fun x => .scmpi w.c x (krOf f.dst) (srOf f.sa) f.imm
  | 0x0C => decMovi w.c fn w.body
  | 0x0D => decSmem w.c w.p fn f
  | 0x10 => decValu w.c w.p fn f
  | 0x11 => byCode (VFn.ofCode fn) fun x => .valui w.c w.p x (f.mod.getLsbD 2) (f.mod.extractLsb' 0 2) f.dst f.sa f.imm
  | 0x12 => byCode (ICond.ofCode fn) fun x => .vcmp w.c w.p x (f.mod.extractLsb' 0 2) (krOf f.dst) f.sa f.sb
  | 0x13 => byCode (ICond.ofCode fn) fun x => .vcmpi w.c w.p x (f.mod.extractLsb' 0 2) (krOf f.dst) f.sa f.imm
  | 0x14 => decVfpu w.c w.p fn f
  | 0x15 => byCode (FCond.ofCode fn) fun x => .vfcmp w.c w.p x (f.mod.extractLsb' 0 2) (krOf f.dst) f.sa f.sb
  | 0x16 => .ok (.vcvt w.c w.p (w.fn.getLsbD 4) (w.fn.extractLsb' 0 4) (f.mod.extractLsb' 4 4) (f.mod.extractLsb' 2 2)
      (f.imm.extractLsb' 0 3) f.dst f.sa (srOf f.sb))
  | 0x18 => decLane w.c w.p fn f
  | 0x1A => decKop w.c w.p fn f
  | 0x20 => decBr w.c fn (FmtB.ofBody w.body)
  | 0x22 => decRegn w.c w.p fn f
  | 0x24 => decCoh w.c w.p fn f
  | 0x28 => decVmem w.c w.p fn f
  | 0x29 => byCode (AFn.ofCode fn) fun x => .vatom w.c w.p x f.dst f.sc (ScopedOp.ofR f)
  | 0x2A => byCode (AFn.ofCode fn) fun x => .satom w.c x (srOf f.dst) (srOf f.sc) (ScopedOp.ofR f)
  | 0x2B => decFence w.c w.p fn f
  | 0x2C => decStash w.c w.p fn f
  | 0x40 => decMtx w.c w.p fn f
  | 0x48 => decQeng w.c w.p fn f
  | 0x50 => decGrd w.c w.p fn f
  | 0x54 => decNamed w.c w.p fn f
  | 0x58 => decColl w.c w.p fn f
  | 0x5C => decInfer w.c w.p fn f
  | _ => .error .opcode

/-- The instruction a 96-bit word is, or why it is none (R165, R166). -/
def decodeWord (w : BitVec 96) : Except Reject Instr :=
  match decFields (Word96.ofBits w) with
  | .error e => .error e
  | .ok i => if i.wf && encode i == some w then .ok i else .error .field

/-! ### Bytes and lines -/

/-- The number that a list of bytes holds, the first lowest (R4). -/
def leNat : List Byte → Nat
  | [] => 0
  | b :: bs => b.toNat + 256 * leNat bs

/-- The `n` bytes of a number, the lowest first (R4). -/
def leBytes : Nat → Nat → List Byte
  | 0, _ => []
  | n + 1, v => BitVec.ofNat 8 v :: leBytes n (v / 256)

/-- The instruction in the first twelve bytes of a list, with the rest of the list (R149). -/
def decodeBytes (bs : List Byte) : Except Reject (Instr × List Byte) :=
  if bs.length < 12 then .error .length
  else
    match decodeWord (BitVec.ofNat 96 (leNat (bs.take 12))) with
    | .ok i => .ok (i, bs.drop 12)
    | .error e => .error e

/-- The instruction the decoder reads from a word given by number (bit 0 the least significant bit of byte 0). -/
def decodeTableWord (nbits w : Nat) : Option Instr :=
  if nbits ≤ 96 ∧ w < 2 ^ 96 then
    match decodeBytes (leBytes 12 w) with
    | .ok (i, _) => some i
    | .error _ => none
  else none

/-- Slot `i` of a 64-byte line (R149). -/
def lineSlot (bs : List Byte) (i : Nat) : BitVec 96 := BitVec.ofNat 96 (leNat ((bs.drop (12 * i)).take 12))

/-- The line word, bytes 60 to 63 (R151). -/
def lineWord (bs : List Byte) : BitVec 32 := BitVec.ofNat 32 (leNat (bs.drop 60))

/-- True when a number has an odd number of ones among its low `n` bits (R152). -/
def oddOnes : Nat → Nat → Bool
  | 0, _ => false
  | n + 1, v => (v % 2 == 1) != oddOnes n (v / 2)

/-- The parity bits of a line: CPAR over the chunks of its five words, then LPAR over line-word bits [15:0] (Table 07.1). -/
def lineParity (slots : List (BitVec 96)) (low : Nat) : Nat :=
  let chunk := fun (w : BitVec 96) (j : Nat) => if oddOnes 32 (w.toNat / 2 ^ (32 * j)) then 2 ^ j else 0
  let three := fun (w : BitVec 96) => chunk w 0 + chunk w 1 + chunk w 2
  let cpar := slots.foldr (fun w acc => three w + 8 * acc) 0
  cpar + (if oddOnes 16 low then 2 ^ 15 else 0)

/-- The line word for five words with given TGT and PAIR fields (R151, R152). -/
def mkLineWord (slots : List (BitVec 96)) (tgt : BitVec 5) (pair : BitVec 4) : BitVec 32 :=
  let low := tgt.toNat + 32 * pair.toNat
  BitVec.ofNat 32 (low + 65536 * lineParity slots low)

/-- Every parity bit of the line holds (R152). -/
def parityOk (slots : List (BitVec 96)) (word : BitVec 32) : Bool :=
  lineParity slots (word.toNat % 65536) == word.toNat / 65536

/-- A line that no instruction may issue from (R153). -/
def lineIllegal (word : BitVec 32) : Bool :=
  let pair := word.toNat / 32 % 16
  word.extractLsb' 9 7 != 0 || (pair &&& (pair / 2)) != 0

def tgtBit (word : BitVec 32) (i : Nat) : Bool := word.getLsbD i
def pairBit (word : BitVec 32) (i : Nat) : Bool := word.getLsbD (5 + i)

/-! ### Addresses of instructions -/

/-- The slot an address names in its line, if it is an instruction address (R149, R150). -/
def slotOf (pc : W64) : Option Nat :=
  match pc.toNat % 64 with
  | 0 => some 0
  | 12 => some 1
  | 24 => some 2
  | 36 => some 3
  | 48 => some 4
  | _ => none

/-- The line address of an instruction address. -/
def lineOf (pc : W64) : W64 := BitVec.ofNat 64 (pc.toNat / 64 * 64)

/-- The sequential successor (R150). -/
def succPc (pc : W64) : W64 := if pc.toNat % 64 == 48 then pc + 16 else pc + 12

/-- The target of a branch at `pc` (R163). -/
def target (pc : W64) (t : BTgt) : W64 :=
  lineOf pc + t.line.signExtend 64 * 64 + BitVec.ofNat 64 (12 * t.slot.toNat)

/-! ### Task records and page-table entries -/

/-- Bits `lo` to `lo + n - 1` of a number. -/
def bitsOf (w lo n : Nat) : Nat := w / 2 ^ lo % 2 ^ n

end Sys2Proof
end

