-- ==== Sys2Proof/Machine/State.lean ====
section
/-! DEFINITION. The state of one NDC-4200 as plain data, the reasons a step can stop, and the state after reset.
Every list is kept by the operations of the other files. A field marked MODEL'S OWN is no state of the spec: it
lets one deterministic step stand for the choices the spec leaves to the device and to the outside world. -/

namespace Sys2Proof.Machine

/-- Why a step stops. Both stops are safe: the device does something the spec does not describe, or nothing. -/
inductive Fault where
  /-- Raised by `exec` on an instruction word when no gang issues it: no instruction executes outside a gang (R41). Safe. -/
  | noIssuingGang
  /-- Raised by an access at an order point to a physical address at which no die has memory (R387). Safe. -/
  | absentAddress
  deriving DecidableEq, Repr

/-- Why a step has no meaning. -/
inductive Refusal where
  /-- Raised by an arm of `exec` whose instruction has no meaning yet. Safe: nothing can be proved of such a step. -/
  | notModelled (mnemonic : String)
  deriving DecidableEq, Repr

/-! ### The gang -/

/-- A fetch latch: the line's virtual address, its five words and its line word (R149, R168). -/
structure Latch where
  va    : W64
  slots : List (BitVec 96)
  word  : BitVec 32
  deriving DecidableEq, Repr

/-- The kinds of split-table entry (R12, Table 17.3). -/
inductive SplitKind where
  | live | deferred | join
  deriving DecidableEq, Repr

/-- One split-table entry (R12). A join holds the parent's RPC in `rpc` and the outstanding count in `exec` (Table 17.3); its `pc`
is not used. The table is in preorder: a join stands before its children, whose depth is one above the join's. -/
structure Split where
  kind  : SplitKind
  sid   : Nat                 -- MODEL'S OWN name of the entry
  pc    : W64
  exec  : W32
  fmt   : BitVec 16
  rpc   : W64
  depth : BitVec 7
  fast  : Bool                -- in one of the eight fast entries
  atBar : Bool                -- waits at a barrier instruction (R16)
  latch : Option Latch
  chk   : Nat                 -- TGT check owed at the next fetch: 0 none, 1 a transfer or the arrival at the RPC, 2 a handler entry (R154)
  deriving DecidableEq, Repr

/-- A register or status write that lands later (R39, R40). A vector write carries its lanes and the bits of each
lane that it writes (R173, R197). -/
inductive Wr where
  | sreg (r : SR) (v : W64)
  | kreg (r : KR) (v : W32)
  | vreg (r : VR) (lanes bits : W32) (v : VReg)
  | fpOr (b : BitVec 5)
  | fpSet (b : BitVec 5)
  | gsClear (b : BitVec 4)
  | gsSet (b : BitVec 4)
  | trapen (b : BitVec 3)
  | fmt (sid : Nat) (v : BitVec 16)
  | exec (sid : Nat) (v : W32)
  | tidx (v : VReg)
  deriving DecidableEq, Repr

/-- A fixed-latency result in flight: the cycle it is written, the flag it releases and its writes (R39, R160). -/
structure Pend where
  due  : Nat
  setf : BitVec 4
  wrs  : List Wr
  opb  : Bool                 -- issued inside the open region: vector writes land in the OPB (R25, R30)
  deriving DecidableEq, Repr

/-- The trap registers of one level (Table 17.1). -/
structure TrapRegs where
  cause : W64
  ret   : W64
  va    : W64
  save  : W64
  stat  : W64
  scr   : W64
  ip    : W64
  deriving DecidableEq, Repr

/-- A cause that has been raised and not yet entered (R318, R319). -/
structure TrapReq where
  cause : BitVec 8
  sub   : BitVec 8
  code  : BitVec 16
  lane  : BitVec 5
  ip    : W64
  ret   : W64
  va    : W64
  sid   : Nat
  reg   : Bool
  deriving DecidableEq, Repr

/-- One lane's access to a line. `ov` and `ovv` are the bytes that the region's own buffered stores overlay (R26). -/
structure Acc where
  lane : Nat
  off  : Nat
  n    : Nat
  val  : Nat                  -- the datum stored or the operand; the value read once `done`
  cmp  : Nat
  ov   : Nat
  ovv  : Nat
  done : Bool
  deriving DecidableEq, Repr

/-- What an access does to its line (R207, R208, R212, R141). -/
inductive ItemKind where
  | load
  | loadG (ver : BitVec 16)
  | store
  | storeG (ver : BitVec 16)
  | atomic (f : AFn) (wid : BitVec 3)
  | reduce (f : AFn)
  deriving DecidableEq, Repr

/-- Where the order point of an access lies (R115, R63). -/
inductive Dst where
  | dev
  | host
  | peer (d : Nat)
  | stash (page : Nat)
  | window
  deriving DecidableEq, Repr

/-- How far an access has come on its way (R112, R115, R349, R103). -/
inductive ItemSt where
  | queued                    -- in the outbound or outstanding-load set
  | held                      -- under PEND (R349)
  | arrived                   -- at its order point
  | applied                   -- in its fan-out
  | notice                    -- a dirty-holder notice is on its way (R53)
  | sent                      -- on the fabric or the host link
  | egress                    -- in the egress hold (R103)
  | kept                      -- an NC store, in the writing core's copy until a CFLUSH of the gang (R130, R363)
  | done
  | failed                    -- completed with FABRIC (R129)
  deriving DecidableEq, Repr

/-- A publication tag of R105: value id, version, grade. -/
structure PubTag where
  val   : Nat
  ver   : Nat
  grade : Nat
  deriving DecidableEq, Repr

/-- One access of one instruction to one line (R117, R134). Ids ascend, so they give program order. -/
structure Item where
  id    : Nat
  op    : Nat
  uid   : Nat
  ctx   : Nat
  inst  : Nat
  run   : Nat
  kind  : ItemKind
  dst   : Dst
  line  : Nat
  vline : W64
  accs  : List Acc
  scope : BitVec 3
  pol   : BitVec 2
  rel   : Bool                -- STREL, or an item that waits as one (R122, R126)
  acq   : Bool                -- LDACQ (R121)
  nc    : Bool
  comm  : Option Nat          -- the communicator of a COLL item (R141)
  tag   : Option Nat          -- the fabric TAG (R373)
  pub   : Option PubTag
  st    : ItemSt
  retry : Bool                -- a held store that translates again (R349)
  deriving DecidableEq, Repr

/-- Where an accepted instruction writes its result, and what completes it (R204 and the entries). -/
inductive OpKind where
  | calc (wrs : List Wr)
  | loadV (d : VR) (wid : BitVec 3) (sx : Bool)
  | loadS (d : SR) (wid : BitVec 3) (sx : Bool)
  | store
  | atomV (d : VR) (wid : BitVec 3)
  | atomS (d : SR) (wid : BitVec 3)
  | prefetch (lines : List (Nat × Bool))
  | cflush (lines : List Nat)
  | fence (k : BitVec 2) (scope : BitVec 3)
  | stash (fn : BitVec 2) (d : SR) (page : Option Nat) (frame : W64) (va : W64) (ent : W64)  -- MAP's frame is 1 once a sweep has covered it
  | mclaim (d : SR) (mcnt acnt : Nat) (af : Bool)
  | mrel (m0 mcnt a0 acnt : Nat) (af : Bool)
  | mload (slot : Nat)
  | mzero (unit : Nat)
  | mmac (a b u : Nat) (fmt : BitVec 16) (began : Bool)
  | mloop (d : SR) (a b u : Nat) (fmt : BitVec 16) (nstep : Nat) (side : Bool) (pa pb ia ib sa sb : W64)
      (fetched step : Nat) (stop : Option Nat)
  | maccrd (d : VR) (u row0 nrow : Nat) (ef : BitVec 2) (rnd : BitVec 2)
  | maccwr (u row0 nrow : Nat) (rows : List VReg) (ef : BitVec 2)
  | mstore (u : Nat)
  | mstoreTom (u slot : Nat) (hi tr : Bool) (ef rnd : BitVec 2)
  | mdrain (d : SR) (code : Option Nat)
  | bar (phase : Nat) (core die num : Nat)
  | rquota (d : SR) (n : Nat)
  | qpush (d : SR) (q : QR) (words : List W64)
  | engine (die : Nat) (cfg : Option Nat) (d : SR) (words : List W64)
  | qpop (d : SR) (e : EngRef)
  | tlwait (e : EngRef) (n : W64)
  | gnew (d : SR) (a b : W64)
  | gfree (d : SR) (id : Nat)
  | gpub (d : SR) (id : Nat) (nb : Bool) (base : W64) (g : Nat)
  | gprom (d : SR) (id : Nat) (ver : Nat) (g : Nat)
  | gqry (d : SR) (id : Nat)
  | tspawn (d : SR) (recA : Nat) (args : List (Option Nat)) (started : Bool) (first : Nat) (left : List Nat)
  | rstv (st : Option SR) (code : Option Nat)
  | coll
  | confx (wrs : List Wr) (die cfg e : Nat) (lanes : List (Nat × Nat × Nat)) (left : Nat)
  | tlbinv (sweep : Nat)
  | pgpool (d : SR) (va : W64)
  | sysset (num : BitVec 12) (v : W64)
  | idle (base : W64) (set : Bool)  -- whether the device rows have been set (R327)
  | rcommit
  deriving DecidableEq, Repr

/-- A long-latency instruction that has issued and not completed (R40). -/
structure Op where
  id   : Nat
  uid  : Nat
  die  : Nat
  core : Nat
  sid  : Nat
  setf : BitVec 4
  ip   : W64
  kind : OpKind
  ctx  : Nat
  inst : Nat
  run  : Nat
  name : W64                  -- its gang's name when it issued
  dead : Bool                 -- its gang was killed: the completion is discarded (R167)
  opb  : Bool                 -- issued inside the open region
  lost : Bool                 -- its region was aborted: results that target the OPB are discarded (R30)
  deriving DecidableEq, Repr

/-- Where one lane's access goes, once every check has passed. -/
structure Place1 where
  dst   : Dst
  line  : Nat
  off   : Nat
  vline : W64
  nc    : Bool
  hold  : Bool
  deriving DecidableEq, Repr

/-- The item kinds a region buffers (R26). -/
inductive BufBody where
  | store (accs : List (Place1 × Acc)) (kind : ItemKind)
  | coll (comm : Nat) (kind : ItemKind) (accs : List (Place1 × Acc))
  | rstv (name : W64) (reg : VR) (lanes : W32) (v : VReg) (rel : Bool) (scope : BitVec 3)
  | fence (k : BitVec 2) (scope : BitVec 3)
  deriving DecidableEq, Repr

/-- One buffered instruction of the region store buffer, in program order (R26, R28). -/
structure BufItem where
  setf : BitVec 4
  ip   : W64
  body : BufBody
  deriving DecidableEq, Repr

/-- Where a region stands: open, in step 1 of RCOMMIT, in step 3, or being aborted (R28, R30). -/
inductive RegionStage where
  | opened | step1 | step3 | aborting
  deriving DecidableEq, Repr

/-- What follows the end of a region: the next instruction, the head again, or EXIT (R28, R29). -/
inductive AfterRegion where
  | succ | head | exit
  deriving DecidableEq, Repr

/-- An open region (R24 to R30). -/
structure Region where
  head  : W64
  vb    : VR
  mask  : BitVec 64
  opb   : List (Nat × VReg)
  snapS : Vector W64 64
  snapK : Vector W32 16
  snapE : W32
  snapF : BitVec 16
  buf   : List BufItem
  lines : List (Dst × Nat)    -- the lines its plain stores hold (R27)
  count : Nat                 -- line-writes (R27)
  comm  : Option Nat
  stage : RegionStage
  after : AfterRegion
  op    : Nat                 -- the RCOMMIT in progress
  deriving DecidableEq, Repr

/-- One entry of the hold table (R271). -/
structure HoldEnt where
  armed : Bool
  regm  : Bool
  reg   : VR
  rem   : Nat
  deriving DecidableEq, Repr

/-- What a Q register is bound to (R246). -/
inductive QBind where
  | copy (num : Nat) (w : W64)
  | bfe (die cfg : Nat) (w : W64)
  | halyard (die : Nat) (w : W64)
  deriving DecidableEq, Repr

/-- The states of a stash line (R53). -/
inductive StLine where
  | invalid | clean | dirty
  deriving DecidableEq, Repr

/-- One stash page: its mapping, its translation (none until touched afresh), its data and its lines (R52, R53, R55).
Bytes not listed are zero. -/
structure StashPage where
  mapped : Bool
  va     : W64
  wr     : Bool
  frame  : Option Nat
  data   : List Host.Cell
  lines  : List (Nat × StLine)   -- lines not listed are INVALID
  stored : List Nat           -- bytes the owner has stored in DIRTY lines
  lvl    : Nat := 0           -- level of the leaf that gave the frame (R53, R322)
  pend   : Bool := false      -- that leaf had PEND and not W: a store gets HOLD (R347)
  deriving DecidableEq, Repr

/-- A cached translation: context, level of the leaf, page base and the entry, or a not-present entry (R348). -/
structure TlbEnt where
  ctx  : Nat
  lvl  : Nat
  page : Nat
  ent  : Option W64
  deriving DecidableEq, Repr

/-- The states of a resident gang slot (R44). -/
inductive GStatus where
  | pending | active | parkedFault | saved
  deriving DecidableEq, Repr

/-- A wait of the gang's current instruction (R22, R49, R225, R250, R326). -/
inductive GWait where
  | bar (phase : Nat) (again : Bool)
  | rquota (op : Nat)
  | regroup
  | waitf (mask : BitVec 12) (t : Nat)
  | op (id : Nat)
  | eret
  | idle (op : Nat)
  deriving DecidableEq, Repr

/-- How far a gang's slot is between two cases of Table 06.2 (R138): a pre-emption's save is in progress; the marker is replaced and the save
area still to be read; the restore is in progress. -/
inductive Move where
  | no | saving | toRead | restoring
  deriving DecidableEq, Repr

/-- One resident gang. `uid` is the MODEL'S OWN name of the gang, never reused. -/
structure Gang where
  uid    : Nat
  loc    : GRef
  ctx    : Nat
  inst   : Nat
  run    : Nat
  gidx   : Nat
  ngangs : Nat
  queue  : Nat
  status : GStatus
  age    : Nat                -- order of entry into the active set (R42)
  placed : Nat                -- when it was placed (R338)
  pauseTo : Nat               -- youngest until this cycle (R42)
  vblocks : Nat
  vseeds : List Nat           -- MODEL'S OWN: which free values each V block holds (R9, R49)
  stash  : List StashPage
  s      : Vector W64 64
  k      : Vector W32 16
  v      : List (Nat × VReg)
  fpstat : BitVec 5
  gstat  : BitVec 4
  trapen : BitVec 3
  tidx   : VReg
  fc     : Vector (BitVec 6) 12
  hold   : Vector HoldEnt 12
  table  : List Split
  exited : Bool               -- some split has executed EXIT since the gang was last undivided (R16)
  last   : Option Nat         -- cycle of its last issue (R41)
  waitC  : Option Nat         -- of a pending gang, since when it waits eligible (R43)
  nz     : List (Nat × Nat)   -- its counters that are not zero, each with the cycle since which (R42)
  yielded : Bool
  turn   : List Nat           -- splits in the order of their last issue (R17)
  pend   : List Pend
  region : Option Region
  wait   : Option GWait
  cohort : Option Nat
  lastArr : Option Nat        -- the phase of its last arrival (R22)
  q      : List (Nat × QBind)
  tl     : Nat
  t1     : TrapRegs
  t2     : TrapRegs
  trap   : Option TrapReq
  lanePg : List (Nat × TlbEnt)
  retry  : Bool               -- a PARKED-FAULT gang that may retry (R318)
  pfAcc  : Option (W64 × BitVec 2)  -- the translation a PARKED-FAULT gang waits for
  pfSid  : Nat                -- the split that met that fault (R318, R326)
  parity : List (Nat × Nat)   -- lines whose last fetches failed their parity: address, how many in a row (R152)
  owed   : List (Nat × W64 × Nat)  -- TGT checks still owed when a trap was taken: level, address, kind (R154)
  preempt : Bool              -- pre-emption requested (R326)
  spill  : Bool               -- holds a spill page (R12)
  rgArg  : Option (VR × VR × VR × Nat)  -- REGROUP operands while it waits (R37)
  rgPred : W32
  fab    : BitVec 12          -- flags of items that failed and that no WAIT has named since (R135)
  saveA  : W64                -- the save area of a PARKED-SAVED gang (R327)
  rst    : List (Nat × W64)   -- split-entry words written during a resumption (R315, R328)
  move   : Move := .no        -- a move of its slot is in progress: RSTVs to it wait (R138)
  deriving DecidableEq, Repr

/-- A gang parked by pre-emption whose slot waits for its resumption: kept in `gangs` with status `saved`. -/
abbrev SavedGang := Gang

/-! ### The core -/

/-- The owner of slots, tiles and engine contexts (R57, R246). -/
inductive Owner where
  | gang (uid : Nat)
  | cohort (num : Nat)
  deriving DecidableEq, Repr

/-- A cohort and its barrier (R21, R22, R49). -/
structure Cohort where
  num     : Nat
  ctx     : Nat
  members : List Nat
  arrived : List Nat
  phase   : Nat
  pool    : Nat
  deriving DecidableEq, Repr

/-- The states of a claimed slot or tile (R59). -/
inductive TileSt where
  | empty | filling | ready | draining
  deriving DecidableEq, Repr

/-- One tile-table entry: a MOM slot, or an ACM tile by its first unit (R56, R59). -/
structure Tile where
  idx   : Nat
  acc80 : Bool
  owner : Owner
  st    : TileSt
  users : Nat
  arriv : BitVec 16
  going : Bool                -- released, and returned once it is idle (R57)
  by'   : Option Nat          -- the operation or command that fills or drains it
  resv  : Option Nat          -- reserved by this MLOOP (R240)
  relBy : Option Nat := none  -- released by this MREL, whose flag waits for its return (R232)
  deriving DecidableEq, Repr

/-- An incoming MDRAIN addition held at its target (R60, R148). -/
structure HeldAdd where
  unit  : Nat
  rank  : Option Nat
  acc80 : Bool
  vals  : List Nat
  op    : Nat
  pkt   : Option Nat
  deriving DecidableEq, Repr

/-- A drain on its way to its target core (R243). -/
structure Drain where
  k     : Nat
  name  : W64
  unit  : Nat
  rank  : Option Nat
  acc80 : Bool
  vals  : List Nat
  ten   : Nat
  op    : Nat
  pkt   : Option Nat
  tag   : Option Nat          -- its fabric TAG once it has left for another device
  uid   : Nat                 -- the sender, for the waits of a release (R122); 0 with a remote sender
  deriving DecidableEq, Repr

/-- An RSTV on its way to its target core (R136). -/
structure Rstv where
  k     : Nat
  name  : W64
  reg   : VR
  lanes : W32
  v     : VReg
  ten   : Nat
  hops  : Nat
  op    : Nat
  uid   : Nat                 -- the sender, for the order of R126; 0 with a remote sender
  pkt   : Option Nat
  rel   : Bool                -- REL, with its scope: it waits as a STREL does (R126)
  scope : BitVec 3
  tag   : Option Nat          -- its fabric TAG once it has left for another device
  deriving DecidableEq, Repr

/-- A forwarding entry (R36, R137). -/
structure FwdEnt where
  old   : W64
  new   : W64
  since : Nat
  deriving DecidableEq, Repr

/-- The states of an engine command (R248, R249). -/
inductive CmdSt where
  | queued | running | moved (status : Nat) | posting (status : Nat)
  deriving DecidableEq, Repr

/-- An engine command pushed and not completed (R248). -/
structure Cmd where
  num   : Nat
  words : List W64
  uid   : Nat
  inst  : Nat
  run   : Nat
  ctx   : Nat
  tag   : Nat                 -- MODEL'S OWN name of its accesses
  st    : CmdSt
  owner : Owner := .gang 0    -- its gang's owner when it was pushed, or what that has passed to (R64, R252)
  deriving DecidableEq, Repr

/-- A copy-engine context (R246 to R249). Its timeline follows from `next` and `cmds` (R125). -/
structure Engine where
  num   : Nat
  owner : Option Owner
  ctx   : Nat
  next  : Nat
  cmds  : List Cmd
  events : List W64
  restart : Bool := false     -- it has passed to a new owner and waits until it is idle (R246)
  deriving DecidableEq, Repr

/-- An L1 copy of a line (R51, R363, R168). -/
structure L1Copy where
  line : Nat
  data : List Byte
  nc   : Bool
  dirty : List Nat            -- the bytes of an NC line written here and not written back
  first : Bool                -- marked first for replacement (R205)
  deriving DecidableEq, Repr

/-- A COLL grant and its requests at a core's injection arbiter (R143). -/
structure CollReq where
  op   : Nat
  uid  : Nat
  comm : Nat
  ten  : Nat
  prio : Nat
  deriving DecidableEq, Repr

/-- An upper-level entry in a core's walk cache: context, level, the base of the range it covers, its value (R348, R349). -/
structure WalkEnt where
  ctx : Nat
  lvl : Nat
  va  : Nat
  ent : W64
  deriving DecidableEq, Repr

/-- One core. -/
structure Core where
  die    : Nat
  core   : Nat
  gens   : List (Nat × BitVec 16)
  cohorts : List Cohort
  mom    : List Tile
  acm    : List Tile
  momMem : List Host.Cell     -- slots from 0, side bands from 0x80000; unlisted bytes read zero
  acmMem : List Host.Cell
  dropped : Nat               -- additions dropped (R60)
  held   : List HeldAdd
  fwd    : List FwdEnt
  engines : List Engine
  l1     : List L1Copy
  tlb    : List TlbEnt
  walkc  : List WalkEnt
  arbQ   : List CollReq
  grant  : Option CollReq
  gated  : Bool
  idleFrom : Nat
  touched : List (Nat × Nat)  -- stash pages touched while gated: gang, page (R365)
  ended  : List (Nat × Nat)   -- by scheduler, the cycle in which a gang of it issued and ended (R42)
  deriving DecidableEq, Repr

/-! ### The die -/

/-- A batch under assembly in the BFE: its entries, each with its slot, version and time of arrival (R110). -/
structure BfeBatch where
  layer : Nat
  pairs : List (Nat × Nat × Nat)
  deriving DecidableEq, Repr

/-- One BFE configuration (R246, R258, R259). -/
structure BfeCfg where
  idx     : Nat
  owner   : Owner
  die     : Nat
  core    : Nat
  ctx     : Nat
  set     : Bool
  kv      : W64
  ss      : Nat
  ls      : Nat
  nl      : Nat
  recA    : W64
  area    : W64
  batches : List BfeBatch
  passed  : Bool := false     -- it passed to the cohort that its gang joined (R21)
  deriving DecidableEq, Repr

/-- One armed Halyard entry (R106). `id` is the MODEL'S OWN name of the arming. -/
structure Watch where
  idx  : Nat
  id   : Nat
  ctx  : Nat
  addr : Nat
  cmp  : BitVec 2
  val  : W64
  recA : W64
  persist : Bool
  deriving DecidableEq, Repr

/-- A power leave, asked for or held (R341 to R343). -/
structure Leave where
  id    : Nat
  coll  : Bool
  asked : Nat
  held  : Bool
  freed : Bool
  deriving DecidableEq, Repr

/-- A held outward store (R103). -/
structure HeldStore where
  item : Item
  data : Nat                  -- bytes it takes of the 4 MiB
  deriving DecidableEq, Repr

/-- An entry of the translation directory (R350). -/
structure TransEnt where
  ctx   : Nat
  lvl   : Nat
  va    : Nat
  cores : List Nat
  deriving DecidableEq, Repr

/-- The copy of a line homed elsewhere in a die's L2 (R359, R363). -/
structure L2Copy where
  line : Nat
  data : List Byte
  nc   : Bool
  dirty : List Nat
  deriving DecidableEq, Repr

/-- One die. -/
structure Die where
  die     : Nat
  bfe     : List BfeCfg
  bufs    : List (Nat × Nat)  -- batch buffers in use: context, address (R259)
  watch   : List Watch
  evals   : List (Nat × W64 × Nat)  -- writes performed at watched words, not yet evaluated: address, value, the next id then (R106)
  eghold  : List HeldStore
  egdisc  : BitVec 64
  plb     : BitVec 64
  plbFw   : BitVec 64
  bound   : Nat               -- grants made at the present boundary: boundary × 16 + count
  leaves  : List Leave
  tdir    : List TransEnt     -- in order of allocation
  dir     : List Nat          -- lines with an entry in the slice directories, in order of allocation (R356)
  sf      : List Nat          -- lines with an entry in the snoop filter, in order of allocation (R362)
  l2      : List L2Copy
  deriving DecidableEq, Repr

/-! ### Lines in their fan-out -/

/-- A write in its fan-out, or an invalidation (R115, R360): the bytes written, the copies still to acknowledge,
the item to acknowledge at exposure. -/
structure Txn where
  line  : Nat
  bytes : List (Nat × Byte)
  wait  : List CopyRef
  item  : Option Nat
  inval : Bool                -- an invalidation sent for a dirty-holder notice
  deriving DecidableEq, Repr

/-! ### Contexts, tenants, queues, instances -/

/-- A graded fault that waits for its handler (R94, Table 04.3). -/
structure GFault where
  fhrec : Nat
  w     : List W64            -- the four words of the record
  deriving DecidableEq, Repr

/-- The states of the page engines (Tables 20.3 and 20.4). -/
inductive PgState where
  | idle | check | build | swap | sweep | done | failed | protect | copy | abort
  deriving DecidableEq, Repr

/-- Where a context's gangs have reached a communicator's entry: its physical address, whether another device or the host holds it, and then
the entry as it was last read. -/
structure CommAt where
  pa  : Nat
  far : Bool
  ent : Nat
  deriving DecidableEq, Repr

/-- One execution context: its configuration registers and what the device keeps for it. -/
structure Context where
  num   : Nat
  cfg   : W64
  ptroot : W64
  poolB : W64
  poolN : BitVec 32
  err   : W64
  vdrop : BitVec 64
  ksnap : List W64
  tvec1 : W64
  tvec2 : W64
  tsb1  : W64
  tsb2  : W64
  priv  : Bool
  hwaddr : W64
  hwval : W64
  hwrec : W64
  hwres : W64
  tinv  : Bool                -- BUSY
  pfq   : List W64
  pfOvf : Bool
  pgreq : W64
  pgfrm : W64
  pgst  : PgState
  pgres : BitVec 4
  pgSave : List (Nat × W64)   -- entries as CHECK and PROTECT read them
  pgDirty : List Nat          -- bytes of the new page whose old frame a host or a peer has written since COPY began (R354)
  pgWait : Option (List Nat)  -- of a sweep of the engine that has begun, the accesses that it waits for (R349, R350)
  instN : BitVec 32
  killed : Bool
  faults : List GFault
  comms : List (Nat × CommAt) -- the communicators its gangs have used, with the place of the entry (R145; log 15)
  aborted : List Nat          -- communicators whose abort has ended here, until the runtime clears ABT (R145)
  handlers : List (Nat × Nat) -- handler record in service, its instance (or launch id + 2^32)
  deriving DecidableEq, Repr

/-- One tenant's registers (Table 19.1). -/
structure Tenant where
  num    : Nat
  vtbase : W64
  vtsize : BitVec 21
  clbase : W64
  clsize : BitVec 32
  combase : W64
  fwin   : List (W64 × W64)
  cpart  : Nat
  deriving DecidableEq, Repr

/-- One launch queue (Table 19.2). -/
structure LaunchQueue where
  num  : Nat
  ctl  : W64
  mask : Nat
  turn : Nat                  -- when it last placed (R337)
  since : Option Nat          -- since when its head finds no eligible core (R338)
  head  : List Nat            -- the head for which `since` and `claim` stand
  claim : Option (Nat × Nat)  -- the core whose gangs are pre-empted for its head (R338)
  deriving DecidableEq, Repr

/-- The fields of a task record (Table 04.4). -/
structure TaskRec where
  entry : W64
  ngang : Nat
  vblk  : Nat
  stashp : Nat
  cohsz : Nat
  queue : Nat
  nin   : Nat
  nout  : Nat
  argp  : W64
  fhrec : Nat
  ins   : List (Nat × Nat × Bool)   -- value id, MING, REFIRE
  outs  : List Nat
  deriving DecidableEq, Repr

/-- An input of a run: the value, the version and grade consumed, and whether the value was freed (R98, R100). -/
structure Consumed where
  val   : Nat
  ver   : Nat
  grade : Nat
  freed : Bool
  deriving DecidableEq, Repr

/-- An output published in a run: descriptor, version, whether by the run's completion (R100, R101, R265). -/
structure Published where
  idx : Nat
  ver : Nat
  implicit : Bool
  deriving DecidableEq, Repr

/-- A completed run that a re-fire has followed: what it consumed and published (R101). -/
structure PastRun where
  cons  : List Consumed
  pubs  : List Published
  deriving DecidableEq, Repr

/-- The states of an instance (R98 to R102). A retired one is kept only while the egress hold has stores of it. -/
inductive InstSt where
  | waiting | running | completed | retired
  deriving DecidableEq, Repr

/-- What launched an instance, as far as anything depends on it (R94, R97, R259). -/
inductive LaunchBy where
  | tspawn
  | halyard
  | bfe (die cfg layer : Nat) (buf : Option Nat)  -- with the buffer that it holds, by address
  | armature (hrec : Nat)
  deriving DecidableEq, Repr

/-- A task instance that has not retired (R97). -/
structure Inst where
  ctx   : Nat
  num   : Nat
  tr    : TaskRec
  st    : InstSt
  run   : Nat
  cons  : List Consumed
  pubs  : List Published
  past  : List PastRun        -- earlier runs
  again : Bool                -- an amendment arrived during the run (R99)
  by'   : LaunchBy
  joined : Nat := 0           -- MODEL'S OWN: when its run's gangs joined their queue (R337)
  deriving DecidableEq, Repr

/-- A launch that has been decided and not yet joined its queue (R97, R106, R110). -/
structure Launch where
  id   : Nat
  ctx  : Nat
  recA : W64
  argp : Option W64
  num  : Option Nat
  bad  : Bool                -- refused: its batch buffer cannot be written (R259)
  tr   : Option TaskRec      -- the record as a TSPAWN has read it (R268)
  by'  : LaunchBy
  src  : Nat := 0            -- the gang of a TSPAWN, the die of a Halyard
  deriving DecidableEq, Repr

/-- Gangs of one run that wait for placement: the next GANGIDX of N (R107, R337). -/
structure Place where
  queue : Nat
  ctx  : Nat
  inst : Nat
  run  : Nat
  next : Nat
  tr   : TaskRec
  deriving DecidableEq, Repr

/-! ### Fabric, host link, platform -/

/-- A header flit by its fields (Table 22.2). -/
structure Hdr where
  lidx : Nat
  aux  : BitVec 32
  mask : Nat
  addr : W64
  err  : Bool
  resp : Bool
  ten  : BitVec 4
  tag  : BitVec 24
  nflit : BitVec 4
  kind : BitVec 6
  cls  : BitVec 3
  hop  : BitVec 3
  sdev : BitVec 12
  ddev : BitVec 12
  deriving DecidableEq, Repr

/-- Where a packet is: being sent from here, in custody here, or on a link. -/
inductive PktLoc where
  | held
  | link (port : Nat)
  | here
  deriving DecidableEq, Repr

/-- A packet in custody of this device (R377). -/
structure Pkt where
  k     : Nat
  h     : Hdr
  data  : List Nat
  loc   : PktLoc
  inPort : Option Nat
  since : Nat
  deriving DecidableEq, Repr

/-- The states of a port (Table 22.1). -/
inductive PortSt where
  | down | training | up | retrain | dead
  deriving DecidableEq, Repr

/-- One fabric port (Table 22.1, R371, R376). -/
structure Port where
  num   : Nat
  en    : Bool
  st    : PortSt
  lanes : BitVec 4
  peer  : BitVec 12
  retry : BitVec 64
  errn  : BitVec 64
  txSeq : BitVec 12
  rxSeq : BitVec 12
  replay : List (BitVec 12 × Nat × Nat)  -- sequence number, flit, virtual channel
  replayed : Bool             -- a replay has gone out and nothing has been acknowledged since
  fails : Nat                 -- replays in a row that have failed
  retrains : Nat
  rx    : List Nat            -- flits received of a packet not yet in custody
  q1    : Nat × Nat           -- the neighbour's deepest outbound queues: port, depth
  q2    : Nat × Nat
  deriving DecidableEq, Repr

/-- What leaves the device towards the host. -/
inductive OutMsg where
  | msix (vector : Nat)
  | readData (id : Nat) (data : List Byte)
  | readFail (id : Nat)
  | writeFail
  | atomicOld (id : Nat) (v : W64)
  | atomicUnsup (id : Nat)
  | request (item : Nat) (fn : HostFn) (write : Bool)
  | atomicReq (item : Nat) (fn : HostFn) (f : HostAtomic) (v cmp : W64) (n : Nat)
  | bisnp (line : Nat) (inv : Bool)
  | flit (port : Nat) (seq : BitVec 12) (flit : Nat) (vc : Nat)
  | flitAck (port : Nat) (seq : BitVec 12)
  | replayAsk (port : Nat) (seq : BitVec 12)
  | custAck (port : Nat) (tag sdev : Nat)
  | pfvaData (v : W64)
  | spdm (bytes : List Byte)
  deriving DecidableEq, Repr

/-- The SPDM responder: the messages exchanged so far, which its signatures cover (R386). -/
structure Spdm where
  ver    : Byte               -- the version of the exchange, 0x12 or 0x13
  ask13  : Bool               -- the requester's GET_CAPABILITIES carries 1.3, and else 1.2; set from outside alone
  caps   : Bool
  algs   : Bool
  seen   : List Byte
  deriving DecidableEq, Repr

/-- Bring-up and the platform registers (Tables 23.1 and 23.2). -/
structure Boot where
  stage  : BitVec 3
  result : BitVec 3
  ready  : Bool
  slotB  : Bool
  ncore  : W64
  nchan  : W64
  chloc  : W64
  pkgpwr : W64
  meas2  : BitVec 256
  deriving DecidableEq, Repr

/-- The fused configuration (R385, R387): the enabled cores and DRAM channels of each die, as NCORE and NCHAN give them, the ports that
the part enables, the minimum SVN that firmware has fused since manufacture, and the one the driver last asked for, which is fused at
the next reset. -/
structure Fuses where
  ncore  : W64
  nchan  : W64
  ports  : BitVec 18
  svn    : BitVec 16
  svnAsk : BitVec 16
  deriving DecidableEq, Repr

/-- A translation sweep in progress (R349, R350). -/
structure Sweep where
  id   : Nat
  ctx  : Nat
  all  : Bool
  va   : Nat
  op   : Option Nat           -- the TLBINV that asked, or none for TINV and the engines
  after : Nat                 -- accesses of the issuing gang below this id are earlier (R349)
  uid   : Nat
  began : Bool
  waits : List Nat            -- items that used a dropped translation
  deriving DecidableEq, Repr

/-- MODEL'S OWN: the gang, split and slot that issue in this step; `first` and `second` mark the slots of a pair (R156). -/
structure Focus where
  uid    : Nat
  sid    : Nat
  pc     : W64
  first  : Bool
  second : Bool
  moved  : Bool
  deriving DecidableEq, Repr

/-- What an agent without a gang does to peer or host memory; `cas` writes `new` where it finds `old` (R278). -/
inductive FarAct where
  | read
  | write (v : Nat)
  | cas (old new : Nat)
  deriving DecidableEq, Repr

/-- MODEL'S OWN: what an access has to wait for, and what is asked for meanwhile (R350, R358, R362, R368). -/
inductive Wish where
  | later                     -- an action in progress ends first
  | snoop (line : Nat) (inv : Bool)  -- the host gives up the line, or its modified data
  | slice (die line : Nat)    -- the victim of a full set of a slice directory gives up its copies
  | filter (line : Nat)       -- the victim of a full set of a snoop filter
  | walk (die idx : Nat)      -- the victim of a full set of a translation directory
  | far (ctx : Nat) (dst : Dst) (line off n : Nat) (act : FarAct)  -- an agent's access to peer or host memory
  | hold (ctx va : Nat)       -- an agent's write has met HOLD (R349)
  | holdFault (ctx va : Nat) (rmw : Bool)  -- one that is held has met XLATE or PROT, which is recorded (R352)
  deriving DecidableEq, Repr

/-- A write of an agent without a gang (an RSTV into a save area, the Armature, the BFE) that PEND holds: it translates again after each sweep
that covers its page, and at each PFREL (R349). -/
structure HeldWrite where
  ctx   : Nat
  va    : Nat
  retry : Bool
  deriving DecidableEq, Repr

/-- A host write that has arrived and waits for its lines, or for those before it (R131). -/
structure HostWr where
  pa   : Nat
  data : List Byte
  deriving DecidableEq, Repr

/-- An uncorrectable soft error that stands in data of a gang: the SUB of cause 13 and the address for SUB 3 (R317). -/
structure Flaw where
  uid : Nat
  sub : BitVec 8
  va  : W64
  deriving DecidableEq, Repr

/-! ### The device -/

structure State where
  clock    : Nat
  freeCtr  : Nat                    -- MODEL'S OWN: which free value comes next
  nextId   : Nat                    -- MODEL'S OWN: the next id of an operation, item, packet, launch or gang
  agenda   : List Instr             -- MODEL'S OWN: the events that the outside world and the device's own choices bring
  focus    : Option Focus           -- MODEL'S OWN
  wants    : List Wish              -- MODEL'S OWN: empty between steps
  flaws    : List Flaw              -- uncorrectable soft errors not yet met (R317)
  mem      : List Host.Cell         -- device memory at the order points (R115)
  gangs    : List Gang
  cores    : List Core
  dies     : List Die
  ctxs     : List Context
  tenants  : List Tenant
  queues   : List LaunchQueue
  insts    : List Inst
  launches : List Launch
  places   : List Place
  ops      : List Op
  items    : List Item
  drains   : List Drain
  rstvs    : List Rstv
  txns     : List Txn
  sweeps   : List Sweep
  aborts   : List (Nat × Nat)       -- communicators in abort: tenant, index (R145)
  told     : List (Nat × Nat)       -- those whose other ranks have been told (R145)
  snoops   : List Nat               -- device lines with a BISnpData in flight (R368)
  hostFilter : List (Nat × Bool)    -- device lines the host caches; true for Any (R368)
  heldWr   : List HeldWrite         -- writes of agents held under PEND (R349)
  hostOrd  : List HostWr            -- host writes without Relaxed Ordering that wait, in arrival order (R131)
  pkts     : List Pkt
  ports    : List Port
  routes   : List (Nat × W64)
  devid    : Option (BitVec 12)
  nextTag  : BitVec 24
  quarantine : List (Nat × Nat)     -- probed tags and until when they are not reused (R378)
  refused  : List (Nat × Nat × Nat) -- source, tag, until when (R378)
  performed : List (Nat × Nat × Pkt) -- source, tag, the response given (R378)
  peerBad  : Nat                    -- peer and host accesses refused outside the windows (R133, R339)
  stale    : Nat                    -- tagged stores dropped (R105)
  hlMode   : BitVec 3
  hlWidth  : BitVec 3
  hlUp     : Bool
  hlerr    : BitVec 64
  fuses    : Fuses
  boot     : Boot
  spdm     : Spdm
  out      : List OutMsg
  deriving DecidableEq, Repr

/-! ### Reset -/

/-- A context after reset: every register zero (DESIGN CHOICE, log 4), nothing pending (R335, R97). -/
def Context.init (n : Nat) : Context :=
  { num := n, cfg := 0, ptroot := 0, poolB := 0, poolN := 0, err := 0, vdrop := 0, ksnap := [], tvec1 := 0,
    tvec2 := 0, tsb1 := 0, tsb2 := 0, priv := false, hwaddr := 0, hwval := 0, hwrec := 0, hwres := 0,
    tinv := false, pfq := [], pfOvf := false, pgreq := 0, pgfrm := 0, pgst := .idle, pgres := 0, pgSave := [], pgDirty := [], pgWait := none,
    instN := 0, killed := false, faults := [], comms := [], aborted := [], handlers := [] }

/-- A tenant after reset: every register zero, every window empty (DESIGN CHOICE, log 4). -/
def Tenant.init (n : Nat) : Tenant :=
  { num := n, vtbase := 0, vtsize := 0, clbase := 0, clsize := 0, combase := 0, fwin := List.replicate 8 (0, 0), cpart := 0 }

/-- A queue after reset: QCTL and QMASK zero (R335). -/
def LaunchQueue.init (n : Nat) : LaunchQueue := { num := n, ctl := 0, mask := 0, turn := 0, since := none, head := [], claim := none }

/-- A die after reset: PLBUDGET zero until firmware writes it (R342; DESIGN CHOICE, log 4). -/
def Die.init (n : Nat) : Die :=
  { die := n, bfe := [], bufs := [], watch := [], evals := [], eghold := [], egdisc := 0, plb := 0, plbFw := 0, bound := 0,
    leaves := [], tdir := [], dir := [], sf := [], l2 := [] }

/-- A port after reset: DOWN, and enabled, since the firmware trains the ports with no write of PORTCTL before it (R383; log 4). -/
def Port.init (n : Nat) : Port :=
  { num := n, en := true, st := .down, lanes := 0, peer := 0, retry := 0, errn := 0, txSeq := 0, rxSeq := 0,
    replay := [], replayed := false, fails := 0, retrains := 0, rx := [], q1 := (0, 0), q2 := (0, 0) }

/-- The fuses of a full part (Table 00.1): 128 cores and 64 channels on each die, 18 ports, no SVN asked for (DESIGN CHOICE, log 4). -/
def Fuses.full : Fuses := { ncore := 0x80808080, nchan := 0x40404040, ports := 0x3FFFF, svn := 0, svnAsk := 0 }

/-- Boot stage 1 (R383): no result yet, not READY, every platform register zero. -/
def Boot.init : Boot :=
  { stage := 1, result := 0, ready := false, slotB := false, ncore := 0, nchan := 0, chloc := 0, pkgpwr := 0, meas2 := 0 }

/-- The machine right after device reset (R35, R97, R335, R383): in boot stage 1, with no gang, no work, every
register at its reset value, and nothing written in memory. The agenda is empty: what the boot ROM, the firmware,
the driver and the host then do is the outside world's (log 2). -/
def State.reset : State :=
  { clock := 0, freeCtr := 0, nextId := 1, agenda := [], focus := none, wants := [], flaws := [], mem := [], gangs := [], cores := [],
    dies := (List.range 4).map Die.init, ctxs := (List.range 64).map Context.init,
    tenants := (List.range 16).map Tenant.init, queues := (List.range 64).map LaunchQueue.init, insts := [],
    launches := [], places := [], ops := [], items := [], drains := [], rstvs := [], txns := [],
    sweeps := [], aborts := [], told := [], snoops := [], hostFilter := [], heldWr := [], hostOrd := [], pkts := [], ports := (List.range 18).map Port.init, routes := [],
    devid := none, nextTag := 0, quarantine := [], refused := [], performed := [], peerBad := 0, stale := 0,
    hlMode := 0, hlWidth := 0, hlUp := false, hlerr := 0, fuses := Fuses.full, boot := Boot.init,
    spdm := { ver := 0x12, ask13 := false, caps := false, algs := false, seen := [] }, out := [] }

end Sys2Proof.Machine
end

