-- ==== Sys2Proof/Machine/Mem.lean ====
section
/-! DEFINITION. Byte memories in canonical form: addresses strictly rising, no byte listed that equals what an unlisted
address reads as. One form serves device memory, the matrix stores and stash pages. -/

namespace Sys2Proof.Machine

/-- What an unlisted address reads as: zero (DESIGN CHOICE, log 3: the spec gives memory no reset contents). -/
def memBlank : Byte := 0

/-- The byte at an address. -/
def memRead : List Host.Cell → Nat → Byte
  | [], _ => memBlank
  | (a, b) :: m, x => if a == x then b else if x < a then memBlank else memRead m x

/-- Writes one byte and keeps the canonical form: writing the blank removes the entry. -/
def memWrite : List Host.Cell → Nat → Byte → List Host.Cell
  | [], x, v => if v == memBlank then [] else [(x, v)]
  | (a, b) :: m, x, v =>
    if x < a then (if v == memBlank then (a, b) :: m else (x, v) :: (a, b) :: m)
    else if x == a then (if v == memBlank then m else (x, v) :: m)
    else (a, b) :: memWrite m x v

/-- Every listed address is above `lo`, addresses rise strictly and no byte is blank. -/
def memWfFrom : Option Nat → List Host.Cell → Bool
  | _, [] => true
  | none, (a, b) :: m => b != memBlank && memWfFrom (some a) m
  | some lo, (a, b) :: m => lo < a && b != memBlank && memWfFrom (some a) m

/-- The canonical form of a memory. -/
def Memory.wf (m : List Host.Cell) : Bool := memWfFrom none m

/-- `n` bytes from an address up. -/
def memReadN (m : List Host.Cell) (a : Nat) : Nat → List Byte
  | 0 => []
  | n + 1 => memRead m a :: memReadN m (a + 1) n

/-- Writes a list of bytes from an address up. -/
def memWriteN (m : List Host.Cell) (a : Nat) : List Byte → List Host.Cell
  | [] => m
  | b :: bs => memWriteN (memWrite m a b) (a + 1) bs

/-- The little-endian number in `n` bytes (R4). -/
def memNat (m : List Host.Cell) (a n : Nat) : Nat := leNat (memReadN m a n)

end Sys2Proof.Machine
end

