-- ==== Sys2Proof/Machine/Base.lean ====
section
/-! DEFINITION. Reading and replacing one component of the state, fresh ids, free values, messages to the outside, and the
registers of a gang (R8, R9, R11, R25, R26). -/

namespace Sys2Proof.Machine

/-- LWIN, the lowest address of the core-local window (R63). -/
def lwin : Nat := 0x000FFFFFFF800000

/-! ### Components -/

def State.gang? (s : State) (uid : Nat) : Option Gang := s.gangs.find? (·.uid == uid)

def State.setGang (s : State) (g : Gang) : State :=
  { s with gangs := s.gangs.map fun x => if x.uid == g.uid then g else x }

/-- Applies `f` to the gang named `uid`, if it is resident. -/
def State.onGang (s : State) (uid : Nat) (f : Gang → Gang) : State :=
  { s with gangs := s.gangs.map fun x => if x.uid == uid then f x else x }

/-- The gang in a slot (R8). -/
def State.gangAt (s : State) (r : GRef) : Option Gang := s.gangs.find? (·.loc == r)

def Engine.init (n : Nat) : Engine := { num := n, owner := none, ctx := 0, next := 1, cmds := [], events := [] }

def Core.init (d c : Nat) : Core :=
  { die := d, core := c, gens := [], cohorts := [], mom := [], acm := [], momMem := [], acmMem := [], dropped := 0,
    held := [], fwd := [], engines := (List.range 4).map Engine.init, l1 := [], tlb := [], walkc := [], arbQ := [], grant := none,
    gated := false, idleFrom := 0, touched := [], ended := [] }

/-- A core as the state holds it; one never touched is as reset leaves it. -/
def State.core (s : State) (d c : Nat) : Core :=
  (s.cores.find? fun x => x.die == d && x.core == c).getD (Core.init d c)

def State.setCore (s : State) (k : Core) : State :=
  if s.cores.any fun x => x.die == k.die && x.core == k.core then
    { s with cores := s.cores.map fun x => if x.die == k.die && x.core == k.core then k else x }
  else { s with cores := s.cores ++ [k] }

def State.die (s : State) (d : Nat) : Die := (s.dies.find? (·.die == d)).getD (Die.init d)
def State.setDie (s : State) (x : Die) : State := { s with dies := s.dies.map fun y => if y.die == x.die then x else y }

def State.ctx (s : State) (n : Nat) : Context := (s.ctxs.find? (·.num == n)).getD (Context.init n)
def State.setCtx (s : State) (x : Context) : State := { s with ctxs := s.ctxs.map fun y => if y.num == x.num then x else y }

def State.tenant (s : State) (n : Nat) : Tenant := (s.tenants.find? (·.num == n)).getD (Tenant.init n)
def State.setTenant (s : State) (x : Tenant) : State :=
  { s with tenants := s.tenants.map fun y => if y.num == x.num then x else y }

def State.queue (s : State) (n : Nat) : LaunchQueue := (s.queues.find? (·.num == n)).getD (LaunchQueue.init n)
def State.setQueue (s : State) (x : LaunchQueue) : State :=
  { s with queues := s.queues.map fun y => if y.num == x.num then x else y }

def State.port? (s : State) (n : Nat) : Option Port := s.ports.find? (·.num == n)
def State.setPort (s : State) (x : Port) : State := { s with ports := s.ports.map fun y => if y.num == x.num then x else y }

def State.inst? (s : State) (c n : Nat) : Option Inst := s.insts.find? fun i => i.ctx == c && i.num == n
def State.setInst (s : State) (x : Inst) : State :=
  { s with insts := s.insts.map fun y => if y.ctx == x.ctx && y.num == x.num then x else y }

def State.op? (s : State) (id : Nat) : Option Op := s.ops.find? (·.id == id)
def State.setOp (s : State) (x : Op) : State := { s with ops := s.ops.map fun y => if y.id == x.id then x else y }
def State.dropOp (s : State) (id : Nat) : State := { s with ops := s.ops.filter fun y => y.id != id }

def State.item? (s : State) (id : Nat) : Option Item := s.items.find? (·.id == id)
/-- Replaces an item; one that is over goes, when the instruction it belongs to has completed before it (R84). -/
def State.setItem (s : State) (x : Item) : State :=
  if (x.st == .done || x.st == .failed) && x.op != 0 && s.ops.all (·.id != x.op) then { s with items := s.items.filter (·.id != x.id) }
  else { s with items := s.items.map fun y => if y.id == x.id then x else y }

def State.say (s : State) (m : OutMsg) : State := { s with out := s.out ++ [m] }

/-- Replaces a component of a core. -/
def State.onCore (s : State) (d c : Nat) (f : Core → Core) : State := s.setCore (f (s.core d c))
def State.onDie (s : State) (d : Nat) (f : Die → Die) : State := s.setDie (f (s.die d))
def State.onCtx (s : State) (c : Nat) (f : Context → Context) : State := s.setCtx (f (s.ctx c))

/-- Something has to come first: it is asked for, and the step is made once it has come (log 12). -/
def State.ask (s : State) (w : Wish) : State := { s with wants := s.wants ++ [w] }

/-! ### Fields of configuration registers -/

def Context.ten (c : Context) : Nat := (c.cfg.extractLsb' 0 4).toNat
def Context.en (c : Context) : Bool := c.cfg.getLsbD 8
def Context.amendLimit (c : Context) : Nat := (c.cfg.extractLsb' 9 4).toNat
def Context.kvec (c : Context) : Nat := (c.cfg.extractLsb' 16 7).toNat
def LaunchQueue.ten (q : LaunchQueue) : Nat := (q.ctl.extractLsb' 0 4).toNat
def LaunchQueue.prio (q : LaunchQueue) : Nat := (q.ctl.extractLsb' 4 3).toNat
def LaunchQueue.en (q : LaunchQueue) : Bool := q.ctl.getLsbD 8
def LaunchQueue.preempt (q : LaunchQueue) : Bool := q.ctl.getLsbD 9

/-- Enabled cores and DRAM channels of a die (R387). -/
def State.ncore (s : State) (d : Nat) : Nat := if d < 4 then (s.boot.ncore.extractLsb' (8 * d) 8).toNat else 0
def State.nchan (s : State) (d : Nat) : Nat := if d < 4 then (s.boot.nchan.extractLsb' (8 * d) 8).toNat else 0

/-- The device number; 0 until DEVID is written. -/
def State.dev (s : State) : Nat := match s.devid with | some d => d.toNat | none => 0

/-- The stride of the dies in physical memory (R387). -/
def dieStride : Nat := 0x2000000000

/-- The home die of a physical address (R387). -/
def homeDie (pa : Nat) : Nat := pa / dieStride

/-- A byte of device memory exists at this physical address (R387). -/
def State.present (s : State) (pa : Nat) : Bool :=
  homeDie pa < 4 && pa % dieStride < s.nchan (homeDie pa) * (1152 * 0x100000)

/-- An MSI-X vector of a tenant is raised (R340). -/
def State.msix (s : State) (ten v : Nat) : State := s.say (.msix (128 * ten + v))

/-- Scheduler of a slot (R8). -/
def schedOf (r : GRef) : Nat := r.slot / 32

/-! ### Registers of a gang -/

/-- A K register; K0 reads all ones (R9). -/
def Gang.kr (g : Gang) (r : KR) : W32 := if r == 0 then 0xFFFFFFFF else g.k.getD r.toNat 0
def Gang.sr (g : Gang) (r : SR) : W64 := g.s.getD r.toNat 0
def Gang.setS (g : Gang) (r : SR) (v : W64) : Gang := { g with s := g.s.setIfInBounds r.toNat v }
/-- Writes a K register; K0 keeps reading all ones (R9). -/
def Gang.setK (g : Gang) (r : KR) (v : W32) : Gang :=
  if r == 0 then g else { g with k := g.k.setIfInBounds r.toNat v }

def lookup {β : Type} (l : List (Nat × β)) (n : Nat) : Option β :=
  match l.find? fun p => p.1 == n with
  | some p => some p.2
  | none => none

/-- Replaces or adds the value listed at a number. -/
def insertAt {β : Type} (l : List (Nat × β)) (n : Nat) (v : β) : List (Nat × β) :=
  if l.any fun p => p.1 == n then l.map fun p => if p.1 == n then (n, v) else p else l ++ [(n, v)]

/-- What an unlisted V register holds: free values, one set for each block that was handed out (R6, R9, log 5). -/
def Gang.freeV (g : Gang) (n : Nat) : VReg :=
  Vector.ofFn fun l : Fin 32 => Config.freeLane (g.vseeds.getD (n / 32) 0) n l.val

/-- A V register in the main file. -/
def Gang.mainV (g : Gang) (n : Nat) : VReg := (lookup g.v n).getD (g.freeV n)

/-- The register is in the set of the region (R24). -/
def Region.inSet (r : Region) (n : Nat) : Bool := r.vb.toNat ≤ n && n < r.vb.toNat + 64 && r.mask.getLsbD (n - r.vb.toNat)

/-- The set registers of the open region live in the OPB (R25). -/
def Gang.inOpb (g : Gang) (n : Nat) : Bool :=
  match g.region with
  | some r => r.inSet n
  | none => false

/-- A V register as an instruction reads it (R25). -/
def Gang.vr (g : Gang) (n : Nat) : VReg :=
  match g.region with
  | some r => if r.inSet n then (lookup r.opb n).getD (g.mainV n) else g.mainV n
  | none => g.mainV n

def Gang.setMain (g : Gang) (n : Nat) (v : VReg) : Gang := { g with v := insertAt g.v n v }

/-- Writes a V register where it lives (R25). -/
def Gang.setV (g : Gang) (n : Nat) (v : VReg) : Gang :=
  match g.region with
  | some r => if r.inSet n then { g with region := some { r with opb := insertAt r.opb n v } } else g.setMain n v
  | none => g.setMain n v

/-- Lane `l` of a V register. -/
def lane (v : VReg) (l : Nat) : W32 := v.getD l 0

/-- A register built lane by lane. -/
def mkV (f : Nat → W32) : VReg := Vector.ofFn fun l : Fin 32 => f l.val

/-- The lanes of a mask that are set, ascending. -/
def lanesOf (m : W32) : List Nat := (List.range 32).filter fun l => m.getLsbD l

/-- The bits of each selected lane replaced (R173, R197). -/
def mergeV (old new : VReg) (lanes bits : W32) : VReg :=
  mkV fun l => if lanes.getLsbD l then (lane old l &&& ~~~bits) ||| (lane new l &&& bits) else lane old l

/-- The pair that starts at an even register, as 64 bits per lane (R182). -/
def Gang.pair (g : Gang) (n l : Nat) : W64 := lane (g.vr (n + 1)) l ++ lane (g.vr n) l

/-! ### Split table -/

def Gang.split? (g : Gang) (sid : Nat) : Option Split := g.table.find? (·.sid == sid)
def Gang.setSplit (g : Gang) (sp : Split) : Gang :=
  { g with table := g.table.map fun x => if x.sid == sp.sid then sp else x }
def Gang.onSplit (g : Gang) (sid : Nat) (f : Split → Split) : Gang :=
  { g with table := g.table.map fun x => if x.sid == sid then f x else x }

/-- The gang has more than one split, or one below depth 0 (R24, R225). -/
def Gang.diverged (g : Gang) : Bool := g.table.any fun x => x.kind == .join

/-! ### Flag counters and landing writes -/

def Gang.counter (g : Gang) (k : Nat) : Nat := (g.fc.getD k 0).toNat
def Gang.incFlag (g : Gang) (k : BitVec 4) (n : Nat := 1) : Gang :=
  if k.toNat < 12 then { g with fc := g.fc.setIfInBounds k.toNat (g.fc.getD k.toNat 0 + BitVec.ofNat 6 n) } else g
def Gang.decFlag (g : Gang) (k : BitVec 4) (n : Nat := 1) : Gang :=
  if k.toNat < 12 then { g with fc := g.fc.setIfInBounds k.toNat (BitVec.ofNat 6 ((g.fc.getD k.toNat 0).toNat - n)) } else g

/-- One write lands (R39, R175). A vector write of an aborted region's OPB is discarded (R30); after step 2 of RCOMMIT one without a flag lands in the
main file; the FPSTAT bits of a discarded result are set (log 67). -/
def Gang.land (g : Gang) (opb : Bool) : Wr → Gang
  | .sreg r v => g.setS r v
  | .kreg r v => g.setK r v
  | .vreg r lanes bits v =>
    if opb then
      match g.region with
      | some x =>
        if x.stage == .aborting && x.inSet r.toNat then g
        else g.setV r.toNat (mergeV (g.vr r.toNat) v lanes bits)
      | none => g.setV r.toNat (mergeV (g.vr r.toNat) v lanes bits)
    else g.setMain r.toNat (mergeV (g.mainV r.toNat) v lanes bits)
  | .fpOr b => { g with fpstat := g.fpstat ||| b }
  | .fpSet b => { g with fpstat := b }
  | .gsClear b => { g with gstat := g.gstat &&& ~~~b }
  | .gsSet b => { g with gstat := g.gstat ||| b }
  | .trapen b => { g with trapen := b }
  | .fmt sid v => g.onSplit sid fun sp => { sp with fmt := v }
  | .exec sid v => g.onSplit sid fun sp => { sp with exec := v }
  | .tidx v => { g with tidx := v }

def Gang.landAll (g : Gang) (opb : Bool) (ws : List Wr) : Gang := ws.foldl (fun g w => g.land opb w) g

/-- Writes to a gang that may have ended: discarded then (R167). -/
def State.land (s : State) (uid : Nat) (opb : Bool) (ws : List Wr) : State := s.onGang uid fun g => g.landAll opb ws

/-! ### The first lane of a mask, and Takes -/

/-- The lanes that take part in a lane-predicated instruction (R11, R173). -/
def takes (g : Gang) (sp : Split) (p : Pred) : W32 :=
  sp.exec &&& (if p.pn then ~~~(g.kr p.pg) else g.kr p.pg)

def popc : Nat → Nat → Nat
  | 0, _ => 0
  | n + 1, v => v % 2 + popc n (v / 2)

/-- The pages of the Core Store a gang holds (R45, R46); a parked gang holds none (R327). -/
def Gang.charge (g : Gang) : Nat :=
  if g.status == .saved then 0 else g.vblocks + 1 + g.stash.length + (if g.spill then 1 else 0)

/-- The pages left to the L1 of a core (R45, R46). -/
def State.l1Pages (s : State) (d c : Nat) : Nat :=
  let used := (s.gangs.filter fun g => g.loc.die == d && g.loc.core == c).foldl (fun n g => n + g.charge) 0
  let pool := (s.core d c).cohorts.foldl (fun n k => n + k.pool) 0
  512 - used - pool

/-- The owner a gang acts for: its cohort when it has one (R57). -/
def Gang.owner (g : Gang) : Owner :=
  match g.cohort with
  | some n => .cohort n
  | none => .gang g.uid

end Sys2Proof.Machine
end

