-- ==== Sys2Proof/Machine/Float.lean ====
section
/-! DEFINITION. Number formats and exact arithmetic (03): floating values as exact dyadic numbers, one rounding for every
format and mode, the operations of Tables 08.5 and R79, half-step codes, and the Chisel sums. -/

namespace Sys2Proof.Machine

/-- FPSTAT bits (R70). -/
def flNV : BitVec 5 := 1
def flDZ : BitVec 5 := 2
def flOF : BitVec 5 := 4
def flUF : BitVec 5 := 8
def flNX : BitVec 5 := 16

/-- A floating-point format: exponent and fraction widths (R67). -/
structure FFmt where
  eb : Nat
  fb : Nat
  deriving DecidableEq, Repr

def fF64 : FFmt := { eb := 11, fb := 52 }
def fF32 : FFmt := { eb := 8, fb := 23 }
def fF16 : FFmt := { eb := 5, fb := 10 }
def fBF16 : FFmt := { eb := 8, fb := 7 }
def fACC : FFmt := { eb := 12, fb := 67 }

def FFmt.bias (f : FFmt) : Nat := 2 ^ (f.eb - 1) - 1
def FFmt.width (f : FFmt) : Nat := f.eb + f.fb + 1
def FFmt.signBit (f : FFmt) : Nat := 2 ^ (f.eb + f.fb)
/-- The canonical NaN (R67, R68). -/
def FFmt.nan (f : FFmt) : Nat := (2 ^ f.eb - 1) * 2 ^ f.fb + 2 ^ (f.fb - 1)
def FFmt.inf (f : FFmt) (neg : Bool) : Nat := (2 ^ f.eb - 1) * 2 ^ f.fb + (if neg then f.signBit else 0)
def FFmt.maxFin (f : FFmt) (neg : Bool) : Nat := (2 ^ f.eb - 1) * 2 ^ f.fb - 1 + (if neg then f.signBit else 0)
def FFmt.zero (f : FFmt) (neg : Bool) : Nat := if neg then f.signBit else 0
/-- The exponent of the smallest subnormal (R67). -/
def FFmt.qmin (f : FFmt) : Int := 1 - (f.bias : Int) - f.fb

/-- An exact value: a NaN, an infinity, or m times 2 to the e with a sign (R67). -/
inductive FVal where
  | nan (signalling : Bool)
  | inf (neg : Bool)
  | fin (neg : Bool) (m : Nat) (e : Int)
  deriving DecidableEq, Repr

/-- The value that bits encode (R67). -/
def FVal.ofBits (f : FFmt) (n : Nat) : FVal :=
  let frac := n % 2 ^ f.fb
  let ex := n / 2 ^ f.fb % 2 ^ f.eb
  let neg := n / f.signBit % 2 == 1
  if ex == 2 ^ f.eb - 1 then
    (if frac == 0 then .inf neg else .nan (frac / 2 ^ (f.fb - 1) == 0))
  else if ex == 0 then .fin neg frac f.qmin
  else .fin neg (2 ^ f.fb + frac) (f.qmin + (ex : Int) - 1)

def FVal.isNan : FVal → Bool
  | .nan _ => true
  | _ => false

/-- NV where an operand is a signalling NaN (R68). -/
def FVal.snan : FVal → BitVec 5
  | .nan true => flNV
  | _ => 0

def FVal.isZero : FVal → Bool
  | .fin _ 0 _ => true
  | _ => false

def FVal.negate : FVal → FVal
  | .nan s => .nan s
  | .inf n => .inf (!n)
  | .fin n m e => .fin (!n) m e

/-- A result with the flags it raises. -/
structure FRes where
  bits  : Nat
  flags : BitVec 5
  deriving DecidableEq, Repr

/-- Whether a remainder `r` of 2^s (with a sticky part) rounds the magnitude `sig` up (R69). -/
def roundsUp (rm : BitVec 2) (neg : Bool) (sig r s : Nat) (st : Bool) : Bool :=
  let inexact := r != 0 || st
  match rm.toNat with
  | 0 => s != 0 && (2 * r > 2 ^ s || (2 * r == 2 ^ s && (st || sig % 2 == 1)))
  | 1 => false
  | 2 => neg && inexact
  | _ => !neg && inexact

/-- The result that replaces an overflow (R69, step 4). -/
def overflowTo (f : FFmt) (rm : BitVec 2) (neg : Bool) : Nat :=
  match rm.toNat, neg with
  | 0, _ => f.inf neg
  | 1, _ => f.maxFin neg
  | 2, false => f.maxFin false
  | 2, true => f.inf true
  | _, false => f.inf false
  | _, true => f.maxFin true

/-- RNE(x, f, rm) of a non-zero magnitude m × 2^e, to which a sticky part below one unit of m may be added (R69). -/
def roundMag (f : FFmt) (rm : BitVec 2) (neg : Bool) (m : Nat) (e : Int) (st : Bool) : FRes :=
  let top : Int := (Nat.log2 m : Int) + e
  let at' := fun (q : Int) =>
    let s := (q - e).toNat
    let sig := m * 2 ^ (e - q).toNat / 2 ^ s
    let r := m * 2 ^ (e - q).toNat % 2 ^ s
    (sig + (if roundsUp rm neg sig r s st then 1 else 0), r != 0 || st)
  let emin : Int := 1 - (f.bias : Int)
  let q := max (top - f.fb) f.qmin
  let (sig, inexact) := at' q
  let tiny := top < emin && (top < emin - 1 || (at' (top - f.fb)).1 < 2 ^ (f.fb + 1))
  if sig != 0 && (Nat.log2 sig : Int) + q > f.bias then ⟨overflowTo f rm neg, flOF ||| flNX⟩
  else
    let body := if sig == 0 then 0 else (q - f.qmin).toNat * 2 ^ f.fb + sig
    ⟨body + (if neg then f.signBit else 0), if inexact then (if tiny then flNX ||| flUF else flNX) else 0⟩

/-- RNE(x, f, rm) of any exact value (R69); a zero keeps its sign. -/
def roundF (f : FFmt) (rm : BitVec 2) : FVal → FRes
  | .nan s => ⟨f.nan, if s then flNV else 0⟩
  | .inf n => ⟨f.inf n, 0⟩
  | .fin n 0 _ => ⟨f.zero n, 0⟩
  | .fin n m e => roundMag f rm n m e false

/-- A signed dyadic number, to build exact sums. -/
def sgnInt (neg : Bool) (m : Nat) : Int := if neg then -(m : Int) else m

/-- The exact sum of two finite values; a zero sum takes the sign of R69. -/
def addFin (rm : BitVec 2) (n1 : Bool) (m1 : Nat) (e1 : Int) (n2 : Bool) (m2 : Nat) (e2 : Int) : FVal :=
  let e := min e1 e2
  let s := sgnInt n1 (m1 * 2 ^ (e1 - e).toNat) + sgnInt n2 (m2 * 2 ^ (e2 - e).toNat)
  if s == 0 then .fin (if n1 == n2 then n1 else rm == 2) 0 e
  else .fin (s < 0) s.natAbs e

/-- The exact sum, with ∞ − ∞ invalid (R69, R70). -/
def addV (rm : BitVec 2) (a b : FVal) : FVal × BitVec 5 :=
  match a, b with
  | .nan x, .nan y => (.nan false, if x || y then flNV else 0)
  | .nan x, _ => (.nan false, if x then flNV else 0)
  | _, .nan y => (.nan false, if y then flNV else 0)
  | .inf x, .inf y => if x == y then (.inf x, 0) else (.nan false, flNV)
  | .inf x, _ => (.inf x, 0)
  | _, .inf y => (.inf y, 0)
  | .fin n1 m1 e1, .fin n2 m2 e2 => (addFin rm n1 m1 e1 n2 m2 e2, 0)

/-- The exact product, with 0 × ∞ invalid (R69, R70). -/
def mulV (a b : FVal) : FVal × BitVec 5 :=
  match a, b with
  | .nan x, .nan y => (.nan false, if x || y then flNV else 0)
  | .nan x, _ => (.nan false, if x then flNV else 0)
  | _, .nan y => (.nan false, if y then flNV else 0)
  | .inf x, .inf y => (.inf (x != y), 0)
  | .inf x, .fin n m _ => if m == 0 then (.nan false, flNV) else (.inf (x != n), 0)
  | .fin n m _, .inf y => if m == 0 then (.nan false, flNV) else (.inf (y != n), 0)
  | .fin n1 m1 e1, .fin n2 m2 e2 => (.fin (n1 != n2) (m1 * m2) (e1 + e2), 0)

/-- Rounds an exact value and adds flags already raised. -/
def finish (f : FFmt) (rm : BitVec 2) (r : FVal × BitVec 5) : FRes :=
  let x := roundF f rm r.1
  ⟨x.bits, x.flags ||| r.2⟩

def fAdd (f : FFmt) (rm : BitVec 2) (a b : Nat) : FRes := finish f rm (addV rm (.ofBits f a) (.ofBits f b))
def fSub (f : FFmt) (rm : BitVec 2) (a b : Nat) : FRes := finish f rm (addV rm (.ofBits f a) (FVal.ofBits f b).negate)
def fMul (f : FFmt) (rm : BitVec 2) (a b : Nat) : FRes := finish f rm (mulV (.ofBits f a) (.ofBits f b))

/-- p + c with one rounding, p the exact product a × b, perhaps negated (R71, R72). -/
def fFma (f : FFmt) (rm : BitVec 2) (negP negC : Bool) (a b c : Nat) : FRes :=
  let c := FVal.ofBits f c
  let (p, fl) := mulV (.ofBits f a) (.ofBits f b)
  let p := if negP then p.negate else p
  let (s, fl2) := addV rm p (if negC then c.negate else c)
  finish f rm (s, fl ||| fl2 ||| c.snan)

/-- A quotient of magnitudes with enough bits for any format, and its sticky part. -/
def divMag (m1 : Nat) (e1 : Int) (m2 : Nat) (e2 : Int) : Nat × Int × Bool :=
  let k := 160 + Nat.log2 m2
  (m1 * 2 ^ k / m2, e1 - e2 - k, m1 * 2 ^ k % m2 != 0)

/-- RNE(a / b) (R71, R72). -/
def fDivV (f : FFmt) (rm : BitVec 2) (a b : FVal) : FRes :=
  match a, b with
  | .nan x, .nan y => ⟨f.nan, if x || y then flNV else 0⟩
  | .nan x, _ => ⟨f.nan, if x then flNV else 0⟩
  | _, .nan y => ⟨f.nan, if y then flNV else 0⟩
  | .inf _, .inf _ => ⟨f.nan, flNV⟩
  | .inf x, .fin n _ _ => ⟨f.inf (x != n), 0⟩
  | .fin n _ _, .inf y => ⟨f.zero (n != y), 0⟩
  | .fin n1 m1 e1, .fin n2 m2 e2 =>
    if m2 == 0 then (if m1 == 0 then ⟨f.nan, flNV⟩ else ⟨f.inf (n1 != n2), flDZ⟩)
    else if m1 == 0 then ⟨f.zero (n1 != n2), 0⟩
    else
      let (m, e, st) := divMag m1 e1 m2 e2
      roundMag f rm (n1 != n2) m e st

def fDiv (f : FFmt) (rm : BitVec 2) (a b : Nat) : FRes := fDivV f rm (.ofBits f a) (.ofBits f b)
def fRcp (f : FFmt) (rm : BitVec 2) (a : Nat) : FRes := fDivV f rm (.fin false 1 0) (.ofBits f a)

/-- The integer square root, bit by bit: `k` bits still to be tried below the root `r` found so far. -/
def isqrtBits (n : Nat) : Nat → Nat → Nat
  | 0, r => r
  | k + 1, r => isqrtBits n k (if (r + 2 ^ k) * (r + 2 ^ k) ≤ n then r + 2 ^ k else r)

def isqrt (n : Nat) : Nat := isqrtBits n (Nat.log2 n / 2 + 1) 0

/-- RNE(√a) (R71, R72). -/
def fSqrt (f : FFmt) (rm : BitVec 2) (a : Nat) : FRes :=
  match FVal.ofBits f a with
  | .nan s => ⟨f.nan, if s then flNV else 0⟩
  | .inf n => if n then ⟨f.nan, flNV⟩ else ⟨f.inf false, 0⟩
  | .fin n m e =>
    if m == 0 then ⟨f.zero n, 0⟩
    else if n then ⟨f.nan, flNV⟩
    else
      let k : Nat := 160 + (if e % 2 == 0 then 0 else 1)
      let x := m * 2 ^ k
      let r := isqrt x
      roundMag f rm false r ((e - k) / 2) (r * r != x)

/-- RNE(1 / √a) (R71, R72). -/
def fRsqrt (f : FFmt) (rm : BitVec 2) (a : Nat) : FRes :=
  match FVal.ofBits f a with
  | .nan s => ⟨f.nan, if s then flNV else 0⟩
  | .inf n => if n then ⟨f.nan, flNV⟩ else ⟨f.zero false, 0⟩
  | .fin n m e =>
    if m == 0 then ⟨f.inf n, flDZ⟩
    else if n then ⟨f.nan, flNV⟩
    else
      -- 1/(m 2^e) = (2^k / m) 2^(-e-k), with -e-k even; the root of the floor is the floor of the root
      let k : Nat := 240 + (if e % 2 == 0 then 0 else 1)
      let q := 2 ^ k / m
      let r := isqrt q
      roundMag f rm false r ((-e - k) / 2) (r * r != q || 2 ^ k % m != 0)

/-- ln 2 × 2^256, rounded down. -/
def ln2c : Nat := 80260960185991308862233904206310070533990667611589946606122867505419956976171

/-- exp of y / 2^256 for 0 ≤ y < 2^256: the Taylor terms from the k-th on, each rounded down. -/
def expTerms (y : Nat) : Nat → Nat → Nat → Nat → Nat
  | 0, _, _, acc => acc
  | fuel + 1, k, t, acc =>
    let t := t * y / 2 ^ 256 / k
    expTerms y fuel (k + 1) t (acc + t)

/-- 2^(p / 2^256) × 2^256 rounded down to within a few units, for 0 ≤ p < 2^256. -/
def exp2Frac (p : Nat) : Nat := expTerms (p * ln2c / 2 ^ 256) 60 1 (2 ^ 256) (2 ^ 256)

/-- Exp2CR(x, f, rm) (R71, R72) for an exact real x. -/
def exp2V (f : FFmt) (rm : BitVec 2) (x : FVal) : FRes :=
  match x with
  | .nan s => ⟨f.nan, if s then flNV else 0⟩
  | .inf n => if n then ⟨f.zero false, 0⟩ else ⟨f.inf false, 0⟩
  | .fin n m e =>
    if m == 0 then roundMag f rm false 1 0 false
    else if (Nat.log2 m : Int) + e ≥ 14 then roundMag f rm false 1 (if n then -40000 else 40000) false
    else
      -- x as a signed number of units 2^-256; a part below that only makes the value inexact
      let whole := m * 2 ^ (e + 256).toNat / 2 ^ (-e - 256).toNat
      let lost := m * 2 ^ (e + 256).toNat % 2 ^ (-e - 256).toNat != 0
      let v : Int := if n then -(whole : Int) - (if lost then 1 else 0) else whole
      let ip := v / (2 ^ 256 : Int)
      let fp := (v % (2 ^ 256 : Int)).toNat
      if fp == 0 && !lost then roundMag f rm false 1 ip false
      else roundMag f rm false (exp2Frac fp) (ip - 256) true

def fExp2 (f : FFmt) (rm : BitVec 2) (a : Nat) : FRes := exp2V f rm (.ofBits f a)

/-- The first `k` binary places of log2 of y / 2^400, for 1 ≤ y / 2^400 < 2, by repeated squaring. -/
def log2Bits : Nat → Nat → Nat → Nat
  | 0, _, acc => acc
  | k + 1, y, acc =>
    let z := y * y / 2 ^ 400
    if z < 2 ^ 401 then log2Bits k z (2 * acc) else log2Bits k (z / 2) (2 * acc + 1)

/-- RNE(log2 a) (R71, R72). -/
def fLog2 (f : FFmt) (rm : BitVec 2) (a : Nat) : FRes :=
  match FVal.ofBits f a with
  | .nan s => ⟨f.nan, if s then flNV else 0⟩
  | .inf n => if n then ⟨f.nan, flNV⟩ else ⟨f.inf false, 0⟩
  | .fin n m e =>
    if m == 0 then ⟨f.inf true, flDZ⟩
    else if n then ⟨f.nan, flNV⟩
    else
      let l := Nat.log2 m
      let ip : Int := (l : Int) + e
      if m == 2 ^ l then
        (if ip == 0 then ⟨f.zero false, 0⟩ else roundMag f rm (ip < 0) ip.natAbs 0 false)
      else
        let v : Int := ip * 2 ^ 192 + (log2Bits 192 (m * 2 ^ (400 - l)) 0 : Nat)
        if v < 0 then roundMag f rm true (v.natAbs - 1) (-192) true else roundMag f rm false v.toNat (-192) true

/-- Ordering of two values that are no NaNs: −1, 0 or 1. −0 equals +0. -/
def cmpV (a b : FVal) : Int :=
  match a, b with
  | .inf x, .inf y => if x == y then 0 else if x then -1 else 1
  | .inf x, _ => if x then -1 else 1
  | _, .inf y => if y then 1 else -1
  | .fin n1 m1 e1, .fin n2 m2 e2 =>
    let e := min e1 e2
    let d := sgnInt n1 (m1 * 2 ^ (e1 - e).toNat) - sgnInt n2 (m2 * 2 ^ (e2 - e).toNat)
    if d < 0 then -1 else if d == 0 then 0 else 1
  | _, _ => 0

def FVal.neg? : FVal → Bool
  | .fin n _ _ => n
  | .inf n => n
  | .nan _ => false

/-- minimumNumber and maximumNumber (R73); `mx` asks for the maximum. -/
def fMinMax (f : FFmt) (mx : Bool) (a b : Nat) : FRes :=
  let x := FVal.ofBits f a
  let y := FVal.ofBits f b
  let fl := x.snan ||| y.snan
  if x.isNan && y.isNan then ⟨f.nan, fl⟩
  else if x.isNan then ⟨b, fl⟩
  else if y.isNan then ⟨a, fl⟩
  else
    let c := cmpV x y
    let aLess := c < 0 || (c == 0 && x.neg? && !y.neg?)
    ⟨if aLess != mx then a else b, fl⟩

/-- VFABS and VFNEG: a NaN gives the canonical NaN, and no flag is set (R68). -/
def fAbs (f : FFmt) (a : Nat) : FRes := if (FVal.ofBits f a).isNan then ⟨f.nan, 0⟩ else ⟨a % f.signBit, 0⟩
def fNeg (f : FFmt) (a : Nat) : FRes :=
  if (FVal.ofBits f a).isNan then ⟨f.nan, 0⟩
  else ⟨a % f.signBit + (if a / f.signBit % 2 == 1 then 0 else f.signBit), 0⟩

/-- The class mask of Table 08.6. -/
def fClass (f : FFmt) (a : Nat) : FRes :=
  let sub := a / 2 ^ f.fb % 2 ^ f.eb == 0
  ⟨match FVal.ofBits f a with
    | .nan false => 512
    | .nan true => 256
    | .inf false => 128
    | .inf true => 1
    | .fin n m _ =>
      if m == 0 then (if n then 8 else 16)
      else if sub then (if n then 4 else 32)
      else (if n then 2 else 64), 0⟩

/-- VFSCALE: RNE(a × 2^b) (R191). -/
def fScale (f : FFmt) (rm : BitVec 2) (a : Nat) (b : Int) : FRes :=
  match FVal.ofBits f a with
  | .fin n m e =>
    if m == 0 then ⟨a, 0⟩
    else
      -- beyond this any finite value has overflowed, or fallen far below the smallest subnormal
      let b := if b > 10000 then 10000 else if b < -10000 then -10000 else b
      roundMag f rm n m (e + b) false
  | v => roundF f rm v

/-- RoundInt of num / den under rm (R76). -/
def roundRat (rm : BitVec 2) (num : Int) (den : Nat) : Int :=
  let q := num / (den : Int)
  let r := num % (den : Int)
  match rm.toNat with
  | 0 => if 2 * r > den || (2 * r == den && q % 2 != 0) then q + 1 else q
  | 1 => if num < 0 && r != 0 then q + 1 else q
  | 2 => q
  | _ => if r != 0 then q + 1 else q

/-- RoundInt of a finite value and whether it was inexact. -/
def roundIntV (rm : BitVec 2) (n : Bool) (m : Nat) (e : Int) : Int × Bool :=
  let num := sgnInt n (m * 2 ^ e.toNat)
  let den := 2 ^ (-e).toNat
  (roundRat rm num den, num % (den : Int) != 0)

/-- VFRINT (R191). -/
def fRint (f : FFmt) (rm : BitVec 2) (a : Nat) : FRes :=
  match FVal.ofBits f a with
  | .fin n m e =>
    if m == 0 || e ≥ 0 then ⟨a, 0⟩
    else
      let (i, inex) := roundIntV rm n m e
      ⟨(if i == 0 then f.zero n else (roundMag f 0 n i.natAbs 0 false).bits), if inex then flNX else 0⟩
  | .inf _ => ⟨a, 0⟩
  | .nan s => ⟨f.nan, if s then flNV else 0⟩

/-- The conditions of VFCMP with the flags of R193. -/
def fCmp (f : FFmt) (cond : FCond) (a b : Nat) : Bool × BitVec 5 :=
  let x := FVal.ofBits f a
  let y := FVal.ofBits f b
  let un := x.isNan || y.isNan
  let sn := x.snan ||| y.snan
  let c := cmpV x y
  match cond with
  | .eq => (!un && c == 0, sn)
  | .ne => (un || c != 0, sn)
  | .lt => (!un && c < 0, if un then flNV else 0)
  | .le => (!un && c ≤ 0, if un then flNV else 0)
  | .gt => (!un && c > 0, if un then flNV else 0)
  | .ge => (!un && c ≥ 0, if un then flNV else 0)
  | .ord => (!un, sn)
  | .unord => (un, sn)

/-! ### Conversions (R79, R76) -/

/-- What a type code of Table 08.7 names: a float, an integer (signed, width) or a half-step format (width). -/
inductive NType where
  | flt (f : FFmt)
  | int (signed : Bool) (w : Nat)
  | hs (w : Nat)
  deriving DecidableEq, Repr

def NType.ofCode (c : BitVec 4) : NType :=
  match c.toNat with
  | 0 => .flt fF32
  | 1 => .flt fF64
  | 2 => .flt fF16
  | 3 => .flt fBF16
  | 4 => .int true 8
  | 5 => .int false 8
  | 6 => .int true 16
  | 7 => .int false 16
  | 8 => .int true 32
  | 9 => .int false 32
  | 10 => .int true 64
  | 11 => .int false 64
  | 12 => .hs 8
  | 13 => .hs 4
  | _ => .flt fACC

def NType.width : NType → Nat
  | .flt f => f.width
  | .int _ w => w
  | .hs w => w

def intMin (signed : Bool) (w : Nat) : Int := if signed then -(2 ^ (w - 1) : Int) else 0
def intMax (signed : Bool) (w : Nat) : Int := if signed then 2 ^ (w - 1) - 1 else 2 ^ w - 1
def clampInt (lo hi x : Int) : Int := if x < lo then lo else if x > hi then hi else x
/-- The low `w` bits of an integer (R65). -/
def wrapInt (w : Nat) (x : Int) : Nat := (x % (2 ^ w : Int)).toNat
/-- The integer that `w` bits stand for (R65). -/
def readInt (signed : Bool) (w n : Nat) : Int := if signed && n / 2 ^ (w - 1) % 2 == 1 then (n : Int) - 2 ^ w else n

/-- A float to an integer type (R79). -/
def cvtFI (rm : BitVec 2) (signed : Bool) (w : Nat) (x : FVal) : FRes :=
  match x with
  | .nan _ => ⟨0, flNV⟩
  | .inf n => ⟨wrapInt w (if n then intMin signed w else intMax signed w), flNV⟩
  | .fin n m e =>
    -- beyond 2^200 any value is out of range of every integer type
    if (Nat.log2 m : Int) + e > 200 && m != 0 then ⟨wrapInt w (if n then intMin signed w else intMax signed w), flNV⟩
    else
      let (i, inex) := roundIntV rm n m e
      let c := clampInt (intMin signed w) (intMax signed w) i
      ⟨wrapInt w c, if c != i then flNV else if inex then flNX else 0⟩

/-- An integer to a float type (R79). -/
def cvtIF (rm : BitVec 2) (f : FFmt) (i : Int) : FRes :=
  if i == 0 then ⟨0, 0⟩ else roundMag f rm (i < 0) i.natAbs 0 false

/-- A real to a half-step code (R76): bias 7.5 or 127.5, scale s, zero point z. -/
def cvtToHs (rm : BitVec 2) (w : Nat) (x s : FVal) (z : Int) : FRes :=
  let cmax : Int := 2 ^ w - 1
  let half : Nat := 2 ^ (w - 1)
  match x, s with
  | .nan _, _ => ⟨half, flNV⟩
  | _, .nan _ => ⟨half, flNV⟩
  | _, .inf _ => ⟨half, flNV⟩
  | .inf n, .fin ns ms _ => if ms == 0 then ⟨half, flNV⟩ else ⟨if n != ns then 0 else cmax.toNat, flNV⟩
  | .fin n m e, .fin ns ms es =>
    if ms == 0 then ⟨half, flNV⟩
    else
      -- x/s + z + bias = num/den
      let num0 := sgnInt (n != ns) (m * 2 ^ (e - es).toNat)
      let den0 := ms * 2 ^ (es - e).toNat
      let num := 2 * num0 + (2 * z + cmax) * den0
      let den := 2 * den0
      let c := roundRat rm num den
      let cc := clampInt 0 cmax c
      ⟨cc.toNat, if cc != c then flNV else if num % (den : Int) != 0 then flNX else 0⟩

/-- s × (ℓ − z) for a half-step code (R74, R76). -/
def hsValue (w : Nat) (code : Nat) (s : FVal) (z : Int) : FVal × BitVec 5 :=
  let l2 : Int := 2 * (code : Int) - (2 ^ w - 1) - 2 * z
  mulV s (.fin (l2 < 0) l2.natAbs (-1))

/-- The conversions of R79 and R76 from the bits of one type to the bits of another. -/
def convert (src dst : NType) (rm : BitVec 2) (sat : Bool) (s : Nat) (z : Int) (a : Nat) : FRes :=
  match src, dst with
  | .flt f, .flt g => roundF g rm (.ofBits f a)
  | .flt f, .int sg w => cvtFI rm sg w (.ofBits f a)
  | .flt f, .hs w => cvtToHs rm w (.ofBits f a) (.ofBits fF16 s) z
  | .int sg w, .flt g => cvtIF rm g (readInt sg w a)
  | .int sg w, .int dg v =>
    let i := readInt sg w a
    ⟨wrapInt v (if sat then clampInt (intMin dg v) (intMax dg v) i else i), 0⟩
  | .hs w, .flt g => finish g rm (hsValue w a (.ofBits fF16 s) z)
  | _, _ => ⟨0, 0⟩

/-! ### Matrix accumulation (R81, R82) -/

/-- One step of R81: C plus four products, one rounding into `f` under RNE. -/
def macStep (f : FFmt) (c : Nat) (ps : List (FVal × FVal)) : Nat :=
  let prods := ps.map fun p => (mulV p.1 p.2).1
  let cv := FVal.ofBits f c
  let all := cv :: prods
  if all.any FVal.isNan then f.nan
  else if all.any (fun v => v == .inf true) && all.any (fun v => v == .inf false) then f.nan
  else if all.any (fun v => v == .inf true) then f.inf true
  else if all.any (fun v => v == .inf false) then f.inf false
  else
    let t := prods.foldl (fun acc p => (addV 0 acc p).1) (.fin false 0 0)
    let t := if t.isZero then .fin false 0 0 else t
    (finish f 0 (addV 0 cv t)).bits

/-- One group of R82: v from the integer sum and the two scales, then one or two roundings. -/
def hsStep (f : FFmt) (c : Nat) (sA sB : FVal) (sum : Int) : Nat :=
  let (ss, _) := mulV sA sB
  let (v, _) := mulV ss (.fin (sum < 0) sum.natAbs (-2))
  let v := if v.isZero then FVal.fin false 0 0 else v
  let v := if f == fF32 then FVal.ofBits fF32 (roundF fF32 0 v).bits else v
  let v := if v.isZero then FVal.fin false 0 0 else v
  (finish f 0 (addV 0 (.ofBits f c) v)).bits

/-! ### Chisel (R87 to R89) -/

def f32 (n : Nat) : FVal := FVal.ofBits fF32 n
def negInf32 : Nat := 0xFF800000

/-- The exact difference a − b of two F32 values, 0 for equal infinities (R87). -/
def chD (a b : Nat) : FVal :=
  if cmpV (f32 a) (f32 b) == 0 then .fin false 0 0 else (addV 0 (f32 a) (f32 b).negate).1

/-- One element of the running maximum and sum of R87. -/
def chAdd (m s y : Nat) : Nat × Nat :=
  if y == negInf32 then (m, s)
  else if cmpV (f32 y) (f32 m) > 0 then
    let r := (fMul fF32 0 s (exp2V fF32 0 (chD m y)).bits).bits
    (y, (fAdd fF32 0 r 0x3F800000).bits)
  else (m, (fAdd fF32 0 s (exp2V fF32 0 (chD y m)).bits).bits)

/-- T of R89. -/
def chT (s mi m : Nat) : Nat :=
  if (f32 s).isZero then 0 else (fMul fF32 0 s (exp2V fF32 0 (chD mi m)).bits).bits

end Sys2Proof.Machine
end

