-- ==== Sys2Proof/Machine/Coherence.lean ====
section
/-! DEFINITION. Lines, their copies and their order points (R115, R116, R356 to R363): what a write does to every copy, how a
dirty holder is recalled, and how a device agent reads and writes memory in one step (log 12). -/

namespace Sys2Proof.Machine

def lineBase (a : Nat) : Nat := a / 128 * 128

/-- Replaces bytes of a line's data. -/
def setBytes (data : List Byte) (bytes : List (Nat × Byte)) : List Byte :=
  bytes.foldl (fun d p => d.set p.1 p.2) data

/-- The frame of a stash page covers this line, and the page is mapped (R52). -/
def StashPage.covers (p : StashPage) (line : Nat) : Bool :=
  match p.frame with
  | some f => p.mapped && f ≤ line && line < f + 4096
  | none => false

def StashPage.lineState (p : StashPage) (ln : Nat) : StLine := (lookup p.lines ln).getD .invalid

/-- The line of the page that holds a physical line. -/
def StashPage.lnOf (p : StashPage) (line : Nat) : Nat :=
  match p.frame with
  | some f => (line - f) / 128
  | none => 0

/-- Applies a change to one stash page of a gang. -/
def Gang.onPage (g : Gang) (n : Nat) (f : StashPage → StashPage) : Gang :=
  match g.stash[n]? with
  | some p => { g with stash := g.stash.set n (f p) }
  | none => g

/-- A touch of a stash line of a gated core, on whose behalf the power controller answers: its page is recorded, and the core is no sharer of
the line any more (R365). -/
def State.touchGated (s : State) (uid n line : Nat) : State :=
  match s.gang? uid with
  | none => s
  | some g =>
    if (s.core g.loc.die g.loc.core).gated then
      (s.onCore g.loc.die g.loc.core fun k => { k with touched := (uid, n) :: k.touched }).onGang uid fun g => g.onPage n fun p =>
        { p with lines := p.lines.filter fun l => l.1 != p.lnOf line }
    else s

/-- The copies of a line in stash pages: gang, page, line of the page, state (R53, R356). -/
def State.stashHolders (s : State) (line : Nat) : List (Nat × Nat × Nat × StLine) :=
  s.gangs.flatMap fun g =>
    (List.range g.stash.length).filterMap fun n =>
      match g.stash[n]? with
      | some p =>
        if p.covers line && p.lineState (p.lnOf line) != .invalid then
          some (g.uid, n, p.lnOf line, p.lineState (p.lnOf line))
        else none
      | none => none

/-- Every copy of a coherent line that a write must reach (R115, R51, R53, R359, R368). -/
def State.copies (s : State) (line : Nat) : List CopyRef :=
  (s.cores.filterMap fun k => if k.l1.any fun x => x.line == line && !x.nc then some (CopyRef.l1 k.die k.core) else none) ++
  (s.dies.filterMap fun d => if d.l2.any fun x => x.line == line && !x.nc then some (CopyRef.l2 d.die) else none) ++
  ((s.stashHolders line).map fun h => CopyRef.stash h.1 h.2.1) ++
  (if s.hostFilter.any fun p => p.1 == line then [CopyRef.host] else [])

/-- The fields of a slice directory's entry, computed from the copies on the die: cores in L1M and in STM, the dirty holder (DHV, DHC), ROW
(R356, log 10). -/
def State.sliceL1M (s : State) (d line : Nat) : List Nat :=
  (s.cores.filter fun k => k.die == d && k.l1.any fun x => x.line == line && !x.nc).map (·.core)

def State.sliceSTM (s : State) (d line : Nat) : List Nat :=
  (s.stashHolders line).filterMap fun h => (s.gang? h.1).bind fun g => if g.loc.die == d then some g.loc.core else none

/-- A core of die `d` holds the line DIRTY in a stash page (DHV, DHC). -/
def State.sliceDH (s : State) (d line : Nat) : Option Nat :=
  ((s.stashHolders line).filterMap fun h =>
    if h.2.2.2 == .dirty then (s.gang? h.1).bind fun g => if g.loc.die == d then some g.loc.core else none else none).head?

/-- The states of the home directory (R359). -/
inductive HomeSt where
  | hu
  | hs (m : List Nat)
  | ho (d : Nat)
  deriving DecidableEq, Repr

/-- Die `d` holds a copy of the line in its L2, an L1 or a stash. -/
def State.dieHolds (s : State) (d line : Nat) : Bool :=
  ((s.die d).l2.any fun x => x.line == line && !x.nc) || !(s.sliceL1M d line).isEmpty || !(s.sliceSTM d line).isEmpty

/-- The home directory's state of a line, computed from the copies on the other three dies (R359, log 10). -/
def State.homeState (s : State) (line : Nat) : HomeSt :=
  let others := (List.range 4).filter fun d => d != homeDie line
  match others.find? fun d => (s.sliceDH d line).isSome with
  | some d => .ho d
  | none =>
    match others.filter fun d => s.dieHolds d line with
    | [] => .hu
    | m => .hs m

/-- ROW: the line is homed on another die, and die `d` holds it (R356). -/
def State.sliceROW (s : State) (d line : Nat) : Bool := homeDie line != d && s.dieHolds d line

/-- Some die other than its home holds the line: the line is not in HU, and has an entry in the home's snoop filter (R359, R362). -/
def State.farHeld (s : State) (line : Nat) : Bool := (List.range 4).any fun d => d != homeDie line && s.dieHolds d line

/-- The slice of a die and its set that a line falls into: 160 slices of 2048 sets (R356, log 10). -/
def sliceSet (line : Nat) : Nat := line / 128 % (160 * 2048)
/-- The set of the home's snoop filter (R362, log 10). -/
def sfSet (line : Nat) : Nat := line / 128 % 262144

/-- The other lines of a set that hold an entry, in order of allocation. -/
def State.sliceWays (s : State) (d line : Nat) : List Nat :=
  (s.die d).dir.filter fun l => l != line && sliceSet l == sliceSet line && s.dieHolds d l
def State.sfWays (s : State) (line : Nat) : List Nat :=
  (s.die (homeDie line)).sf.filter fun l => l != line && sfSet l == sfSet line && s.farHeld l

/-- An update reaches one copy, which applies it (R116, R357). A copy that has gone acknowledges without applying (R361). -/
def State.updateCopy (s : State) (line : Nat) (bytes : List (Nat × Byte)) : CopyRef → State
  | .l1 d c =>
    { s with cores := s.cores.map fun k =>
        if k.die == d && k.core == c then
          (if k.gated then { k with l1 := k.l1.filter fun x => x.line != line || x.nc }
           else { k with l1 := k.l1.map fun x => if x.line == line && !x.nc then { x with data := setBytes x.data bytes } else x })
        else k }
  | .l2 d =>
    s.onDie d fun x =>
      { x with l2 := x.l2.map fun y => if y.line == line && !y.nc then { y with data := setBytes y.data bytes } else y }
  | .stash uid n =>
    (s.touchGated uid n line).onGang uid fun g => g.onPage n fun p =>
      if p.covers line && p.lineState (p.lnOf line) != .invalid then
        { p with data := bytes.foldl (fun m b => memWrite m (128 * p.lnOf line + b.1) b.2) p.data }
      else p
  | .host => { s with hostFilter := s.hostFilter.filter fun p => p.1 != line }

/-- The watched words among the bytes of a line that a write has changed are evaluated later, each once (R106). -/
def State.noteWords (s : State) (line : Nat) (offs : List Nat) : State :=
  let d := homeDie line
  let hit := (s.die d).watch.filter fun w => lineBase w.addr == line && offs.any fun o => w.addr ≤ line + o && line + o < w.addr + 8
  let addrs := (hit.map (·.addr)).eraseDups
  if addrs.isEmpty then s
  else s.onDie d fun x => { x with evals := x.evals ++ addrs.map fun a => (a, BitVec.ofNat 64 (memNat s.mem a 8), s.nextId) }

/-- Changes the order point's value of some bytes of a line. -/
def State.poke (s : State) (line : Nat) (bytes : List (Nat × Byte)) : State :=
  { s with mem := bytes.foldl (fun m b => memWrite m (line + b.1) b.2) s.mem }

/-- Bytes of a line change at its order point, every copy on the device is updated, and the watched words are noted. -/
def State.putLine (s : State) (line : Nat) (bytes : List (Nat × Byte)) : State :=
  let cs := (s.copies line).filter (· != .host)
  (cs.foldl (fun s c => s.updateCopy line bytes c) (s.poke line bytes)).noteWords line (bytes.map (·.1))

/-- A whole write in one step: applied, every copy updated, exposed (R115). A copy of the host has to go first (R368). -/
def State.writeLine (s : State) (line : Nat) (bytes : List (Nat × Byte)) : State :=
  (if s.hostFilter.any fun p => p.1 == line then s.ask (.snoop line true) else s).putLine line bytes

/-- Bytes of a stash line that its owner has stored. -/
def StashPage.dirtyBytes (p : StashPage) (ln : Nat) : List (Nat × Byte) :=
  (p.stored.filter fun o => o / 128 == ln).map fun o => (o % 128, memRead p.data o)

/-- Writes back a DIRTY stash line and leaves it in the given state (R53). -/
def State.writeBack (s : State) (uid n ln : Nat) (dest : StLine) : State :=
  match (s.gang? uid).bind fun g => g.stash[n]? with
  | none => s
  | some p =>
    let mark := fun (s : State) =>
      s.onGang uid fun g => g.onPage n fun p =>
        { p with lines := insertAt p.lines ln dest, stored := p.stored.filter fun o => o / 128 != ln }
    if p.lineState ln == .dirty then
      match p.frame with
      | some f => mark (s.writeLine (f + 128 * ln) (p.dirtyBytes ln))
      | none => mark s
    else if p.lineState ln == .invalid then s
    else mark s

/-- Recalls every dirty holder of a line; each keeps a CLEAN copy (R53, R357, R360). -/
def State.recall (s : State) (line : Nat) : State :=
  (s.stashHolders line).foldl
    (fun s h => if h.2.2.2 == .dirty then s.writeBack h.1 h.2.1 h.2.2.1 .clean else s) s

/-- Die `d` gives up its copies of a line, a DIRTY one after its write-back (R358, R360). -/
def State.dropDie (s : State) (d line : Nat) : State :=
  let s : State := (s.stashHolders line).foldl
    (fun (s : State) h =>
      if ((s.gang? h.1).map fun g => g.loc.die == d).getD false then (s.writeBack h.1 h.2.1 h.2.2.1 .invalid).touchGated h.1 h.2.1 line else s) s
  let s : State := { s with
    cores := s.cores.map fun k => if k.die == d then { k with l1 := k.l1.filter fun x => x.line != line || x.nc } else k }
  s.onDie d fun x => { x with l2 := x.l2.filter fun y => y.line != line || y.nc }

/-! ### Atomic functions -/

/-- The new value of an atomic function on `w`-bit operands (Table 09.4, R85). -/
def atomicNew (f : AFn) (w : Nat) (old v c : Nat) : Nat :=
  let sgn := fun n => readInt true w n
  let half := fun (k : Nat → Nat → Nat) => k (old % 65536) (v % 65536) + 65536 * k (old / 65536) (v / 65536)
  match f with
  | .add => (old + v) % 2 ^ w
  | .sub => (old + 2 ^ w - v % 2 ^ w) % 2 ^ w
  | .min => if sgn v < sgn old then v else old
  | .max => if sgn v > sgn old then v else old
  | .minu => if v < old then v else old
  | .maxu => if v > old then v else old
  | .and => old &&& v
  | .or => old ||| v
  | .xor => old ^^^ v
  | .xchg => v
  | .cas => if old == c then v else old
  | .faddF32 => (fAdd fF32 0 old v).bits
  | .faddBf16x2 => half fun a b => (fAdd fBF16 0 a b).bits
  | .fminF32 => (fMinMax fF32 false old v).bits
  | .fmaxF32 => (fMinMax fF32 true old v).bits

/-- The bytes of a datum at an offset. -/
def datumBytes (off n v : Nat) : List (Nat × Byte) :=
  (List.range n).map fun i => (off + i, BitVec.ofNat 8 (v / 256 ^ i))

/-- The lanes of an atomic in turn on a memory: the memory after, and each lane's old value (R85, R212). -/
def atomicAccs (f : AFn) (line : Nat) : List Acc → List Host.Cell → List Host.Cell × List Acc
  | [], m => (m, [])
  | a :: as, m =>
    let old := memNat m (line + a.off) a.n
    let m := memWriteN m (line + a.off) (leBytes a.n (atomicNew f (8 * a.n) old a.val a.cmp))
    let (m, rest) := atomicAccs f line as m
    (m, { a with val := old, done := true } :: rest)

/-- The context's version-drop count rises by one (R108, R109). -/
def State.versionDrop (s : State) (ctx : Nat) : State := s.onCtx ctx fun c => { c with vdrop := c.vdrop + 1 }

/-- A virtual address at which the state-word table of a BFE configuration of the context has a state word (R108, R109, R259; log 89). -/
def State.isStateWord (s : State) (ctx va : Nat) : Bool :=
  s.dies.any fun d => d.bfe.any fun b => b.ctx == ctx && b.set && (List.range b.nl).any fun l =>
    let o := (va + 2 ^ 64 * (l * b.ls + 1) - b.kv.toNat - l * b.ls) % 2 ^ 64
    o % b.ss == 0 && o / b.ss < 2 ^ 32

/-- The CAS of a backfill task, from PENDING to READY of one version, that found another version (R109, last row; log 89). -/
def staleCas (a : Acc) (old : Nat) : Bool :=
  a.n == 8 && bitsOf a.cmp 16 2 == 1 && bitsOf a.val 16 2 == 2 && bitsOf a.cmp 0 16 == bitsOf a.val 0 16 && bitsOf old 0 16 != bitsOf a.cmp 0 16

/-- An atomic has been performed, each lane's old value standing in `accs`: each CAS with a stale version is counted (R109). -/
def State.casDrops (s : State) (i : Item) (accs : List Acc) : State :=
  match i.kind with
  | .atomic .cas _ =>
    (i.accs.zip accs).foldl (fun s p =>
      if staleCas p.1 p.2.val && s.isStateWord i.ctx (i.vline.toNat + p.1.off) then s.versionDrop i.ctx else s) s
  | _ => s

/-- The bytes that the lanes of a store write; a later lane overrides an earlier one (R117). -/
def storeBytes (accs : List Acc) : List (Nat × Byte) := accs.flatMap fun a => datumBytes a.off a.n a.val

/-! ### The three steps of a write (R115) -/

def State.txn? (s : State) (line : Nat) : Option Txn := s.txns.find? (·.line == line)

/-- The way that goes when a set is full: the least recently allocated on whose line no action is in progress (R358, R362). -/
def State.victim (s : State) (ways : List Nat) : Option Nat :=
  if ways.length < 16 then none else ways.find? fun l => (s.txn? l).isNone && !s.snoops.contains l

/-- What the first copy of a line on die `d` has to wait for: a way of its slice directory, and of the home's snoop filter (R358, R362). -/
def State.fillNeed (s : State) (d line : Nat) : Option Wish :=
  if s.dieHolds d line then none
  else if 16 ≤ (s.sliceWays d line).length then some (match s.victim (s.sliceWays d line) with | some v => .slice d v | none => .later)
  else if homeDie line != d && !s.farHeld line && 16 ≤ (s.sfWays line).length then
    some (match s.victim (s.sfWays line) with | some v => .filter v | none => .later)
  else none

/-- The entries that the first copy of a line on die `d` takes (R356, R362). -/
def State.allocDir (s : State) (d line : Nat) : State :=
  if s.dieHolds d line then s
  else
    let x := s.onDie d fun x => { x with dir := (x.dir.filter fun l => l != line && s.dieHolds d l) ++ [line] }
    if homeDie line == d || s.farHeld line then x
    else x.onDie (homeDie line) fun x => { x with sf := (x.sf.filter fun l => l != line && s.farHeld l) ++ [line] }

/-- What the owner's store does to its stash line once the notice is acknowledged: the line is filled where it was
INVALID, written, and DIRTY (R53). -/
def State.stashStore (s : State) (uid n : Nat) (line : Nat) (bytes : List (Nat × Byte)) : State :=
  s.onGang uid fun g => g.onPage n fun p =>
    let ln := p.lnOf line
    let base := 128 * ln
    let data := if p.lineState ln == .invalid then memWriteN p.data base (memReadN s.mem line 128) else p.data
    { p with
      data := bytes.foldl (fun m b => memWrite m (base + b.1) b.2) data
      lines := insertAt p.lines ln .dirty
      stored := ((bytes.map fun b => base + b.1) ++ p.stored).eraseDups }

/-- Where the lanes of an access write. -/
def accOffs (accs : List Acc) : List Nat := accs.flatMap fun a => (List.range a.n).map (a.off + ·)

/-- The lanes of an item on a DIRTY stash line, in turn (R53, R120). -/
def State.stashPerform (s : State) (i : Item) (n : Nat) : State :=
  match i.kind with
  | .atomic f _ =>
    match (s.gang? i.uid).bind fun g => g.stash[n]? with
    | none => s
    | some p =>
      let base := 128 * p.lnOf i.line
      let (m, accs) := atomicAccs f base i.accs p.data
      let offs := (accOffs i.accs).map (base + ·)
      ((s.onGang i.uid fun g => g.onPage n fun p => { p with data := m, stored := (offs ++ p.stored).eraseDups }).setItem
        { i with accs := accs, st := .done }).casDrops i accs
  | _ => (s.stashStore i.uid n i.line (storeBytes i.accs)).setItem { i with st := .done, accs := i.accs.map fun a => { a with done := true } }

/-- The stash page covers the line of an item still: no sweep, no UNMAP and no end of the gang has come between. -/
def State.pageOver (s : State) (i : Item) (n : Nat) : Bool := ((s.gang? i.uid).bind fun g => g.stash[n]?).any fun p => p.covers i.line

/-- A store or an atomic whose page covers its line no more is performed at the line's order point. -/
def State.leavesStash (s : State) (i : Item) : State := s.setItem { i with dst := .dev, st := .arrived }

/-- The notice of a stash store or atomic is acknowledged: the line is DIRTY, and the access is made (R53). -/
def State.noticed (s : State) (i : Item) : State :=
  match i.dst with
  | .stash n => if s.pageOver i n then (s.stashStore i.uid n i.line []).stashPerform i n else s.leavesStash i
  | _ => s

/-- Step 3: the write is performed, its writer acknowledged, the watched words noted (R115). -/
def State.expose (s : State) (t : Txn) : State :=
  let s := { s with txns := s.txns.filter fun x => x.line != t.line }
  let it := t.item.bind s.item?
  if t.inval then (match it with | some i => s.noticed i | none => s)
  else
    let s := s.noteWords t.line (t.bytes.map (·.1))
    match it with
    | some i => s.setItem { i with st := .done, accs := i.accs.map fun a => { a with done := true } }
    | none => s

/-- One acknowledgement of a fan-out: the copy is updated, or the die drops its copies (R115, R360). -/
def State.ackCopy (s : State) (t : Txn) (c : CopyRef) : State :=
  let s := if t.inval then
      match c with
      | .l2 d => s.dropDie d t.line
      | _ => s.updateCopy t.line [] c
    else s.updateCopy t.line t.bytes c
  { s with txns := s.txns.map fun x => if x.line == t.line then { x with wait := x.wait.filter (· != c) } else x }

/-- Ends a write in progress on a line at once: every acknowledgement of the device, then the exposure (log 12). That of the host comes
from the host. -/
def State.settle (s : State) (line : Nat) : State :=
  match s.txn? line with
  | none => s
  | some t =>
    let s := (t.wait.filter (· != .host)).foldl (fun s c => s.ackCopy t c) s
    if t.wait.contains .host then s else s.expose { t with wait := [] }

/-- The line as an agent's access meets it: what has to come first is asked for, and a dirty holder is recalled (R115, R368). -/
def State.lineReady (s : State) (line : Nat) (write : Bool) : State :=
  let s := s.settle line
  if (s.txn? line).isSome || s.snoops.contains line then s.ask .later
  else if s.hostFilter.any fun p => p.1 == line && (write || p.2) then s.ask (.snoop line write)
  else s.recall line

/-- The core's copy of an NC line is written back and dropped, and that of its die's L2 (R210, R363). -/
def State.flushNc (s : State) (d c line : Nat) : State :=
  let bytes := fun (x : L1Copy) => x.dirty.map fun o => (o, x.data.getD o memBlank)
  let s := (s.core d c).l1.foldl
    (fun s x => if x.line == line && x.nc && !x.dirty.isEmpty then (s.lineReady line true).writeLine line (bytes x) else s) s
  let s := s.onCore d c fun k => { k with l1 := k.l1.filter fun x => x.line != line || !x.nc }
  s.onDie d fun x => { x with l2 := x.l2.filter fun y => y.line != line || !y.nc }

/-- A page of the Core Store passes from the L1 to another use: the NC lines written back with it are those whose order points are free; the
others stand in the pages that stay (R47, R363; log 79). -/
def State.passPage (s : State) (d c : Nat) : State :=
  let free := fun (l : Nat) => (s.txn? l).isNone && !s.snoops.contains l && !(s.hostFilter.any fun p => p.1 == l)
  (((s.core d c).l1.filter fun x => x.nc && !x.dirty.isEmpty && free x.line).map (·.line)).foldl (fun s l => s.flushNc d c l) s

/-- The core that an item comes from: its instruction's, which may outlive the gang, or its engine's. -/
def State.itemCore (s : State) (i : Item) : Option (Nat × Nat) :=
  match s.op? i.op with
  | some o => some (o.die, o.core)
  | none => (s.cores.find? fun k => k.engines.any fun e => e.cmds.any fun c => c.tag == i.op).map fun k => (k.die, k.core)

/-- Step 1: a write that stands at its order point takes the next position and starts its fan-out (R115, R53, R108,
R120, R368). A guarded store whose guard differs is dropped and counted, and completes (R108). -/
def State.applyItem (s : State) (i : Item) : State :=
  let s := s.recall i.line
  let s := match i.kind with
    | .atomic _ _ | .reduce _ | .storeG _ => if i.nc then (match s.itemCore i with | some c => s.flushNc c.1 c.2 i.line | none => s) else s
    | _ => s
  let start := fun (s : State) (i : Item) (bytes : List (Nat × Byte)) =>
    let cs := s.copies i.line
    let s := s.poke i.line bytes
    let s := if cs.contains .host then s.say (.bisnp i.line true) else s
    let s := s.setItem { i with st := .applied }
    { s with txns := s.txns ++ [{ line := i.line, bytes := bytes, wait := cs, item := some i.id, inval := false }] }
  match i.kind with
  | .store => start s i (storeBytes i.accs)
  | .storeG ver =>
    if memNat s.mem i.line 2 == ver.toNat then start s i (storeBytes i.accs)
    else
      let s := s.versionDrop i.ctx
      s.setItem { i with st := .done }
  | .atomic f _ | .reduce f =>
    let (m, accs) := atomicAccs f i.line i.accs s.mem
    let bytes := i.accs.flatMap fun a => (List.range a.n).map fun k => (a.off + k, memRead m (i.line + a.off + k))
    (start s { i with accs := accs } bytes).casDrops i accs
  | _ => s

/-! ### Fills (R51, R357, R359) -/

/-- The L1 of a core takes a copy of a line. -/
def State.fillL1 (s : State) (d c line : Nat) (nc first : Bool) : State :=
  (if nc then s else s.allocDir d line).onCore d c fun k =>
    if k.l1.any fun x => x.line == line then k
    else { k with l1 := { line := line, data := memReadN s.mem line 128, nc := nc, dirty := [], first := first } :: k.l1 }

/-- The L2 of a die takes a copy of a line homed elsewhere. -/
def State.fillL2 (s : State) (d line : Nat) (nc : Bool) : State :=
  if homeDie line == d then s
  else (if nc then s else s.allocDir d line).onDie d fun x =>
    if x.l2.any fun y => y.line == line then x
    else { x with l2 := { line := line, data := memReadN s.mem line 128, nc := nc, dirty := [] } :: x.l2 }

/-- A stash page takes a clean copy of a line, and its die's L2 one of a line homed elsewhere (R53, R359). -/
def State.fillStash (s : State) (uid n line : Nat) : State :=
  match s.gang? uid with
  | none => s
  | some g =>
    ((s.allocDir g.loc.die line).fillL2 g.loc.die line false).onGang uid fun g => g.onPage n fun p =>
      { p with data := memWriteN p.data (128 * p.lnOf line) (memReadN s.mem line 128), lines := insertAt p.lines (p.lnOf line) .clean }

/-! ### Accesses of the device's own agents, each in one step (log 12) -/

/-- The lines that `n` bytes from `pa` touch. -/
def linesIn (pa n : Nat) : List Nat :=
  if n == 0 then [] else (List.range ((pa % 128 + n + 127) / 128)).map fun i => lineBase pa + 128 * i

/-- Reads at the order points, after any write in progress and after a recall, of the dirty holder or of the host. -/
def State.devRead (s : State) (pa n : Nat) : State × List Byte :=
  let s := (linesIn pa n).foldl (fun s l => s.lineReady l false) s
  (s, memReadN s.mem pa n)

/-- Writes at the order points, line by line in ascending order. -/
def State.devWrite (s : State) (pa : Nat) (bs : List Byte) : State :=
  (linesIn pa bs.length).foldl (fun s l =>
    let lo := max l pa
    let hi := min (l + 128) (pa + bs.length)
    let bytes := (List.range (hi - lo)).map fun i => (lo + i - l, bs.getD (lo + i - pa) memBlank)
    (s.lineReady l true).writeLine l bytes) s

def State.devReadNat (s : State) (pa n : Nat) : State × Nat :=
  let (s, bs) := s.devRead pa n
  (s, leNat bs)

def State.devWriteNat (s : State) (pa n v : Nat) : State := s.devWrite pa (leBytes n v)

end Sys2Proof.Machine
end

