-- ==== Sys2Proof/Machine/Xlate.lean ====
section
/-! DEFINITION. Address translation (20): the walk, the cached translations, sweeps, the fault queue, and the checks that each
lane's address passes at issue (R203). -/

namespace Sys2Proof.Machine

/-- The kinds of access a translation is asked for; the codes are those of SUB (Table 17.3). -/
inductive AccKind where
  | load | store | fetch | rmw
  deriving DecidableEq, Repr

def AccKind.code : AccKind → BitVec 8
  | .load => 0
  | .store => 1
  | .fetch => 2
  | .rmw => 3

/-- What a translation answers (R347). -/
inductive XRes where
  | ok (pa : Nat) (ent : W64)
  | xlate
  | prot
  | hold
  deriving DecidableEq, Repr

/-! Fields of a page-table entry (Table 20.1). -/
def pteV (e : W64) : Bool := e.getLsbD 0
def pteL (e : W64) : Bool := e.getLsbD 1
def pteR (e : W64) : Bool := e.getLsbD 2
def pteW (e : W64) : Bool := e.getLsbD 3
def pteX (e : W64) : Bool := e.getLsbD 4
def pteNC (e : W64) : Bool := e.getLsbD 5
def ptePeer (e : W64) : Bool := e.getLsbD 6
def pteProm (e : W64) : Bool := e.getLsbD 7
def pteMig (e : W64) : Bool := e.getLsbD 8
def pteHost (e : W64) : Bool := e.getLsbD 9
def ptePend (e : W64) : Bool := e.getLsbD 10
def pteDev (e : W64) : Nat := (e.extractLsb' 52 12).toNat
def pteFrame (e : W64) : Nat := (e.extractLsb' 12 40).toNat * 4096

/-- How many address bits one entry of a level covers (R344). -/
def lvlBits (n : Nat) : Nat := 16 + 9 * n

/-- R346. -/
def malformed (e : W64) (n : Nat) : Bool :=
  let leaf := pteL e
  (leaf && n == 3) || (!leaf && n == 0) || (leaf && pteFrame e % 2 ^ lvlBits n != 0) ||
    (!leaf && (e.extractLsb' 2 9 != 0 || pteDev e != 0)) || (ptePeer e && (pteHost e || pteNC e)) ||
    (pteDev e != 0 && !ptePeer e) || e.getLsbD 11

/-- The frame lies in a window of the tenant (R339). -/
def State.inFwin (s : State) (ten frame : Nat) : Bool :=
  (s.tenant ten).fwin.any fun w =>
    let base := (w.1.extractLsb' 16 36).toNat * 65536
    let lim := (w.2.extractLsb' 16 36).toNat * 65536
    base ≤ frame && frame < lim

/-- A partition core keeps no copy of a frame that another tenant's windows reach (R366). -/
def State.sharedFrame (s : State) (d c ctx pa : Nat) : Bool :=
  let ten := (s.ctx ctx).ten
  (s.tenant ten).cpart.testBit (128 * d + c) && s.tenants.any fun t => t.num != ten && s.inFwin t.num (pa / 65536 * 65536)

/-- The walk below table `t`: the level and value of the leaf, or none for a translation fault (R347). -/
def State.walkFrom (s : State) (ten va : Nat) : Nat → Nat → Option (Nat × W64)
  | n, t =>
    let e := BitVec.ofNat 64 (memNat s.mem (t + 8 * (va / 2 ^ lvlBits n % 512)) 8)
    if !pteV e || malformed e n then none
    else if pteL e then some (n, e)
    else
      match n with
      | 0 => none
      | k + 1 => if s.inFwin ten (pteFrame e) then s.walkFrom ten va k (pteFrame e) else none

/-- The whole walk of a context (R344, R347). -/
def State.walk (s : State) (ctx va : Nat) : Option (Nat × W64) :=
  let c := s.ctx ctx
  s.walkFrom c.ten va 3 ((c.ptroot.extractLsb' 12 40).toNat * 4096)

/-- What a leaf answers to an access (R347, R339). -/
def State.leafRes (s : State) (ctx va lvl : Nat) (e : W64) (k : AccKind) : XRes :=
  if (k == .load || k == .rmw) && !pteR e then .prot
  else if (k == .store || k == .rmw) && !pteW e then (if ptePend e then .hold else .prot)
  else if k == .fetch && !pteX e then .prot
  else if !ptePeer e && !pteHost e && !s.inFwin (s.ctx ctx).ten (pteFrame e) then .prot
  else .ok (pteFrame e + va % 2 ^ lvlBits lvl) e

/-- Translate without any cached translation: what the Armature, the BFE and the driver's commands use (R347). -/
def State.translate (s : State) (ctx va : Nat) (k : AccKind) : XRes :=
  if va ≥ lwin then .prot
  else
    match s.walk ctx va with
    | none => .xlate
    | some (lvl, e) => s.leafRes ctx va lvl e k

/-- The cached translation covers the address (R348). -/
def TlbEnt.covers (t : TlbEnt) (ctx va : Nat) : Bool := t.ctx == ctx && t.page == va / 2 ^ lvlBits t.lvl * 2 ^ lvlBits t.lvl

/-! ### The walk of a core (R348 to R350) -/

/-- The entries that a walk reads from table `t` of level `n` down, in order: level, address and value (R344, R347). -/
def State.walkPath (s : State) (ten va : Nat) : Nat → Nat → List (Nat × Nat × W64)
  | n, t =>
    let pa := t + 8 * (va / 2 ^ lvlBits n % 512)
    let e := BitVec.ofNat 64 (memNat s.mem pa 8)
    (n, pa, e) ::
      (if !pteV e || malformed e n || pteL e then []
       else
         match n with
         | 0 => []
         | k + 1 => if s.inFwin ten (pteFrame e) then s.walkPath ten va k (pteFrame e) else [])

/-- The leaf that the entries of a walk end in; none for a translation fault. -/
def leafOf (path : List (Nat × Nat × W64)) : Option (Nat × W64) :=
  match path.getLast? with
  | some (n, _, e) => if pteV e && pteL e && !malformed e n then some (n, e) else none
  | none => none

/-- Where a core's walk starts: below the lowest table entry of the path in its walk cache, else at the root (R349). -/
def State.walkStart (s : State) (d c ctx va : Nat) : Nat × Nat :=
  let hit := fun (n : Nat) => (s.core d c).walkc.find? fun w => w.ctx == ctx && w.lvl == n && w.va == va / 2 ^ lvlBits n * 2 ^ lvlBits n
  match ([1, 2, 3].filterMap hit).head? with
  | some w => (w.lvl - 1, pteFrame w.ent)
  | none => (3, ((s.ctx ctx).ptroot.extractLsb' 12 40).toNat * 4096)

def State.corePath (s : State) (d c ctx va : Nat) : List (Nat × Nat × W64) :=
  let r := s.walkStart d c ctx va
  s.walkPath (s.ctx ctx).ten va r.1 r.2

/-- The lines that a walk reads from table `t` of level `n` down as they stand at their order points, one after another: what has to come
first is asked for (R349, R368). -/
def State.pathReady (s : State) (ten va : Nat) : Nat → Nat → State
  | n, t =>
    let pa := t + 8 * (va / 2 ^ lvlBits n % 512)
    let s := s.lineReady (lineBase pa) false
    let e := BitVec.ofNat 64 (memNat s.mem pa 8)
    if !pteV e || malformed e n || pteL e then s
    else
      match n with
      | 0 => s
      | k + 1 => if s.inFwin ten (pteFrame e) then s.pathReady ten va k (pteFrame e) else s

/-- A write by the host or a peer, which come by physical address: the bytes of a new page whose old frame it reaches during COPY or SWAP of a
promotion are undefined from then on (R354). -/
def State.notePhys (s : State) (line : Nat) (offs : List Nat) : State :=
  { s with ctxs := s.ctxs.map fun c =>
      let frames := if c.pgst == .copy || (c.pgst == .swap && c.pgreq.extractLsb' 0 2 == 2) then (c.pgSave.drop 1).map fun p => pteFrame p.2 else []
      let hit := (List.range frames.length).flatMap fun i =>
        let f := frames.getD i 0
        if f ≤ line && line < f + 65536 then offs.map fun o => 65536 * i + (line - f) + o else []
      if hit.isEmpty then c else { c with pgDirty := (c.pgDirty ++ hit).eraseDups } }

/-- The set of the translation directory that the line of an entry falls into: 4096 sets of 16 ways (R350, log 10). -/
def tdSet (lvl va : Nat) : Nat := va / 2 ^ (lvlBits lvl + 4) % 4096

/-- The base of the range that a table line covers. -/
def tdKey (lvl va : Nat) : Nat := va / 2 ^ (lvlBits lvl + 4) * 2 ^ (lvlBits lvl + 4)

/-- The core is recorded in the directory entry of one table line; a full set has to lose its oldest entry first (R350). -/
def State.recordLine (s : State) (d c ctx lvl va : Nat) : State :=
  let td := (s.die d).tdir
  let key := tdKey lvl va
  if td.any fun t => t.ctx == ctx && t.lvl == lvl && t.va == key then
    s.onDie d fun x => { x with tdir := x.tdir.map fun t =>
      if t.ctx == ctx && t.lvl == lvl && t.va == key && !t.cores.contains c then { t with cores := c :: t.cores } else t }
  else
    let full := 16 ≤ (td.filter fun t => tdSet t.lvl t.va == tdSet lvl va).length
    let s := if full then s.ask (.walk d ((td.findIdx? fun t => tdSet t.lvl t.va == tdSet lvl va).getD 0)) else s
    s.onDie d fun x => { x with tdir := x.tdir ++ [{ ctx := ctx, lvl := lvl, va := key, cores := [c] }] }

/-- The core is recorded for every line that its walk has read (R350). -/
def State.recordWalk (s : State) (d c ctx va : Nat) (path : List (Nat × Nat × W64)) : State :=
  path.foldl (fun s p => s.recordLine d c ctx p.1 va) s

/-- The table entries that a walk has read stay in the core's walk cache (R349). -/
def State.cacheWalk (s : State) (d c ctx va : Nat) (path : List (Nat × Nat × W64)) : State :=
  s.onCore d c fun k => { k with walkc := (path.filterMap fun p =>
    if pteV p.2.2 && !pteL p.2.2 && !malformed p.2.2 p.1 && s.inFwin (s.ctx ctx).ten (pteFrame p.2.2) then
      some { ctx := ctx, lvl := p.1, va := va / 2 ^ lvlBits p.1 * 2 ^ lvlBits p.1, ent := p.2.2 : WalkEnt }
    else none) ++ k.walkc }

/-- Translation through the TLB of a core (R348): a cached entry, else a walk that is then cached. HOLD is never cached (R349). -/
def State.xlateCore (s : State) (d c ctx va : Nat) (k : AccKind) : State × XRes :=
  match (s.core d c).tlb.find? fun t => t.covers ctx va with
  | some t =>
    match t.ent with
    | none => (s, .xlate)
    | some e => (s, s.leafRes ctx va t.lvl e k)
  | none =>
    let r := s.walkStart d c ctx va
    let s := s.pathReady (s.ctx ctx).ten va r.1 r.2
    let path := s.corePath d c ctx va
    let s := (s.recordWalk d c ctx va path).cacheWalk d c ctx va path
    match leafOf path with
    | none => (s.onCore d c fun x => { x with tlb := { ctx := ctx, lvl := 0, page := va / 65536 * 65536, ent := none } :: x.tlb }, .xlate)
    | some (lvl, e) =>
      let r := s.leafRes ctx va lvl e k
      if r == .hold then (s, r)
      else (s.onCore d c fun x =>
        { x with tlb := { ctx := ctx, lvl := lvl, page := va / 2 ^ lvlBits lvl * 2 ^ lvlBits lvl, ent := some e } :: x.tlb }, r)

/-- What the core's TLB, or a walk from its walk cache, answers, without a change of state. -/
def State.peekCore (s : State) (d c ctx va : Nat) (k : AccKind) : XRes :=
  match (s.core d c).tlb.find? fun t => t.covers ctx va with
  | some t => (match t.ent with | none => .xlate | some e => s.leafRes ctx va t.lvl e k)
  | none => (match leafOf (s.corePath d c ctx va) with | none => .xlate | some (lvl, e) => s.leafRes ctx va lvl e k)

/-- The level of the leaf that maps an address as a core knows it; the widest where no leaf does. -/
def State.leafLvl (s : State) (d c ctx va : Nat) : Nat :=
  match (s.core d c).tlb.find? fun t => t.covers ctx va && t.ent.isSome with
  | some t => t.lvl
  | none => match s.walk ctx va with | some (n, _) => n | none => 3

/-- Translation of a lane's vector access: its last-page register first, which a success fills (R348). -/
def State.xlateLane (s : State) (g : Gang) (l va : Nat) (k : AccKind) : State × XRes :=
  let reg := match (s.gang? g.uid).bind fun g => lookup g.lanePg l with
    | some t => if t.covers g.ctx va then t.ent.map fun e => (t.lvl, e) else none
    | none => none
  match reg with
  | some (lvl, e) => (s, s.leafRes g.ctx va lvl e k)
  | none =>
    let (s, r) := s.xlateCore g.loc.die g.loc.core g.ctx va k
    match r with
    | .ok _ _ =>
      match (s.core g.loc.die g.loc.core).tlb.find? fun t => t.covers g.ctx va with
      | some t => (s.onGang g.uid fun g => { g with lanePg := insertAt g.lanePg l t }, r)
      | none => (s, r)
    | _ => (s, r)

/-! ### Sweeps (R322, R349, R350) -/

/-- A translation or table entry of a level was derived from one of the four table lines on the path of `va`. -/
def derivedFrom (lvl page va : Nat) : Bool := (List.range 4).any fun n => lvl ≤ n && page / 2 ^ (lvlBits n + 4) == va / 2 ^ (lvlBits n + 4)

/-- The sweep covers a cached translation: one of the path of `va`, or any of the context. -/
def sweptEnt (ctx : Nat) (all : Bool) (va : Nat) (t : TlbEnt) : Bool := t.ctx == ctx && (all || derivedFrom t.lvl t.page va)
def sweptWalk (ctx : Nat) (all : Bool) (va : Nat) (w : WalkEnt) : Bool := w.ctx == ctx && (all || derivedFrom w.lvl w.va va)

/-- Every named core drops what the sweep covers, and the directory forgets the swept cores (R350). -/
def State.dropXlate (s : State) (ctx : Nat) (all : Bool) (va : Nat) : State :=
  { s with
    cores := s.cores.map fun k =>
      { k with tlb := k.tlb.filter fun t => !sweptEnt ctx all va t, walkc := k.walkc.filter fun w => !sweptWalk ctx all va w }
    gangs := s.gangs.map fun g => { g with lanePg := g.lanePg.filter fun p => !sweptEnt ctx all va p.2 }
    dies := s.dies.map fun d => { d with tdir := d.tdir.filter fun t => !(t.ctx == ctx && (all || t.va == tdKey t.lvl va)) } }

/-- Plain stores that stand in the store buffers of regions have used no more than a translation: once a sweep covers it they translate again
as they are released, as a store held under PEND does (R349, R355; log 80). -/
def State.holdBuffered (s : State) (ctx : Nat) (all : Bool) (va : Nat) : State :=
  let mark := fun (p : Place1) =>
    if p.dst != .window && (all || p.vline.toNat / 2 ^ 47 == va / 2 ^ 47) then { p with dst := .dev, line := 0, nc := false, hold := true } else p
  let body := fun (b : BufBody) => (match b with
    | .store accs k => .store (accs.map fun x => (mark x.1, x.2)) k
    | b => b)
  { s with gangs := s.gangs.map fun g =>
      if g.ctx == ctx then { g with region := g.region.map fun r => { r with buf := r.buf.map fun b => { b with body := body b.body } } } else g }

/-- A STASH.MAP on its way keeps nothing of the translation that it was issued with: its page is translated afresh (R53, R349). -/
def State.staleMaps (s : State) (ctx : Nat) (hit : W64 → Bool) : State :=
  { s with ops := s.ops.map fun o =>
    { o with kind := (match o.kind with
      | .stash 0 d p f v e => if o.ctx == ctx && hit v then .stash 0 d p 1 v 0 else .stash 0 d p f v e
      | k => k) } }

/-- Mapped stash pages of a context write back, and are translated afresh on their next touch (R53). -/
def State.stalePages (s : State) (ctx : Nat) (hit : StashPage → Bool) : State :=
  let pages := s.gangs.flatMap fun g =>
    if g.ctx == ctx then
      (List.range g.stash.length).filterMap fun n =>
        match g.stash[n]? with
        | some p => if p.mapped && hit p then some (g.uid, n) else none
        | none => none
    else []
  pages.foldl (fun s h =>
    let s : State := (List.range 32).foldl (fun (s : State) ln => s.writeBack h.1 h.2 ln .invalid) s
    s.onGang h.1 fun g => g.onPage h.2 fun p => { p with frame := none }) s

/-- What a sweep does beside the caches: buffered stores, STASH.MAPs on their way and mapped stash pages. -/
def State.sweepStash (s : State) (ctx : Nat) (all : Bool) (va : Nat) : State :=
  ((s.holdBuffered ctx all va).staleMaps ctx fun v => all || derivedFrom 0 v.toNat va).stalePages ctx fun p =>
    all || p.va.toNat / 2 ^ lvlBits p.lvl == va / 2 ^ lvlBits p.lvl

/-- A completed sweep lets parked gangs and stores held under PEND translate again (R318, R349). -/
def State.sweepRetry (s : State) (ctx : Nat) (all : Bool) (va : Nat) : State :=
  { s with
    gangs := s.gangs.map fun g => if g.ctx == ctx && g.status == .parkedFault then { g with retry := true } else g
    items := s.items.map fun i =>
      if i.ctx == ctx && i.st == .held && (all || i.vline.toNat / 2 ^ 47 == va / 2 ^ 47) then { i with retry := true } else i
    heldWr := s.heldWr.map fun h => if h.ctx == ctx && (all || h.va / 2 ^ 47 == va / 2 ^ 47) then { h with retry := true } else h }

/-- What an agent's write has to wait for under PEND (R349): a HOLD is kept; a held write translates again only after a sweep or a PFREL, and a
fault then leaves it held. -/
def State.holdWishes (s : State) (ctx va : Nat) (k : AccKind) : List Wish :=
  match s.heldWr.find? fun h => h.ctx == ctx && h.va == va, s.translate ctx va k with
  | none, .hold => [.hold ctx va]
  | none, _ => []
  | some _, .ok _ _ => []
  | some h, .hold => if h.retry then [.hold ctx va] else [.later]
  | some h, _ => if h.retry then [.holdFault ctx va (k == .rmw)] else [.later]

/-- A held write is performed. -/
def State.unhold (s : State) (ctx : Nat) (vas : List Nat) : State :=
  { s with heldWr := s.heldWr.filter fun h => !(h.ctx == ctx && vas.contains h.va) }

/-- Enters a record in the context's fault queue, unless an equal one stands there; the first raises vector 1 (R352). -/
def State.enterFault (s : State) (ctx va : Nat) (k : AccKind) : State :=
  let c := s.ctx ctx
  let r : W64 := BitVec.ofNat 64 (2 ^ 63 + va % 2 ^ 52 / 65536 * 65536 + k.code.toNat)
  if c.pfq.contains r then s
  else if c.pfq.length ≥ 16 then s.setCtx { c with pfOvf := true }
  else
    let s := if c.pfq.isEmpty then s.msix c.ten 1 else s
    s.setCtx { c with pfq := c.pfq ++ [r] }

/-! ### The checks of R203 -/

/-- A failing check: the cause code and the SUB (Table 17.3). -/
inductive Chk where
  | ok (p : Place1)
  | bad (cause : BitVec 8)
  deriving DecidableEq, Repr

def causeXLATE : BitVec 8 := 5
def causePREEMPT : BitVec 8 := 12
def causeECC : BitVec 8 := 13
def causePROT : BitVec 8 := 6
def causeALIGN : BitVec 8 := 7

/-- What an instruction asks of an address beyond its kind: natural alignment; whether the window, and VBASE, admit it. -/
structure Need where
  kind    : AccKind
  n       : Nat
  natural : Bool
  window  : Bool
  vbase   : Bool
  guarded : Bool              -- VLDC, VSTC: not to host memory (log 14)
  hostOk  : Bool              -- the function may go to host memory (R213)
  deriving DecidableEq, Repr

/-- Alignment (R202). -/
def aligned (q : Need) (ea : Nat) : Bool :=
  if q.natural || (lwin ≤ ea && ea < 2 ^ 52) || q.n == 16 then ea % q.n == 0 else ea % 128 + q.n ≤ 128

/-- A window access of a gang (R63, R64): VBASE is Dst.window with the register row as its line, SBASE a stash page. -/
def winCheck (g : Gang) (q : Need) (ea : Nat) : Chk :=
  let o := ea - lwin
  if !q.window then .bad causePROT
  else if o < 0x100000 then
    (if q.vbase && o / 128 < 32 * g.vblocks && !g.inOpb (o / 128) then
      .ok { dst := .window, line := o / 128 * 128, off := o % 128, vline := 0, nc := false, hold := false }
    else .bad causePROT)
  else if o < 0x400000 then
    match g.stash[(o - 0x100000) / 4096]? with
    | some p =>
      if p.mapped then .bad causePROT
      else .ok { dst := .window, line := o / 128 * 128, off := o % 128, vline := 0, nc := false, hold := false }
    | none => .bad causePROT
  else .bad causePROT

/-- The stash page of the gang that is mapped over an address (R52). -/
def Gang.stashOver (g : Gang) (ea : Nat) : Option Nat :=
  (List.range g.stash.length).find? fun n =>
    match g.stash[n]? with
    | some p => p.mapped && p.va.toNat ≤ ea && ea < p.va.toNat + 4096
    | none => false

/-- The place a leaf gives (R133, R213, R347, R363). -/
def placeOf (s : State) (q : Need) (ea pa : Nat) (e : W64) : Chk :=
  let v : W64 := BitVec.ofNat 64 (lineBase ea)
  let put := fun (d : Dst) => Chk.ok { dst := d, line := lineBase pa, off := pa % 128, vline := v, nc := pteNC e, hold := false }
  if ptePeer e then (if s.devid == some (BitVec.ofNat 12 (pteDev e)) then .bad causePROT else put (.peer (pteDev e)))
  else if pteHost e then (if q.guarded || !q.hostOk then .bad causePROT else put .host)
  else put .dev

/-- The checks of one lane's address in order: alignment, range and window, translation, permission (R203). Lane 32 is the
single address of a scalar access, which has no last-page register. VSTC's guard bytes (R208) are tested with the range (log 87). -/
def State.checkLane (s : State) (g : Gang) (q : Need) (l ea : Nat) : State × Chk :=
  if !aligned q ea then (s, .bad causeALIGN)
  else if ea ≥ 2 ^ 52 then (s, .bad causePROT)
  else if q.guarded && q.kind == .store && ea % 128 < 8 then (s, .bad causePROT)
  else if ea ≥ lwin then (s, winCheck g q ea)
  else
    let xl := fun (s : State) (k : AccKind) =>
      if l < 32 then s.xlateLane g l ea k else s.xlateCore g.loc.die g.loc.core g.ctx ea k
    match ((s.gang? g.uid).getD g).stashOver ea with
    | some n =>
      let p := (((s.gang? g.uid).getD g).stash[n]?).getD { mapped := false, va := 0, wr := false, frame := none, data := [], lines := [], stored := [] }
      let done := fun (s : State) (f : Nat) (wr pend : Bool) =>
        if (q.kind == .store || q.kind == .rmw) && !wr then
          (s, if pend then Chk.ok { dst := .dev, line := 0, off := ea % 128, vline := BitVec.ofNat 64 (lineBase ea), nc := false, hold := true }
              else Chk.bad causePROT)
        else (s, Chk.ok { dst := .stash n, line := lineBase (f + ea % 4096), off := ea % 128, vline := BitVec.ofNat 64 (lineBase ea), nc := false, hold := false })
      match p.frame with
      | some f => done s f p.wr p.pend
      | none =>
        -- translated afresh on this touch (R53, R328)
        match xl s .load with
        | (s, .ok pa e) =>
          let f := pa / 4096 * 4096
          if ptePeer e || pteNC e || pteHost e || s.sharedFrame g.loc.die g.loc.core g.ctx f then (s, .bad causePROT)
          else
            let s := s.onGang g.uid fun g => g.onPage n fun p =>
              { p with frame := some f, wr := pteW e, pend := ptePend e, lvl := s.leafLvl g.loc.die g.loc.core g.ctx ea }
            done s f (pteW e) (ptePend e)
        | (s, .xlate) => (s, .bad causeXLATE)
        | (s, _) => (s, .bad causePROT)
    | none =>
      match xl s q.kind with
      | (s, .ok pa e) => (s, placeOf s q ea pa e)
      | (s, .hold) =>
        (s, .ok { dst := .dev, line := 0, off := ea % 128, vline := BitVec.ofNat 64 (lineBase ea), nc := false, hold := true })
      | (s, .xlate) => (s, .bad causeXLATE)
      | (s, .prot) => (s, .bad causePROT)

/-- A check that failed: the lane, its address and the cause. -/
structure AccFail where
  lane  : Nat
  ea    : Nat
  cause : BitVec 8
  deriving DecidableEq, Repr

/-- The checks of every taking-part lane, in ascending lane order, stopping at the first that fails (R203). -/
def State.checkLanes (s : State) (g : Gang) (q : Need) : List (Nat × Nat) → State × Except AccFail (List (Nat × Place1))
  | [] => (s, .ok [])
  | (l, ea) :: rest =>
    match s.checkLane g q l ea with
    | (s, .bad c) => (s, .error { lane := l, ea := ea, cause := c })
    | (s, .ok p) =>
      match s.checkLanes g q rest with
      | (s, .error e) => (s, .error e)
      | (s, .ok ps) => (s, .ok ((l, p) :: ps))

end Sys2Proof.Machine
end

