-- ==== Sys2Proof/Machine/Grade.lean ====
section
/-! DEFINITION. The fields of a value-table entry (Table 04.1) and the egress grade of a run (R100, R103). -/

namespace Sys2Proof.Machine

/-! Fields of an entry, as the number its 32 bytes spell. -/
def veBase (e : Nat) : Nat := bitsOf e 0 52
def veLen (e : Nat) : Nat := bitsOf e 64 32
def veGrade (e : Nat) : Nat := bitsOf e 96 2
def vePod (e : Nat) : Bool := bitsOf e 98 1 == 1
def veEgf (e : Nat) : Bool := bitsOf e 99 1 == 1
def veAmcnt (e : Nat) : Nat := bitsOf e 100 4
def veVersion (e : Nat) : Nat := bitsOf e 104 16
def veLive (e : Nat) : Bool := bitsOf e 120 1 == 1
/-- The scope of publication and firing: DEVICE or POD. -/
def veScope (e : Nat) : Nat := if vePod e then 4 else 3

/-- Replaces a field of an entry. -/
def setBits (e lo n v : Nat) : Nat := e - bitsOf e lo n * 2 ^ lo + v % 2 ^ n * 2 ^ lo

def State.valueAddr (s : State) (ctx id : Nat) : Option Nat :=
  let t := s.tenant (s.ctx ctx).ten
  if id < t.vtsize.toNat then some ((t.vtbase.extractLsb' 0 52).toNat + 32 * id) else none

/-- The entry as it stands at its home, without taking part in the line's order: for the decisions that read the grade alone. -/
def State.peekValue (s : State) (ctx id : Nat) : Option Nat :=
  match s.valueAddr ctx id with
  | none => none
  | some va =>
    match s.translate ctx va .load with
    | .ok pa e => if ptePeer e || pteHost e then none else some (memNat s.mem pa 32)
    | _ => none

/-- The lines that such a reading meets of which the host may hold modified data (R368). -/
def State.peekLines (s : State) (ctx id : Nat) : List Nat :=
  match s.valueAddr ctx id with
  | none => []
  | some va =>
    let c := s.ctx ctx
    let path := (s.walkPath c.ten va 3 ((c.ptroot.extractLsb' 12 40).toNat * 4096)).map fun e => lineBase e.2.1
    let own := match s.translate ctx va .load with
      | .ok pa e => if ptePeer e || pteHost e then [] else [lineBase pa]
      | _ => []
    (path ++ own).filter fun l => s.hostFilter.contains (l, true)

/-- The host's data of lines is asked for first (R368). -/
def State.askData (s : State) (ls : List Nat) : State := ls.foldl (fun s l => s.ask (.snoop l false)) s

def State.peekReady (s : State) (ctx id : Nat) : State := s.askData (s.peekLines ctx id)

/-- The minimum grade over a run's inputs; final without inputs (R100). -/
def Inst.grade (i : Inst) : Nat := i.cons.foldl (fun n k => min n k.grade) 3

/-- The output descriptors that are used. -/
def TaskRec.outIds (t : TaskRec) : List (Nat × Nat) := (List.range t.nout).map fun n => (n, t.outs.getD n 0)

/-- The grade an output counts with, if it is egress-final: G of the run until it has published the output, be it over or not (R103). -/
def State.outGrade (s : State) (i : Inst) (run : Nat) (o : Nat × Nat) : Option Nat :=
  match s.peekValue i.ctx o.2 with
  | none => none
  | some e =>
    if !veEgf e then none
    else if i.run == run && !(i.pubs.any fun p => p.idx == o.1) then some i.grade
    else some (veGrade e)

/-- The egress grade of a run: none when the instance is not gated (R103). -/
def State.egressGrade (s : State) (ctx inst run : Nat) : Option Nat :=
  match s.inst? ctx inst with
  | none => none
  | some i =>
    (i.tr.outIds.filterMap fun o => s.outGrade i run o).foldl (fun m g => match m with | none => some g | some x => some (min x g)) none

/-- The lines that the egress grade of an instance's run is read from and of which the host may hold modified data (R368). -/
def State.gradeLines (s : State) (ctx inst : Nat) : List Nat :=
  match s.inst? ctx inst with
  | none => []
  | some i => i.tr.outIds.flatMap fun o => s.peekLines ctx o.2

/-- The run may not send outward traffic yet (R103, R104). -/
def State.gated (s : State) (ctx inst run : Nat) : Bool := (s.egressGrade ctx inst run).any fun g => g < 3

end Sys2Proof.Machine
end

