-- ==== Sys2Proof/Machine/Ops.lean ====
section
/-! DEFINITION. The shared operations: fresh ids, names, a context's own accesses, waits for earlier accesses, the end and the
kill of a gang, the kill of a context, taking a trap and returning from it (R313 to R325, R167, R57, R246). -/

namespace Sys2Proof.Machine

abbrev Out := Host.Outcome State Fault Refusal

/-! ### Ids, free values, names -/

def State.fresh (s : State) : Nat × State := (s.nextId, { s with nextId := s.nextId + 1 })

/-- A free 64-bit value (R6): the next number of the uninterpreted constant. -/
def State.freeVal (s : State) : W64 × State := (Config.freeWord s.freeCtr, { s with freeCtr := s.freeCtr + 1 })

def State.genOf (s : State) (r : GRef) : BitVec 16 := (lookup (s.core r.die r.core).gens r.slot).getD 0

/-- The pod-wide name of a gang (R34). -/
def nameWord (dev die core slot ten : Nat) (gen : BitVec 16) : W64 :=
  BitVec.ofNat 12 dev ++ BitVec.ofNat 2 die ++ BitVec.ofNat 7 core ++ BitVec.ofNat 6 slot ++ BitVec.ofNat 4 ten ++ gen ++ 0#17

def State.nameOf (s : State) (g : Gang) : W64 :=
  nameWord s.dev g.loc.die g.loc.core g.loc.slot (s.ctx g.ctx).ten (s.genOf g.loc)

/-- The fields of a name (R34). -/
def nameDev (n : W64) : Nat := (n.extractLsb' 52 12).toNat
def nameDie (n : W64) : Nat := (n.extractLsb' 50 2).toNat
def nameCore (n : W64) : Nat := (n.extractLsb' 43 7).toNat
def nameSlot (n : W64) : Nat := (n.extractLsb' 37 6).toNat
def nameTen (n : W64) : Nat := (n.extractLsb' 33 4).toNat
def nameGen (n : W64) : BitVec 16 := n.extractLsb' 17 16
def nameLoc (n : W64) : GRef := { die := nameDie n, core := nameCore n, slot := nameSlot n }

/-- The TASKID of a run (R97). -/
def taskId (inst run : Nat) : W64 := 0#16 ++ BitVec.ofNat 16 run ++ BitVec.ofNat 32 inst

/-! ### Accesses of an agent that acts for a context, without a gang (R90, R94, R95, R259; log 12) -/

/-- One piece of an agent's access, within one line: where it lies, its place in the data, its length. -/
structure CtxPiece where
  dst : Dst
  pa  : Nat
  off : Nat
  n   : Nat
  deriving DecidableEq, Repr

/-- The pieces of a virtual range; none where the access is not allowed. A leaf to this device's own number gives none (R133). -/
def State.ctxPieces (s : State) (ctx va n : Nat) (k : AccKind) : List Nat → Option (List CtxPiece)
  | [] => some []
  | l :: ls =>
    let lo := max l va
    match s.translate ctx lo k with
    | .ok pa e =>
      if ptePeer e && s.devid == some (BitVec.ofNat 12 (pteDev e)) then none
      else
        let dst : Dst := if ptePeer e then .peer (pteDev e) else if pteHost e then .host else .dev
        (s.ctxPieces ctx va n k ls).map fun r => { dst := dst, pa := pa, off := lo - va, n := min (l + 128) (va + n) - lo } :: r
    | _ => none

/-- The lines of the tables that an agent's walks read, as they stand at their order points (R349). -/
def State.tablesReady (s : State) (ctx va n : Nat) : State :=
  let c := s.ctx ctx
  (linesIn va n).foldl (fun s l => s.pathReady c.ten l 3 ((c.ptroot.extractLsb' 12 40).toNat * 4096)) s

/-- The instance number of the items that stand for the accesses of an agent without a gang to peer or host memory: operation 0, no gang. -/
def farInst : Nat := 2 ^ 32

def FarAct.kind : FarAct → ItemKind
  | .read => .load
  | .write _ => .store
  | .cas _ _ => .atomic .cas 3

/-- The datum it brings, and the one it compares with. -/
def FarAct.val : FarAct → Nat
  | .read => 0
  | .write v => v
  | .cas _ new => new
def FarAct.cmp : FarAct → Nat
  | .cas old _ => old
  | _ => 0

/-- Such an access, by its place and what it does; `ovv` keeps its datum, which an answer leaves alone. -/
def Item.isFar (i : Item) (ctx : Nat) (dst : Dst) (pa n : Nat) (act : FarAct) : Bool :=
  i.op == 0 && i.uid == 0 && i.inst == farInst && i.ctx == ctx && i.dst == dst && i.line == lineBase pa &&
    i.kind == act.kind && i.accs.any fun a => a.off == pa % 128 && a.n == n && a.ovv == act.val && a.cmp == act.cmp

/-- How an agent's access to peer or host memory stands. -/
inductive FarRes where
  | wait
  | failed
  | got (v : Nat)
  deriving DecidableEq, Repr

/-- Nothing has to come first: what is asked for so far are far accesses of the same sort, reads or writes. -/
def State.mayAskFar (s : State) (act : FarAct) : Bool :=
  s.wants.all fun w => match w with
    | .far _ _ _ _ _ a => (a == .read) == (act == .read)
    | _ => false

/-- An agent's access to peer or host memory: asked for, waited for, and then taken (R129, R135; log 16). -/
def State.farAccess (s : State) (ctx : Nat) (dst : Dst) (pa n : Nat) (act : FarAct) : State × FarRes :=
  match s.items.find? fun i => i.isFar ctx dst pa n act with
  | none => (s.ask (if s.mayAskFar act then .far ctx dst (lineBase pa) (pa % 128) n act else .later), .wait)
  | some i =>
    let gone : State := { s with items := s.items.filter fun x => x.id != i.id }
    if i.st == .done then (gone, .got ((i.accs.head?.map (·.val)).getD 0))
    else if i.st == .failed then (gone, .failed)
    else (s.ask .later, .wait)

/-- Reads the pieces in order; while one waits, what it reads as is of no account, since the step is not made (log 12). -/
def State.readPieces (s : State) (ctx : Nat) : List CtxPiece → State × Option (List Byte)
  | [] => (s, some [])
  | p :: ps =>
    let now : State × Option (List Byte) := match p.dst with
      | .dev => let (s, bs) := s.devRead p.pa p.n; (s, some bs)
      | d =>
        match s.farAccess ctx d p.pa p.n .read with
        | (s, .got v) => (s, some (leBytes p.n v))
        | (s, .wait) => (s, some (leBytes p.n 0))
        | (s, .failed) => (s, none)
    match now with
    | (s, none) => (s, none)
    | (s, some bs) =>
      match s.readPieces ctx ps with
      | (s, none) => (s, none)
      | (s, some r) => (s, some (bs ++ r))

/-- Writes the pieces in order. -/
def State.writePieces (s : State) (ctx : Nat) (bs : List Byte) : List CtxPiece → Option State
  | [] => some s
  | p :: ps =>
    let now := (bs.drop p.off).take p.n
    match p.dst with
    | .dev => (s.devWrite p.pa now).writePieces ctx bs ps
    | d =>
      match s.farAccess ctx d p.pa p.n (.write (leNat now)) with
      | (_, .failed) => none
      | (s, _) => s.writePieces ctx bs ps

/-- A context's own read. Nothing is read while an earlier access of the same step, or a page-table line, has to be waited for. -/
def State.ctxRead (s : State) (ctx va n : Nat) : State × Option (List Byte) :=
  let s := s.tablesReady ctx va n
  if !s.wants.isEmpty then (s, some (leBytes n 0)) else
  match s.ctxPieces ctx va n .load (linesIn va n) with
  | none => (s, none)
  | some ps => s.readPieces ctx ps

/-- A context's own write; none where it is not allowed or has failed. -/
def State.ctxWrite (s : State) (ctx va : Nat) (bs : List Byte) : Option State :=
  let s := s.tablesReady ctx va bs.length
  if !s.wants.isEmpty then some s
  -- a write to a page that holds its stores is held until a translation permits it (R349)
  else
  let held := (linesIn va bs.length).flatMap fun l => s.holdWishes ctx (max l va) .store
  if !held.isEmpty then some (held.foldl State.ask s)
  else
  let s := s.unhold ctx ((linesIn va bs.length).map fun l => max l va)
  match s.ctxPieces ctx va bs.length .store (linesIn va bs.length) with
  | none => none
  | some ps => s.writePieces ctx bs ps

/-! ### Earlier accesses (R114, R122, R123) -/

/-- The item counts as performed at a scope: peers lie outside the scopes below POD, the host below SYSTEM (R114). A store in
the egress hold is not waited for (R128), an NC store is performed by its gang's CFLUSH alone (R130). -/
def Item.performedAt (i : Item) (scope : Nat) : Bool :=
  i.st == .done || i.st == .failed || i.st == .egress ||
    (match i.dst with
     | .peer _ => scope < 4
     | .host => scope < 5
     | _ => false)

/-- Where an access stands in its gang's program: the rows that an MLOOP fetches late stand where the MLOOP was issued (R117, R239). -/
def Item.pos (i : Item) : Nat := if i.uid == 0 || i.op == 0 then i.id else i.op

/-- The access stands before the other one in the program of their gang; those of one instruction stand in the order of their lanes (R117). -/
def Item.before (a b : Item) : Bool := a.uid == b.uid && (a.pos < b.pos || (a.pos == b.pos && a.id < b.id))

/-- The steps that a running MLOOP has not fetched (R239). -/
def OpKind.toFetch : OpKind → Nat
  | .mloop _ _ _ _ _ n _ _ _ _ _ _ _ fe _ none => n - fe
  | _ => 0

/-- A tile's rows or its side band reach the line. -/
def tileReaches (base stride : W64) (side : Bool) (line : Nat) : Bool :=
  ((List.range 32).any fun i => (base + stride * BitVec.ofNat 64 i).toNat == line) ||
  (side && (List.range 8).any fun i => (base + stride * 32 + BitVec.ofNat 64 (128 * i)).toNat == line)

/-- A running MLOOP has yet to fetch the virtual line (R239; log 83). -/
def OpKind.yetReads (k : OpKind) (line : Nat) : Bool :=
  match k with
  | .mloop _ _ _ _ _ n side pa pb ia ib sa sb fe _ none =>
    (List.range (n - fe)).any fun j =>
      tileReaches (pa + ia * BitVec.ofNat 64 (fe + j)) sa side line || tileReaches (pb + ib * BitVec.ofNat 64 (fe + j)) sb side line
  | _ => false

/-- An MLOOP of the gang that is older than `id` has rows to fetch: they are earlier accesses (R117, R122, R123). -/
def State.loopBefore (s : State) (uid id : Nat) : Bool := s.ops.any fun o => o.uid == uid && o.id < id && o.kind.toFetch > 0

/-- Every access of the gang that is older than `id` is performed at the scope; RSTVs and MDRAINs to other devices are among them
(R122, R126, R129). -/
def State.performedBefore (s : State) (uid id scope : Nat) : Bool :=
  !s.loopBefore uid id && (s.items.all fun i => i.uid != uid || i.pos ≥ id || i.performedAt scope) &&
  (s.rstvs.all fun r => r.uid != uid || r.op ≥ id || (nameDev r.name != s.dev && scope < 4)) &&
  s.drains.all fun x => x.uid != uid || x.op ≥ id || nameDev x.name == s.dev || scope < 4

/-- Every older load and atomic of the gang is performed (R123, ACQ). -/
def State.loadsBefore (s : State) (uid id : Nat) : Bool :=
  !s.loopBefore uid id && s.items.all fun i => i.uid != uid || i.pos ≥ id || i.st == .done || i.st == .failed ||
    (match i.kind with
     | .store | .storeG _ | .reduce _ => true
     | _ => false)

/-- A stash page of the gang has a DIRTY line (R54). -/
def Gang.hasDirty (g : Gang) : Bool := g.stash.any fun p => p.lines.any fun l => l.2 == .dirty

def State.hasDirty (s : State) (uid : Nat) : Bool := ((s.gang? uid).map (·.hasDirty)).getD false

/-- Every line of the chosen pages of a gang is written back where DIRTY; each line that was held takes state `to`. -/
def State.flushPages (s : State) (uid : Nat) (pages : List Nat) (dest : StLine) (dirtyOnly : Bool) : State :=
  pages.foldl (fun (s : State) n =>
    (List.range 32).foldl (fun (s : State) ln =>
      match (s.gang? uid).bind fun g => g.stash[n]? with
      | some p => if dirtyOnly && p.lineState ln != .dirty then s else s.writeBack uid n ln dest
      | none => s) s) s

def Gang.mappedPages (g : Gang) : List Nat :=
  (List.range g.stash.length).filter fun n => match g.stash[n]? with | some p => p.mapped | none => false

/-- The accesses of a gang on their way into its stash, which ends, are performed at the order points of their lines. -/
def State.settleStash (s : State) (uid : Nat) : State :=
  { s with items := s.items.map fun i =>
      match i.dst with
      | .stash _ =>
        if i.uid == uid && i.st != .done && i.st != .failed then
          { i with dst := .dev, st := if i.kind == .load then i.st else if i.st == .queued then .queued else .arrived }
        else i
      | _ => i }

/-! ### Packets -/

/-- A header whose fields are zero but for those named. -/
def Hdr.blank : Hdr :=
  { lidx := 0, aux := 0, mask := 0, addr := 0, err := false, resp := false, ten := 0, tag := 0, nflit := 0, kind := 0,
    cls := 0, hop := 0, sdev := 0, ddev := 0 }

/-- Puts a packet of this device into its custody, to be sent (R373, R377); one for this device itself has arrived. -/
def State.emit (s : State) (h : Hdr) (data : List Nat) : State :=
  let (k, s) := s.fresh
  { s with pkts := s.pkts ++ [{ k := k, h := h, data := data, loc := if h.ddev.toNat == s.dev then .here else .held, inPort := none, since := s.clock }] }

/-- The response to a request that ended here, recorded for a later probe (R377, R378). -/
def State.respond (s : State) (p : Pkt) (err : Bool) (aux : BitVec 32) (data : List Nat) (mask : Nat) : State :=
  let h := { p.h with err := err, resp := true, aux := aux, mask := mask, lidx := 0, nflit := BitVec.ofNat 4 data.length,
                      cls := 0, hop := 0, sdev := p.h.ddev, ddev := p.h.sdev }
  let s := s.emit h data
  { s with
    performed := s.performed ++ [(p.h.sdev.toNat, p.h.tag.toNat, { p with h := h, data := data, since := s.clock })]
    pkts := s.pkts.filter fun q => q.k != p.k }

def State.pkt? (s : State) (k : Nat) : Option Pkt := s.pkts.find? (·.k == k)
def State.dropPkt (s : State) (k : Nat) : State := { s with pkts := s.pkts.filter fun q => q.k != k }

/-- A drain ends with a code: at the sender's operation, or in a response (R147, R243). -/
def State.drainEnd (s : State) (op : Nat) (pkt : Option Nat) (code : Nat) : State :=
  match pkt with
  | none =>
    { s with ops := s.ops.map fun o =>
        if o.id == op then (match o.kind with | .mdrain d _ => { o with kind := .mdrain d (some code) } | _ => o) else o }
  | some k =>
    match s.pkt? k with
    | some p => s.respond p (code != 0) (BitVec.ofNat 32 code) [] 0
    | none => s

/-! ### Tiles that go back to the core (R57, R59, R148) -/

def Tile.idle (t : Tile) : Bool := t.st != .filling && t.st != .draining && t.users == 0 && t.resv.isNone

/-- Released slots and tiles that have become idle are unclaimed; additions held for them are dropped with status 6. -/
def State.reap (s : State) (d c : Nat) : State :=
  let k := s.core d c
  let gone := (k.acm.filter fun t => t.going && t.idle).map (·.idx)
  let lost := k.held.filter fun h => gone.contains h.unit
  let s := s.onCore d c fun k =>
    { k with
      mom := k.mom.filter fun t => !(t.going && t.idle)
      acm := k.acm.filter fun t => !(t.going && t.idle)
      held := k.held.filter fun h => !gone.contains h.unit }
  lost.foldl (fun (s : State) h => s.drainEnd h.op h.pkt 6) s

/-- An owner has ended: its claims are released, its copy-engine contexts wait to become idle (R57, R246). -/
def State.ownerEnds (s : State) (d c : Nat) (o : Owner) : State :=
  (s.onCore d c fun k =>
    { k with
      mom := k.mom.map fun t => if t.owner == o && !t.going then { t with going := true } else t
      acm := k.acm.map fun t => if t.owner == o && !t.going then { t with going := true } else t
      engines := k.engines.map fun e => if e.owner == some o then { e with owner := none } else e }).reap d c

/-- A context that has passed to a new owner restarts its timeline at 0 once it is idle (R246). Events already in its queue stay there for the new
owner, by the model's choice (log 25). -/
def Engine.settle (e : Engine) : Engine := if e.restart && e.cmds.isEmpty then { e with next := 1, restart := false } else e

/-- A context and its commands pass from owner to owner (R21, R246). -/
def Engine.pass (e : Engine) (own : Owner → Owner) : Engine :=
  Engine.settle { e with owner := e.owner.map own, cmds := e.cmds.map fun k => { k with owner := own k.owner } }

/-- A command is over. -/
def Engine.drop (e : Engine) (n : Nat) : Engine := Engine.settle { e with cmds := e.cmds.filter fun k => k.num != n }

/-! ### Backfill batches (R110, R258, R259) -/

/-- A launch joins the list of launches decided (R97). -/
def State.addLaunch (s : State) (ctx : Nat) (recA : W64) (argp : Option W64) (num : Option Nat) (bad : Bool) (by' : LaunchBy) (src : Nat := 0) : State :=
  let (id, s) := s.fresh
  { s with launches := s.launches ++ [{ id := id, ctx := ctx, recA := recA, argp := argp, num := num, bad := bad, tr := none, by' := by', src := src }] }

def State.onBfe (s : State) (die idx : Nat) (f : BfeCfg → BfeCfg) : State :=
  s.onDie die fun x => { x with bfe := x.bfe.map fun b => if b.idx == idx then f b else b }

def State.bfe? (s : State) (die idx : Nat) : Option BfeCfg := (s.die die).bfe.find? (·.idx == idx)

/-- Launches up to 64 entries of a layer, in the order of their arrival, from a free buffer; without one the entries wait. Where the buffer
cannot be written the entries are dropped, and a launch that holds no buffer brings the fault (R259). -/
def State.bfeLaunch (s : State) (die idx layer : Nat) : State :=
  match s.bfe? die idx with
  | none => s
  | some b =>
    let addr := fun (k : Nat) => (b.area + BitVec.ofNat 64 ((4 * layer + k) * 1024)).toNat
    match b.batches.find? (·.layer == layer), (List.range 4).find? (fun k => !(s.die die).bufs.contains (b.ctx, addr k)) with
    | some bt, some k =>
      let now := bt.pairs.take 64
      let rest := bt.pairs.drop 64
      let bytes := leBytes 4 layer ++ leBytes 4 now.length ++ leBytes 8 0 ++
        now.flatMap fun p => leBytes 4 p.1 ++ leBytes 2 p.2.1 ++ leBytes 2 0
      let left := fun (b : BfeCfg) => { b with
        batches := (b.batches.filter fun x => x.layer != layer) ++ (if rest.isEmpty then [] else [{ layer := layer, pairs := rest }]) }
      match s.ctxWrite b.ctx (addr k) bytes with
      | none => (s.onBfe die idx left).addLaunch b.ctx b.recA none none true (.bfe die idx layer none)
      | some s =>
        let s := (s.onBfe die idx left).onDie die fun x => { x with bufs := x.bufs ++ [(b.ctx, addr k)] }
        s.addLaunch b.ctx b.recA (some (BitVec.ofNat 64 (addr k))) none false (.bfe die idx layer (some (addr k)))
    | _, _ => s

/-- A released configuration is one that no owner holds: gang 0 never exists. -/
def BfeCfg.released (b : BfeCfg) : Bool := b.owner == .gang 0

/-- Frees the released configurations of a die that have no batch left; the buffers in use stay so (R246). -/
def State.bfeSweep (s : State) (die : Nat) : State :=
  s.onDie die fun x => { x with bfe := x.bfe.filter fun b => !(b.released && b.batches.isEmpty) }

/-- The layer's batch is to be launched: it is full, its first entry is 4096 cycles old, or its configuration is released (R110, R246). -/
def BfeCfg.due (b : BfeCfg) (clock layer : Nat) : Bool :=
  b.batches.any fun x => x.layer == layer && (64 ≤ x.pairs.length || b.released || (x.pairs.head?.any fun p => p.2.2 + 4096 ≤ clock))

/-- Launches what is due of a layer, while it has a free buffer: it has four. -/
def State.bfeLayer (s : State) (die idx layer : Nat) : State :=
  ((List.range 4).foldl (fun (s : State) _ =>
    if (s.bfe? die idx).any fun b => b.due s.clock layer then s.bfeLaunch die idx layer else s) s).bfeSweep die

/-- Launches what is due of every layer of a configuration. -/
def State.bfePump (s : State) (die idx : Nat) : State :=
  match s.bfe? die idx with
  | none => s
  | some b => (b.batches.map (·.layer)).foldl (fun (s : State) l => s.bfeLayer die idx l) s

/-- Releases a BFE configuration: its batches are then due (R246). A context kill discards them (R325). -/
def State.bfeRelease (s : State) (die idx : Nat) (discard : Bool) : State :=
  (s.onBfe die idx fun b => { b with owner := .gang 0, batches := if discard then [] else b.batches }).bfeSweep die

/-- A gang that ends releases the configurations that its Q registers bind (R246), but for those that passed to its cohort (R21; log 25). -/
def State.releaseBound (s : State) (g : Gang) (discard : Bool) : State :=
  (g.q.foldl (fun (s : State) p =>
    match p.2 with
    | .bfe die k _ => if (s.bfe? die k).any (·.passed) then s else s.bfeRelease die k discard
    | _ => s) s).onGang g.uid fun g => { g with q := [] }

/-- A cohort has dissolved: a configuration of it that a gang's Q register still binds is that gang's, and the others are released (R21, R246). -/
def State.releaseBfes (s : State) (d c n : Nat) : State :=
  s.dies.foldl (fun (s : State) x =>
    (x.bfe.filter fun b => b.owner == .cohort n && b.die == d && b.core == c).foldl
      (fun (s : State) b =>
        match s.gangs.find? fun g => g.q.any fun p => (match p.2 with | .bfe die k _ => die == x.die && k == b.idx | _ => false) with
        | some g => s.onBfe x.die b.idx fun b => { b with owner := .gang g.uid, passed := false }
        | none => s.bfeRelease x.die b.idx false) s) s

/-! ### Leaving a cohort and ending a gang (R15, R21, R46, R57, R167) -/

def State.cohort? (s : State) (d c n : Nat) : Option Cohort := (s.core d c).cohorts.find? (·.num == n)

def State.onCohort (s : State) (d c n : Nat) (f : Cohort → Cohort) : State :=
  s.onCore d c fun k => { k with cohorts := k.cohorts.map fun x => if x.num == n then f x else x }

/-- Barrier waits of a gang, or of every gang of a dissolved cohort, are over. -/
def State.endBars (s : State) (p : Op → Bool) : State :=
  { s with ops := s.ops.map fun o => if p o then (match o.kind with | .bar _ _ _ _ => { o with kind := .calc [] } | _ => o) else o }

/-- LEAVE: the arrival is withdrawn, the membership ends, and the last leaver dissolves the cohort (R21, R22). -/
def State.leaveCohort (s : State) (uid : Nat) : State :=
  match s.gang? uid with
  | none => s
  | some g =>
    match g.cohort with
    | none => s
    | some n =>
      let d := g.loc.die
      let c := g.loc.core
      let s := s.onCohort d c n fun k =>
        { k with members := k.members.filter (· != uid), arrived := k.arrived.filter (· != uid) }
      let s := s.endBars fun o => o.uid == uid
      let s := s.onGang uid fun g => { g with cohort := none, lastArr := none }
      match s.cohort? d c n with
      | some k =>
        if k.members.isEmpty then
          ((s.onCore d c fun k => { k with cohorts := k.cohorts.filter fun x => x.num != n }).ownerEnds d c (.cohort n)).releaseBfes d c n
        else s
      | none => s

/-- The MLOOPs of a gang stop at their next step boundary (R240). -/
def State.stopLoops (s : State) (uid : Nat) : State :=
  { s with ops := s.ops.map fun o =>
      if o.uid == uid then
        { o with kind := (match o.kind with
          | .mloop dd a b u f n sd pa pb ia ib sa sb fe st none => .mloop dd a b u f n sd pa pb ia ib sa sb fe st (some 5)
          | k => k) }
      else o }

/-- Stores kept in copies of NC lines are over: by the CFLUSH of their gang (R130), or with the gang. One whose instruction has completed goes. -/
def State.endKept (s : State) (p : Item → Bool) : State :=
  let ended := fun (i : Item) => i.st == .kept && p i
  { s with items := (s.items.filter fun i => !ended i || s.ops.any (·.id == i.op)).map fun i => if ended i then { i with st := .done } else i }

/-- Operations that end with their gang, without any further effect. -/
def OpKind.endsWithGang : OpKind → Bool
  | .mclaim _ _ _ _ | .bar _ _ _ _ | .rquota _ _ | .idle _ _ | .rcommit | .tlwait _ _ | .qpop _ _ => true
  | _ => false

/-- The gang ends: operations, Q registers, stash pages, cohort, claims, on whichever core it made them (R57, R327), then the slot is
FREE. -/
def State.endGang (s : State) (uid : Nat) (discard : Bool) : State :=
  match s.gang? uid with
  | none => s
  | some g =>
    let d := g.loc.die
    let c := g.loc.core
    let s := (s.settleStash uid).flushPages uid g.mappedPages .invalid false
    let unset := fun (i : Item) => (s.op? i.op).any fun o => o.uid == uid && (match o.kind with | .idle _ set => !set | _ => false)
    let s : State := { s with
      items := (s.items.filter fun i => !unset i).map fun i => if i.uid == uid && i.dst == .window then { i with st := .done } else i
      ops := (s.ops.filter fun o => !(o.uid == uid && o.kind.endsWithGang)).map fun o =>
        if o.uid == uid then { o with dead := true } else o }
    let s := (s.stopLoops uid).endKept fun i => i.uid == uid
    let s := s.releaseBound g discard
    let s := match g.cohort with
      | some n => if g.status == GStatus.saved then s else s.onCohort d c n fun k => { k with pool := k.pool + g.vblocks }
      | none => s
    let s := s.leaveCohort uid
    let s := s.cores.foldl (fun (s : State) k => s.ownerEnds k.die k.core (.gang uid)) s
    let s := if g.last == some s.clock then s.onCore d c fun k => { k with ended := insertAt k.ended (schedOf g.loc) s.clock } else s
    { s with gangs := s.gangs.filter fun x => x.uid != uid }

/-! CTXERR bits (Table 17.4). -/
def errILL : W64 := 1 <<< 1
def errIBT : W64 := 1 <<< 2
def errMCHK : W64 := 1 <<< 3
def errTL2F : W64 := 1 <<< 4
def errHVEC : W64 := 1 <<< 5
def errGRADED : W64 := 1 <<< 6
def errKILLI : W64 := 1 <<< 7
def errDRVK : W64 := 1 <<< 8
def errECCK : W64 := 1 <<< 9

/-- A gang is killed, and a sticky bit of its context says why (R167). -/
def State.killGang (s : State) (uid : Nat) (bit : W64) : State :=
  match s.gang? uid with
  | none => s
  | some g =>
    let s := s.onGang uid fun g => { g with region := none }
    (s.endGang uid false).onCtx g.ctx fun c => { c with err := c.err ||| bit }

/-- The address the gang's issuing split stands at. -/
def State.focusPc (s : State) : W64 := match s.focus with | some f => f.pc | none => 0

/-- The kill snapshot of a gang's event (R325). -/
def State.snapshot (s : State) (g : Gang) (cause : W64) (ip va : W64) : List W64 :=
  [s.nameOf g, g.t1.cause, g.t1.ret, g.t1.va, g.t1.ip, g.t1.stat, g.t2.cause, g.t2.ret, g.t2.va, g.t2.ip, g.t2.stat, cause, ip, va]

/-- An engine command of a killed context that has not started is discarded, one in progress ends (R325). -/
def Engine.killCtx (e : Engine) (ctx : Nat) : Engine :=
  let gone := e.cmds.filter fun k => k.ctx == ctx
  if gone.isEmpty then e else { e with cmds := e.cmds.filter fun k => k.ctx != ctx }.settle

/-- What a die drops at the kill of a context: held stores, counted as discards, Halyard entries, batches (R104, R325). -/
def Die.killCtx (d : Die) (ctx : Nat) : Die :=
  let n := (d.eghold.filter fun h => h.item.ctx == ctx).length
  { d with
    eghold := d.eghold.filter fun h => h.item.ctx != ctx
    egdisc := d.egdisc + BitVec.ofNat 64 n
    watch := d.watch.filter fun w => w.ctx != ctx
    bufs := d.bufs.filter fun b => b.1 != ctx
    bfe := d.bfe.filter fun b => b.ctx != ctx }

/-- A store that has not left yet for a peer or the host (R103). -/
def Item.outward (i : Item) : Bool :=
  i.st == .queued && (match i.kind with | .store | .storeG _ => true | _ => false) && (match i.dst with | .host | .peer _ => true | _ => false)

/-- Kills a context (R324, R325), and aborts the communicators that its gangs have used (R145; log 81). The outward stores of its gated runs go with the hold's, those that wait for it too (R104). A later kill event
changes nothing. `snap` is the snapshot, latched before the gangs end. -/
def State.killContext (s : State) (ctx : Nat) (bits : W64) (snap : List W64) : State :=
  let c := s.ctx ctx
  if c.killed then s
  else
    let s := s.setCtx { c with killed := true, ksnap := snap, faults := [], handlers := [] }
    let out := (s.items.filter fun i => i.ctx == ctx && i.outward && s.gated ctx i.inst i.run).map (·.id)
    let mine := (s.gangs.filter fun g => g.ctx == ctx).map (·.uid)
    let s : State := { s with dies := s.dies.map fun d => d.killCtx ctx }
    let s : State := mine.foldl (fun (s : State) u => (s.onGang u fun g => { g with region := none }).endGang u true) s
    let s : State := { s with cores := s.cores.map fun k => { k with engines := k.engines.map fun e => e.killCtx ctx } }
    let s : State := { s with items := s.items.filter fun i => !(i.ctx == ctx && (i.st == .held || i.st == .egress || i.inst == farInst || out.contains i.id)) }
    let s : State := { s with insts := s.insts.filter fun i => i.ctx != ctx, heldWr := s.heldWr.filter fun h => h.ctx != ctx }
    let s : State := { s with launches := s.launches.filter fun l => l.ctx != ctx }
    let s : State := { s with places := s.places.filter fun p => p.ctx != ctx }
    let s : State := { s with aborts := s.aborts ++ (c.comms.map fun m => (c.ten, m.1)).filter fun a => !s.aborts.contains a && !c.aborted.contains a.2 }
    let s := s.onCtx ctx fun c => { c with err := c.err ||| bits }
    s.msix c.ten (if c.kvec < 2 then 2 else c.kvec)

/-! ### Taking an exception (R317 to R319) -/

/-- The waits of R319 step 2: each counter has fallen to what its armed hold entry still expects. -/
def Gang.settled (g : Gang) : Bool :=
  (List.range 12).all fun k =>
    let h := g.hold.getD k { armed := false, regm := false, reg := 0, rem := 0 }
    g.counter k ≤ (if h.armed then h.rem else 0)

/-- The waits of R25, R28 and R30: every counter zero, every fixed-latency result written. -/
def Gang.quiet (g : Gang) : Bool := g.pend.isEmpty && (List.range 12).all fun k => g.counter k == 0

def Gang.tregs (g : Gang) (l : Nat) : TrapRegs := if l == 1 then g.t1 else g.t2
def Gang.setTregs (g : Gang) (l : Nat) (t : TrapRegs) : Gang := if l == 1 then { g with t1 := t } else { g with t2 := t }

/-- TCAUSE (Table 17.2). -/
def TrapReq.word (q : TrapReq) : W64 := 0#27 ++ q.lane ++ q.code ++ q.sub ++ q.cause
/-- TSTAT (Table 17.2). -/
def statWord (reg : Bool) (fmt : BitVec 16) (exec : W32) : W64 := 0#15 ++ BitVec.ofBool reg ++ fmt ++ exec

/-- A pre-emption's save or a resumption's restore is in progress (R138, R326, R328). -/
def Gang.moving (g : Gang) : Bool := g.move != .no

/-- The entry of PREEMPT at TL1 begins a save or a restore (R138, R326, R328). -/
def TrapReq.moves (q : TrapReq) (l : Nat) (m : Move) : Move :=
  if l == 1 && q.cause == causePREEMPT then (if q.sub == 0 then .saving else .restoring) else m

/-- The snapshot of an aborted region is restored, and its split stands at the head again (R30). -/
def Gang.restore (g : Gang) (sid : Nat) : Gang :=
  match g.region with
  | none => g
  | some r =>
    let g := { g with region := none, s := r.snapS, k := r.snapK }
    g.onSplit sid fun sp => { sp with exec := r.snapE, fmt := r.snapF, pc := r.head, latch := none, chk := 1 }

/-- Results of the open region still on their way will be discarded where they target its OPB (R30, step 2). -/
def State.loseOpb (s : State) (uid : Nat) : State :=
  { s with ops := s.ops.map fun o => if o.uid == uid && o.opb then { o with lost := true } else o }

/-- The region, if any, gives up its store buffer and its OPB at once (R30, step 1). -/
def Gang.beginAbort (g : Gang) : Gang :=
  match g.region with
  | none => g
  | some r => { g with region := some { r with buf := [], opb := [], lines := [], stage := .aborting } }

/-- A cause is raised (R317): recorded until it is taken, and no split issues meanwhile. A cause that traps stops the gang's
MLOOPs (R240); a translation fault at TL0 does not trap (R318). -/
def State.raise (s : State) (uid : Nat) (q : TrapReq) : State :=
  let parks := q.cause == causeXLATE && ((s.gang? uid).map (·.tl)).getD 0 == 0
  let s := (if parks then s else s.stopLoops uid).loseOpb uid
  s.onGang uid fun g => { g.beginAbort with trap := some { q with reg := g.region.isSome } }

/-- A translation fault at TL0 parks the gang in PARKED-FAULT and is recorded for the driver (R318, R352). -/
def State.park (s : State) (uid sid : Nat) (va : W64) (acc : BitVec 8) : State :=
  match s.gang? uid with
  | none => s
  | some g =>
    let k : AccKind := if acc == 0 then .load else if acc == 1 then .store else if acc == 2 then .fetch else .rmw
    let s := s.onGang uid fun g =>
      { g with status := .parkedFault, retry := false, pfAcc := some (va, acc.setWidth 2), pfSid := sid, trap := none }
    s.enterFault g.ctx va.toNat k

/-- The cause a gang has raised is taken once its counters have settled: TL0 XLATE parks, a cause at TL2 and an impossible
entry kill the context, and otherwise the gang enters the next level (R318, R319). Nothing happens while it cannot, or its save area is to be read
first (R328). -/
def State.takeTrap (s : State) (uid : Nat) : State :=
  match s.gang? uid with
  | none => s
  | some g =>
    match g.trap with
    | none => s
    | some q =>
      let ready := g.move != .toRead && (if g.region.isSome then g.quiet else g.settled)
      if !ready then s
      else
        let s := s.onGang uid fun g => g.restore q.sid
        if g.tl == 0 && q.cause == causeXLATE then s.park uid q.sid q.va q.sub
        else if g.tl ≥ 2 then
          let w : W64 := q.cause.setWidth 64
          s.killContext g.ctx (errTL2F ||| (w <<< 16)) (s.snapshot g w q.ip q.va)
        else
          let l := g.tl + 1
          let c := s.ctx g.ctx
          let vec := if l == 1 then c.tvec1 else c.tvec2
          if vec == 0 || (slotOf vec).isNone || vec.toNat ≥ lwin then
            s.killContext g.ctx errHVEC (s.snapshot g (q.cause.setWidth 64) q.ip q.va)
          else
            s.onGang uid fun g =>
              match g.split? q.sid with
              | none => g
              | some sp =>
                let t := g.tregs l
                let t := { t with cause := q.word, ip := q.ip, ret := if q.reg then sp.pc else q.ret, va := q.va,
                                  stat := statWord q.reg sp.fmt sp.exec, scr := g.sr 63 }
                let g := ((g.setTregs l t).setS 63 t.save)
                { g with tl := l, trap := none, move := q.moves l g.move, owed := (l, t.ret, if t.ret == sp.pc then sp.chk else 0) :: g.owed.filter (·.1 != l), turn := (g.turn.filter (· != q.sid)) ++ [q.sid], table := g.table.map fun x =>
                    if x.sid == q.sid then { x with exec := 0xFFFFFFFF, fmt := 0, pc := vec, latch := none, chk := 2 } else x }

/-- The TGT check that a split owed when it took the trap of level `l` stays owed when ERET brings it back to the same address: ERET itself
checks nothing (R154, R320). The model's reading (log 93). -/
def Gang.owedAt (g : Gang) (l : Nat) (ret : W64) : Nat :=
  match g.owed.find? (·.1 == l) with
  | some o => if o.2.1 == ret then o.2.2 else 0
  | none => 0

/-- ERET at level L, after its wait (R320); at TL1 a save or a restore is over (R138). The return address has been checked under R150. -/
def State.eretNow (s : State) (uid sid : Nat) : State :=
  s.onGang uid fun g =>
    let t := g.tregs g.tl
    let g1 := g.setS 63 t.scr
    { g1 with
      tl := g.tl - 1
      move := if g.tl == 1 then .no else g.move
      owed := g.owed.filter (·.1 != g.tl)
      table := g1.table.map fun x =>
        if x.sid == sid then
          { x with exec := t.stat.extractLsb' 0 32, fmt := t.stat.extractLsb' 32 16, pc := t.ret, latch := none, chk := g.owedAt g.tl t.ret }
        else x }

end Sys2Proof.Machine
end

