-- ==== Sys2Proof/Machine/Tiles.lean ====
section
/-! DEFINITION. Claims and the tile table (R56 to R60, R229 to R232, R240), the claim tie-break (R58) and the RQUOTA tie-break
(R50). -/

namespace Sys2Proof.Machine

/-! Fields of a tile word (Table 10.1). -/
def twA (w : W64) : Nat := (w.extractLsb' 0 7).toNat
def twB (w : W64) : Nat := (w.extractLsb' 8 7).toNat
def twC (w : W64) : Nat := (w.extractLsb' 16 8).toNat
def twTC (w : W64) : Nat := (w.extractLsb' 24 8).toNat

def Tile.span (t : Tile) : Nat := if t.acc80 then 5 else 2

/-- The slot that the owner holds under a number (R57). -/
def Core.slotBy (k : Core) (o : Owner) (i : Nat) : Option Tile := k.mom.find? fun t => t.idx == i && t.owner == o && !t.going
/-- The tile that the owner holds with this first unit. -/
def Core.tileBy (k : Core) (o : Owner) (u : Nat) : Option Tile := k.acm.find? fun t => t.idx == u && t.owner == o && !t.going
def Core.slot? (k : Core) (i : Nat) : Option Tile := k.mom.find? (·.idx == i)
def Core.tile? (k : Core) (u : Nat) : Option Tile := k.acm.find? (·.idx == u)

def Core.onSlot (k : Core) (i : Nat) (f : Tile → Tile) : Core := { k with mom := k.mom.map fun t => if t.idx == i then f t else t }
def Core.onTile (k : Core) (u : Nat) (f : Tile → Tile) : Core := { k with acm := k.acm.map fun t => if t.idx == u then f t else t }

/-- A fill may begin: EMPTY or READY with no user (R59), outside every reservation (R240). -/
def Tile.canFill (t : Tile) : Bool := (t.st == .empty || t.st == .ready) && t.users == 0 && t.resv.isNone
/-- A read or a drain may begin. -/
def Tile.canRead (t : Tile) : Bool := t.st == .ready && t.resv.isNone

def Tile.fill (t : Tile) (by' : Nat) : Tile := { t with st := .filling, by' := some by' }
def Tile.drain (t : Tile) (by' : Nat) : Tile := { t with st := .draining, by' := some by' }
def Tile.ready (t : Tile) : Tile := { t with st := .ready, by' := none }
/-- MZERO and MACCWR set the arrival count to 0 as the fill ends (R59). -/
def Tile.readyZero (t : Tile) : Tile := { t with st := .ready, by' := none, arriv := 0 }
def Tile.use (t : Tile) : Tile := { t with users := t.users + 1 }
def Tile.unuse (t : Tile) : Tile := { t with users := t.users - 1 }

/-- An MMAC or MLOOP of this core still accumulates into the tile (R236, R238). -/
def State.accumulating (s : State) (d c u : Nat) : Bool :=
  s.ops.any fun o => o.die == d && o.core == c &&
    (match o.kind with
     | .mmac _ _ v _ _ => v == u
     | .mloop _ _ _ v _ _ _ _ _ _ _ _ _ _ _ _ => v == u
     | _ => false)

/-! ### Claims -/

def Core.unitFree (k : Core) (u : Nat) : Bool := !(k.acm.any fun t => t.idx ≤ u && u < t.idx + t.span)
def Core.slotFree (k : Core) (i : Nat) : Bool := !(k.mom.any fun t => t.idx == i)

/-- The lowest contiguous run of free slots (R57). -/
def Core.findMom (k : Core) (m : Nat) : Option Nat :=
  if m == 0 then some 0 else (List.range (129 - m)).find? fun b => (List.range m).all fun i => k.slotFree (b + i)

/-- The lowest contiguous run of free tiles of one format. -/
def Core.findAcm (k : Core) (a : Nat) (af : Bool) : Option Nat :=
  let w := if af then 5 else 2
  if a == 0 then some 0
  else ((List.range (160 / w + 1 - a)).find? fun j => (List.range (w * a)).all fun i => k.unitFree (w * j + i)).map (w * ·)

def Tile.new (idx : Nat) (acc80 : Bool) (o : Owner) : Tile :=
  { idx := idx, acc80 := acc80, owner := o, st := .empty, users := 0, arriv := 0, going := false, by' := none, resv := none }

/-- The grant word (Table 10.2). -/
def grantWord (stat a0 m0 : Nat) (af : Bool) (acnt mcnt : Nat) : W64 :=
  0#30 ++ BitVec.ofNat 2 stat ++ BitVec.ofNat 8 a0 ++ BitVec.ofNat 8 m0 ++ BitVec.ofBool af ++ BitVec.ofNat 7 acnt ++ BitVec.ofNat 8 mcnt

/-- Grants a claim whole, or not at all (R57). -/
def State.tryClaim (s : State) (d c : Nat) (o : Owner) (mcnt acnt : Nat) (af : Bool) : Option (State × W64) :=
  let k := s.core d c
  match k.findMom mcnt, k.findAcm acnt af with
  | some m0, some a0 =>
    let w := if af then 5 else 2
    let k := { k with
      mom := k.mom ++ (List.range mcnt).map fun i => Tile.new (m0 + i) false o
      acm := k.acm ++ (List.range acnt).map fun i => Tile.new (a0 + w * i) af o }
    some (s.setCore k, grantWord 0 a0 m0 af acnt mcnt)
  | _, _ => none

/-- The owner for which a waiting operation claims. -/
def State.ownerOf (s : State) (uid : Nat) : Owner := ((s.gang? uid).map (·.owner)).getD (.gang uid)

/-- The MCLAIMs that wait on a core, in issue order. -/
def State.waitingClaims (s : State) (d c : Nat) : List Op :=
  s.ops.filter fun o => o.die == d && o.core == c && (match o.kind with | .mclaim _ _ _ _ => true | _ => false)

/-- Completes a waiting MCLAIM with a grant word; its gang's wait ends. -/
def State.endClaim (s : State) (o : Op) (w : W64) : State :=
  match o.kind with
  | .mclaim dst _ _ _ =>
    (s.setOp { o with kind := .calc [.sreg dst w] }).onGang o.uid fun g =>
      if g.wait == some (.op o.id) then { g with wait := none } else g
  | _ => s

/-- Each waiting MCLAIM that fits is granted, in issue order; one that does not keeps its place (R57). -/
def State.pumpClaims (s : State) (d c : Nat) : State :=
  (s.waitingClaims d c).foldl (fun (s : State) o =>
    match o.kind with
    | .mclaim _ m a af =>
      match s.tryClaim d c (s.ownerOf o.uid) m a af with
      | some (s, w) => s.endClaim o w
      | none => s
    | _ => s) s

/-- The present phase of a cohort's barrier is about to complete: every member has arrived, and none is pre-empted (R22). -/
def State.phaseOver (s : State) (k : Cohort) : Bool :=
  !k.members.isEmpty && k.members.all fun u =>
    k.arrived.contains u && ((s.gang? u).map fun g => g.status != GStatus.saved && !g.moving).getD false

/-- The gang waits at a cohort barrier, and not for a phase that is about to complete (R50, R58). -/
def State.atBarrier (s : State) (g : Gang) : Bool :=
  let ended := g.cohort.any fun n => (s.cohort? g.loc.die g.loc.core n).any s.phaseOver
  !ended && (match g.wait with
    | some (.bar _ _) => true
    | some (.op id) => (s.op? id).any fun o => (match o.kind with | .bar _ _ _ _ => true | _ => false)
    | _ => false)

/-- The gang waits in MCLAIM or at a cohort barrier, or is not resident on the core: it stands parked by pre-emption, or has been resumed
elsewhere (R58, R327, R328). -/
def State.stuckClaim (s : State) (d c uid : Nat) : Bool :=
  match s.gang? uid with
  | none => true
  | some g =>
    if g.status == .saved || g.loc.die != d || g.loc.core != c then true
    else s.atBarrier g || (match g.wait with
      | some (.op id) => (s.op? id).any fun o => (match o.kind with | .mclaim _ _ _ _ => true | _ => false)
      | _ => false)

def State.ownerGangs (s : State) (d c : Nat) : Owner → List Nat
  | .gang u => [u]
  | .cohort n => ((s.cohort? d c n).map (·.members)).getD []

def Core.holders (k : Core) : List Owner :=
  (((k.mom ++ k.acm).filter fun t => !t.going).map (·.owner)).eraseDups

/-- The claim tie-break (R58): the MCLAIM issued last among those whose owners hold something ends with DEADLOCK. -/
def State.claimTie (s : State) (d c : Nat) : State :=
  let hs := (s.core d c).holders
  let ws := s.waitingClaims d c
  let fits := ws.any fun o =>
    match o.kind with
    | .mclaim _ m a af => (s.tryClaim d c (s.ownerOf o.uid) m a af).isSome
    | _ => false
  if ws.isEmpty || fits || !(hs.all fun o => (s.ownerGangs d c o).all (s.stuckClaim d c)) then s
  else
    match (ws.filter fun o => hs.contains (s.ownerOf o.uid)).getLast? with
    | some o =>
      (match o.kind with
       | .mclaim _ m a af => s.endClaim o (grantWord 2 0 0 af a m)
       | _ => s)
    | none => s

/-! ### RQUOTA (R49, R50) -/

def State.waitingQuotas (s : State) (d c n : Nat) : List Op :=
  s.ops.filter fun o => o.die == d && o.core == c && (match o.kind with | .rquota _ _ => true | _ => false) &&
    ((s.gang? o.uid).map fun g => g.cohort == some n).getD false

/-- Grows a gang's allocation by blocks that hold free values (R6, R49). -/
def State.growV (s : State) (uid blocks : Nat) : State :=
  let n := s.freeCtr
  let s := { s with freeCtr := s.freeCtr + 8 }
  s.onGang uid fun g =>
    { g with vblocks := blocks, vseeds := g.vseeds.take g.vblocks ++ (List.range (blocks - g.vblocks)).map fun i => n + i }

/-- Shrinks a gang's allocation: what the top blocks held is gone. -/
def Gang.shrinkV (g : Gang) (blocks : Nat) : Gang :=
  { g with vblocks := blocks, vseeds := g.vseeds.take blocks, v := g.v.filter fun p => p.1 < 32 * blocks }

/-- Ends a waiting RQUOTA with a status. -/
def State.endQuota (s : State) (o : Op) (status : W64) : State :=
  match o.kind with
  | .rquota dst _ =>
    (s.setOp { o with kind := .calc [.sreg dst status] }).onGang o.uid fun g =>
      if g.wait == some (.rquota o.id) then { g with wait := none } else g
  | _ => s

/-- The waiting RQUOTAs of a cohort that the pool can supply go on, in issue order, and one that fits passes an older one that does not (R49;
log 68). -/
def State.pumpQuotas (s : State) (d c n : Nat) : State :=
  (s.waitingQuotas d c n).foldl (fun (s : State) o =>
    match o.kind, s.gang? o.uid, s.cohort? d c n with
    | .rquota _ want, some g, some k =>
      if want - g.vblocks ≤ k.pool then
        ((s.onCohort d c n fun k => { k with pool := k.pool - (want - g.vblocks) }).growV o.uid want).endQuota o 0
      else s
    | _, _, _ => s) s

/-- The gang waits in RQUOTA, at a cohort barrier, or in REGROUP (R50). -/
def State.stuckQuota (s : State) (uid : Nat) : Bool :=
  match s.gang? uid with
  | none => true
  | some g =>
    s.atBarrier g || (match g.wait with
      | some (.rquota _) => true
      | some .regroup => true
      | _ => false)

/-- The RQUOTA tie-break (R50): the youngest waiting RQUOTA ends with status 1. -/
def State.quotaTie (s : State) (d c n : Nat) : State :=
  match s.cohort? d c n with
  | none => s
  | some k =>
    let ws := s.waitingQuotas d c n
    let fits := ws.any fun o =>
      match o.kind, s.gang? o.uid with
      | .rquota _ want, some g => want - g.vblocks ≤ k.pool
      | _, _ => false
    if ws.isEmpty || fits || !(k.members.all s.stuckQuota) then s
    else
      match ws.getLast? with
      | some o => s.endQuota o 1
      | none => s

/-- A gang has begun to wait: both tie-breaks are checked (R50, R58). -/
def State.waitBegins (s : State) (uid : Nat) : State :=
  match s.gang? uid with
  | none => s
  | some g =>
    let s := s.claimTie g.loc.die g.loc.core
    match g.cohort with
    | some n => s.quotaTie g.loc.die g.loc.core n
    | none => s

/-- Released slots, tiles and blocks are handed on (R57, R49). -/
def State.freed (s : State) (d c : Nat) : State := (s.reap d c).pumpClaims d c

end Sys2Proof.Machine
end

