-- ==== Sys2Proof/Machine/Issue.lean ====
section
/-! DEFINITION. Issue (R39 to R42, R155, R156, R160, R166): which instructions the issuing state admits, what makes one wait at
issue, and the one wrapper through which every instruction word takes effect. -/

namespace Sys2Proof.Machine

/-! ### The V registers an instruction names (R10, R31, R176) -/

def pairRegs (w : Bool) (v : VR) : List Nat := if w then [v.toNat, v.toNat + 1] else [v.toNat]
def runRegs (v : VR) (n : Nat) : List Nat := (List.range n).map (v.toNat + ·)
/-- The registers of a datum (Table 09.1). -/
def datumRegs (wid : BitVec 3) (v : VR) : List Nat := if wid == 3 then runRegs v 2 else if wid == 4 then runRegs v 4 else [v.toNat]
def offRegs (off : VR) : List Nat := if off == 0xFF then [] else [off.toNat]

def vregs : Instr → List Nat
  | .sget _ n d => if n == 0 then [d.toNat] else []
  | .sysget _ n d => if n == 0x60 then [d.toNat] else []
  | .sysset _ n a => if n == 0x60 then [a.toNat] else []
  | .vadd _ _ w d a b | .vsub _ _ w d a b | .vmul _ _ w d a b | .vmulhi _ _ w d a b | .vmulhu _ _ w d a b
  | .vdiv _ _ w d a b | .vdivu _ _ w d a b | .vrem _ _ w d a b | .vremu _ _ w d a b | .vand _ _ w d a b
  | .vor _ _ w d a b | .vxor _ _ w d a b | .vandn _ _ w d a b | .vshl _ _ w d a b | .vshr _ _ w d a b
  | .vsar _ _ w d a b | .vmin _ _ w d a b | .vmax _ _ w d a b | .vminu _ _ w d a b | .vmaxu _ _ w d a b
  | .vadds _ _ _ w d a b | .vsubs _ _ _ w d a b | .vsel _ _ w d a b _ =>
    pairRegs (wide w) d ++ pairRegs (wide w) a ++ pairRegs (wide w) b
  | .vmad _ _ w d a b e => pairRegs (wide w) d ++ pairRegs (wide w) a ++ pairRegs (wide w) b ++ pairRegs (wide w) e
  | .vabs _ _ w d a | .vneg _ _ w d a | .vpopc _ _ w d a | .vclz _ _ w d a | .vmov _ _ w d a =>
    pairRegs (wide w) d ++ pairRegs (wide w) a
  | .vfroms _ _ w d _ => pairRegs (wide w) d
  | .sfromv _ _ w _ a _ => pairRegs (wide w) a
  | .valui _ _ _ _ w d a _ => pairRegs (wide w) d ++ pairRegs (wide w) a
  | .vcmp _ _ _ w _ a b => pairRegs (wide w) a ++ pairRegs (wide w) b
  | .vcmpi _ _ _ w _ a _ => pairRegs (wide w) a
  | .vfadd _ _ _ w d a b | .vfsub _ _ _ w d a b | .vfmul _ _ _ w d a b | .vfdiv _ _ _ w d a b | .vfscale _ _ _ w d a b =>
    pairRegs (wide w) d ++ pairRegs (wide w) a ++ pairRegs (wide w) b
  | .vfmin _ _ w d a b | .vfmax _ _ w d a b => pairRegs (wide w) d ++ pairRegs (wide w) a ++ pairRegs (wide w) b
  | .vfma _ _ _ w d a b e | .vfms _ _ _ w d a b e | .vfnma _ _ _ w d a b e =>
    pairRegs (wide w) d ++ pairRegs (wide w) a ++ pairRegs (wide w) b ++ pairRegs (wide w) e
  | .vfsqrt _ _ _ w d a | .vfrcp _ _ _ w d a | .vfrsq _ _ _ w d a | .vfexp2 _ _ _ w d a | .vflog2 _ _ _ w d a
  | .vfrint _ _ _ w d a => pairRegs (wide w) d ++ pairRegs (wide w) a
  | .vfabs _ _ w d a | .vfneg _ _ w d a | .vfclass _ _ w d a => pairRegs (wide w) d ++ pairRegs (wide w) a
  | .vfcmp _ _ _ w _ a b => pairRegs (wide w) a ++ pairRegs (wide w) b
  | .vcvt _ _ _ dt st _ _ d a _ => pairRegs (cvtWide dt) d ++ pairRegs (cvtWide st) a
  | .vshuf _ _ w d a b => pairRegs (wide w) d ++ pairRegs (wide w) a ++ [b.toNat]
  | .vbcast _ _ w d a _ | .vrot _ _ w d a _ => pairRegs (wide w) d ++ pairRegs (wide w) a
  | .vreduce _ _ _ _ w _ a => pairRegs (wide w) a
  | .vscan _ _ _ _ w d a => pairRegs (wide w) d ++ pairRegs (wide w) a
  | .vmatch _ _ w d a => d.toNat :: pairRegs (wide w) a
  | .vld _ _ d m | .vst _ _ d m | .vldc _ _ d _ m | .vstc _ _ d _ m => datumRegs m.wid d ++ offRegs m.off
  | .ldacq _ _ d _ m | .strel _ _ d m => datumRegs m.wid d ++ offRegs m.off
  | .prefetch _ _ m | .cflush _ _ m => offRegs m.off
  | .vatom _ _ f d cmp m => datumRegs m.wid d ++ (if f.hasCmp then datumRegs m.wid cmp else []) ++ offRegs m.off
  | .maccrd _ _ _ nrow d _ | .maccwr _ _ _ nrow d _ => runRegs d (nrow.toNat + 1)
  | .tspawn _ _ _ keep _ _ b => if keep then [] else runRegs b 2
  | .rstv _ _ _ _ _ _ _ b _ => [b.toNat]
  | .regroup _ _ vt key vl n => [vt.toNat, key.toNat] ++ runRegs vl (n.toNat + 1)
  | .collPut _ _ d _ _ off rank _ | .collGet _ _ d _ _ off rank _ | .collRaddF32 _ _ d _ _ off rank _
  | .collRaddBf16 _ _ d _ _ off rank _ | .collRmaxF32 _ _ d _ _ off rank _ | .collRaddI32 _ _ d _ _ off rank _ =>
    [d.toNat, rank.toNat] ++ offRegs off
  | .confx _ _ emit _ a _ ver _ => if emit then runRegs a 2 ++ [ver.toNat] else [a.toNat]
  | .accept _ _ prob _ a _ _ => runRegs a (if prob then 4 else 2)
  | .hold _ regm d _ _ => if regm then [d.toNat] else []
  | .apport _ _ d a _ => [d.toNat, a.toNat]
  | .vrand _ _ _ d a _ => [d.toNat, a.toNat]
  | _ => []

/-! ### Groups -/

/-- Instructions that no region may hold (R31, R215, R261, R269, R274, R278, R314). -/
def notInRegion : Instr → Bool
  | .region _ _ _ | .brx _ _ _ _ _ | .call _ _ | .ret _ _ | .join _ _ _ | .leave _ | .bar _ | .bara _ | .barw _ | .rquota _ _ _
  | .regroup _ _ _ _ _ _ | .vatom _ _ _ _ _ _ | .satom _ _ _ _ _ | .ldacq _ _ _ _ _ | .strel _ _ _ _
  | .stashMap _ _ _ _ _ | .stashUnmap _ _ _ | .stashFlush _ _ _ | .stashInval _ _ _
  | .qbind _ _ _ _ | .qpush _ _ _ _ _ | .qpop _ _ _ | .qtry _ _ _
  | .gnew _ _ _ _ | .gfree _ _ _ | .gpub _ _ _ _ _ _ | .gprom _ _ _ _ _ | .gqry _ _ _ | .tspawn _ _ _ _ _ _ _ | .hold _ _ _ _ _
  | .mclaim _ _ _ | .mtry _ _ _ | .mrel _ _ | .mload _ _ _ _ _ | .mzero _ _ | .mmac _ _ | .mloop _ _ _ | .maccwr _ _ _ _ _ _
  | .mstore _ _ _ _ _ _ _ _ | .mdrain _ _ _ _ _ _ | .collGet _ _ _ _ _ _ _ _ => true
  | .jmp _ t => (match t with | .indirect _ => true | .direct _ => false)
  | .rstv _ _ _ sts _ _ _ _ _ => sts
  | .confx _ _ emit _ _ _ _ _ => emit
  | _ => false

/-- Instructions that no handler may hold (R314). -/
def notInHandler : Instr → Bool
  | .brx _ _ _ _ _ | .region _ _ _ | .join _ _ _ | .leave _ | .bar _ | .bara _ | .barw _ | .rquota _ _ _ | .regroup _ _ _ _ _ _
  | .hold _ _ _ _ _ | .tspawn _ _ _ _ _ _ _ | .mclaim _ _ _ | .mtry _ _ _ | .mrel _ _ | .mload _ _ _ _ _ | .mzero _ _ | .mmac _ _
  | .mloop _ _ _ | .maccrd _ _ _ _ _ _ | .maccwr _ _ _ _ _ _ | .mstore _ _ _ _ _ _ _ _ | .mdrain _ _ _ _ _ _
  | .qbind _ _ _ _ | .qpush _ _ _ _ _ => true
  | _ => false

def isSys : Instr → Bool
  | .eret _ | .sysget _ _ _ | .sysset _ _ _ | .tlbinv _ _ _ | .kill _ _ | .idle _ _ | .pgpool _ _ _ => true
  | _ => false

/-- A barrier instruction or REGROUP, before which a diverged gang reconverges (R16). -/
def isBarrier : Instr → Bool
  | .bar _ | .bara _ | .barw _ | .regroup _ _ _ _ _ _ => true
  | _ => false

/-- The classes that the acquiring and releasing operations hold back (R121, R123). -/
inductive MClass where
  | load | store | atomic | remote | engine | graded | other
  deriving DecidableEq, Repr

/-- The class of an instruction in Table 05.3, for a fence and LDACQ (R121, R123, R214). That a store to a MOM slot is a store, CONFX.EMIT an engine
command, and MZERO and MACCWR neither, is the model's choice (log 100). -/
def mclass : Instr → MClass
  | .vld _ _ _ _ | .vldc _ _ _ _ _ | .ldacq _ _ _ _ _ | .sld _ _ _ | .mload _ _ _ _ _ | .mloop _ _ _ => .load
  | .vst _ _ _ _ | .vstc _ _ _ _ _ | .strel _ _ _ _ | .sst _ _ _ | .mstore _ _ _ _ _ _ _ _ => .store
  | .vatom _ _ _ _ _ _ | .satom _ _ _ _ _ => .atomic
  | .rstv _ _ _ _ _ _ _ _ _ | .collPut _ _ _ _ _ _ _ _ | .collGet _ _ _ _ _ _ _ _ | .collRaddF32 _ _ _ _ _ _ _ _
  | .collRaddBf16 _ _ _ _ _ _ _ _ | .collRmaxF32 _ _ _ _ _ _ _ _ | .collRaddI32 _ _ _ _ _ _ _ _ | .mdrain _ _ _ _ _ _ => .remote
  | .qpush _ _ _ _ _ => .engine
  | .confx _ _ emit _ _ _ _ _ => if emit then .engine else .other
  | .gnew _ _ _ _ | .gfree _ _ _ | .gpub _ _ _ _ _ _ | .gprom _ _ _ _ _ | .gqry _ _ _ | .tspawn _ _ _ _ _ _ _ => .graded
  | _ => .other

/-- The classes a fence of a kind holds (Table 05.3). -/
def fenceHolds (k : BitVec 2) (c : MClass) : Bool :=
  c != .other && (match k.toNat with
    | 0 => c != .graded
    | 1 => c != .load
    | _ => true)

/-- An LDACQ not performed, a fence or a STASH not complete holds the instruction back (R121, R123, R216). -/
def State.held (s : State) (g : Gang) (i : Instr) : Bool :=
  let c := (mclass i)
  (c != .other && s.items.any fun x => x.uid == g.uid && x.acq && x.st != .done && x.st != .failed) ||
  (s.ops.any fun o => o.uid == g.uid &&
    (match o.kind with
     | .fence k _ => fenceHolds k c
     | .stash _ _ _ _ _ _ => c == .load || c == .store || c == .atomic || c == .remote || (match i with | .cflush _ _ _ | .prefetch _ _ _ => true | _ => false)
     | _ => false))

/-- The virtual addresses of the pages that a STASH instruction selects. -/
def Gang.stashSpan (g : Gang) (i : Instr) : List W64 :=
  let sel := fun (r : SR) =>
    if (g.sr r).getLsbD 8 then (g.stash.filter (·.mapped)).map (·.va)
    else match g.stash[((g.sr r).extractLsb' 0 8).toNat]? with
      | some p => if p.mapped then [p.va] else []
      | none => []
  match i with
  | .stashMap _ _ a _ disp => [g.sr a + disp.signExtend 64]
  | .stashUnmap _ _ r | .stashFlush _ _ r | .stashInval _ _ r => sel r
  | _ => []

/-- Accesses of the gang that a STASH instruction waits for (R216): to its stash and the window, and any other to a line of a selected page,
whether a load, a store, an atomic or a CFLUSH. -/
def State.nearPending (s : State) (g : Gang) (i : Instr) : Bool :=
  let span := g.stashSpan i
  (s.items.any fun x => x.uid == g.uid && x.st != .done && x.st != .failed && x.st != .kept &&
    (match x.dst with
     | .stash _ => true
     | .window => true
     | _ => span.any fun va => va.toNat / 4096 == x.vline.toNat / 4096)) ||
  (s.ops.any fun o => o.uid == g.uid && (o.kind.toFetch > 0 || (match o.kind with | .cflush _ => true | _ => false)))

/-! ### Uses that the issuing state makes illegal (R166) -/

/-- The mask of a REGION head breaks R24. -/
def regionMaskBad (g : Gang) (vb : VR) (m : W64) : Bool :=
  popc 64 m.toNat > 32 || (List.range 64).any fun i => m.getLsbD i && vb.toNat + i ≥ 32 * g.vblocks

def Gang.qbind? (g : Gang) (q : QR) : Option QBind := lookup g.q q.toNat
def Gang.qcopy? (g : Gang) (q : QR) : Option Nat :=
  match g.qbind? q with
  | some (.copy n _) => some n
  | _ => none
def Gang.qbfe? (g : Gang) (q : QR) : Option (Nat × Nat) :=
  match g.qbind? q with
  | some (.bfe d c _) => some (d, c)
  | _ => none

/-- R80: the format pairs the matrix unit accepts, none with a reserved code, and FMT.ACCF against the tile's format (R237). -/
def macFmtOk (fmt : BitVec 16) (t : Tile) : Bool :=
  let a := (fmt.extractLsb' 0 4).toNat
  let b := (fmt.extractLsb' 4 4).toNat
  ((a == b && a < 4) || (a < 2 && b < 2)) && fmt.extractLsb' 10 2 == (if t.acc80 then 1 else 0)

def Gang.restoring (g : Gang) : Bool := g.t1.cause.extractLsb' 0 16 == 0x010C

/-- A claim request that R231 calls illegal. -/
def claimReqBad (w : W64) : Bool :=
  let m := (w.extractLsb' 0 8).toNat
  let a := (w.extractLsb' 8 7).toNat
  m > 128 || a > (if w.getLsbD 15 then 32 else 80) || w.extractLsb' 16 48 != 0

/-- The slots and tiles a grant word names (R232); its bits 63 to 34 are not looked at, by the model's choice (log 102). -/
def grantRuns (w : W64) : List Nat × List Nat :=
  let m := (w.extractLsb' 0 8).toNat
  let a := (w.extractLsb' 8 7).toNat
  let m0 := (w.extractLsb' 16 8).toNat
  let a0 := (w.extractLsb' 24 8).toNat
  ((List.range m).map (m0 + ·), (List.range a).map fun i => a0 + (if w.getLsbD 15 then 5 else 2) * i)

def regionBrBad (r : Region) (pc : W64) (t : BTgt) : Bool :=
  let x := target pc t
  x.toNat ≤ pc.toNat && x != r.head

/-- The issuing state makes this use of the instruction illegal. -/
def illegalUse (s : State) (g : Gang) (sp : Split) (pc : W64) (i : Instr) : Bool :=
  let k := s.core g.loc.die g.loc.core
  let o := g.owner
  let holdsTile := fun (w : W64) => (k.tileBy o (twC w)).isSome
  let holdsSlot := fun (n : Nat) => (k.slotBy o n).isSome
  let vs := (vregs i)
  !i.wf || vs.any (fun n => n ≥ 32 * g.vblocks) ||
  ((isSys i) && g.tl == 0 && !(s.ctx g.ctx).priv) || (g.tl > 0 && (notInHandler i)) ||
  (match g.region with
   | some r => (notInRegion i) || vs.any (fun n => !r.inSet n) ||
      (match i with
       | .bra _ _ _ t => regionBrBad r pc t
       | .jmp _ (.direct t) => regionBrBad r pc t
       | .collPut _ _ _ a _ _ _ _ | .collRaddF32 _ _ _ a _ _ _ _ | .collRaddBf16 _ _ _ a _ _ _ _ | .collRmaxF32 _ _ _ a _ _ _ _
       | .collRaddI32 _ _ _ a _ _ _ _ => (match r.comm with | some c => c != ((g.sr a).extractLsb' 0 8).toNat | none => false)
       | _ => false)
   | none => (match i with | .rcommit _ | .rabort _ => true | _ => false)) ||
  (match i with
   | .region _ vb a => g.diverged || sp.depth != 0 || (g.quiet && regionMaskBad g vb (g.sr a))
   | .eret _ => g.tl == 0
   | .idle _ _ => !(g.tl == 1 && g.t1.cause.extractLsb' 0 16 == 0x000C)
   | .sysget _ n _ => (n.toNat / 16 == 1 && n.toNat != 0x10 && g.tl < 1) || (n.toNat / 16 == 2 && n.toNat != 0x20 && g.tl < 2)
   | .sysset _ n _ => (n.toNat / 16 == 1 && g.tl < 1) || (n.toNat / 16 == 2 && g.tl < 2) || (n.toNat ≥ 0x60 && !g.restoring)
   | .tlbinv _ _ b => (g.sr b).toNat ≥ 2
   | .mclaim _ _ a | .mtry _ _ a => claimReqBad (g.sr a)
   | .mrel _ a =>
     let w := g.sr a
     let r := grantRuns w
     w.extractLsb' 32 2 != 0 || !(r.1.all holdsSlot) ||
       !(r.2.all fun u => (k.tileBy o u).any fun t => t.acc80 == w.getLsbD 15)
   | .mload _ side _ b t => !holdsSlot (twA (g.sr t)) || (side && g.sr b == 0)
   | .mzero _ a | .maccrd _ _ _ _ _ a | .maccwr _ _ _ _ _ a => !holdsTile (g.sr a)
   | .mdrain _ _ _ a _ _ => !holdsTile (g.sr a)
   | .mstore _ _ _ tom _ a _ _ => !holdsTile (g.sr a) || (tom && !holdsSlot (twA (g.sr a)))
   | .mmac _ a =>
     let w := g.sr a
     !holdsSlot (twA w) || !holdsSlot (twB w) || !((k.tileBy o (twC w)).any fun t => macFmtOk sp.fmt t)
   | .mloop _ _ a =>
     let w := g.sr a
     let x := g.sr (a + 3)
     let sl := [twA w, twA w + 1, twB w, twB w + 1]
     twA w > 126 || twB w > 126 || sl.eraseDups.length != 4 || !(sl.all holdsSlot) || w.extractLsb' 49 15 != 0 ||
       !((k.tileBy o (twC w)).any fun t => macFmtOk sp.fmt t) ||
       (w.getLsbD 48 && (x.extractLsb' 0 16 == 0 || x.extractLsb' 16 16 == 0))
   | .qpush _ _ q _ _ => (g.qbind? q).isNone
   | .qpop _ _ q | .qtry _ _ q | .tlwait _ q _ | .tlread _ _ q => (g.qcopy? q).isNone
   | .confx _ _ emit _ _ _ _ q => emit && (g.qbfe? q).isNone
   | _ => false)

/-! ### Soft errors (R317) -/

/-- Instructions that read no register. -/
def readsNone : Instr → Bool
  | .nop _ | .pause _ _ | .waitf _ _ _ | .exit _ | .trap _ _ | .brk _ _ | .setfmt _ _ | .getfmt _ _ | .getexec _ _ | .kill _ _ | .smovi _ _ _
  | .smoviz _ _ _ | .jmp _ (.direct _) | .call _ (.direct _) | .join _ _ _ | .leave _ | .bar _ | .bara _ | .barw _ | .rquota _ _ _ | .rcommit _
  | .rabort _ | .eret _ | .fenceAcq _ _ | .fenceRel _ _ | .fenceAcqrel _ _ | .fenceSc _ _ | .hold _ _ _ _ _ => true
  | _ => false

/-- The instruction reads data of the kind that SUB names: 0 a register, 1 the CST, 2 MOM or ACM, 3 memory (Table 17.1). -/
def readsKind (sub : BitVec 8) (i : Instr) : Bool :=
  match sub.toNat with
  | 0 => !readsNone i
  | 2 => (match i with
    | .mmac _ _ | .mloop _ _ _ | .maccrd _ _ _ _ _ _ | .mstore _ _ _ _ _ _ _ _ | .mdrain _ _ _ _ _ _ => true
    | _ => false)
  | 3 => mclass i == .load || mclass i == .atomic ||
    (match i with | .collGet _ _ _ _ _ _ _ _ | .tspawn _ _ _ _ _ _ _ => true | _ => false)
  | _ => mclass i == .load || mclass i == .atomic

/-- The soft error that the gang's instruction meets. -/
def State.flawOf (s : State) (uid : Nat) (i : Instr) : Option Flaw := s.flaws.find? fun w => w.uid == uid && readsKind w.sub i

/-! ### Waits at issue (R59, R25, R42) -/

def State.mxuQueue (s : State) (d c : Nat) : Nat :=
  (s.ops.filter fun o => o.die == d && o.core == c &&
    (match o.kind with
     | .mmac _ _ _ _ began => !began
     | .mloop _ _ _ _ _ _ _ _ _ _ _ _ _ _ _ _ => (s.die d).leaves.any fun l => l.id == o.id && !l.held
     | _ => false)).length

/-- A pending MLOOP of the gang, for which its exit waits (R240). -/
def State.hasLoop (s : State) (uid : Nat) : Bool :=
  s.ops.any fun o => o.uid == uid && (match o.kind with | .mloop _ _ _ _ _ _ _ _ _ _ _ _ _ _ _ _ => true | _ => false)

def Gang.zeroFlags (g : Gang) : Bool := (List.range 12).all fun k => g.counter k == 0

/-- BRA takes its branch (R218). -/
def braTaken (mode : BitVec 2) (t e : W32) : Bool :=
  match mode.toNat with
  | 0 => t != 0
  | 1 => t == e
  | 2 => t == 0
  | _ => true

def Gang.branches (g : Gang) (sp : Split) (mode : BitVec 2) (k : KR) : Bool := braTaken mode (g.kr k &&& sp.exec) sp.exec

/-- A taken branch to the head of the open region (R29). -/
def Gang.toHead (g : Gang) (sp : Split) (pc : W64) : Instr → Bool
  | .bra _ mode k t => (g.region.any fun r => target pc t == r.head) && g.branches sp mode k
  | .jmp _ (.direct t) => g.region.any fun r => target pc t == r.head
  | _ => false

/-- A spill page is needed and the L1 stands at its floor (R46). -/
def State.noSpillPage (s : State) (g : Gang) : Bool := !g.spill && s.l1Pages g.loc.die g.loc.core ≤ 64

def Gang.fastFree (g : Gang) : Nat := 8 - (g.table.filter (·.fast)).length

/-- BRX divides the split. -/
def brxSplits (g : Gang) (sp : Split) (clear : Bool) (k : KR) : Bool :=
  let t := sp.exec &&& (if clear then ~~~(g.kr k) else g.kr k)
  t != 0 && t != sp.exec

/-- The instruction waits at issue for a state of the machine. -/
def waitsAtIssue (s : State) (g : Gang) (sp : Split) (pc : W64) (i : Instr) : Bool :=
  let d := g.loc.die
  let c := g.loc.core
  let k := s.core d c
  let slotIs := fun (n : Nat) (f : Tile → Bool) => (k.slot? n).all f
  let tileIs := fun (w : W64) (f : Tile → Bool) => (k.tile? (twC w)).all f
  let acc := fun (w : W64) => s.accumulating d c (twC w)
  s.held g i || g.toHead sp pc i && !g.quiet ||
  (match i with
   | .region _ _ _ | .rcommit _ | .rabort _ => !g.quiet
   | .exit _ => s.hasLoop g.uid || (g.region.isSome && !g.quiet)
   | .eret _ => !g.settled
   | .rquota _ _ _ => !g.zeroFlags
   | .hold _ _ _ f n => g.counter f.toNat + n.toNat > 63
   | .brx _ clear kr _ _ => brxSplits g sp clear kr && sp.depth.toNat < 64 && g.fastFree < 2 && s.noSpillPage g
   | .stashMap _ _ _ _ _ | .stashUnmap _ _ _ | .stashFlush _ _ _ | .stashInval _ _ _ => s.nearPending g i
   | .mload _ _ _ _ t => !slotIs (twA (g.sr t)) Tile.canFill
   | .mzero _ a | .maccwr _ _ _ _ _ a => !tileIs (g.sr a) Tile.canFill
   | .maccrd _ _ _ _ _ a => !tileIs (g.sr a) Tile.canRead || acc (g.sr a)
   | .mstore _ _ _ tom _ a _ _ =>
     !tileIs (g.sr a) Tile.canRead || acc (g.sr a) || (tom && !slotIs (twA (g.sr a)) Tile.canFill)
   | .mdrain _ _ _ a _ _ => !tileIs (g.sr a) Tile.canRead || acc (g.sr a)
   | .mmac _ a =>
     let w := g.sr a
     !slotIs (twA w) Tile.canRead || !slotIs (twB w) Tile.canRead || !tileIs w Tile.canRead || acc w || s.mxuQueue d c ≥ 8
   | .mloop _ _ a =>
     let w := g.sr a
     !([twA w, twA w + 1, twB w, twB w + 1].all fun n => slotIs n Tile.canFill) || !tileIs w Tile.canRead || acc w ||
       s.mxuQueue d c ≥ 8
   | .mrel _ a =>
     let r := grantRuns (g.sr a)
     !(r.1.all fun n => slotIs n fun t => t.resv.isNone) || !(r.2.all fun u => (k.tile? u).all fun t => t.resv.isNone)
   | .qbind _ _ _ b =>
     let w := g.sr b
     w.extractLsb' 0 2 == 0 && k.engines.any fun e => e.num == (w.extractLsb' 2 2).toNat && e.owner.isNone && !e.cmds.isEmpty
   | .pgpool _ _ _ => false
   | _ => false)

/-! ### The conditions of R41 -/

/-- STALL has elapsed, the WAIT mask reads zero, and SETF would not overflow (R40, R41). -/
def Gang.ready (g : Gang) (clock : Nat) (c : Ctl) : Bool :=
  (g.last.all fun t => t + max 1 c.stall.toNat ≤ clock) &&
  (List.range 12).all (fun k => !c.wait.getLsbD k || g.counter k == 0) &&
  (c.setf.toNat ≥ 12 || g.counter c.setf.toNat < 63)

/-- The gang stands in no wait of its current instruction (R42, R225). -/
def Gang.unwaiting (g : Gang) : Bool :=
  match g.wait with
  | none => true
  | some (.waitf m t) => (List.range 12).all fun k => !m.getLsbD k || g.counter k ≤ t
  | _ => false

/-- The instruction names in WAIT a flag whose item failed, and the trap FABRIC is enabled (R135). -/
def Gang.fabTrap (g : Gang) (c : Ctl) : Bool := g.trapen.getLsbD 2 && (g.fab &&& c.wait) != 0

/-! ### What an instruction does to flags and results -/

/-- A trap raised by the instruction in focus (R317). -/
def State.trapAt (s : State) (g : Gang) (sp : Split) (cause : BitVec 8) (sub : BitVec 8) (code : BitVec 16) (lane : Nat) (ret va : W64) : State :=
  s.raise g.uid { cause := cause, sub := sub, code := code, lane := BitVec.ofNat 5 lane, ip := s.focusPc, ret := ret, va := va,
                  sid := sp.sid, reg := false }

/-- A fixed-latency result: the flag rises now, and the writes land `lat` cycles later (R39, R160). -/
def State.fixed (s : State) (uid lat : Nat) (c : Ctl) (ws : List Wr) : State :=
  s.onGang uid fun g =>
    { (g.incFlag c.setf) with pend := g.pend ++ [{ due := s.clock + lat, setf := c.setf, wrs := ws, opb := g.region.isSome }] }

/-- An instruction with no result: its flag falls one cycle after issue (R160). -/
def State.noResult (s : State) (uid : Nat) (c : Ctl) : State := s.fixed uid 1 c []

/-- A long-latency instruction is accepted: the flag rises, and the operation stands until it completes (R40). -/
def State.accept (s : State) (g : Gang) (sp : Split) (c : Ctl) (kind : OpKind) : Nat × State :=
  let (id, s) := s.fresh
  let s := s.onGang g.uid fun g => g.incFlag c.setf
  (id, { s with ops := s.ops ++ [{ id := id, uid := g.uid, die := g.loc.die, core := g.loc.core, sid := sp.sid, setf := c.setf,
                                   ip := s.focusPc, kind := kind, ctx := g.ctx, inst := g.inst, run := g.run,
                                   name := s.nameOf g, dead := false, opb := g.region.isSome, lost := false }] })

/-- The same, when the writes are decided at issue. -/
def State.long (s : State) (g : Gang) (sp : Split) (c : Ctl) (ws : List Wr) : State := (s.accept g sp c (.calc ws)).2

/-- The PC of the split after a transfer, whose target the next fetch checks (R150, R154). -/
def State.transfer (s : State) (uid sid : Nat) (pc : W64) (chk : Nat) : State :=
  let s := s.onGang uid fun g => g.onSplit sid fun sp => { sp with pc := pc, latch := none, chk := chk }
  { s with focus := s.focus.map fun f => { f with moved := true } }

/-- A transfer to an address that is no instruction address kills the gang with IBT (R150). -/
def State.jump (s : State) (uid sid : Nat) (pc : W64) : State :=
  if (slotOf pc).isNone || pc.toNat ≥ lwin then s.killGang uid errIBT else s.transfer uid sid pc 1

/-- The split at its successor (R150): its line stays while it stays in it, and the arrival at its own reconvergence PC owes a TGT check
at a fetch (R18, R154). A handler, at trap level `tl`, runs as an undivided split and arrives at no such PC (R314). -/
def Split.flow (sp : Split) (tl : Nat) (pc : W64) : Split :=
  let n := succPc pc
  let there := tl == 0 && sp.depth != 0 && n == sp.rpc
  { sp with pc := n, latch := if !there && lineOf n == lineOf pc then sp.latch else none, chk := if there then 1 else sp.chk }

/-- Sequential flow after an instruction that neither transferred, trapped nor ended its split (R150). -/
def State.advance (s : State) (uid sid : Nat) (pc : W64) : State :=
  let moved := (s.focus.map (·.moved)).getD true
  if moved then s
  else s.onGang uid fun g =>
    if g.trap.isSome || g.status == .parkedFault then g
    else g.onSplit sid fun sp => sp.flow g.tl pc

/-- Issue through one door (R41, R166): outside a gang nothing executes; an instruction that may not issue yet leaves the
state; a failed item that the instruction waits for traps FABRIC (R135); an illegal use kills the gang; a wait at issue leaves the
state; an uncorrectable soft error in data that it reads traps ECC (R317); otherwise the instruction issues and `body` is its effect. The second slot of a pair was checked with the first, whose wait
stands on (R156). -/
def issue (i : Instr) (c : Ctl) (s : State) (body : State → Gang → Split → W64 → State) : Out :=
  match s.focus with
  | none => .fault .noIssuingGang
  | some f =>
    match s.gang? f.uid with
    | none => .fault .noIssuingGang
    | some g =>
      match g.split? f.sid with
      | none => .fault .noIssuingGang
      | some sp =>
        if !f.second && !(g.status == .active && g.trap.isNone && g.unwaiting && g.ready s.clock c) then .next s
        else if g.fabTrap c then
          .next ((s.onGang g.uid fun g => { g with fab := g.fab &&& ~~~c.wait }).trapAt g sp 11 0 0 0 f.pc 0)
        else if illegalUse s g sp f.pc i then .next (s.killGang g.uid errILL)
        else if !f.second && waitsAtIssue s g sp f.pc i then .next s
        else if (isBarrier i) && g.diverged then
          .next (s.onGang g.uid fun g => g.onSplit sp.sid fun x => { x with atBar := true })
        else match s.flawOf g.uid i with
        | some w => .next ({ s with flaws := s.flaws.erase w }.trapAt g sp causeECC w.sub 0 0 f.pc (if w.sub == 3 then w.va else 0))
        | none =>
          let g := { g with last := some s.clock, wait := if f.second then g.wait else none, waitC := none, yielded := g.yielded || c.yld,
                            fab := g.fab &&& ~~~c.wait, turn := (g.turn.filter (· != sp.sid)) ++ [sp.sid] }
          .next ((body (s.setGang g) g sp f.pc).advance g.uid sp.sid f.pc)

end Sys2Proof.Machine
end

