-- ==== Sys2Proof/Machine/Operands.lean ====
section
/-! DEFINITION. Operand forms: elements of vector lanes (Tables 08.2 and 08.4), immediates (R161, R177), positions of narrow
elements (R197), and addresses of memory operands (R164). -/

namespace Sys2Proof.Machine

/-- IMM18 sign-extended to 64 bits (R161, R177). -/
def imm64 (imm : BitVec 18) : W64 := imm.signExtend 64

/-! ### Vector elements (R182, R188) -/

/-- The width of an element by WID of Table 08.2. -/
def vWidth (w : BitVec 2) : Nat :=
  match w.toNat with
  | 0 => 32
  | 1 => 64
  | 2 => 16
  | _ => 8

/-- Elements per lane. -/
def vCount (w : BitVec 2) : Nat :=
  match w.toNat with
  | 2 => 2
  | 3 => 4
  | _ => 1

/-- A lane of a register, or of a pair, as a number. -/
def Gang.lane64 (g : Gang) (isWide : Bool) (r : VR) (l : Nat) : Nat :=
  if isWide then (g.pair r.toNat l).toNat else (lane (g.vr r.toNat) l).toNat

/-- Applies a function to every element of a lane: `f` receives the element number. -/
def onElems (width count : Nat) (f : Nat → Nat) : Nat :=
  (List.range count).foldl (fun n e => n + (f e % 2 ^ width) * 2 ^ (width * e)) 0

/-- Element `e` of a lane. -/
def elemOf (width e v : Nat) : Nat := v / 2 ^ (width * e) % 2 ^ width

/-- The writes of a register or a pair, lane by lane (R173). -/
def vWrites (isWide : Bool) (d : VR) (lanes : W32) (f : Nat → Nat) : List Wr :=
  if lanes == 0 then []
  else if isWide then
    [.vreg d lanes 0xFFFFFFFF (mkV fun l => BitVec.ofNat 32 (f l)), .vreg (d + 1) lanes 0xFFFFFFFF (mkV fun l => BitVec.ofNat 32 (f l / 2 ^ 32))]
  else [.vreg d lanes 0xFFFFFFFF (mkV fun l => BitVec.ofNat 32 (f l))]

/-- The lanes that take part as a mask of a condition (R173). -/
def maskOf (lanes : W32) (p : Nat → Bool) : W32 := (lanesOf lanes).foldl (fun m l => if p l then m ||| (1#32 <<< l) else m) 0

/-- The element format of FMTW (Table 08.4). -/
def fpFmt (w : BitVec 2) : FFmt :=
  match w.toNat with
  | 0 => fF32
  | 1 => fF64
  | 2 => fF16
  | _ => fBF16

def fpCount (w : BitVec 2) : Nat := if w.toNat < 2 then 1 else 2

/-! ### Narrow elements (R197) -/

/-- The element of a lane that a type code names. -/
def cvtElem (st : BitVec 4) (pos : BitVec 3) (v : Nat) : Nat :=
  let w := (NType.ofCode st).width
  if w ≤ 16 then v / 2 ^ (w * pos.toNat) % 2 ^ w else v % 2 ^ w

/-- The bits of a lane that a narrow destination writes. -/
def cvtBits (dt : BitVec 4) (pos : BitVec 3) : W32 :=
  let w := (NType.ofCode dt).width
  if w ≤ 16 then BitVec.ofNat 32 ((2 ^ w - 1) * 2 ^ (w * pos.toNat)) else 0xFFFFFFFF

/-! ### Addresses (R164) -/

/-- The displacement of a form without scope, and of one with scope. -/
def MemOp.disp64 (m : Sys2Proof.MemOp) : W64 := m.disp.signExtend 64
def disp15 (d : BitVec 15) : W64 := d.signExtend 64

/-- S base + scaled V offset + displacement, modulo 2^64. -/
def Gang.ea (g : Gang) (base : W64) (off : VR) (scl : BitVec 2) (disp : W64) (l : Nat) : Nat :=
  let o : W64 := if off == 0xFF then 0 else (lane (g.vr off.toNat) l).signExtend 64 <<< scl.toNat
  (base + o + disp).toNat

/-- The address of each taking-part lane, ascending. -/
def Gang.eas (g : Gang) (lanes : W32) (base : W64) (off : VR) (scl : BitVec 2) (disp : W64) : List (Nat × Nat) :=
  (lanesOf lanes).map fun l => (l, g.ea base off scl disp l)

/-- Bytes of a datum by WID (Table 09.1). -/
def widBytes (wid : BitVec 3) : Nat := 2 ^ wid.toNat

/-- The datum a store takes from a lane: the low bytes of the lane, pair or quad (Table 09.1). -/
def Gang.datum (g : Gang) (wid : BitVec 3) (d : VR) (l : Nat) : Nat :=
  let at' := fun n => (lane (g.vr (d.toNat + n)) l).toNat
  let v :=
    match wid.toNat with
    | 3 => at' 0 + 2 ^ 32 * at' 1
    | 4 => at' 0 + 2 ^ 32 * at' 1 + 2 ^ 64 * at' 2 + 2 ^ 96 * at' 3
    | _ => at' 0
  v % 2 ^ (8 * widBytes wid)

/-- A loaded datum extended to a register of `w` bits (Table 09.1). -/
def extendTo (w : Nat) (wid : BitVec 3) (sx : Bool) (v : Nat) : Nat :=
  let n := 8 * widBytes wid
  if sx && n < w && v / 2 ^ (n - 1) % 2 == 1 then v % 2 ^ n + 2 ^ w - 2 ^ n else v % 2 ^ n

end Sys2Proof.Machine
end

