-- ==== Sys2Proof/Machine/Flags.lean ====
section
/-! DEFINITION. Conditions and flags: latencies (Table 01.1), integer compares (R180), floating-point flags (R70, R175), the
division-by-zero trap (R66, R179, R184), and the failure flag of remote items (R135). -/

namespace Sys2Proof.Machine

/-! Table 01.1. -/
def latScalar : Nat := 2
def latVint (g : Gang) : Nat := if g.region.isSome then 4 else 8
def latVfp (g : Gang) : Nat := if g.region.isSome then 6 else 10
def latF64 (g : Gang) : Nat := if g.region.isSome then 12 else 16
/-- The latency of an FMTW (R189). -/
def latFmt (g : Gang) (w : BitVec 2) : Nat := if w == 1 then latF64 g else latVfp g

/-- The integer conditions on `w`-bit operands (R180). -/
def icond (c : ICond) (w a b : Nat) : Bool :=
  let sa := readInt true w a
  let sb := readInt true w b
  match c with
  | .eq => a == b
  | .ne => a != b
  | .lt => sa < sb
  | .le => sa ≤ sb
  | .gt => sa > sb
  | .ge => sa ≥ sb
  | .ltu => a < b
  | .leu => a ≤ b
  | .gtu => a > b
  | .geu => a ≥ b

/-- The mask a scalar compare writes (R180). -/
def condMask (b : Bool) : W32 := if b then 0xFFFFFFFF else 0

/-- The FPSTAT bits of a list of results, as one write (R70, R175). -/
def fpFlags (fs : List (BitVec 5)) : List Wr :=
  let f := fs.foldl (· ||| ·) 0
  if f == 0 then [] else [.fpOr f]

/-- TRAPEN.IDZ, TRAPEN.OOR, TRAPEN.FAB (Table 09.9). -/
def Gang.idz (g : Gang) : Bool := g.trapen.getLsbD 0
def Gang.oorTrap (g : Gang) : Bool := g.trapen.getLsbD 1

/-- GSTAT bits (Table 09.8). -/
def gsKEYMIX : BitVec 4 := 1
def gsDRAFTOOR : BitVec 4 := 2
def gsFABERR : BitVec 4 := 4
def gsVMISS : BitVec 4 := 8

def causeIDZ : BitVec 8 := 1
def causeOOR : BitVec 8 := 2
def causeBRK : BitVec 8 := 3
def causeTRAPI : BitVec 8 := 4
def causeSPLITOVF : BitVec 8 := 8
def causeBARDIV : BitVec 8 := 9
def causeREGOVF : BitVec 8 := 10
def causeFABRIC : BitVec 8 := 11

/-- A gang's remote item has completed with FABRIC: the sticky bit, and the flag it carried, for the trap that a WAIT on it takes whenever
TRAPEN.FAB is set by then (R135). -/
def Gang.fabricFail (g : Gang) (setf : BitVec 4) : Gang :=
  { g with gstat := g.gstat ||| gsFABERR, fab := if setf.toNat < 12 then g.fab ||| (1#12 <<< setf.toNat) else g.fab }

/-- The same, for the gang of an operation that may have ended. -/
def State.fabricFail (s : State) (uid : Nat) (setf : BitVec 4) : State := s.onGang uid fun g => g.fabricFail setf

end Sys2Proof.Machine
end

