-- ==== Sys2Proof/Machine/Salu.lean ====
section
/-! DEFINITION. SALU, SALUI, SCMP, SCMPI and SMOVI (R178 to R181), and the integer functions they share with VALU (R65, R66). -/

namespace Sys2Proof.Machine

def highMul (signed : Bool) (w a b : Nat) : Nat := wrapInt w (readInt signed w a * readInt signed w b / (2 ^ w : Int))

/-- R66: quotient or remainder, truncating toward zero. -/
def divRem (signed rem : Bool) (w a b : Nat) : Nat :=
  if b == 0 then (if rem then a else 2 ^ w - 1)
  else
    let x := readInt signed w a
    let y := readInt signed w b
    wrapInt w (if rem then x.tmod y else x.tdiv y)

def sarNat (w a n : Nat) : Nat := wrapInt w (readInt true w a / (2 ^ n : Int))
def minMax (signed mx : Bool) (w a b : Nat) : Nat := if (readInt signed w a < readInt signed w b) != mx then a else b
def clzNat (w a : Nat) : Nat := if a == 0 then w else w - 1 - Nat.log2 a
def ctzNat (w a : Nat) : Nat := (((List.range w).find? fun i => a.testBit i)).getD w

/-- The functions of Table 08.1 that SALUI accepts. -/
def sfn (f : SFn) (a b : Nat) : Nat :=
  match f with
  | .add => (a + b) % 2 ^ 64
  | .sub => (a + 2 ^ 64 - b) % 2 ^ 64
  | .mul => a * b % 2 ^ 64
  | .mulhi => highMul true 64 a b
  | .mulhu => a * b / 2 ^ 64
  | .div => divRem true false 64 a b
  | .divu => divRem false false 64 a b
  | .rem => divRem true true 64 a b
  | .remu => divRem false true 64 a b
  | .and => a &&& b
  | .or => a ||| b
  | .xor => a ^^^ b
  | .andn => a &&& (2 ^ 64 - 1 - b)
  | .shl => a * 2 ^ (b % 64) % 2 ^ 64
  | .shr => a / 2 ^ (b % 64)
  | .sar => sarNat 64 a (b % 64)
  | .min => minMax true false 64 a b
  | .max => minMax true true 64 a b
  | .minu => minMax false false 64 a b
  | .maxu => minMax false true 64 a b

def SFn.isDiv : SFn → Bool
  | .div | .divu | .rem | .remu => true
  | _ => false

/-- A scalar function writes Sd: fixed latency, or long-latency for the divisions, which may trap IDZ (R178, R179). -/
def saluOp (f : SFn) (c : Ctl) (d : SR) (b : W64) (a : SR) (s : State) (g : Gang) (sp : Split) (pc : W64) : State :=
  let w : List Wr := [.sreg d (BitVec.ofNat 64 (sfn f (g.sr a).toNat b.toNat))]
  if SFn.isDiv f then
    if b == 0 && g.idz then s.trapAt g sp causeIDZ 0 0 0 pc 0 else s.long g sp c w
  else s.fixed g.uid latScalar c w

/-- A scalar result of fixed latency. -/
def scalarTo (c : Ctl) (d : SR) (v : W64) (s : State) (g : Gang) : State := s.fixed g.uid latScalar c [.sreg d v]

/-- SADD (Table 08.1). -/
def execSadd (c : Ctl) (d a b : SR) (s : State) : Out :=
  issue (.sadd c d a b) c s fun s g sp pc => saluOp .add c d (g.sr b) a s g sp pc
/-- SSUB (Table 08.1). -/
def execSsub (c : Ctl) (d a b : SR) (s : State) : Out :=
  issue (.ssub c d a b) c s fun s g sp pc => saluOp .sub c d (g.sr b) a s g sp pc
/-- SMUL (Table 08.1). -/
def execSmul (c : Ctl) (d a b : SR) (s : State) : Out :=
  issue (.smul c d a b) c s fun s g sp pc => saluOp .mul c d (g.sr b) a s g sp pc
/-- SMULHI (Table 08.1). -/
def execSmulhi (c : Ctl) (d a b : SR) (s : State) : Out :=
  issue (.smulhi c d a b) c s fun s g sp pc => saluOp .mulhi c d (g.sr b) a s g sp pc
/-- SMULHU (Table 08.1). -/
def execSmulhu (c : Ctl) (d a b : SR) (s : State) : Out :=
  issue (.smulhu c d a b) c s fun s g sp pc => saluOp .mulhu c d (g.sr b) a s g sp pc
/-- SDIV (Table 08.1). -/
def execSdiv (c : Ctl) (d a b : SR) (s : State) : Out :=
  issue (.sdiv c d a b) c s fun s g sp pc => saluOp .div c d (g.sr b) a s g sp pc
/-- SDIVU (Table 08.1). -/
def execSdivu (c : Ctl) (d a b : SR) (s : State) : Out :=
  issue (.sdivu c d a b) c s fun s g sp pc => saluOp .divu c d (g.sr b) a s g sp pc
/-- SREM (Table 08.1). -/
def execSrem (c : Ctl) (d a b : SR) (s : State) : Out :=
  issue (.srem c d a b) c s fun s g sp pc => saluOp .rem c d (g.sr b) a s g sp pc
/-- SREMU (Table 08.1). -/
def execSremu (c : Ctl) (d a b : SR) (s : State) : Out :=
  issue (.sremu c d a b) c s fun s g sp pc => saluOp .remu c d (g.sr b) a s g sp pc
/-- SAND (Table 08.1). -/
def execSand (c : Ctl) (d a b : SR) (s : State) : Out :=
  issue (.sand c d a b) c s fun s g sp pc => saluOp .and c d (g.sr b) a s g sp pc
/-- SOR (Table 08.1). -/
def execSor (c : Ctl) (d a b : SR) (s : State) : Out :=
  issue (.sor c d a b) c s fun s g sp pc => saluOp .or c d (g.sr b) a s g sp pc
/-- SXOR (Table 08.1). -/
def execSxor (c : Ctl) (d a b : SR) (s : State) : Out :=
  issue (.sxor c d a b) c s fun s g sp pc => saluOp .xor c d (g.sr b) a s g sp pc
/-- SANDN (Table 08.1). -/
def execSandn (c : Ctl) (d a b : SR) (s : State) : Out :=
  issue (.sandn c d a b) c s fun s g sp pc => saluOp .andn c d (g.sr b) a s g sp pc
/-- SSHL (Table 08.1). -/
def execSshl (c : Ctl) (d a b : SR) (s : State) : Out :=
  issue (.sshl c d a b) c s fun s g sp pc => saluOp .shl c d (g.sr b) a s g sp pc
/-- SSHR (Table 08.1). -/
def execSshr (c : Ctl) (d a b : SR) (s : State) : Out :=
  issue (.sshr c d a b) c s fun s g sp pc => saluOp .shr c d (g.sr b) a s g sp pc
/-- SSAR (Table 08.1). -/
def execSsar (c : Ctl) (d a b : SR) (s : State) : Out :=
  issue (.ssar c d a b) c s fun s g sp pc => saluOp .sar c d (g.sr b) a s g sp pc
/-- SMIN (Table 08.1). -/
def execSmin (c : Ctl) (d a b : SR) (s : State) : Out :=
  issue (.smin c d a b) c s fun s g sp pc => saluOp .min c d (g.sr b) a s g sp pc
/-- SMAX (Table 08.1). -/
def execSmax (c : Ctl) (d a b : SR) (s : State) : Out :=
  issue (.smax c d a b) c s fun s g sp pc => saluOp .max c d (g.sr b) a s g sp pc
/-- SMINU (Table 08.1). -/
def execSminu (c : Ctl) (d a b : SR) (s : State) : Out :=
  issue (.sminu c d a b) c s fun s g sp pc => saluOp .minu c d (g.sr b) a s g sp pc
/-- SMAXU (Table 08.1). -/
def execSmaxu (c : Ctl) (d a b : SR) (s : State) : Out :=
  issue (.smaxu c d a b) c s fun s g sp pc => saluOp .maxu c d (g.sr b) a s g sp pc
/-- SPOPC (Table 08.1). -/
def execSpopc (c : Ctl) (d a : SR) (s : State) : Out :=
  issue (.spopc c d a) c s fun s g _ _ => scalarTo c d (BitVec.ofNat 64 (popc 64 (g.sr a).toNat)) s g
/-- SCLZ (Table 08.1). -/
def execSclz (c : Ctl) (d a : SR) (s : State) : Out :=
  issue (.sclz c d a) c s fun s g _ _ => scalarTo c d (BitVec.ofNat 64 (clzNat 64 (g.sr a).toNat)) s g
/-- SCTZ (Table 08.1). -/
def execSctz (c : Ctl) (d a : SR) (s : State) : Out :=
  issue (.sctz c d a) c s fun s g _ _ => scalarTo c d (BitVec.ofNat 64 (ctzNat 64 (g.sr a).toNat)) s g
/-- SMOV (Table 08.1). -/
def execSmov (c : Ctl) (d a : SR) (s : State) : Out :=
  issue (.smov c d a) c s fun s g _ _ => scalarTo c d (g.sr a) s g
/-- SSEL (Table 08.1). -/
def execSsel (c : Ctl) (d a b : SR) (k : KR) (s : State) : Out :=
  issue (.ssel c d a b k) c s fun s g _ _ => scalarTo c d (if g.kr k != 0 then g.sr a else g.sr b) s g
/-- SALUI (R177, R178): the second operand is the immediate. -/
def execSalui (c : Ctl) (f : SFn) (d a : SR) (imm : BitVec 18) (s : State) : Out :=
  issue (.salui c f d a imm) c s fun s g sp pc => saluOp f c d (imm64 imm) a s g sp pc
/-- SCMP (R180). -/
def execScmp (c : Ctl) (cond : ICond) (k : KR) (a b : SR) (s : State) : Out :=
  issue (.scmp c cond k a b) c s fun s g _ _ =>
    s.fixed g.uid latScalar c [.kreg k (condMask (icond cond 64 (g.sr a).toNat (g.sr b).toNat))]
/-- SCMPI (R180). -/
def execScmpi (c : Ctl) (cond : ICond) (k : KR) (a : SR) (imm : BitVec 18) (s : State) : Out :=
  issue (.scmpi c cond k a imm) c s fun s g _ _ =>
    s.fixed g.uid latScalar c [.kreg k (condMask (icond cond 64 (g.sr a).toNat (imm64 imm).toNat))]
/-- SMOVI (R181). -/
def execSmovi (c : Ctl) (d : SR) (imm : BitVec 32) (s : State) : Out :=
  issue (.smovi c d imm) c s fun s g _ _ => scalarTo c d (imm.signExtend 64) s g
/-- SMOVIZ (R181). -/
def execSmoviz (c : Ctl) (d : SR) (imm : BitVec 32) (s : State) : Out :=
  issue (.smoviz c d imm) c s fun s g _ _ => scalarTo c d (imm.setWidth 64) s g
/-- SMOVHI (R181): the low half keeps the value read at issue. -/
def execSmovhi (c : Ctl) (d : SR) (imm : BitVec 32) (s : State) : Out :=
  issue (.smovhi c d imm) c s fun s g _ _ => scalarTo c d (imm ++ (g.sr d).setWidth 32) s g

end Sys2Proof.Machine
end

