-- ==== Sys2Proof/Machine/Valu.lean ====
section
/-! DEFINITION. VALU, VALUI, VCMP and VCMPI (R182 to R187). -/

namespace Sys2Proof.Machine

/-- The element functions of Table 08.3 that VALUI accepts; `u` chooses unsigned saturation. -/
def vfn (f : VFn) (u : Bool) (w a b : Nat) : Nat :=
  match f with
  | .add => (a + b) % 2 ^ w
  | .sub => (a + 2 ^ w - b) % 2 ^ w
  | .mul => a * b % 2 ^ w
  | .mulhi => highMul true w a b
  | .mulhu => a * b / 2 ^ w
  | .div => divRem true false w a b
  | .divu => divRem false false w a b
  | .rem => divRem true true w a b
  | .remu => divRem false true w a b
  | .and => a &&& b
  | .or => a ||| b
  | .xor => a ^^^ b
  | .andn => a &&& (2 ^ w - 1 - b)
  | .shl => a * 2 ^ (b % w) % 2 ^ w
  | .shr => a / 2 ^ (b % w)
  | .sar => sarNat w a (b % w)
  | .min => minMax true false w a b
  | .max => minMax true true w a b
  | .minu => minMax false false w a b
  | .maxu => minMax false true w a b
  | .adds => wrapInt w (clampInt (intMin (!u) w) (intMax (!u) w) (readInt (!u) w a + readInt (!u) w b))
  | .subs => wrapInt w (clampInt (intMin (!u) w) (intMax (!u) w) (readInt (!u) w a - readInt (!u) w b))

def VFn.isDiv : VFn → Bool
  | .div | .divu | .rem | .remu => true
  | _ => false

/-- A vector integer result of the taking-part lanes, computed from the sources as read at issue (R183). -/
def vintTo (c : Ctl) (p : Pred) (w : BitVec 2) (d : VR) (f : Nat → Nat) (s : State) (g : Gang) (sp : Split) : State :=
  s.fixed g.uid (latVint g) c (vWrites (wide w) d (takes g sp p) f)

/-- A binary function with a second operand given per lane (R183); a division may trap IDZ (R184). -/
def valuOp (f : VFn) (u : Bool) (c : Ctl) (p : Pred) (w : BitVec 2) (d a : VR) (b : Nat → Nat) (s : State) (g : Gang) (sp : Split)
    (pc : W64) : State :=
  let x := vWidth w
  let n := vCount w
  let res := fun l =>
    let va := g.lane64 (wide w) a l
    let vb := b l
    onElems x n fun e => vfn f u x (elemOf x e va) (elemOf x e vb)
  if VFn.isDiv f then
    let lanes := takes g sp p
    match (lanesOf lanes).find? fun l => (List.range n).any fun e => elemOf x e (b l) == 0 with
    | some l => if g.idz then s.trapAt g sp causeIDZ 0 0 l pc 0 else s.long g sp c (vWrites (wide w) d lanes res)
    | none => s.long g sp c (vWrites (wide w) d lanes res)
  else vintTo c p w d res s g sp

/-- The second operand from a register. -/
def vsrc (w : BitVec 2) (b : VR) (g : Gang) : Nat → Nat := g.lane64 (wide w) b

/-- A unary element function (Table 08.3). -/
def vunary (f : Nat → Nat → Nat) (c : Ctl) (p : Pred) (w : BitVec 2) (d a : VR) (s : State) (g : Gang) (sp : Split) : State :=
  let x := vWidth w
  vintTo c p w d (fun l => let va := g.lane64 (wide w) a l; onElems x (vCount w) fun e => f x (elemOf x e va)) s g sp

/-- VADD (Table 08.3). -/
def execVadd (c : Ctl) (p : Pred) (w : BitVec 2) (d a b : VR) (s : State) : Out :=
  issue (.vadd c p w d a b) c s fun s g sp pc => valuOp .add false c p w d a (vsrc w b g) s g sp pc
/-- VSUB (Table 08.3). -/
def execVsub (c : Ctl) (p : Pred) (w : BitVec 2) (d a b : VR) (s : State) : Out :=
  issue (.vsub c p w d a b) c s fun s g sp pc => valuOp .sub false c p w d a (vsrc w b g) s g sp pc
/-- VMUL (Table 08.3). -/
def execVmul (c : Ctl) (p : Pred) (w : BitVec 2) (d a b : VR) (s : State) : Out :=
  issue (.vmul c p w d a b) c s fun s g sp pc => valuOp .mul false c p w d a (vsrc w b g) s g sp pc
/-- VMULHI (Table 08.3). -/
def execVmulhi (c : Ctl) (p : Pred) (w : BitVec 2) (d a b : VR) (s : State) : Out :=
  issue (.vmulhi c p w d a b) c s fun s g sp pc => valuOp .mulhi false c p w d a (vsrc w b g) s g sp pc
/-- VMULHU (Table 08.3). -/
def execVmulhu (c : Ctl) (p : Pred) (w : BitVec 2) (d a b : VR) (s : State) : Out :=
  issue (.vmulhu c p w d a b) c s fun s g sp pc => valuOp .mulhu false c p w d a (vsrc w b g) s g sp pc
/-- VDIV (Table 08.3). -/
def execVdiv (c : Ctl) (p : Pred) (w : BitVec 2) (d a b : VR) (s : State) : Out :=
  issue (.vdiv c p w d a b) c s fun s g sp pc => valuOp .div false c p w d a (vsrc w b g) s g sp pc
/-- VDIVU (Table 08.3). -/
def execVdivu (c : Ctl) (p : Pred) (w : BitVec 2) (d a b : VR) (s : State) : Out :=
  issue (.vdivu c p w d a b) c s fun s g sp pc => valuOp .divu false c p w d a (vsrc w b g) s g sp pc
/-- VREM (Table 08.3). -/
def execVrem (c : Ctl) (p : Pred) (w : BitVec 2) (d a b : VR) (s : State) : Out :=
  issue (.vrem c p w d a b) c s fun s g sp pc => valuOp .rem false c p w d a (vsrc w b g) s g sp pc
/-- VREMU (Table 08.3). -/
def execVremu (c : Ctl) (p : Pred) (w : BitVec 2) (d a b : VR) (s : State) : Out :=
  issue (.vremu c p w d a b) c s fun s g sp pc => valuOp .remu false c p w d a (vsrc w b g) s g sp pc
/-- VAND (Table 08.3). -/
def execVand (c : Ctl) (p : Pred) (w : BitVec 2) (d a b : VR) (s : State) : Out :=
  issue (.vand c p w d a b) c s fun s g sp pc => valuOp .and false c p w d a (vsrc w b g) s g sp pc
/-- VOR (Table 08.3). -/
def execVor (c : Ctl) (p : Pred) (w : BitVec 2) (d a b : VR) (s : State) : Out :=
  issue (.vor c p w d a b) c s fun s g sp pc => valuOp .or false c p w d a (vsrc w b g) s g sp pc
/-- VXOR (Table 08.3). -/
def execVxor (c : Ctl) (p : Pred) (w : BitVec 2) (d a b : VR) (s : State) : Out :=
  issue (.vxor c p w d a b) c s fun s g sp pc => valuOp .xor false c p w d a (vsrc w b g) s g sp pc
/-- VANDN (Table 08.3). -/
def execVandn (c : Ctl) (p : Pred) (w : BitVec 2) (d a b : VR) (s : State) : Out :=
  issue (.vandn c p w d a b) c s fun s g sp pc => valuOp .andn false c p w d a (vsrc w b g) s g sp pc
/-- VSHL (Table 08.3). -/
def execVshl (c : Ctl) (p : Pred) (w : BitVec 2) (d a b : VR) (s : State) : Out :=
  issue (.vshl c p w d a b) c s fun s g sp pc => valuOp .shl false c p w d a (vsrc w b g) s g sp pc
/-- VSHR (Table 08.3). -/
def execVshr (c : Ctl) (p : Pred) (w : BitVec 2) (d a b : VR) (s : State) : Out :=
  issue (.vshr c p w d a b) c s fun s g sp pc => valuOp .shr false c p w d a (vsrc w b g) s g sp pc
/-- VSAR (Table 08.3). -/
def execVsar (c : Ctl) (p : Pred) (w : BitVec 2) (d a b : VR) (s : State) : Out :=
  issue (.vsar c p w d a b) c s fun s g sp pc => valuOp .sar false c p w d a (vsrc w b g) s g sp pc
/-- VMIN (Table 08.3). -/
def execVmin (c : Ctl) (p : Pred) (w : BitVec 2) (d a b : VR) (s : State) : Out :=
  issue (.vmin c p w d a b) c s fun s g sp pc => valuOp .min false c p w d a (vsrc w b g) s g sp pc
/-- VMAX (Table 08.3). -/
def execVmax (c : Ctl) (p : Pred) (w : BitVec 2) (d a b : VR) (s : State) : Out :=
  issue (.vmax c p w d a b) c s fun s g sp pc => valuOp .max false c p w d a (vsrc w b g) s g sp pc
/-- VMINU (Table 08.3). -/
def execVminu (c : Ctl) (p : Pred) (w : BitVec 2) (d a b : VR) (s : State) : Out :=
  issue (.vminu c p w d a b) c s fun s g sp pc => valuOp .minu false c p w d a (vsrc w b g) s g sp pc
/-- VMAXU (Table 08.3). -/
def execVmaxu (c : Ctl) (p : Pred) (w : BitVec 2) (d a b : VR) (s : State) : Out :=
  issue (.vmaxu c p w d a b) c s fun s g sp pc => valuOp .maxu false c p w d a (vsrc w b g) s g sp pc
/-- VMAD (Table 08.3). -/
def execVmad (c : Ctl) (p : Pred) (w : BitVec 2) (d a b e : VR) (s : State) : Out :=
  issue (.vmad c p w d a b e) c s fun s g sp _ =>
    let x := vWidth w
    vintTo c p w d (fun l =>
      let va := g.lane64 (wide w) a l
      let vb := g.lane64 (wide w) b l
      let vc := g.lane64 (wide w) e l
      onElems x (vCount w) fun k => elemOf x k va * elemOf x k vb + elemOf x k vc) s g sp
/-- VABS (Table 08.3): the signed minimum gives itself. -/
def execVabs (c : Ctl) (p : Pred) (w : BitVec 2) (d a : VR) (s : State) : Out :=
  issue (.vabs c p w d a) c s fun s g sp _ => vunary (fun x v => (readInt true x v).natAbs) c p w d a s g sp
/-- VNEG (Table 08.3). -/
def execVneg (c : Ctl) (p : Pred) (w : BitVec 2) (d a : VR) (s : State) : Out :=
  issue (.vneg c p w d a) c s fun s g sp _ => vunary (fun x v => 2 ^ x - v) c p w d a s g sp
/-- VPOPC (Table 08.3). -/
def execVpopc (c : Ctl) (p : Pred) (w : BitVec 2) (d a : VR) (s : State) : Out :=
  issue (.vpopc c p w d a) c s fun s g sp _ => vunary (fun x v => popc x v) c p w d a s g sp
/-- VCLZ (Table 08.3). -/
def execVclz (c : Ctl) (p : Pred) (w : BitVec 2) (d a : VR) (s : State) : Out :=
  issue (.vclz c p w d a) c s fun s g sp _ => vunary clzNat c p w d a s g sp
/-- VADDS (R183): saturating, unsigned where `u` is set. -/
def execVadds (c : Ctl) (p : Pred) (u : Bool) (w : BitVec 2) (d a b : VR) (s : State) : Out :=
  issue (.vadds c p u w d a b) c s fun s g sp pc => valuOp .adds u c p w d a (vsrc w b g) s g sp pc
/-- VSUBS (R183). -/
def execVsubs (c : Ctl) (p : Pred) (u : Bool) (w : BitVec 2) (d a b : VR) (s : State) : Out :=
  issue (.vsubs c p u w d a b) c s fun s g sp pc => valuOp .subs u c p w d a (vsrc w b g) s g sp pc
/-- VSEL (R183): whole lanes, or whole pairs. -/
def execVsel (c : Ctl) (p : Pred) (w : BitVec 2) (d a b : VR) (k : KR) (s : State) : Out :=
  issue (.vsel c p w d a b k) c s fun s g sp _ =>
    vintTo c p w d (fun l => if (g.kr k).getLsbD l then g.lane64 (wide w) a l else g.lane64 (wide w) b l) s g sp
/-- VMOV (R183). -/
def execVmov (c : Ctl) (p : Pred) (w : BitVec 2) (d a : VR) (s : State) : Out :=
  issue (.vmov c p w d a) c s fun s g sp _ => vintTo c p w d (g.lane64 (wide w) a) s g sp
/-- VFROMS (R185): every element receives the low bits of the scalar. -/
def execVfroms (c : Ctl) (p : Pred) (w : BitVec 2) (d : VR) (a : SR) (s : State) : Out :=
  issue (.vfroms c p w d a) c s fun s g sp _ =>
    vintTo c p w d (fun _ => onElems (vWidth w) (vCount w) fun _ => (g.sr a).toNat) s g sp
/-- SFROMV (R185): Sd is written only when the lane read takes part. -/
def execSfromv (c : Ctl) (p : Pred) (w : BitVec 2) (d : SR) (a : VR) (b : SR) (s : State) : Out :=
  issue (.sfromv c p w d a b) c s fun s g sp _ =>
    let j := (g.sr b).toNat % 32
    s.fixed g.uid (latVint g) c
      (if (takes g sp p).getLsbD j then [.sreg d (BitVec.ofNat 64 (g.lane64 (wide w) a j))] else [])
/-- VALUI (R177, R186): the low bits of the immediate are the second operand of every element. -/
def execValui (c : Ctl) (p : Pred) (f : VFn) (u : Bool) (w : BitVec 2) (d a : VR) (imm : BitVec 18) (s : State) : Out :=
  issue (.valui c p f u w d a imm) c s fun s g sp pc =>
    valuOp f u c p w d a (fun _ => onElems (vWidth w) (vCount w) fun _ => (imm64 imm).toNat) s g sp pc
/-- VCMP (R187): every bit of K is written. -/
def execVcmp (c : Ctl) (p : Pred) (cond : ICond) (w : BitVec 2) (k : KR) (a b : VR) (s : State) : Out :=
  issue (.vcmp c p cond w k a b) c s fun s g sp _ =>
    s.fixed g.uid (latVint g) c
      [.kreg k (maskOf (takes g sp p) fun l => icond cond (vWidth w) (g.lane64 (wide w) a l) (g.lane64 (wide w) b l))]
/-- VCMPI (R187). -/
def execVcmpi (c : Ctl) (p : Pred) (cond : ICond) (w : BitVec 2) (k : KR) (a : VR) (imm : BitVec 18) (s : State) : Out :=
  issue (.vcmpi c p cond w k a imm) c s fun s g sp _ =>
    s.fixed g.uid (latVint g) c
      [.kreg k (maskOf (takes g sp p) fun l => icond cond (vWidth w) (g.lane64 (wide w) a l) ((imm64 imm).toNat % 2 ^ vWidth w))]

end Sys2Proof.Machine
end

