-- ==== Sys2Proof/Machine/Vfpu.lean ====
section
/-! DEFINITION. VFPU, VFCMP and VCVT (R188 to R197). -/

namespace Sys2Proof.Machine

/-- A floating-point result of the taking-part lanes, half by half, with the flags they raise (R71, R189). `f` receives the
element's position and gives its bits. -/
def fpTo (isLong : Bool) (c : Ctl) (p : Pred) (w : BitVec 2) (d : VR) (f : Nat → Nat → FRes) (s : State) (g : Gang) (sp : Split) : State :=
  let lanes := takes g sp p
  let x := (fpFmt w).width
  let n := fpCount w
  let ws := vWrites (wide w) d lanes (fun l => onElems x n fun e => (f l e).bits) ++
    fpFlags ((lanesOf lanes).flatMap fun l => (List.range n).map fun e => (f l e).flags)
  if isLong then s.long g sp c ws else s.fixed g.uid (latFmt g w) c ws

/-- Element `e` of lane `l` of an operand of format FMTW. -/
def fpSrc (w : BitVec 2) (a : VR) (g : Gang) (l e : Nat) : Nat := elemOf (fpFmt w).width e (g.lane64 (wide w) a l)

def fp1 (isLong : Bool) (op : FFmt → Nat → FRes) (c : Ctl) (p : Pred) (w : BitVec 2) (d a : VR) (s : State) (g : Gang) (sp : Split) : State :=
  fpTo isLong c p w d (fun l e => op (fpFmt w) (fpSrc w a g l e)) s g sp
def fp2 (isLong : Bool) (op : FFmt → Nat → Nat → FRes) (c : Ctl) (p : Pred) (w : BitVec 2) (d a b : VR) (s : State) (g : Gang) (sp : Split) : State :=
  fpTo isLong c p w d (fun l e => op (fpFmt w) (fpSrc w a g l e) (fpSrc w b g l e)) s g sp
def fp3 (op : FFmt → Nat → Nat → Nat → FRes) (c : Ctl) (p : Pred) (w : BitVec 2) (d a b e : VR) (s : State) (g : Gang) (sp : Split) : State :=
  fpTo false c p w d (fun l k => op (fpFmt w) (fpSrc w a g l k) (fpSrc w b g l k) (fpSrc w e g l k)) s g sp

/-- VFADD (Table 08.5). -/
def execVfadd (c : Ctl) (p : Pred) (r w : BitVec 2) (d a b : VR) (s : State) : Out :=
  issue (.vfadd c p r w d a b) c s fun s g sp _ => fp2 false (fun f => fAdd f r) c p w d a b s g sp
/-- VFSUB (Table 08.5). -/
def execVfsub (c : Ctl) (p : Pred) (r w : BitVec 2) (d a b : VR) (s : State) : Out :=
  issue (.vfsub c p r w d a b) c s fun s g sp _ => fp2 false (fun f => fSub f r) c p w d a b s g sp
/-- VFMUL (Table 08.5). -/
def execVfmul (c : Ctl) (p : Pred) (r w : BitVec 2) (d a b : VR) (s : State) : Out :=
  issue (.vfmul c p r w d a b) c s fun s g sp _ => fp2 false (fun f => fMul f r) c p w d a b s g sp
/-- VFMA (Table 08.5): one rounding. -/
def execVfma (c : Ctl) (p : Pred) (r w : BitVec 2) (d a b e : VR) (s : State) : Out :=
  issue (.vfma c p r w d a b e) c s fun s g sp _ => fp3 (fun f => fFma f r false false) c p w d a b e s g sp
/-- VFMS (Table 08.5): a × b − c. -/
def execVfms (c : Ctl) (p : Pred) (r w : BitVec 2) (d a b e : VR) (s : State) : Out :=
  issue (.vfms c p r w d a b e) c s fun s g sp _ => fp3 (fun f => fFma f r false true) c p w d a b e s g sp
/-- VFNMA (Table 08.5): c − a × b. -/
def execVfnma (c : Ctl) (p : Pred) (r w : BitVec 2) (d a b e : VR) (s : State) : Out :=
  issue (.vfnma c p r w d a b e) c s fun s g sp _ => fp3 (fun f => fFma f r true false) c p w d a b e s g sp
/-- VFMIN (R73). -/
def execVfmin (c : Ctl) (p : Pred) (w : BitVec 2) (d a b : VR) (s : State) : Out :=
  issue (.vfmin c p w d a b) c s fun s g sp _ => fp2 false (fun f => fMinMax f false) c p w d a b s g sp
/-- VFMAX (R73). -/
def execVfmax (c : Ctl) (p : Pred) (w : BitVec 2) (d a b : VR) (s : State) : Out :=
  issue (.vfmax c p w d a b) c s fun s g sp _ => fp2 false (fun f => fMinMax f true) c p w d a b s g sp
/-- VFDIV (Table 08.5): long-latency. -/
def execVfdiv (c : Ctl) (p : Pred) (r w : BitVec 2) (d a b : VR) (s : State) : Out :=
  issue (.vfdiv c p r w d a b) c s fun s g sp _ => fp2 true (fun f => fDiv f r) c p w d a b s g sp
/-- VFSQRT (Table 08.5): long-latency. -/
def execVfsqrt (c : Ctl) (p : Pred) (r w : BitVec 2) (d a : VR) (s : State) : Out :=
  issue (.vfsqrt c p r w d a) c s fun s g sp _ => fp1 true (fun f => fSqrt f r) c p w d a s g sp
/-- VFRCP (Table 08.5): long-latency. -/
def execVfrcp (c : Ctl) (p : Pred) (r w : BitVec 2) (d a : VR) (s : State) : Out :=
  issue (.vfrcp c p r w d a) c s fun s g sp _ => fp1 true (fun f => fRcp f r) c p w d a s g sp
/-- VFRSQ (Table 08.5): long-latency. -/
def execVfrsq (c : Ctl) (p : Pred) (r w : BitVec 2) (d a : VR) (s : State) : Out :=
  issue (.vfrsq c p r w d a) c s fun s g sp _ => fp1 true (fun f => fRsqrt f r) c p w d a s g sp
/-- VFEXP2 (R72): long-latency. -/
def execVfexp2 (c : Ctl) (p : Pred) (r w : BitVec 2) (d a : VR) (s : State) : Out :=
  issue (.vfexp2 c p r w d a) c s fun s g sp _ => fp1 true (fun f => fExp2 f r) c p w d a s g sp
/-- VFLOG2 (R72): long-latency. -/
def execVflog2 (c : Ctl) (p : Pred) (r w : BitVec 2) (d a : VR) (s : State) : Out :=
  issue (.vflog2 c p r w d a) c s fun s g sp _ => fp1 true (fun f => fLog2 f r) c p w d a s g sp
/-- VFABS (R68). -/
def execVfabs (c : Ctl) (p : Pred) (w : BitVec 2) (d a : VR) (s : State) : Out :=
  issue (.vfabs c p w d a) c s fun s g sp _ => fp1 false fAbs c p w d a s g sp
/-- VFNEG (R68). -/
def execVfneg (c : Ctl) (p : Pred) (w : BitVec 2) (d a : VR) (s : State) : Out :=
  issue (.vfneg c p w d a) c s fun s g sp _ => fp1 false fNeg c p w d a s g sp
/-- VFCLASS (R190). -/
def execVfclass (c : Ctl) (p : Pred) (w : BitVec 2) (d a : VR) (s : State) : Out :=
  issue (.vfclass c p w d a) c s fun s g sp _ => fp1 false fClass c p w d a s g sp
/-- VFSCALE (R191): b is a two's complement integer of the element's width. -/
def execVfscale (c : Ctl) (p : Pred) (r w : BitVec 2) (d a b : VR) (s : State) : Out :=
  issue (.vfscale c p r w d a b) c s fun s g sp _ =>
    fp2 false (fun f x y => fScale f r x (readInt true f.width y)) c p w d a b s g sp
/-- VFRINT (R191). -/
def execVfrint (c : Ctl) (p : Pred) (r w : BitVec 2) (d a : VR) (s : State) : Out :=
  issue (.vfrint c p r w d a) c s fun s g sp _ => fp1 false (fun f => fRint f r) c p w d a s g sp

/-- VFCMP (R193): every bit of K is written, and NV as the condition gives. -/
def execVfcmp (c : Ctl) (p : Pred) (cond : FCond) (w : BitVec 2) (k : KR) (a b : VR) (s : State) : Out :=
  issue (.vfcmp c p cond w k a b) c s fun s g sp _ =>
    let lanes := takes g sp p
    let r := fun l => fCmp (fpFmt w) cond (g.lane64 (wide w) a l) (g.lane64 (wide w) b l)
    s.fixed g.uid (latFmt g w) c (.kreg k (maskOf lanes fun l => (r l).1) :: fpFlags ((lanesOf lanes).map fun l => (r l).2))

/-- VCVT (R194 to R197): one element per lane, at position `pos` where a type is narrow. -/
def execVcvt (c : Ctl) (p : Pred) (sat : Bool) (dt st : BitVec 4) (r : BitVec 2) (pos : BitVec 3) (d a : VR) (b : SR) (s : State) : Out :=
  issue (.vcvt c p sat dt st r pos d a b) c s fun s g sp _ =>
    let lanes := takes g sp p
    let sz := g.sr b
    let res := fun l => convert (NType.ofCode st) (NType.ofCode dt) r sat (sz.extractLsb' 0 16).toNat
      (sz.extractLsb' 16 8).toInt (cvtElem st pos (g.lane64 (cvtWide st) a l))
    let lat := if cvtWide dt || cvtWide st then latF64 g else latVfp g
    let w := (NType.ofCode dt).width
    let ws :=
      if lanes == 0 then []
      else if cvtWide dt then vWrites true d lanes fun l => (res l).bits
      else [.vreg d lanes (cvtBits dt pos)
        (mkV fun l => BitVec.ofNat 32 (if w ≤ 16 then (res l).bits * 2 ^ (w * pos.toNat) else (res l).bits))]
    s.fixed g.uid lat c (ws ++ fpFlags ((lanesOf lanes).map fun l => (res l).flags))

end Sys2Proof.Machine
end

