-- ==== Sys2Proof/Machine/Lane.lean ====
section
/-! DEFINITION. LANE and KOP (R84, R198 to R200). -/

namespace Sys2Proof.Machine

/-- A lane-operation result (R198). -/
def laneTo (c : Ctl) (p : Pred) (isWide : Bool) (d : VR) (f : Nat → Nat) (s : State) (g : Gang) (sp : Split) : State :=
  s.fixed g.uid (latVfp g) c (vWrites isWide d (takes g sp p) f)

/-- VSHUF (R198). -/
def execVshuf (c : Ctl) (p : Pred) (w : BitVec 2) (d a b : VR) (s : State) : Out :=
  issue (.vshuf c p w d a b) c s fun s g sp _ =>
    laneTo c p (wide w) d (fun l => g.lane64 (wide w) a ((lane (g.vr b.toNat) l).toNat % 32)) s g sp
/-- VBCAST (R198). -/
def execVbcast (c : Ctl) (p : Pred) (w : BitVec 2) (d a : VR) (b : SR) (s : State) : Out :=
  issue (.vbcast c p w d a b) c s fun s g sp _ => laneTo c p (wide w) d (fun _ => g.lane64 (wide w) a ((g.sr b).toNat % 32)) s g sp
/-- VROT (R198). -/
def execVrot (c : Ctl) (p : Pred) (w : BitVec 2) (d a : VR) (n : BitVec 5) (s : State) : Out :=
  issue (.vrot c p w d a n) c s fun s g sp _ => laneTo c p (wide w) d (fun l => g.lane64 (wide w) a ((l + n.toNat) % 32)) s g sp
/-- VMATCH (R198): the mask of the taking-part lanes whose value equals the lane's own. -/
def execVmatch (c : Ctl) (p : Pred) (w : BitVec 2) (d a : VR) (s : State) : Out :=
  issue (.vmatch c p w d a) c s fun s g sp _ =>
    let lanes := takes g sp p
    laneTo c p false d (fun l => (maskOf lanes fun m => g.lane64 (wide w) a m == g.lane64 (wide w) a l).toNat) s g sp

/-- Absent-aware combination of two nodes of the tree (R84). A node beside an absent one passes on unchanged, also a NaN, which is then not made
canonical and sets no flag: no operation is made on it (log 71). -/
def combine (op : Nat → Nat → FRes) : Option Nat × List (BitVec 5) → Option Nat × List (BitVec 5) → Option Nat × List (BitVec 5)
  | (none, fa), (b, fb) => (b, fa ++ fb)
  | (some a, fa), (none, fb) => (some a, fa ++ fb)
  | (some a, fa), (some b, fb) => (some (op a b).bits, (op a b).flags :: (fa ++ fb))

/-- Tree(lo, 2^k) (R84). -/
def tree (op : Nat → Nat → FRes) (v : Nat → Option Nat) : Nat → Nat → Option Nat × List (BitVec 5)
  | 0, lo => (v lo, [])
  | k + 1, lo => combine op (tree op v k lo) (tree op v k (lo + 2 ^ k))

/-- Prefix(i) (R84): the sizes 2^k, 2^(k-1), … 1 in turn. -/
def prefixTree (op : Nat → Nat → FRes) (v : Nat → Option Nat) (i : Nat) : Nat → Nat → Option Nat × List (BitVec 5) → Option Nat × List (BitVec 5)
  | 0, lo, acc => if lo + 1 ≤ i + 1 then combine op acc (tree op v 0 lo) else acc
  | k + 1, lo, acc =>
    if lo + 2 ^ (k + 1) ≤ i + 1 then prefixTree op v i k (lo + 2 ^ (k + 1)) (combine op acc (tree op v (k + 1) lo))
    else prefixTree op v i k lo acc

/-- The operation of an OP code on one element (Table 08.8), and the elements of a lane. -/
def redOp (r : BitVec 2) (op : BitVec 3) (w : BitVec 2) (a b : Nat) : FRes :=
  let x := vWidth w
  match op.toNat with
  | 0 => ⟨(a + b) % 2 ^ x, 0⟩
  | 1 => ⟨minMax true false x a b, 0⟩
  | 2 => ⟨minMax true true x a b, 0⟩
  | 3 => ⟨minMax false false x a b, 0⟩
  | 4 => ⟨minMax false true x a b, 0⟩
  | 5 => fAdd (fpFmt w) r a b
  | 6 => fMinMax (fpFmt w) false a b
  | _ => fMinMax (fpFmt w) true a b

def redIsFloat (op : BitVec 3) : Bool := op.toNat ≥ 5
def redCount (op : BitVec 3) (w : BitVec 2) : Nat := if redIsFloat op then fpCount w else 1
def redWidth (op : BitVec 3) (w : BitVec 2) : Nat := if redIsFloat op then (fpFmt w).width else vWidth w

/-- The value lane `l` brings to element `e` of the tree, absent where it does not take part. -/
def redLeaf (op : BitVec 3) (w : BitVec 2) (a : VR) (g : Gang) (lanes : W32) (e l : Nat) : Option Nat :=
  if lanes.getLsbD l then some (elemOf (redWidth op w) e (g.lane64 (wide w) a l)) else none

/-- VREDUCE (R199): with no taking-part lane nothing is written. -/
def execVreduce (c : Ctl) (p : Pred) (r : BitVec 2) (op : BitVec 3) (w : BitVec 2) (d : SR) (a : VR) (s : State) : Out :=
  issue (.vreduce c p r op w d a) c s fun s g sp _ =>
    let lanes := takes g sp p
    let t := fun e => tree (redOp r op w) (redLeaf op w a g lanes e) 5 0
    let n := redCount op w
    let v := onElems (redWidth op w) n fun e => (t e).1.getD 0
    let v := if !redIsFloat op && (op == 1 || op == 2) && w == 0 then ((BitVec.ofNat 32 v).signExtend 64).toNat else v
    s.fixed g.uid (latVfp g) c
      (if lanes == 0 then [] else .sreg d (BitVec.ofNat 64 v) :: fpFlags ((List.range n).flatMap fun e => (t e).2))

/-- VSCAN (R199): the inclusive prefix of R84 in each taking-part lane. -/
def execVscan (c : Ctl) (p : Pred) (r : BitVec 2) (op : BitVec 3) (w : BitVec 2) (d a : VR) (s : State) : Out :=
  issue (.vscan c p r op w d a) c s fun s g sp _ =>
    let lanes := takes g sp p
    let t := fun e i => prefixTree (redOp r op w) (redLeaf op w a g lanes e) i 5 0 (none, [])
    let n := redCount op w
    s.fixed g.uid (latVfp g) c
      (vWrites (wide w) d lanes (fun l => onElems (redWidth op w) n fun e => (t e l).1.getD 0) ++
        fpFlags ((lanesOf lanes).flatMap fun l => (List.range n).flatMap fun e => (t e l).2))

/-! ### KOP -/

def kopTo (c : Ctl) (d : KR) (v : W32) (s : State) (g : Gang) : State := s.fixed g.uid 2 c [.kreg d v]
def kopToS (c : Ctl) (d : SR) (v : W64) (s : State) (g : Gang) : State := s.fixed g.uid 2 c [.sreg d v]

/-- KAND (R200). -/
def execKand (c : Ctl) (d a b : KR) (s : State) : Out := issue (.kand c d a b) c s fun s g _ _ => kopTo c d (g.kr a &&& g.kr b) s g
/-- KOR (R200). -/
def execKor (c : Ctl) (d a b : KR) (s : State) : Out := issue (.kor c d a b) c s fun s g _ _ => kopTo c d (g.kr a ||| g.kr b) s g
/-- KXOR (R200). -/
def execKxor (c : Ctl) (d a b : KR) (s : State) : Out := issue (.kxor c d a b) c s fun s g _ _ => kopTo c d (g.kr a ^^^ g.kr b) s g
/-- KANDN (R200). -/
def execKandn (c : Ctl) (d a b : KR) (s : State) : Out := issue (.kandn c d a b) c s fun s g _ _ => kopTo c d (g.kr a &&& ~~~(g.kr b)) s g
/-- KNOT (R200). -/
def execKnot (c : Ctl) (d a : KR) (s : State) : Out := issue (.knot c d a) c s fun s g _ _ => kopTo c d (~~~(g.kr a)) s g
/-- KMOV (R200). -/
def execKmov (c : Ctl) (d a : KR) (s : State) : Out := issue (.kmov c d a) c s fun s g _ _ => kopTo c d (g.kr a) s g
/-- KPOPC (R200). -/
def execKpopc (c : Ctl) (d : SR) (a : KR) (s : State) : Out :=
  issue (.kpopc c d a) c s fun s g _ _ => kopToS c d (BitVec.ofNat 64 (popc 32 (g.kr a).toNat)) s g
/-- KFFS (R200). -/
def execKffs (c : Ctl) (d : SR) (a : KR) (s : State) : Out :=
  issue (.kffs c d a) c s fun s g _ _ => kopToS c d (BitVec.ofNat 64 (ctzNat 32 (g.kr a).toNat)) s g
/-- KFROMS (R200). -/
def execKfroms (c : Ctl) (d : KR) (a : SR) (s : State) : Out :=
  issue (.kfroms c d a) c s fun s g _ _ => kopTo c d ((g.sr a).setWidth 32) s g
/-- KTOS (R200). -/
def execKtos (c : Ctl) (d : SR) (a : KR) (s : State) : Out :=
  issue (.ktos c d a) c s fun s g _ _ => kopToS c d ((g.kr a).setWidth 64) s g

end Sys2Proof.Machine
end

