-- ==== Sys2Proof/Machine/Values.lean ====
section
/-! DEFINITION. Value-table entries at their home (R90, R92) and graded faults (R94, Table 04.3). -/

namespace Sys2Proof.Machine

/-- The page of a value's entry lies in the memory of the device: the home of a value is a die (R92). That an entry on a PEER or HOST page lies
beyond the table is the model's choice (log 99). -/
def State.homed (s : State) (ctx va : Nat) : Bool :=
  match s.translate ctx va .load with
  | .ok _ e => !ptePeer e && !pteHost e
  | _ => false

/-- Reads an entry at its home for a context; an entry that cannot be reached lies beyond the table (R90). -/
def State.readValue (s : State) (ctx id : Nat) : State × Option Nat :=
  match s.valueAddr ctx id with
  | none => (s, none)
  | some va =>
    let s := s.tablesReady ctx va 32
    if !s.wants.isEmpty then (s, some 0)
    else if !s.homed ctx va then (s, none)
    else match s.ctxRead ctx va 32 with
    | (s, some bs) => (s, some (leNat bs))
    | (s, none) => (s, none)

/-- Writes an entry in one step at its home (R92); it needs write permission (R90). -/
def State.writeValue (s : State) (ctx id e : Nat) : Option State :=
  match s.valueAddr ctx id with
  | none => none
  | some va => s.ctxWrite ctx va (leBytes 32 e)

/-! Codes of graded faults and statuses (Tables 04.3 and 11.2). -/
def gfFINAL : Nat := 1
def gfAMEND : Nat := 2
def gfINVALID : Nat := 3
def gfFREED : Nat := 4
def gfEGRESS : Nat := 5
def gfBADREC : Nat := 6

/-- The four words of a fault record (Table 04.3). -/
def faultWords (cause value version grade reqg : Nat) (gang task pc : W64) : List W64 :=
  [BitVec.ofNat 64 (cause + 2 ^ 8 * value + 2 ^ 32 * version + 2 ^ 48 * grade + 2 ^ 50 * reqg), gang, task, pc.setWidth 52 |>.setWidth 64]

/-- A graded fault waits for its handler; with none bound, or as the 65th, it kills the context (R94). -/
def State.gradedFault (s : State) (ctx fhrec : Nat) (w : List W64) : State :=
  let c := s.ctx ctx
  if c.killed then s
  else if fhrec == 0 || c.faults.length ≥ 64 then s.killContext ctx errGRADED []
  else s.setCtx { c with faults := c.faults ++ [{ fhrec := fhrec, w := w }] }

/-- The fault EGRESS of a gang's instruction (R94, R104). -/
def State.egressFault (s : State) (g : Gang) (pc : W64) : State :=
  match s.inst? g.ctx g.inst with
  | none => s
  | some i =>
    let gr := (s.egressGrade g.ctx g.inst g.run).getD 0
    match i.tr.outIds.find? fun o => s.outGrade i g.run o == some gr with
    | none => s
    | some o =>
      let e := (s.peekValue g.ctx o.2).getD 0
      s.gradedFault g.ctx i.tr.fhrec (faultWords gfEGRESS o.2 (veVersion e) gr 0 (s.nameOf g) (taskId g.inst g.run) pc)

end Sys2Proof.Machine
end

