-- ==== Sys2Proof/Machine/Access.lean ====
section
/-! DEFINITION. From checked lanes to the items of the outbound and outstanding-load sets, or of the region store buffer
(R26, R27, R117, R134, R203, R204). -/

namespace Sys2Proof.Machine

def mkAcc (lane off n val cmp : Nat) : Acc :=
  { lane := lane, off := off, n := n, val := val, cmp := cmp, ov := 0, ovv := 0, done := false }

/-- The lanes of one instruction that reach one line. -/
structure Grp where
  p    : Place1
  accs : List Acc
  deriving DecidableEq, Repr

/-- The two lanes reach one line at one place. -/
def samePlace (a b : Place1) : Bool := a.dst == b.dst && a.line == b.line && a.hold == b.hold && (!a.hold || a.vline == b.vline)

/-- Adds a lane to its group; groups stand in the order of their lowest lane (R134). -/
def addLane (gs : List Grp) (p : Place1) (a : Acc) : List Grp :=
  if gs.any fun x => samePlace x.p p then gs.map fun x => if samePlace x.p p then { x with accs := x.accs ++ [a] } else x
  else gs ++ [{ p := p, accs := [a] }]

def groupLanes (l : List (Place1 × Acc)) : List Grp := l.foldl (fun gs x => addLane gs x.1 x.2) []

/-- Cuts a list into pieces of at most `n`; `fuel` bounds the number of pieces. -/
def chunks {α : Type} (n : Nat) : Nat → List α → List (List α)
  | 0, _ => []
  | f + 1, l => if l.isEmpty then [] else l.take n :: chunks n f (l.drop n)

/-- How many lanes of an atomic or a reduction one packet carries (R134). -/
def atomCap (f : AFn) (n : Nat) : Nat := min 32 (128 / (if f == .cas then 2 * n else n))

/-- Atomic groups bound for a peer are split by the packet's capacity (R134). -/
def splitGrps (kind : ItemKind) (gs : List Grp) : List Grp :=
  gs.flatMap fun g =>
    match kind, g.p.dst with
    | .atomic f w, .peer _ => (chunks (atomCap f (2 ^ w.toNat)) 32 g.accs).map fun a => { g with accs := a }
    | .reduce f, .peer _ => (chunks (atomCap f 4) 32 g.accs).map fun a => { g with accs := a }
    | _, _ => [g]

/-- What an instruction asks of each of its items. -/
structure ItemAsk where
  kind  : ItemKind
  scope : BitVec 3
  pol   : BitVec 2
  rel   : Bool
  acq   : Bool
  comm  : Option Nat
  deriving DecidableEq, Repr

/-- Puts the items of an accepted instruction into the gang's sets, in program order (R117, R349). -/
def State.addItems (s : State) (g : Gang) (op : Nat) (q : ItemAsk) (gs : List Grp) : State :=
  (splitGrps q.kind gs).foldl (fun (s : State) x =>
    let (id, s) := s.fresh
    let it : Item := {
      id := id, op := op, uid := g.uid, ctx := g.ctx, inst := g.inst, run := g.run, kind := q.kind
      dst := x.p.dst, line := x.p.line, vline := x.p.vline, accs := x.accs, scope := q.scope, pol := q.pol, rel := q.rel
      acq := q.acq, nc := x.p.nc, comm := q.comm, tag := none, pub := none
      st := if x.p.hold then .held else .queued
      retry := false }
    { s with items := s.items ++ [it] }) s

/-- A failing check is precise at the instruction: a translation fault in open code at TL0 parks, any other cause traps (R203, R318). -/
def State.accFault (s : State) (g : Gang) (sp : Split) (pc : W64) (k : AccKind) (f : AccFail) : State :=
  let va : W64 := BitVec.ofNat 64 f.ea
  if f.cause == causeXLATE && g.tl == 0 && g.region.isNone then s.park g.uid sp.sid va k.code
  else s.trapAt g sp f.cause k.code 0 (if f.lane < 32 then f.lane else 0) pc va

/-- The two accesses of a gang reach the same bytes; one that is to translate again is known by its virtual line. -/
def sameData (a b : Place1) : Bool := if a.hold || b.hold then a.vline == b.vline else a.dst == b.dst && a.line == b.line

/-- The bytes of a load that earlier buffered VST and SST of the region overlay: mask and value, by byte of the datum (R26, R207). -/
def overlay (r : Region) (p : Place1) (off n : Nat) : Nat × Nat :=
  r.buf.foldl (fun a b =>
    match b.body with
    | .store accs .store =>
      accs.foldl (fun a x =>
        if sameData x.1 p then
          (List.range x.2.n).foldl (fun (a : Nat × Nat) k =>
            let o := x.2.off + k
            if off ≤ o && o < off + n then (a.1 ||| 2 ^ (o - off), setBits a.2 (8 * (o - off)) 8 (x.2.val / 256 ^ k)) else a) a
        else a) a
    | _ => a) (0, 0)

def withOverlay (g : Gang) (p : Place1) (a : Acc) : Acc :=
  match g.region with
  | none => a
  | some r => let o := overlay r p a.off a.n; { a with ov := o.1, ovv := o.2 }

/-- A loaded datum with the overlaid bytes in place. -/
def Acc.merged (a : Acc) (v : Nat) : Nat :=
  (List.range a.n).foldl (fun v k => if a.ov.testBit k then setBits v (8 * k) 8 (a.ovv / 2 ^ (8 * k)) else v) v

/-- A load of lanes: every check first, then the items (R203, R207). `move` places an access at the order point where the
entry says so. -/
def State.loadLanes (s : State) (g : Gang) (sp : Split) (pc : W64) (c : Ctl) (kind : OpKind) (q : ItemAsk) (need : Need)
    (move : Place1 → Place1) (lanes : List (Nat × Nat)) : State :=
  match s.checkLanes g need lanes with
  | (s, .error f) => s.accFault g sp pc need.kind f
  | (s, .ok ps) =>
    let (id, s) := s.accept g sp c kind
    s.addItems g id q (groupLanes (ps.map fun p => (move p.2, withOverlay g p.2 (mkAcc p.1 p.2.off need.n 0 0))))

/-- The lines a plain store writes, as the region's budget counts them (R27). -/
def lineKey (p : Place1) : Dst × Nat := (p.dst, if p.hold then p.vline.toNat else p.line)

/-- An item enters the region store buffer, or exceeds the budget and raises REGOVF (R26, R27). -/
def State.bufferItem (s : State) (g : Gang) (sp : Split) (pc : W64) (c : Ctl) (r : Region) (body : BufBody) (cost : Nat)
    (lines : List (Dst × Nat)) (comm : Option Nat) : State :=
  if r.count + cost > 64 then s.trapAt g sp causeREGOVF 0 0 0 r.head 0
  else
    let r := { r with buf := r.buf ++ [{ setf := c.setf, ip := pc, body := body }], count := r.count + cost,
                      lines := r.lines ++ lines, comm := match comm with | some m => some m | none => r.comm }
    (s.onGang g.uid fun g => { g with region := some r }).noResult g.uid c

/-- A store of lanes (R208): buffered in a region, or placed in the outbound set. `val` gives each lane's datum. In a region it counts each line that
the region's stores and atomics have not reached; a COLL's place takes no line away from that count, by the model's choice (log 96). -/
def State.storeLanes (s : State) (g : Gang) (sp : Split) (pc : W64) (c : Ctl) (q : ItemAsk) (need : Need) (val : Nat → Nat)
    (lanes : List (Nat × Nat)) : State :=
  match s.checkLanes g need lanes with
  | (s, .error f) => s.accFault g sp pc need.kind f
  | (s, .ok ps) =>
    let accs := ps.map fun p => (p.2, mkAcc p.1 p.2.off need.n (val p.1) 0)
    match g.region with
    | some r =>
      let lines := ((accs.map fun a => lineKey a.1).eraseDups).filter fun l => !r.lines.contains l
      s.bufferItem g sp pc c r (.store accs q.kind) lines.length lines none
    | none =>
      let (id, s) := s.accept g sp c .store
      s.addItems g id q (groupLanes accs)

/-- At DIE scope or wider an ordered access to a mapped stash line is performed at the order point (R120, R121). -/
def toPoint (wideScope : Bool) (p : Place1) : Place1 :=
  match p.dst with
  | .stash _ => if wideScope then { p with dst := .dev } else p
  | _ => p

def plainAsk (kind : ItemKind) (pol : BitVec 2) : ItemAsk :=
  { kind := kind, scope := 0, pol := pol, rel := false, acq := false, comm := none }

/-- Alignment and reach of a plain access, of an ordered one, of an atomic, of a guarded one. -/
def plainNeed (k : AccKind) (n : Nat) : Need :=
  { kind := k, n := n, natural := false, window := true, vbase := true, guarded := false, hostOk := true }
def orderedNeed (k : AccKind) (n : Nat) : Need := { plainNeed k n with natural := true }
def guardedNeed (k : AccKind) (n : Nat) : Need := { plainNeed k n with window := false, guarded := true }
def atomNeed (n : Nat) (hostOk : Bool) : Need := { plainNeed .rmw n with natural := true, vbase := false, hostOk := hostOk }

end Sys2Proof.Machine
end

