-- ==== Sys2Proof/Machine/Vmem.lean ====
section
/-! DEFINITION. VMEM, SMEM, VATOM, SATOM, FENCE and STASH (R201 to R216). -/

namespace Sys2Proof.Machine

def memLanes (m : MemOp) (g : Gang) (lanes : W32) : List (Nat × Nat) := g.eas lanes (g.sr m.base) m.off m.scl (imm64 m.disp)
def scopedLanes (m : ScopedOp) (g : Gang) (lanes : W32) : List (Nat × Nat) := g.eas lanes (g.sr m.base) m.off m.scl (disp15 m.disp)

/-- VLD (R207). -/
def execVld (c : Ctl) (p : Pred) (d : VR) (m : MemOp) (s : State) : Out :=
  issue (.vld c p d m) c s fun s g sp pc =>
    s.loadLanes g sp pc c (.loadV d m.wid m.sx) (plainAsk .load m.pol) (plainNeed .load (widBytes m.wid)) id
      (memLanes m g (takes g sp p))
/-- VST (R208). -/
def execVst (c : Ctl) (p : Pred) (d : VR) (m : MemOp) (s : State) : Out :=
  issue (.vst c p d m) c s fun s g sp pc =>
    s.storeLanes g sp pc c (plainAsk .store m.pol) (plainNeed .store (widBytes m.wid)) (g.datum m.wid d) (memLanes m g (takes g sp p))
/-- VLDC (R207): read at the line's order point together with its guard word. -/
def execVldc (c : Ctl) (p : Pred) (d : VR) (ver : SR) (m : MemOp) (s : State) : Out :=
  issue (.vldc c p d ver m) c s fun s g sp pc =>
    s.loadLanes g sp pc c (.loadV d m.wid m.sx) (plainAsk (.loadG ((g.sr ver).setWidth 16)) 0) (guardedNeed .load (widBytes m.wid))
      (toPoint true) (memLanes m g (takes g sp p))
/-- VSTC (R208): each line's write is made only if its guard matches. -/
def execVstc (c : Ctl) (p : Pred) (d : VR) (ver : SR) (m : MemOp) (s : State) : Out :=
  issue (.vstc c p d ver m) c s fun s g sp pc =>
    s.storeLanes g sp pc c (plainAsk (.storeG ((g.sr ver).setWidth 16)) 0) (guardedNeed .store (widBytes m.wid)) (g.datum m.wid d)
      (memLanes m g (takes g sp p))
/-- LDACQ (R121, R207): no later access issues until it is performed. -/
def execLdacq (c : Ctl) (p : Pred) (d : VR) (sx : Bool) (m : ScopedOp) (s : State) : Out :=
  issue (.ldacq c p d sx m) c s fun s g sp pc =>
    s.loadLanes g sp pc c (.loadV d m.wid sx) { kind := .load, scope := m.scope, pol := 0, rel := false, acq := true, comm := none }
      (orderedNeed .load (widBytes m.wid)) (toPoint (m.scope.toNat ≥ 2)) (scopedLanes m g (takes g sp p))
/-- STREL (R122, R208): it leaves the outbound set after every earlier access is performed at its scope. -/
def execStrel (c : Ctl) (p : Pred) (d : VR) (m : ScopedOp) (s : State) : Out :=
  issue (.strel c p d m) c s fun s g sp pc =>
    s.storeLanes g sp pc c { kind := .store, scope := m.scope, pol := 0, rel := true, acq := false, comm := none }
      (orderedNeed .store (widBytes m.wid)) (g.datum m.wid d) (scopedLanes m g (takes g sp p))

/-- The lines of the lanes that pass every check; a lane that fails is dropped (R209). -/
def State.okLines (s : State) (g : Gang) (need : Need) : List (Nat × Nat) → State × List Place1
  | [] => (s, [])
  | (l, ea) :: r =>
    match s.checkLane g need l ea with
    | (s, .ok p) => let (s, ps) := s.okLines g need r; (s, p :: ps)
    | (s, .bad _) => s.okLines g need r

/-- PREFETCH (R209): a fill is asked for each line; a lane that fails a check is dropped without a fault. -/
def execPrefetch (c : Ctl) (p : Pred) (m : MemOp) (s : State) : Out :=
  issue (.prefetch c p m) c s fun s g sp _ =>
    let (s, ps) := s.okLines g (plainNeed .load 1) (memLanes m g (takes g sp p))
    let lines := (ps.filterMap fun q => if q.dst == .dev then some (q.line, q.nc) else none).eraseDups
    (s.accept g sp c (.prefetch (if m.pol == 2 then lines.map fun l => (l.1 + 1, l.2) else lines))).2
/-- CFLUSH acts on the copies (R210): a line DIRTY in the gang's stash is written back and INVALID there; the core's L1 copy goes, and
on an NC page the die's too, its data written back first. The gang's earlier stores kept there are performed by it (R130). -/
def State.cflushNow (s : State) (uid d c before : Nat) (lines : List Nat) : State :=
  lines.foldl (fun (s : State) line =>
    let s := s.settle line
    let mine := (s.stashHolders line).filter fun h => h.1 == uid && h.2.2.2 == .dirty
    let s := mine.foldl (fun (s : State) h => s.writeBack h.1 h.2.1 h.2.2.1 .invalid) s
    (s.flushNc d c line).onCore d c fun k => { k with l1 := k.l1.filter fun x => x.line != line })
    (s.endKept fun i => i.uid == uid && i.pos < before && lines.contains i.line)

/-- An earlier access of the gang to one of the lines is on its way, or an earlier CFLUSH: a CFLUSH comes after it (R117, R210). -/
def State.flushWaits (s : State) (uid before : Nat) (lines : List Nat) : Bool :=
  (s.items.any fun i => i.uid == uid && i.pos < before && i.st != .done && i.st != .failed && i.st != .kept && i.st != .egress &&
    (match i.dst with | .dev => lines.contains i.line | .stash _ => lines.contains i.line | _ => false)) ||
  s.ops.any fun o => o.uid == uid && o.id < before && (match o.kind with | .cflush ls => ls.any lines.contains | _ => false)

/-- CFLUSH (R210): it acts on the copies when it completes, after the gang's earlier accesses to the lines; inside a region at issue, which waits
for them. -/
def execCflush (c : Ctl) (p : Pred) (m : MemOp) (s : State) : Out :=
  issue (.cflush c p m) c s fun s g sp pc =>
    match s.checkLanes g (plainNeed .load 1) (memLanes m g (takes g sp p)) with
    | (s, .error f) => s.accFault g sp pc .load f
    | (s, .ok ps) =>
      let lines := (ps.filterMap fun q => match q.2.dst with
        | .dev => some q.2.line
        | .stash _ => some q.2.line
        | _ => none).eraseDups
      if g.region.isSome then
        (if s.flushWaits g.uid s.nextId lines then s.ask .later
         else ((s.cflushNow g.uid g.loc.die g.loc.core s.nextId lines).accept g sp c (.cflush [])).2)
      else (s.accept g sp c (.cflush lines)).2

/-! ### SMEM (R211) -/

def scalarLane (m : MemOp) (g : Gang) : List (Nat × Nat) := [(32, g.ea (g.sr m.base) 0xFF 0 (imm64 m.disp) 0)]

/-- SLD (R211). -/
def execSld (c : Ctl) (d : SR) (m : MemOp) (s : State) : Out :=
  issue (.sld c d m) c s fun s g sp pc =>
    s.loadLanes g sp pc c (.loadS d m.wid m.sx) (plainAsk .load m.pol) (plainNeed .load (widBytes m.wid)) id (scalarLane m g)
/-- SST (R211): the low bytes of S[DST]. -/
def execSst (c : Ctl) (d : SR) (m : MemOp) (s : State) : Out :=
  issue (.sst c d m) c s fun s g sp pc =>
    s.storeLanes g sp pc c (plainAsk .store m.pol) (plainNeed .store (widBytes m.wid))
      (fun _ => (g.sr d).toNat % 2 ^ (8 * widBytes m.wid)) (scalarLane m g)

/-! ### Atomics (R212, R213) -/

/-- The functions that exist as a PCIe AtomicOp (R213). -/
def hostAtomOk : AFn → Bool
  | .add | .sub | .xchg | .cas => true
  | _ => false

/-- The access leaves the device (R103). -/
def outward (p : Place1) : Bool :=
  match p.dst with
  | .host => true
  | .peer _ => true
  | _ => false

/-- An atomic of lanes: checked, refused outward from a gated run, the fault's code in a scalar destination (R94, R104), else placed in the outbound set. -/
def State.atomLanes (s : State) (g : Gang) (sp : Split) (pc : W64) (c : Ctl) (kind : OpKind) (f : AFn) (wid scope : BitVec 3)
    (val cmp : Nat → Nat) (lanes : List (Nat × Nat)) : State :=
  let need := atomNeed (widBytes wid) (hostAtomOk f)
  match s.checkLanes g need lanes with
  | (s, .error e) => s.accFault g sp pc .rmw e
  | (s, .ok ps) =>
    let outward' := ps.any fun p => outward p.2
    if outward' && !(s.gradeLines g.ctx g.inst).isEmpty then s.askData (s.gradeLines g.ctx g.inst)
    else if outward' && s.gated g.ctx g.inst g.run then (s.long g sp c (match kind with | .atomS d _ => [.sreg d 5] | _ => [])).egressFault g pc
    else
      let (id, s) := s.accept g sp c kind
      s.addItems g id { kind := .atomic f wid, scope := scope, pol := 0, rel := false, acq := false, comm := none }
        (groupLanes (ps.map fun p => (toPoint (scope.toNat ≥ 2) p.2, mkAcc p.1 p.2.off need.n (val p.1) (cmp p.1))))

/-- VATOM (R212). -/
def execVatom (c : Ctl) (p : Pred) (f : AFn) (d cmp : VR) (m : ScopedOp) (s : State) : Out :=
  issue (.vatom c p f d cmp m) c s fun s g sp pc =>
    s.atomLanes g sp pc c (.atomV d m.wid) f m.wid m.scope (g.datum m.wid d) (g.datum m.wid cmp) (scopedLanes m g (takes g sp p))
/-- SATOM (R212): once, as one lane taking part. -/
def execSatom (c : Ctl) (f : AFn) (d cmp : SR) (m : ScopedOp) (s : State) : Out :=
  issue (.satom c f d cmp m) c s fun s g sp pc =>
    let cut := fun (v : W64) => v.toNat % 2 ^ (8 * widBytes m.wid)
    s.atomLanes g sp pc c (.atomS d m.wid) f m.wid m.scope (fun _ => cut (g.sr d)) (fun _ => cut (g.sr cmp))
      [(32, g.ea (g.sr m.base) 0xFF 0 (disp15 m.disp) 0)]

/-! ### Fences (R123, R214) -/

/-- A fence is accepted; in a region it also stands in the store buffer, for RCOMMIT (R124). -/
def State.fence (s : State) (g : Gang) (sp : Split) (pc : W64) (c : Ctl) (k : BitVec 2) (scope : BitVec 3) : State :=
  let s := match g.region with
    | some r =>
      let b : BufItem := { setf := 15, ip := pc, body := .fence k scope }
      s.onGang g.uid fun (g : Gang) => { g with region := some { r with buf := r.buf ++ [b] } }
    | none => s
  (s.accept g sp c (.fence k scope)).2

/-- FENCE.ACQ (Table 05.3). -/
def execFenceAcq (c : Ctl) (scope : BitVec 3) (s : State) : Out := issue (.fenceAcq c scope) c s fun s g sp pc => s.fence g sp pc c 0 scope
/-- FENCE.REL (Table 05.3). -/
def execFenceRel (c : Ctl) (scope : BitVec 3) (s : State) : Out := issue (.fenceRel c scope) c s fun s g sp pc => s.fence g sp pc c 1 scope
/-- FENCE.ACQREL (Table 05.3). -/
def execFenceAcqrel (c : Ctl) (scope : BitVec 3) (s : State) : Out := issue (.fenceAcqrel c scope) c s fun s g sp pc => s.fence g sp pc c 2 scope
/-- FENCE.SC (Table 05.3). -/
def execFenceSc (c : Ctl) (scope : BitVec 3) (s : State) : Out := issue (.fenceSc c scope) c s fun s g sp pc => s.fence g sp pc c 3 scope

/-! ### STASH (R215, R216) -/

def selPage (sel : W64) : Nat := (sel.extractLsb' 0 8).toNat
def selAll (sel : W64) : Bool := sel.getLsbD 8

/-- The status that the page selector alone decides for UNMAP, FLUSH and INVAL (R215). -/
def stashSel (g : Gang) (sel : W64) (allOk : Bool) : Nat :=
  if selAll sel then (if allOk then 0 else 2)
  else
    match g.stash[selPage sel]? with
    | none => 2
    | some p => if p.mapped then 0 else 4

/-- A STASH function is accepted with its status decided, or with its page and what MAP records. A failing status is decided here, and only an OK
again at its completion, by the model's choice (log 94). -/
def State.stashOp (s : State) (g : Gang) (sp : Split) (c : Ctl) (fn : BitVec 2) (d : SR) (status : Nat) (page : Option Nat) (frame va : W64)
    (ent : W64) : State :=
  if status != 0 then s.long g sp c [.sreg d (BitVec.ofNat 64 status)] else (s.accept g sp c (.stash fn d page frame va ent)).2

/-- STASH.MAP (R52, R216). A HOST page raises PROT, and its traps come before any status (log 84). -/
def execStashMap (c : Ctl) (d a sel : SR) (disp : BitVec 18) (s : State) : Out :=
  issue (.stashMap c d a sel disp) c s fun s g sp pc =>
    let va := g.sr a + imm64 disp
    let fail := fun (s : State) (cause : BitVec 8) => s.accFault g sp pc .load { lane := 32, ea := va.toNat, cause := cause }
    if va.toNat % 4096 != 0 then fail s causeALIGN
    else if va.toNat ≥ lwin then fail s causePROT
    else
      match s.xlateCore g.loc.die g.loc.core g.ctx va.toNat .load with
      | (s, .ok pa e) =>
        if ptePeer e || pteNC e || pteHost e || s.sharedFrame g.loc.die g.loc.core g.ctx pa then fail s causePROT
        else
          let p := selPage (g.sr sel)
          let overlaps := (List.range g.stash.length).any fun n =>
            match g.stash[n]? with
            | some x => n != p && x.mapped && x.va == va
            | none => false
          let st := if selAll (g.sr sel) || p ≥ g.stash.length then 2
            else if (g.stash[p]?).any (·.mapped) then 3
            else if overlaps then 1 else 0
          s.stashOp g sp c 0 d st (some p) (BitVec.ofNat 64 pa) va e
      | (s, .xlate) => fail s causeXLATE
      | (s, _) => fail s causePROT
/-- STASH.UNMAP (R216). -/
def execStashUnmap (c : Ctl) (d sel : SR) (s : State) : Out :=
  issue (.stashUnmap c d sel) c s fun s g sp _ => s.stashOp g sp c 1 d (stashSel g (g.sr sel) false) (some (selPage (g.sr sel))) 0 0 0
/-- STASH.FLUSH (R216). -/
def execStashFlush (c : Ctl) (d sel : SR) (s : State) : Out :=
  issue (.stashFlush c d sel) c s fun s g sp _ =>
    s.stashOp g sp c 2 d (stashSel g (g.sr sel) true) (if selAll (g.sr sel) then none else some (selPage (g.sr sel))) 0 0 0
/-- STASH.INVAL (R216). -/
def execStashInval (c : Ctl) (d sel : SR) (s : State) : Out :=
  issue (.stashInval c d sel) c s fun s g sp _ =>
    s.stashOp g sp c 3 d (stashSel g (g.sr sel) true) (if selAll (g.sr sel) then none else some (selPage (g.sr sel))) 0 0 0

end Sys2Proof.Machine
end

