-- ==== Sys2Proof/Machine/Pod.lean ====
section
/-! DEFINITION. Reaching the pod: routes and first hops (R374 to R376), tags (R373), communicators (R140, R141), RSTVs and
drains on their way (R136, R243), the collective grant (R143). -/

namespace Sys2Proof.Machine

/-! ### Routes -/

/-- Choice `n` of a route entry: hops and port, when valid (Table 22.3). -/
def routeChoice (e : W64) (n : Nat) : Option (Nat × Nat) :=
  let c := e.extractLsb' (9 * n) 9
  if c.getLsbD 8 then some ((c.extractLsb' 5 3).toNat, (c.extractLsb' 0 5).toNat) else none

def routeOk (e : W64) : Bool :=
  (routeChoice e 0).isSome && (List.range 4).all fun n =>
    match routeChoice e n with
    | some (h, p) => 1 ≤ h && h ≤ 6 && p < 18
    | none => true

/-- The valid route entry of another device (R374). -/
def State.route? (s : State) (dev : Nat) : Option W64 :=
  if s.devid == some (BitVec.ofNat 12 dev) then none
  else match lookup s.routes dev with
    | some e => if routeOk e then some e else none
    | none => none

def State.portSt (s : State) (p : Nat) : PortSt := match s.port? p with | some x => x.st | none => .down

/-- The depth of a port's outbound queue, in flits (R376). -/
def State.dLocal (s : State) (p : Nat) : Nat :=
  (s.pkts.filter fun k => k.loc == .link p).foldl (fun n k => n + 1 + k.data.length) 0

/-- Where a packet goes next: a port, nowhere yet, or nowhere at all. -/
inductive Hop where
  | port (p : Nat)
  | wait
  | dead
  deriving DecidableEq, Repr

/-- CH0 alone: ORD packets at the source, and every packet elsewhere (R375, R376). -/
def State.primaryHop (s : State) (e : W64) : Hop :=
  match routeChoice e 0 with
  | none => .dead
  | some (_, p) =>
    match s.portSt p with
    | .up => .port p
    | .down => .dead
    | .dead => .dead
    | _ => .wait

/-- The first hop of a class 0 to 3 packet, a response or a notice: the candidate of least cost (R376). -/
def State.firstHop (s : State) (e : W64) : Hop :=
  let cs := (List.range 4).filterMap fun n => routeChoice e n
  let up := cs.filter fun c => s.portSt c.2 == .up
  match up with
  | [] => if cs.all (fun c => s.portSt c.2 == .down || s.portSt c.2 == .dead) then .dead else .wait
  | c :: rest =>
    let hmin := rest.foldl (fun m x => min m x.1) c.1
    let far := fun (p : Nat) => match s.port? p with | some x => max x.q1.2 x.q2.2 | none => 0
    let cost := fun (x : Nat × Nat) => s.dLocal x.2 + far x.2 + 16 * (x.1 - hmin)
    .port (rest.foldl (fun b x => if cost x < cost b then x else b) c).2

/-! ### Tags (R373, R378) -/

def State.tagUsed (s : State) (t : Nat) : Bool :=
  s.items.any (fun i => i.tag == some t && i.st == .sent) || s.rstvs.any (·.tag == some t) || s.drains.any (·.tag == some t) ||
    s.quarantine.any fun q => q.1 == t && s.clock < q.2

/-- A TAG that no outstanding item of the device holds. -/
def State.newTag (s : State) : Nat × State :=
  let n := s.items.length + s.rstvs.length + s.drains.length + s.quarantine.length
  let t := (((List.range (n + 1)).map fun i => (s.nextTag.toNat + i) % 2 ^ 24).find? fun t => !s.tagUsed t).getD s.nextTag.toNat
  (t, { s with nextTag := BitVec.ofNat 24 (t + 1) })

/-- The header of a request of this device. -/
def State.reqHdr (s : State) (kind cls dev tag ten : Nat) : Hdr :=
  { Hdr.blank with kind := BitVec.ofNat 6 kind, cls := BitVec.ofNat 3 cls, ddev := BitVec.ofNat 12 dev, sdev := BitVec.ofNat 12 s.dev,
                   tag := BitVec.ofNat 24 tag, ten := BitVec.ofNat 4 ten }

/-! ### Communicators (Table 06.3) -/

/-- Fields of an entry, as the number its 32 bytes spell. -/
def ceRlist (e : Nat) : Nat := bitsOf e 0 52
def ceRanks (e : Nat) : Nat := bitsOf e 64 12
def ceMyRank (e : Nat) : Nat := bitsOf e 80 12
def ceClass (e : Nat) : Nat := bitsOf e 96 2
def cePrio (e : Nat) : Nat := bitsOf e 104 3
def ceWlen (e : Nat) : Nat := bitsOf e 128 32
def ceLive (e : Nat) : Bool := bitsOf e 160 1 == 1
def ceAbt (e : Nat) : Bool := bitsOf e 161 1 == 1

/-- The virtual address of a tenant's entry. -/
def State.commVa (s : State) (ten comm : Nat) : Nat := ((s.tenant ten).combase.extractLsb' 0 52).toNat + 32 * comm

/-- The entry as it stands; of one that another device or the host holds, as it was last read (log 15). -/
def State.commWord (s : State) (c : CommAt) : Nat := if c.far then c.ent else memNat s.mem c.pa 32

/-- The entry of a communicator as a context's gangs have reached it (log 15). -/
def State.commEntry (s : State) (ctx comm : Nat) : Nat :=
  match lookup (s.ctx ctx).comms comm with
  | some c => s.commWord c
  | none => 0

/-- The communicator is being aborted on this device (R145). -/
def State.aborting (s : State) (ten comm : Nat) : Bool := s.aborts.contains (ten, comm)

/-! ### The injection arbiter (R143, R341) -/

/-- The item is injected under this grant: its own COLL's, or its region's. -/
def State.underGrant (s : State) (r : CollReq) (i : Item) : Bool :=
  i.uid == r.uid && i.comm == some r.comm &&
    (match s.op? r.op with
     | some o => if o.kind == .rcommit then i.id > r.op else i.op == r.op
     | none => i.id > r.op)

/-- A collective leave that the grant's holder asked for and does not hold yet (R341). -/
def State.leaveMissing (s : State) (die op : Nat) : Bool := (s.die die).leaves.any fun l => l.id == op && !l.held

/-- The operation of a leave is over: a held leave waits for its release, a request that was never granted goes (R341). -/
def State.freeLeave (s : State) (die op : Nat) : State :=
  s.onDie die fun x =>
    { x with leaves := (x.leaves.filter fun l => l.id != op || l.held).map fun l => if l.id == op then { l with freed := true } else l }

/-- Requests the grant of a core's arbiter, with the PRIO that the entry has then; TCLASS is read as each packet is sent (log 75). -/
def State.askGrant (s : State) (g : Gang) (op comm : Nat) : State :=
  s.onCore g.loc.die g.loc.core fun k =>
    { k with arbQ := k.arbQ ++ [{ op := op, uid := g.uid, comm := comm, ten := (s.ctx g.ctx).ten,
                                  prio := cePrio (s.commEntry g.ctx comm) }] }

/-- A buffered COLL of the grant's region is still to be released. -/
def State.moreColl (s : State) (r : CollReq) : Bool :=
  match (s.gang? r.uid).bind (·.region) with
  | some x => x.op == r.op && x.buf.any fun b => (match b.body with | .coll _ _ _ => true | _ => false)
  | none => false

/-- The packet is the request of the item, held at its source: it has not been handed to a first hop. -/
def State.ownPkt (s : State) (i : Item) (p : Pkt) : Bool :=
  i.st == .sent && i.tag == some p.h.tag.toNat && p.h.sdev.toNat == s.dev && !p.h.resp && p.h.kind.toNat < 8 && p.inPort.isNone && p.loc == .held

def State.atSource (s : State) (i : Item) : Bool := s.pkts.any fun p => s.ownPkt i p

/-- The grant ends when its last item has been handed to the first hop (R143). -/
def State.grantOver (s : State) (d c : Nat) : State :=
  match (s.core d c).grant with
  | none => s
  | some r =>
    if s.moreColl r || s.items.any (fun i => s.underGrant r i && (i.st == .queued || i.st == .held || s.atSource i)) then s
    else (s.onCore d c fun k => { k with grant := none }).freeLeave d r.op

/-! ### RSTVs and drains on their way -/

/-- An RSTV enters the outbound set (R126, R270). -/
def State.newRstv (s : State) (g : Gang) (op : Nat) (name : W64) (reg : VR) (lanes : W32) (v : VReg) (rel : Bool) (scope : BitVec 3) : State :=
  let (k, s) := s.fresh
  let r : Rstv := {
    k := k, name := name, reg := reg, lanes := lanes, v := v, ten := (s.ctx g.ctx).ten, hops := 0, op := op, uid := g.uid, pkt := none
    rel := rel, scope := scope, tag := none }
  { s with rstvs := s.rstvs ++ [r] }

/-- An RSTV ends with a code: at the sender's operation, or in a response (R136). -/
def State.rstvEnd (s : State) (r : Rstv) (code : Nat) : State :=
  let s := { s with rstvs := s.rstvs.filter fun x => x.k != r.k }
  match r.pkt with
  | none =>
    { s with ops := s.ops.map fun o =>
        if o.id == r.op then (match o.kind with | .rstv st _ => { o with kind := .rstv st (some code) } | _ => o) else o }
  | some k =>
    match s.pkt? k with
    | some p => s.respond p (code != 0) (BitVec.ofNat 32 code) [] 0
    | none => s

/-- A drain leaves the list of drains and ends with a code. -/
def State.endDrain (s : State) (x : Drain) (code : Nat) : State :=
  ({ s with drains := s.drains.filter fun y => y.k != x.k }).drainEnd x.op x.pkt code

end Sys2Proof.Machine
end

