-- ==== Sys2Proof/Machine/Region.lean ====
section
/-! DEFINITION. Regions (R24 to R31, R124, R221, R222): the head, the commit and its release, the abort, and EXIT, which
commits an open region first (R15, R29). -/

namespace Sys2Proof.Machine

/-! ### EXIT and the split table (R15) -/

/-- The join above the entry at position `i`: the last join before it that stands one level higher. -/
def joinAbove (t : List Split) (i : Nat) : Option Nat :=
  match t[i]? with
  | none => none
  | some x => ((List.range i).reverse).find? fun j =>
      match t[j]? with
      | some y => y.kind == .join && y.depth.toNat + 1 == x.depth.toNat
      | none => false

/-- Removes the entry at a position; a join whose children have all ended goes with it, and counts as ended above (R15). -/
def endEntry : Nat → List Split → Nat → List Split
  | 0, t, i => t.eraseIdx i
  | f + 1, t, i =>
    match joinAbove t i with
    | none => t.eraseIdx i
    | some j =>
      let t := t.eraseIdx i
      match t[j]? with
      | none => t
      | some y => if y.exec.toNat ≤ 1 then endEntry f t j else t.set j { y with exec := y.exec - 1 }

def splitIdx (t : List Split) (sid : Nat) : Nat := t.findIdx fun x => x.sid == sid

/-- The spill page goes back when the spill stack is empty (R12). -/
def Gang.unspill (g : Gang) : Gang := { g with spill := g.spill && g.table.any fun x => !x.fast }

/-- EXIT of a split outside a region: at TL1 and TL2 it ends every split of the gang (R225). -/
def State.exitSplit (s : State) (uid sid : Nat) : State :=
  match s.gang? uid with
  | none => s
  | some g =>
    let t := endEntry 65 g.table (splitIdx g.table sid)
    if g.tl > 0 || t.isEmpty then s.endGang uid false
    else s.onGang uid fun g => { g with table := t, exited := true }.unspill

/-! ### RCOMMIT (R28) -/

def Region.collLines (r : Region) : Nat :=
  r.buf.foldl (fun n b => match b.body with | .coll _ _ accs => n + (groupLanes accs).length | _ => n) 0

/-- A fence of the buffer has kept its waits; the stash write-back of a release at DIE scope or wider is made here (R124, R54).
A store kept in a copy of an NC line does not hold the release back, which always reaches its end (R204; log 33). -/
def State.fenceMet (s : State) (uid : Nat) (k : BitVec 2) (scope : BitVec 3) : Bool :=
  let t : State := { s with items := s.items.filter (·.st != .kept) }
  (k.toNat == 1 || s.loadsBefore uid s.nextId) && (k.toNat == 0 || t.performedBefore uid s.nextId scope.toNat)

/-- Releases the next buffered item of a region in step 3 of RCOMMIT, or nothing while it must wait (R28, R40, R124). -/
def State.releaseOne (s : State) (uid : Nat) : Option State :=
  match s.gang? uid with
  | none => none
  | some g =>
    match g.region with
    | none => none
    | some r =>
      match r.buf with
      | [] => none
      | b :: rest =>
        let pop := fun (s : State) => s.onGang uid fun g => { g with region := some { r with buf := rest } }
        let fresh := fun (s : State) (kind : OpKind) =>
          let (id, s) := (pop s).fresh
          let s := s.onGang uid fun g => g.incFlag b.setf
          let o : Op := {
            id := id, uid := uid, die := g.loc.die, core := g.loc.core, sid := 0, setf := b.setf, ip := b.ip, kind := kind
            ctx := g.ctx, inst := g.inst, run := g.run, name := s.nameOf g, dead := false, opb := false, lost := false }
          (id, { s with ops := s.ops ++ [o] })
        if b.setf.toNat < 12 && g.counter b.setf.toNat ≥ 63 then none
        else
          match b.body with
          | .fence k scope =>
            if s.fenceMet uid k scope then
              some (pop (if k.toNat ≥ 1 && scope.toNat ≥ 2 then s.flushPages uid g.mappedPages .clean true else s))
            else none
          | .store accs kind =>
            let (id, s) := fresh s .store
            -- a store that a sweep has passed over translates again (R349)
            let s := s.addItems g id { kind := kind, scope := 0, pol := 0, rel := false, acq := false, comm := none } (groupLanes accs)
            some { s with items := s.items.map fun i => if i.op == id && i.st == .held then { i with retry := true } else i }
          | .coll comm kind accs =>
            let (id, s) := fresh s .coll
            some (s.addItems g id { kind := kind, scope := 4, pol := 0, rel := false, acq := false, comm := some comm } (groupLanes accs))
          | .rstv name reg lanes v rel scope =>
            let (id, s) := fresh s (.rstv none none)
            some (s.newRstv g id name reg lanes v rel scope)

def State.releaseMany : Nat → State → Nat → State
  | 0, s, _ => s
  | f + 1, s, uid => match s.releaseOne uid with | some s => State.releaseMany f s uid | none => s

/-- Steps 3 and 4 of RCOMMIT go as far as they can; the region ends once its buffer is empty and its grant has ended (R28, R222). -/
def State.pushCommit (s : State) (uid : Nat) : State :=
  let s := s.releaseMany 65 uid
  match s.gang? uid with
  | none => s
  | some g =>
    match g.region with
    | none => s
    | some r =>
      let k := s.core g.loc.die g.loc.core
      if r.stage != .step3 || !r.buf.isEmpty || k.arbQ.any (·.op == r.op) || k.grant.any (·.op == r.op) then s
      else
        let s := (s.freeLeave g.loc.die r.op).onGang uid fun g => { g with region := none, wait := none }
        let sid := match s.op? r.op with | some o => o.sid | none => 0
        let s : State := { s with ops := s.ops.map fun o => if o.id == r.op then { o with kind := .calc [] } else o }
        if r.after == .exit then s.exitSplit uid sid else s

/-- The OPB goes back to the main file (R28, step 2): a result without a flag that is still on its way lands in the main file then. -/
def State.keepOpb (s : State) (uid : Nat) : State :=
  { s with ops := s.ops.map fun o => if o.uid == uid then { o with opb := false } else o }

/-- RCOMMIT from step 2 on: step 1 has been waited for at issue. Step 3 asks for the grant of the region's COLL items, and
with more than 32 of their line-writes for a collective leave (R143, R341). -/
def State.startCommit (s : State) (g : Gang) (sp : Split) (c : Ctl) (after : AfterRegion) : State :=
  match g.region with
  | none => s
  | some r =>
    let (id, s) := (s.keepOpb g.uid).accept g sp c .rcommit
    let n := r.collLines
    let s := s.onGang g.uid fun g =>
      { r.opb.foldl (fun g x => g.setMain x.1 x.2) g with
        region := some { r with stage := .step3, after := after, op := id }, wait := some (.op id) }
    let s := if n > 32 then
        s.onDie g.loc.die fun x => { x with leaves := x.leaves ++ [{ id := id, coll := true, asked := s.clock, held := false, freed := false }] }
      else s
    let s := if n > 0 then (match r.comm with | some m => s.askGrant g id m | none => s) else s
    s.pushCommit g.uid

/-! ### The instructions -/

/-- The registers of the set in ascending order (R24, R25). -/
def setRegs (vb : VR) (m : W64) : List Nat := ((List.range 64).filter fun i => m.getLsbD i).map (vb.toNat + ·)

/-- REGION (R25): the set is copied to the OPB, and the snapshot is taken. -/
def execRegion (c : Ctl) (vb : VR) (a : SR) (s : State) : Out :=
  issue (.region c vb a) c s fun s g sp pc =>
    (s.noResult g.uid c).onGang g.uid fun g =>
      { g with region := some {
          head := pc, vb := vb, mask := g.sr a, opb := (setRegs vb (g.sr a)).map fun n => (n, g.mainV n), snapS := g.s, snapK := g.k
          snapE := sp.exec, snapF := sp.fmt, buf := [], lines := [], count := 0, comm := none, stage := .opened, after := .succ
          op := 0 } }

/-- RCOMMIT (R28). -/
def execRcommit (c : Ctl) (s : State) : Out :=
  issue (.rcommit c) c s fun s g sp _ => s.startCommit g sp c .succ

/-- RABORT (R30): the snapshot is restored and the head executes again. -/
def execRabort (c : Ctl) (s : State) : Out :=
  issue (.rabort c) c s fun s g sp _ =>
    let s := ((s.noResult g.uid c).loseOpb g.uid).onGang g.uid fun g => g.restore sp.sid
    { s with focus := s.focus.map fun f => { f with moved := true } }

end Sys2Proof.Machine
end

