-- ==== Sys2Proof/Machine/Cohort.lean ====
section
/-! DEFINITION. Cohorts, barriers and RQUOTA (R21, R22, R49, R50, R223, R224), reconvergence (R13, R14, R16) and REGROUP
(R37, R38, R272). -/

namespace Sys2Proof.Machine

/-! ### JOIN and LEAVE -/

/-- What the gang holds as its own owner passes to the cohort it joins (R21, R57); a copy-engine context restarts once it is idle (R246). -/
def State.passTo (s : State) (d c uid n : Nat) : State :=
  let own := fun (o : Owner) => if o == .gang uid then Owner.cohort n else o
  let s := s.onCore d c fun k =>
    { k with
      mom := k.mom.map fun t => { t with owner := own t.owner }
      acm := k.acm.map fun t => { t with owner := own t.owner }
      engines := k.engines.map fun e => (if e.owner == some (.gang uid) then { e with restart := true } else e).pass own }
  { s with dies := s.dies.map fun x => { x with bfe := x.bfe.map fun b =>
      if b.die == d && b.core == c then { b with owner := own b.owner, passed := b.passed || b.owner == .gang uid } else b } }

/-- JOIN (R21). -/
def execJoin (c : Ctl) (d : SR) (n : BitVec 4) (s : State) : Out :=
  issue (.join c d n) c s fun s g sp _ =>
    let dd := g.loc.die
    let cc := g.loc.core
    let num := n.toNat
    let k := s.cohort? dd cc num
    if g.cohort.isSome then s.long g sp c [.sreg d 2]
    else if k.any fun k => k.ctx != g.ctx then s.long g sp c [.sreg d 1]
    else
      let s := match k with
        | some _ => s.onCohort dd cc num fun k => { k with members := k.members ++ [g.uid] }
        | none =>
          let k : Cohort := { num := num, ctx := g.ctx, members := [g.uid], arrived := [], phase := 0, pool := 0 }
          s.onCore dd cc fun x => { x with cohorts := x.cohorts ++ [k] }
      ((s.onGang g.uid fun g => { g with cohort := some num, lastArr := none }).passTo dd cc g.uid num).long g sp c [.sreg d 0]

/-- LEAVE (R21, R22). -/
def execLeave (c : Ctl) (s : State) : Out :=
  issue (.leave c) c s fun s g _ _ => (s.noResult g.uid c).leaveCohort g.uid

/-! ### Barriers (R22, R224) -/

/-- The gang arrives in the present phase. -/
def State.arrive (s : State) (g : Gang) (n : Nat) (k : Cohort) : State :=
  (s.onCohort g.loc.die g.loc.core n fun k => { k with arrived := k.arrived ++ [g.uid] }).onGang g.uid fun g =>
    { g with lastArr := some k.phase }

/-- BAR and BARA: an arrival, now or, when the gang has already arrived, in the next phase. -/
def State.barrier (s : State) (g : Gang) (sp : Split) (c : Ctl) (waits : Bool) : State :=
  match g.cohort with
  | none => s.noResult g.uid c
  | some n =>
    match s.cohort? g.loc.die g.loc.core n with
    | none => s.noResult g.uid c
    | some k =>
      if k.arrived.contains g.uid then
        let (_, s) := s.accept g sp c (.bar (k.phase + 1) g.loc.core g.loc.die n)
        (s.onGang g.uid fun g => { g with wait := some (.bar k.phase waits) }).waitBegins g.uid
      else
        let (id, s) := s.accept g sp c (.bar k.phase g.loc.core g.loc.die n)
        let s := s.arrive g n k
        if waits then (s.onGang g.uid fun g => { g with wait := some (.op id) }).waitBegins g.uid else s

/-- BAR (R224). -/
def execBar (c : Ctl) (s : State) : Out := issue (.bar c) c s fun s g sp _ => s.barrier g sp c true
/-- BARA (R224). -/
def execBara (c : Ctl) (s : State) : Out := issue (.bara c) c s fun s g sp _ => s.barrier g sp c false
/-- BARW (R224): it waits for the phase of the last arrival, if that is still in progress. -/
def execBarw (c : Ctl) (s : State) : Out :=
  issue (.barw c) c s fun s g sp _ =>
    match g.cohort with
    | none => s.noResult g.uid c
    | some n =>
      match s.cohort? g.loc.die g.loc.core n with
      | none => s.noResult g.uid c
      | some k =>
        if k.arrived.contains g.uid && g.lastArr == some k.phase then
          let (id, s) := s.accept g sp c (.bar k.phase g.loc.core g.loc.die n)
          (s.onGang g.uid fun g => { g with wait := some (.op id) }).waitBegins g.uid
        else s.noResult g.uid c

/-- BARRIER_PHASE_COMPLETE (R22): every member has arrived and none is pre-empted. Gangs that wait to arrive again arrive in
the next phase (R224). On a gated core it waits for the wake (R365). -/
def execBarrierPhaseComplete (d c n : Nat) (s : State) : Out :=
  .next (match s.cohort? d c n with
    | none => s
    | some k =>
      if !s.phaseOver k || (s.core d c).gated then s
      else
        let again := k.members.filter fun u =>
          match (s.gang? u).bind (·.wait) with
          | some (.bar p _) => p == k.phase
          | _ => false
        let s := s.onCohort d c n fun k => { k with phase := k.phase + 1, arrived := again }
        let open' : Op → Bool := fun o => match o.kind with
          | .bar p oc od num => oc == c && od == d && num == n && p == k.phase
          | _ => false
        let done := (s.ops.filter open').map (·.id)
        let s : State := { s with gangs := s.gangs.map fun g =>
          match g.wait with
          | some (.op id) => if done.contains id then { g with wait := none } else g
          | some (.bar p w) =>
            if again.contains g.uid && p == k.phase then
              let mine := s.ops.find? fun o => o.uid == g.uid && (match o.kind with | .bar q _ _ _ => q == k.phase + 1 | _ => false)
              { g with lastArr := some (k.phase + 1), wait := if w then mine.map fun o => GWait.op o.id else none }
            else g
          | _ => g }
        let s : State := { s with ops := s.ops.map fun o => if open' o then { o with kind := .calc [] } else o }
        -- a gang that arrives again begins to wait anew (R50, R58)
        (again.filter fun u => ((s.gang? u).bind (·.wait)).isSome).foldl State.waitBegins s)

/-! ### RQUOTA (R49, R50) -/

/-- RQUOTA (R49). Its wait for the flag counters is kept at issue. -/
def execRquota (c : Ctl) (d : SR) (n : BitVec 18) (s : State) : Out :=
  issue (.rquota c d n) c s fun s g sp _ =>
    let want := n.toNat / 32
    let dd := g.loc.die
    let cc := g.loc.core
    if want == g.vblocks then s.long g sp c [.sreg d 0]
    else if want < g.vblocks then
      let s := s.onGang g.uid fun g => g.shrinkV want
      let s := match g.cohort with
        | some k => s.onCohort dd cc k fun k => { k with pool := k.pool + (g.vblocks - want) }
        | none => s
      s.long g sp c [.sreg d 0]
    else
      match g.cohort with
      | none => s.long g sp c [.sreg d 2]
      | some k =>
        if ((s.cohort? dd cc k).map (·.pool)).getD 0 ≥ want - g.vblocks then
          ((s.onCohort dd cc k fun k => { k with pool := k.pool - (want - g.vblocks) }).growV g.uid want).long g sp c [.sreg d 0]
        else
          let (id, s) := s.accept g sp c (.rquota d want)
          (s.onGang g.uid fun g => { g with wait := some (.rquota id) }).waitBegins g.uid

/-- RQUOTA_GRANT (R49): the waiting RQUOTAs of the gang's cohort that the pool can supply go on. -/
def execRquotaGrant (r : GRef) (s : State) : Out :=
  .next (match (s.gangAt r).bind (·.cohort) with
    | some n => s.pumpQuotas r.die r.core n
    | none => s)

/-! ### Reconvergence (R13, R14, R16) -/

/-- The lowest active lane of a split; 32 when none is active. -/
def lowLane (e : W32) : Nat := ((List.range 32).find? fun l => e.getLsbD l).getD 32

/-- The split holding the lowest active lane; the first when none is active (R14). -/
def lowestSplit : List Split → Option Split
  | [] => none
  | x :: xs => some (xs.foldl (fun b y => if lowLane y.exec < lowLane b.exec then y else b) x)

def unionExec (l : List Split) : W32 := l.foldl (fun e x => e ||| x.exec) 0

/-- Every split of the gang may move: it is at TL0, no cause waits to be taken, and it is not parked (R318, R319). -/
def Gang.running (g : Gang) : Bool := g.tl == 0 && g.trap.isNone && (g.status == .active || g.status == .pending)

def Split.atRpc (x : Split) : Bool := x.kind != .join && x.depth != 0 && x.pc == x.rpc

/-- The split waits at its RPC, and the arrival's TGT check is behind it (R14, R154). -/
def Split.arrived (x : Split) : Bool := x.atRpc && x.chk == 0

/-- A SETEXEC or SETFMT of the split has not landed (R39, R225). -/
def Gang.writing (g : Gang) (sid : Nat) : Bool :=
  g.pend.any fun p => p.wrs.any fun w => (match w with | .exec n _ | .fmt n _ => n == sid | _ => false)

/-- How many entries after position `i` lie below depth `d`: the subtree of a join. -/
def subtreeLen (d : Nat) : List Split → Nat
  | [] => 0
  | x :: xs => if x.depth.toNat > d then subtreeLen d xs + 1 else 0

/-- The entries directly below the join at a position. -/
def childrenOf (t : List Split) (j : Nat) : List Split :=
  match t[j]? with
  | none => []
  | some y => ((t.drop (j + 1)).take (subtreeLen y.depth.toNat (t.drop (j + 1)))).filter fun x => x.depth.toNat == y.depth.toNat + 1

/-- The innermost join whose surviving children have all reached the reconvergence PC (R14). -/
def mergeJoin (t : List Split) : Option Nat :=
  ((List.range t.length).reverse).find? fun j => (t[j]?).any (fun y => y.kind == .join) && !(childrenOf t j).isEmpty &&
    (childrenOf t j).all fun x => x.kind == .live && x.arrived

/-- SPLIT_MERGE (R14): the surviving children of a join, all at the reconvergence PC, become one split there, once no SETEXEC or SETFMT of theirs
is in flight: their EXEC and FMT are then final. -/
def execSplitMerge (r : GRef) (s : State) : Out :=
  .next (match s.gangAt r with
    | none => s
    | some g =>
      let t := if g.running then g.table else []
      match mergeJoin t with
      | none => s
      | some j =>
        if (childrenOf t j).any fun x => g.writing x.sid then s
        else
        match t[j]?, lowestSplit (childrenOf t j), (childrenOf t j).head? with
        | some y, some low, some first =>
          let m : Split := {
            kind := .live, sid := first.sid, pc := first.rpc, exec := unionExec (childrenOf t j), fmt := low.fmt, rpc := y.rpc, depth := y.depth
            fast := y.fast || g.fastFree ≥ 1 || (childrenOf t j).any (·.fast), atBar := false, latch := none, chk := 0 }
          let n := subtreeLen y.depth.toNat (t.drop (j + 1))
          let t := t.take j ++ [m] ++ t.drop (j + 1 + n)
          s.onGang g.uid fun g => { g with table := t, exited := g.exited && t.any fun (x : Split) => x.kind == SplitKind.join }.unspill
        | _, _, _ => s)

/-- DEFERRED_SPLIT_RESUME (R13, R16): a deferred split becomes live once its sibling stands at the RPC or a barrier or has
ended, or some split of the gang stands at a barrier. It takes the fast entry that its waiting sibling gives up, else a free one, else that of
another waiting split; what gives up its entry moves to the spill stack. -/
def execDeferredSplitResume (r : GRef) (s : State) : Out :=
  .next (match s.gangAt r with
    | none => s
    | some g =>
      let t := if g.running then g.table else []
      let stopped := fun (x : Split) => x.kind == .live && (x.arrived || x.atBar)
      let anyBar := t.any fun x => x.kind == .live && x.atBar
      let may := fun (i : Nat) => (t[i]?).any fun x => x.kind == .deferred &&
        (anyBar || (match joinAbove t i with
          | some j => (childrenOf t j).all fun y => y.sid == x.sid || stopped y
          | none => true))
      match ((List.range t.length).reverse).find? may with
      | none => s
      | some i =>
        let wake := fun (t : List Split) => t.mapIdx fun k x => if k == i then { x with kind := .live, fast := true } else x
        let from' := fun (sid : Nat) => (if g.spill then s else s.passPage r.die r.core).onGang g.uid fun g =>
          { g with table := wake (t.map fun x => if x.sid == sid then { x with fast := false } else x), spill := true }
        match (match joinAbove t i with | some j => (childrenOf t j).find? fun y => stopped y && y.fast | none => none) with
        | some y => from' y.sid
        | none =>
          if g.fastFree ≥ 1 then s.onGang g.uid fun g => { g with table := wake t }.unspill
          else
            match t.find? fun x => stopped x && x.fast with
            | some y => from' y.sid
            | none => s)

/-- BARRIER_RECONVERGE (R16): every split has stopped, none of them to merge at its RPC and run on (R14); they merge at one barrier, or the gang
raises BARDIV. -/
def execBarrierReconverge (r : GRef) (s : State) : Out :=
  .next (match s.gangAt r with
    | none => s
    | some g =>
      let live := g.table.filter fun x => x.kind == .live
      let bars := live.filter fun x => x.atBar && !x.atRpc
      let stopped := (live.all fun x => (x.atBar || x.arrived) && !g.writing x.sid) && (mergeJoin g.table).isNone
      if !g.running || !g.diverged || bars.isEmpty || !stopped || g.table.any (fun x => x.kind == .deferred) then s
      else
        match lowestSplit bars with
        | none => s
        | some low =>
          if !g.exited && live.all (fun x => x.atBar && !x.atRpc && x.pc == low.pc) then
            let m : Split := { low with exec := unionExec live, depth := 0, rpc := 0, fast := true, atBar := false }
            s.onGang g.uid fun g => { g with table := [m] }.unspill
          else
            (s.onGang g.uid fun g => { g with table := g.table.map fun x => { x with atBar := false } }).raise g.uid
              { cause := causeBARDIV, sub := 0, code := 0, lane := 0, ip := low.pc, ret := low.pc, va := 0, sid := low.sid, reg := false })

/-! ### REGROUP -/

/-- REGROUP (R272): the gang arrives with its operands and its taking-part lanes, and waits at the instruction. EXEC and the predicate are read here,
the key and the live registers at the step, by the model's choice (log 97). -/
def execRegroup (c : Ctl) (p : Pred) (vt key vl : VR) (n : BitVec 6) (s : State) : Out :=
  issue (.regroup c p vt key vl n) c s fun s g sp _ =>
    let s := (s.onGang g.uid fun g =>
      { g with wait := some .regroup, rgArg := some (vt, key, vl, n.toNat + 1), rgPred := takes g sp p }).waitBegins g.uid
    { s with focus := s.focus.map fun f => { f with moved := true } }

/-- One lane as REGROUP collects it: its place in the sort order, its key, its old gang, its old lane. -/
structure RgLane where
  pos  : Nat
  key  : Nat
  uid  : Nat
  lane : Nat
  deriving DecidableEq, Repr

def insertKey (k : Nat) : List Nat → List Nat
  | [] => [k]
  | x :: xs => if k < x then k :: x :: xs else if k == x then x :: xs else x :: insertKey k xs

/-- The lanes sorted stably by key; they come in order of slot and lane (R37, step 3). -/
def rgSort (l : List RgLane) : List RgLane :=
  let keys := l.foldl (fun ks x => insertKey x.key ks) []
  (keys.flatMap fun k => l.filter fun x => x.key == k).mapIdx fun i x => { x with pos := i }

/-- The gangs of one key: whole gangs of 32 and a last partial one. -/
def rgPack (l : List RgLane) : List (List RgLane) := chunks 32 (l.length / 32 + 1) l

/-- Packing with the partial gangs of the `m` smallest keys repacked together (R37, step 5). -/
def rgTry (l : List RgLane) (m : Nat) : List (List RgLane) :=
  let keys := l.foldl (fun ks x => insertKey x.key ks) []
  let packs := keys.map fun k => rgPack (l.filter fun x => x.key == k)
  let full := packs.flatMap fun p => p.filter fun c => c.length == 32
  let part := packs.flatMap fun p => p.filter fun c => c.length != 32
  full ++ rgPack (part.take m).flatten ++ part.drop m

def insertGang (x : List RgLane) : List (List RgLane) → List (List RgLane)
  | [] => [x]
  | y :: ys => if (x.head?.map (·.pos)).getD 0 < (y.head?.map (·.pos)).getD 0 then x :: y :: ys else y :: insertGang x ys

/-- Steps 4 to 6: the output gangs in sort order, at most `room` of them. -/
def rgGangs (l : List RgLane) (room : Nat) : List (List RgLane) :=
  let ok := fun (m : Nat) => (rgTry l m).length ≤ room
  let m := ((List.range (l.length + 1)).find? ok).getD l.length
  (rgTry l m).foldl (fun r x => insertGang x r) []

/-- The TSAVEn of a gang launched in a slot (Table 17.1). -/
def Context.tsave (c : Context) (level : Nat) (r : GRef) : W64 :=
  (if level == 1 then c.tsb1 else c.tsb2) + BitVec.ofNat 64 (512 * (8192 * r.die + 64 * r.core + r.slot))

/-- The gang that REGROUP leaves in a slot: `slot` keeps the slot's Q registers and stash, `sup` supplied lane 0 (R38). -/
def rgOutput (slot sup : Gang) (supPc : W64) (supFmt : BitVec 16) (seed : Nat) (part : List Gang) (arg : VR × VR × VR × Nat)
    (lanes : List RgLane) : Gang :=
  let at' := fun (l : Nat) => lanes[l]?
  let old := fun (x : RgLane) => (part.find? fun g => g.uid == x.uid)
  let n := lanes.length
  let val := fun (r l : Nat) => match at' l with
    | some x => (match old x with | some g => lane (g.mainV r) x.lane | none => 0)
    | none => Config.freeLane seed r l
  let ti := mkV fun l => match at' l with
    | some x => (match old x with | some g => lane g.tidx x.lane | none => 0)
    | none => Config.freeLane seed 256 l
  let mixed := lanes.any fun x => some x.key != (at' 0).map (·.key)
  let exec : W32 := BitVec.ofNat 32 (2 ^ n - 1)
  let top : Split := {
    kind := .live, sid := 0, pc := succPc supPc, exec := exec, fmt := supFmt, rpc := 0, depth := 0, fast := true, atBar := false
    latch := none, chk := 0 }
  { slot with
    ctx := sup.ctx, inst := sup.inst, run := sup.run, gidx := sup.gidx, ngangs := sup.ngangs, queue := sup.queue
    s := sup.s.setIfInBounds 62 (BitVec.ofNat 64 (((at' 0).map (·.key)).getD 0))
    k := Vector.ofFn fun i : Fin 16 => if i.val == 0 then 0xFFFFFFFF else (Config.freeWord (seed + i.val)).setWidth 32
    v := (arg.1.toNat, ti) :: (List.range arg.2.2.2).map fun i => (arg.2.2.1.toNat + i, mkV fun l => val (arg.2.2.1.toNat + i) l)
    vseeds := (List.range slot.vblocks).map fun b => seed + b
    fpstat := sup.fpstat, trapen := sup.trapen, gstat := if mixed then sup.gstat ||| 1 else sup.gstat
    tidx := ti, fc := Vector.ofFn fun _ : Fin 12 => 0
    hold := Vector.ofFn fun _ : Fin 12 => { armed := false, regm := false, reg := 0, rem := 0 }
    table := [top], exited := false, pend := [], region := none, wait := none, lastArr := none, tl := 0, trap := none, lanePg := []
    rgArg := none, rgPred := 0, fab := sup.fab, spill := false, owed := [], turn := [0] }

/-- A stash page as it is newly allocated (R55). -/
def StashPage.blank : StashPage := { mapped := false, va := 0, wr := false, frame := none, data := [], lines := [], stored := [] }

/-- The slots of a core that hold no gang, ascending. -/
def State.freeSlots (s : State) (d c : Nat) : List Nat :=
  (List.range 64).filter fun n => !(s.gangs.any fun g => g.loc == { die := d, core := c, slot := n })

/-- A slot's generation rises by one (R35). -/
def State.bumpGen (s : State) (r : GRef) : State :=
  s.onCore r.die r.core fun k => { k with gens := insertAt k.gens r.slot ((lookup k.gens r.slot).getD 0 + 1) }

/-- The participants of a REGROUP: the members of cohort `num`, or, above 15, the lone gang in slot `num - 16`. -/
def State.rgMembers (s : State) (d c num : Nat) : List Gang :=
  let us := if num < 16 then ((s.cohort? d c num).map (·.members)).getD []
    else ((s.gangAt { die := d, core := c, slot := num - 16 }).toList.filter fun g => g.cohort.isNone).map (·.uid)
  ((List.range 64).filterMap fun n => s.gangAt { die := d, core := c, slot := n }).filter fun g => us.contains g.uid

/-- The step itself, once every participant waits with equal operands and its counters have settled (R37, steps 2 to 6). -/
def State.regroup (s : State) (d c num : Nat) (part : List Gang) (arg : VR × VR × VR × Nat) : State :=
  let lanes := rgSort (part.flatMap fun g => (lanesOf g.rgPred).map fun l =>
    { pos := 0, key := (lane (g.mainV arg.2.1.toNat) l).toNat, uid := g.uid, lane := l })
  let first := part.head?
  let vb := (first.map (·.vblocks)).getD 1
  let sp := (first.map (·.stash.length)).getD 0
  let pool := ((s.cohort? d c num).map (·.pool)).getD 0
  let free := s.freeSlots d c
  let f := if num ≥ 16 then 0 else min free.length (min (pool / vb) ((s.l1Pages d c - 64) / (1 + sp)))
  let outs := rgGangs lanes (part.length + f)
  let supOf := fun (o : List RgLane) => (o.head?).bind fun x => part.find? fun g => g.uid == x.uid
  let build := fun (s : State) (slot : Gang) (o : List RgLane) =>
    match supOf o with
    | none => slot
    | some sup =>
      let t := sup.table.head?
      rgOutput slot sup ((t.map (·.pc)).getD 0) ((t.map (·.fmt)).getD 0) s.freeCtr part arg o
  -- the participants' slots first
  let s := (part.zip outs).foldl (fun (s : State) x =>
    let g := build s x.1 x.2
    let s : State := { s with freeCtr := s.freeCtr + 24 }
    (s.setGang g).bumpGen g.loc) s
  -- then free slots
  let s := ((free.take f).zip (outs.drop part.length)).foldl (fun (s : State) x =>
    match first with
    | none => s
    | some base =>
      let r : GRef := { die := d, core := c, slot := x.1 }
      let (uid, s) := s.fresh
      let cx := s.ctx base.ctx
      let slot : Gang := { base with
        uid := uid, loc := r, status := .pending, age := s.clock, placed := s.clock, pauseTo := 0, last := none, waitC := none, nz := [], yielded := false
        q := [], stash := List.replicate sp StashPage.blank
        t1 := { cause := 0, ret := 0, va := 0, save := cx.tsave 1 r, stat := 0, scr := 0, ip := 0 }
        t2 := { cause := 0, ret := 0, va := 0, save := cx.tsave 2 r, stat := 0, scr := 0, ip := 0 } }
      let g := build s slot x.2
      let s : State := { s with freeCtr := s.freeCtr + 24, gangs := s.gangs ++ [g] }
      ((s.onCohort d c num fun k => { k with members := k.members ++ [uid], pool := k.pool - vb }).bumpGen r).passPage d c) s
  -- participants whose slots are left over end as if by EXIT
  (part.drop outs.length).foldl (fun (s : State) g => s.endGang g.uid false) s

/-- REGROUP_STEP (R37). -/
def execRegroupStep (d c num : Nat) (s : State) : Out :=
  let part := s.rgMembers d c num
  let args := part.map (·.rgArg)
  let all := !part.isEmpty && (part.all fun g => g.wait == some .regroup && g.status != GStatus.saved) &&
    (num ≥ 16 || ((s.cohort? d c num).map (·.members.length)).getD 0 == part.length)
  let same := fun {β : Type} [BEq β] (l : List β) => match l with | [] => true | x :: xs => xs.all (· == x)
  .next (
    if !all then s
    else if !same args then
      part.foldl (fun (s : State) g =>
        match g.table.head? with
        | none => s
        | some sp =>
          (s.onGang g.uid fun g => { g with wait := none, rgArg := none }).raise g.uid
            { cause := causeBARDIV, sub := 0, code := 0, lane := 0, ip := sp.pc, ret := sp.pc, va := 0, sid := sp.sid, reg := false }) s
    else if !same (part.map fun g => (g.vblocks, g.stash.length)) then part.foldl (fun (s : State) g => s.killGang g.uid errILL) s
    else if !(part.all fun g => g.settled && g.pend.isEmpty) then s
    else
      match args with
      | some a :: _ => s.regroup d c num part a
      | _ => s)

end Sys2Proof.Machine
end

