-- ==== Sys2Proof/Machine/Sys.lean ====
section
/-! DEFINITION. The SYS group (R313 to R323, R327) and the system registers (Table 17.1). -/

namespace Sys2Proof.Machine

/-! ### Reading a system register -/

/-- A hold entry as HENTk reads (Table 17.1). -/
def HoldEnt.word (h : HoldEnt) : W64 :=
  BitVec.ofNat 64 (h.reg.toNat + 2 ^ 8 * h.regm.toNat + 2 ^ 9 * h.rem + 2 ^ 15 * h.armed.toNat)

def HoldEnt.blank : HoldEnt := { armed := false, regm := false, reg := 0, rem := 0 }

def SplitKind.code : SplitKind → Nat
  | .live => 1
  | .deferred => 2
  | .join => 3

/-- Word `w` of a split entry (Table 17.3): of a join the parent's RPC, which it holds (R12). The CUR entry reads as the trap left it (R319; DEDUCED, log 17). -/
def splitWord (x : Split) (cur : Bool) (t : TrapRegs) (w : Nat) : W64 :=
  match w with
  | 0 => BitVec.ofNat 64 ((if cur then t.ret else if x.kind == .join then x.rpc else x.pc).toNat % 2 ^ 52 + 2 ^ 52 * x.depth.toNat + 2 ^ 59 * x.kind.code + 2 ^ 61 * cur.toNat)
  | 1 => if cur then t.stat.extractLsb' 0 48 |>.setWidth 64 else BitVec.ofNat 64 (x.exec.toNat + 2 ^ 32 * x.fmt.toNat)
  | _ => BitVec.ofNat 64 (if x.kind == .join then 0 else x.rpc.toNat % 2 ^ 52)

/-- STMAPp (Table 17.1). -/
def StashPage.word (p : StashPage) : W64 := (p.va &&& 0x000FFFFFFFFFF000) ||| (if p.wr then 2 else 0) ||| (if p.mapped then 1 else 0)

/-- QBINDq (Table 17.1). -/
def QBind.word : QBind → W64
  | .copy _ w => w ||| (1 <<< 63)
  | .bfe _ _ w => w ||| (1 <<< 63)
  | .halyard _ w => w ||| (1 <<< 63)

/-- The split that trapped; no split is marked at TL0. -/
def isCur (g : Gang) (sp : Split) (x : Split) : Bool := g.tl > 0 && x.sid == sp.sid

/-- A trap register of a level, by the low digit of its number. -/
def TrapRegs.read (t : TrapRegs) (vec : W64) (n : Nat) : W64 :=
  match n with
  | 0 => vec
  | 1 => t.cause
  | 2 => t.ret
  | 3 => t.va
  | 4 => t.save
  | 5 => t.stat
  | 6 => t.scr
  | _ => t.ip

/-- SPLITN: the split-table entries in use; while a restore handler writes the table, those that it has written so far (log 65). -/
def Gang.splitN (g : Gang) : Nat :=
  if g.rst.isEmpty then g.table.length
  else max 1 ((List.range 72).filter fun i => ((lookup g.rst (4 * i)).getD 0).extractLsb' 59 2 != 0).length

/-- The value of a system register as it stands (R315, R321). A split-entry word that a restore handler has written reads as written, also in the
bits that Table 17.3 does not list, of which the spec says nothing (log 65). -/
def State.sysRead (s : State) (g : Gang) (sp : Split) (n : Nat) : W64 :=
  let c := s.ctx g.ctx
  if n == 0 then BitVec.ofNat 64 g.tl
  else if n == 1 then c.err
  else if n == 2 then BitVec.ofNat 64 (c.num + 2 ^ 8 * c.ten)
  else if n == 3 then (if c.priv then 1 else 0)
  else if n == 8 then c.tsb1
  else if n == 9 then c.tsb2
  else if n / 16 == 1 then g.t1.read c.tvec1 (n % 16)
  else if n / 16 == 2 then g.t2.read c.tvec2 (n % 16)
  else if n / 16 == 3 then BitVec.ofNat 64 (g.counter (n % 16))
  else if n / 16 == 4 then (g.hold.getD (n % 16) HoldEnt.blank).word
  else if n == 0x50 then BitVec.ofNat 64 g.vblocks
  else if n == 0x51 then BitVec.ofNat 64 g.splitN
  else if n < 0x300 then
    if !g.rst.isEmpty then (lookup g.rst (n - 0x100)).getD 0
    else (match g.table[(n - 0x100) / 4]? with | some x => splitWord x (isCur g sp x) g.t1 (n % 4) | none => 0)
  else if n < 0x400 then (match g.stash[n - 0x300]? with | some p => p.word | none => 0)
  else (match lookup g.q (n - 0x400) with | some b => b.word | none => 0)

/-- SYSGET (R315, R321): TIDX reads into a V register, every other number into an S register. -/
def execSysget (c : Ctl) (num : BitVec 12) (d : VR) (s : State) : Out :=
  issue (.sysget c num d) c s fun s g sp _ =>
    if num == 0x60 then s.long g sp c [.vreg d 0xFFFFFFFF 0xFFFFFFFF g.tidx]
    else s.long g sp c [.sreg (d.setWidth 6) (s.sysRead g sp num.toNat)]

/-! ### Writing a system register (performed when the SYSSET completes) -/

/-- Writes a trap register; TCAUSE and TSTAT keep their zero fields (Table 17.2, R5). -/
def TrapRegs.write (t : TrapRegs) (n : Nat) (v : W64) : TrapRegs :=
  match n with
  | 1 => { t with cause := v.extractLsb' 0 37 |>.setWidth 64 }
  | 2 => { t with ret := v }
  | 3 => { t with va := v }
  | 4 => { t with save := v }
  | 5 => { t with stat := v.extractLsb' 0 49 |>.setWidth 64 }
  | _ => { t with scr := v }

/-- STMAPp maps again, to be translated afresh on the first touch (R328). -/
def StashPage.restoreMap (p : StashPage) (v : W64) : StashPage :=
  { p with mapped := v.getLsbD 0, wr := v.getLsbD 1, va := v &&& 0x000FFFFFFFFFF000, frame := none, lines := [], stored := [] }

/-- QBINDq after a resumption: a BFE or Halyard binding is kept, a copy-engine binding stays dropped (R246, R328). -/
def State.restoreQ (s : State) (uid q : Nat) (v : W64) : State :=
  match s.gang? uid with
  | none => s
  | some g =>
    let die := (v.extractLsb' 4 2).toNat
    let old := lookup g.q q
    let keep := v.getLsbD 63 && v.extractLsb' 0 2 == 1 && (match old with | some (.bfe d _ _) => d == die | _ => false)
    if keep then s
    else
      let s := match old with
        | some (.bfe d k _) => s.bfeRelease d k false
        | _ => s
      let rest := fun (g : Gang) => g.q.filter fun p => p.1 != q
      if v.getLsbD 63 && v.extractLsb' 0 2 == 2 then s.onGang uid fun g => { g with q := rest g ++ [(q, .halyard die v)] }
      else s.onGang uid fun g => { g with q := rest g }

def State.sysWrite (s : State) (uid n : Nat) (v : W64) : State :=
  if n / 16 == 1 then s.onGang uid fun g => { g with t1 := g.t1.write (n % 16) v }
  else if n / 16 == 2 then s.onGang uid fun g => { g with t2 := g.t2.write (n % 16) v }
  else if 0x100 ≤ n && n < 0x300 then s.onGang uid fun g => { g with rst := insertAt g.rst (n - 0x100) v }
  else if 0x300 ≤ n && n < 0x400 then s.onGang uid fun g => g.onPage (n - 0x300) fun p => p.restoreMap v
  else if 0x400 ≤ n && n < 0x410 then s.restoreQ uid (n - 0x400) v
  else s

/-- SYSSET (R315, R321). -/
def execSysset (c : Ctl) (num : BitVec 12) (a : VR) (s : State) : Out :=
  issue (.sysset c num a) c s fun s g sp _ =>
    if num == 0x60 then s.long g sp c [.tidx (g.vr a.toNat)]
    else (s.accept g sp c (.sysset num (g.sr (a.setWidth 6)))).2

/-! ### ERET (R320, R328) -/

/-- A restored split entry, from its three words; kind 0 is free, and word 0 of a join holds its RPC (Table 17.3). -/
def restoredSplit (rst : List (Nat × W64)) (i sid : Nat) : Option Split :=
  let w := fun (k : Nat) => (lookup rst (4 * i + k)).getD 0
  let mk := fun (k : SplitKind) => some {
    kind := k, sid := sid, pc := (w 0).extractLsb' 0 52 |>.setWidth 64, exec := (w 1).extractLsb' 0 32, fmt := (w 1).extractLsb' 32 16
    rpc := (if k == .join then w 0 else w 2).extractLsb' 0 52 |>.setWidth 64, depth := (w 0).extractLsb' 52 7, fast := decide (i < 8) && k != .deferred, atBar := false
    latch := none, chk := 0 : Split }
  match ((w 0).extractLsb' 59 2).toNat with
  | 0 => none
  | 1 => mk .live
  | 2 => mk .deferred
  | _ => mk .join

/-- The split table that a restore handler has written, with the CUR split under the running one's name (R328). -/
def restoredTable (g : Gang) (sid base : Nat) : List Split :=
  (List.range 72).filterMap fun i =>
    let cur := ((lookup g.rst (4 * i)).getD 0).getLsbD 61
    restoredSplit g.rst i (if cur then sid else base + i)

/-- ERET (R320): its wait is kept at issue; TRET is checked under R150. At TL1 it installs the table that a restore handler has written, whose
entries beyond the fast ones take a spill page again (R12, R328). -/
def execEret (c : Ctl) (s : State) : Out :=
  issue (.eret c) c s fun s g sp _ =>
    let ret := (g.tregs g.tl).ret
    if (slotOf ret).isNone || ret.toNat ≥ lwin then s.killGang g.uid errIBT
    else
      let t := restoredTable g sp.sid s.nextId
      let s := if g.tl == 1 && !g.rst.isEmpty && t.any (fun x => x.sid == sp.sid) then
          let s : State := if t.any fun x => !x.fast then s.passPage g.loc.die g.loc.core else s
          { s with nextId := s.nextId + 72 }.onGang g.uid fun g => { g with table := t, spill := t.any fun x => !x.fast, rst := [] }
        else if g.tl == 1 then s.onGang g.uid fun g => { g with rst := [] }
        else s
      let s := s.eretNow g.uid sp.sid
      { s with focus := s.focus.map fun f => { f with moved := true } }

/-! ### TLBINV, KILL, IDLE, PGPOOL -/

/-- TLBINV (R322): its sweep begins once the gang's earlier accesses are performed (R349). -/
def execTlbinv (c : Ctl) (a b : SR) (s : State) : Out :=
  issue (.tlbinv c a b) c s fun s g sp _ =>
    let (sw, s) := s.fresh
    let (id, s) := s.accept g sp c (.tlbinv sw)
    let w : Sweep := {
      id := sw, ctx := g.ctx, all := g.sr b == 1, va := (g.sr a).toNat % 2 ^ 52, op := some id, after := id, uid := g.uid, began := false
      waits := [] }
    { s with sweeps := s.sweeps ++ [w] }

/-- KILL (R325). -/
def execKill (c : Ctl) (code : BitVec 16) (s : State) : Out :=
  issue (.kill c code) c s fun s g _ pc =>
    s.killContext g.ctx (errKILLI ||| (code.setWidth 64 <<< 24)) (s.snapshot g 0 pc 0)

/-- The device rows of Table 17.6, which lie in one line of the area: FCNT, HENT, VALLOC and the name. -/
def idleRows (g : Gang) (name : W64) : List Acc :=
  let word := fun (k : Nat) => leBytes 4 (g.hold.getD k HoldEnt.blank).word.toNat
  [mkAcc 0 0x00 12 (leNat ((List.range 12).map fun k => BitVec.ofNat 8 (g.counter k))) 0,
   mkAcc 0 0x10 48 (leNat ((List.range 12).flatMap word)) 0, mkAcc 0 0x40 8 g.vblocks 0, mkAcc 0 0x48 8 name.toNat 0]

/-- IDLE (R327): step 1 checks the whole area as a store does. The store of the device rows is placed where this check found their line, and waits
until step 2 is over; the rest happens when the operation completes. -/
def execIdle (c : Ctl) (a : SR) (s : State) : Out :=
  issue (.idle c a) c s fun s g sp pc =>
    let base := g.sr a
    if base.toNat % 4096 != 0 then s.accFault g sp pc .store { lane := 32, ea := base.toNat, cause := causeALIGN }
    else
      match s.checkLanes g { plainNeed .store 128 with window := false } ((List.range 320).map fun i => (32, base.toNat + 128 * i)) with
      | (s, .error f) => s.accFault g sp pc .store f
      | (s, .ok ps) =>
        let (id, s) := s.accept g sp c (.idle base false)
        let s := s.addItems g id (plainAsk .store 0) ((ps.drop 4).take 1 |>.map fun p => { p := { p.2 with nc := false }, accs := [] })
        s.onGang g.uid fun g => { g with wait := some (.idle id) }

/-- PGPOOL (R323): the mapping is made when the operation completes. -/
def execPgpool (c : Ctl) (d a : SR) (s : State) : Out :=
  issue (.pgpool c d a) c s fun s g sp _ => (s.accept g sp c (.pgpool d (g.sr a))).2

/-! #### What PGPOOL does at its completion -/

/-- The level-0 entry of an address, if every table above it is there; a leaf above it counts as mapped (R323). -/
inductive PgWalk where
  | mapped
  | noTable
  | slot (pa : Nat)
  deriving DecidableEq, Repr

def State.pgWalk (s : State) (ten va : Nat) : Nat → Nat → PgWalk
  | n, t =>
    let a := t + 8 * (va / 2 ^ lvlBits n % 512)
    let e := BitVec.ofNat 64 (memNat s.mem a 8)
    match n with
    | 0 => if pteV e && !malformed e 0 then .mapped else .slot a
    | k + 1 =>
      if !pteV e || malformed e n then .noTable
      else if pteL e then .mapped
      else if s.inFwin ten (pteFrame e) then s.pgWalk ten va k (pteFrame e) else .noTable

/-- PGPOOL's status and effect, in one step: operations on one pool are serialised (R323). -/
def State.pgpoolNow (s : State) (ctx : Nat) (va : W64) : State × Nat :=
  let c := s.ctx ctx
  if va.toNat ≥ lwin then (s, 4)
  else
    let s := s.tablesReady ctx va.toNat 1
    match s.pgWalk c.ten va.toNat 3 ((c.ptroot.extractLsb' 12 40).toNat * 4096) with
    | .mapped => (s, 2)
    | .noTable => (s, 3)
    | .slot a =>
      if c.poolN == 0 then (s, 1)
      else
        let (s, e) := s.devReadNat ((c.poolB.extractLsb' 0 52).toNat + 8 * (c.poolN.toNat - 1)) 8
        let frame := bitsOf e 16 36 * 65536
        let s := (List.range 512).foldl (fun (s : State) i => s.devWrite (frame + 128 * i) (List.replicate 128 0)) s
        let s := s.devWriteNat a 8 (frame + 0xF)
        (s.onCtx ctx fun c => { c with poolN := c.poolN - 1 }, 0)

end Sys2Proof.Machine
end

