-- ==== Sys2Proof/Machine/Matrix.lean ====
section
/-! DEFINITION. The MTX group (R229 to R245): claims, fills, reads, accumulation, drains; the arithmetic of R80 to R83 over the
stores of R230. -/

namespace Sys2Proof.Machine

/-! ### The stores (R230) -/

/-- Element (i, j) of a tile. -/
def Core.elemC (k : Core) (u : Nat) (acc80 : Bool) (i j : Nat) : Nat :=
  if acc80 then memNat k.acmMem (2048 * u + 10 * (32 * i + j)) 10 else memNat k.acmMem (2048 * u + 4 * (32 * i + j)) 4

def Core.setElem (k : Core) (u : Nat) (acc80 : Bool) (i j v : Nat) : Core :=
  if acc80 then { k with acmMem := memWriteN k.acmMem (2048 * u + 10 * (32 * i + j)) (leBytes 10 v) }
  else { k with acmMem := memWriteN k.acmMem (2048 * u + 4 * (32 * i + j)) (leBytes 4 v) }

/-- The 1024 elements of a tile in row order. -/
def Core.elems (k : Core) (u : Nat) (acc80 : Bool) : List Nat := (List.range 1024).map fun n => k.elemC u acc80 (n / 32) (n % 32)

def Core.setElems (k : Core) (u : Nat) (acc80 : Bool) (vs : List Nat) : Core :=
  (vs.mapIdx fun n v => (n, v)).foldl (fun (k : Core) x => k.setElem u acc80 (x.1 / 32) (x.1 % 32) x.2) k

/-- Where a byte of a slot row, and of a side band row, lies in the operand memory. -/
def rowAddr (slot i : Nat) : Nat := 4096 * slot + 128 * i
def sideAddr (slot i : Nat) : Nat := 0x80000 + 1024 * slot + 32 * i

def accFmt (acc80 : Bool) : FFmt := if acc80 then fACC else fF32

/-- The element formats of EF and OF (R235, Table 10.4). -/
def efFmt (ef : BitVec 2) : FFmt :=
  match ef.toNat with
  | 0 => fF32
  | 1 => fACC
  | 2 => fF16
  | _ => fBF16

/-! ### Claims -/

/-- MCLAIM (R57, R231): granted at once if it fits, else it waits. -/
def execMclaim (c : Ctl) (d a : SR) (s : State) : Out :=
  issue (.mclaim c d a) c s fun s g sp _ =>
    let w := g.sr a
    let m := (w.extractLsb' 0 8).toNat
    let n := (w.extractLsb' 8 7).toNat
    let af := w.getLsbD 15
    let s := s.pumpClaims g.loc.die g.loc.core
    match s.tryClaim g.loc.die g.loc.core g.owner m n af with
    | some (s, gw) => s.long g sp c [.sreg d gw]
    | none =>
      let (id, s) := s.accept g sp c (.mclaim d m n af)
      (s.onGang g.uid fun g => { g with wait := some (.op id) }).waitBegins g.uid

/-- MTRY (R57, R231). -/
def execMtry (c : Ctl) (d a : SR) (s : State) : Out :=
  issue (.mtry c d a) c s fun s g sp _ =>
    let w := g.sr a
    let m := (w.extractLsb' 0 8).toNat
    let n := (w.extractLsb' 8 7).toNat
    let af := w.getLsbD 15
    let s := s.pumpClaims g.loc.die g.loc.core
    match s.tryClaim g.loc.die g.loc.core g.owner m n af with
    | some (s, gw) => s.long g sp c [.sreg d gw]
    | none => s.long g sp c [.sreg d (grantWord 1 0 0 af n m)]

/-- MREL (R232): each slot and tile goes back once it is idle; the flag waits for the last (R59). From its issue on the owner no longer holds
them, by the model's choice (log 101). -/
def execMrel (c : Ctl) (a : SR) (s : State) : Out :=
  issue (.mrel c a) c s fun s g sp _ =>
    let w := g.sr a
    let r := grantRuns w
    let (id, s) := s.accept g sp c (.mrel (w.extractLsb' 16 8).toNat r.1.length (w.extractLsb' 24 8).toNat r.2.length (w.getLsbD 15))
    (s.onCore g.loc.die g.loc.core fun k =>
      { k with
        mom := k.mom.map fun t => if r.1.contains t.idx && t.owner == g.owner then { t with going := true, relBy := some id } else t
        acm := k.acm.map fun t => if r.2.contains t.idx && t.owner == g.owner then { t with going := true, relBy := some id } else t }).reap
      g.loc.die g.loc.core

/-- GRANT (R57): waiting claims are considered again. -/
def execClaimGrant (d c : Nat) (s : State) : Out := .next (s.freed d c)

/-! ### MLOAD (R233) -/

/-- The checks that MLOAD and MLOOP make of rows: 128 bytes each, plain loads, the window's VBASE and SBASE admitted. -/
def rowNeed : Need := plainNeed .load 128

/-- The row addresses and, with a side band, its eight lines, each with its place among them. -/
def tileLanes (base stride : W64) (side : Bool) : List (Nat × Nat) :=
  (List.range 32).map (fun i => (32 + i, (base + stride * BitVec.ofNat 64 i).toNat)) ++
  (if side then (List.range 8).map fun i => (64 + i, (base + stride * 32 + BitVec.ofNat 64 (128 * i)).toNat) else [])

/-- Alignment of a row address and a stride to `n` bytes: the address reported, when one breaks it (R233, R242). -/
def rowAlign (n : Nat) (base stride : W64) : Option Nat :=
  if base.toNat % n != 0 then some base.toNat
  else if stride.toNat % n != 0 then some (base + stride).toNat
  else none

/-- The load items of one tile fetch. The lane number of an access is its row, or 32 plus the line of the side band. -/
def State.rowItems (s : State) (g : Gang) (op : Nat) (half : Nat) (ps : List (Nat × Place1)) : State :=
  s.addItems g op (plainAsk .load 0) (ps.map fun p => { p := p.2, accs := [mkAcc (half + p.1 - 32) p.2.off 128 0 0] })

/-- The value that item accesses have brought for a row. -/
def fetched (items : List Item) (row : Nat) : Option Nat :=
  match (items.flatMap fun i => if i.st == .done then i.accs else []).find? (·.lane == row) with
  | some a => some a.val
  | none => none

/-- Writes fetched rows, and side-band lines, into a slot; a row that failed keeps its contents (R135). -/
def Core.fillSlot (k : Core) (slot half : Nat) (items : List Item) : Core :=
  let mem := (List.range 40).foldl (fun m i =>
    match fetched items (half + i) with
    | some v => memWriteN m (if i < 32 then rowAddr slot i else 0x80000 + 1024 * slot + 128 * (i - 32)) (leBytes 128 v)
    | none => m) k.momMem
  { k with momMem := mem }

/-- MLOAD (R233). -/
def execMload (c : Ctl) (side : Bool) (a b t : SR) (s : State) : Out :=
  issue (.mload c side a b t) c s fun s g sp pc =>
    let base := g.sr a
    let stride := g.sr b
    match rowAlign 128 base stride with
    | some ea => s.accFault g sp pc .load { lane := 32, ea := ea, cause := causeALIGN }
    | none =>
      match s.checkLanes g rowNeed (tileLanes base stride side) with
      | (s, .error f) => s.accFault g sp pc .load f
      | (s, .ok ps) =>
        let slot := twA (g.sr t)
        let (id, s) := s.accept g sp c (.mload slot)
        (s.rowItems g id 0 ps).onCore g.loc.die g.loc.core fun k => k.onSlot slot fun x => x.fill id

/-- MZERO (R234). -/
def execMzero (c : Ctl) (a : SR) (s : State) : Out :=
  issue (.mzero c a) c s fun s g sp _ =>
    let u := twC (g.sr a)
    let (id, s) := s.accept g sp c (.mzero u)
    s.onCore g.loc.die g.loc.core fun k => k.onTile u fun x => x.fill id

/-- MACCRD (R235): one user until it completes. -/
def execMaccrd (c : Ctl) (ef : BitVec 2) (row0 nrow : BitVec 5) (d : VR) (a : SR) (s : State) : Out :=
  issue (.maccrd c ef row0 nrow d a) c s fun s g sp _ =>
    let u := twC (g.sr a)
    let (_, s) := s.accept g sp c (.maccrd d u row0.toNat (nrow.toNat + 1) ef (sp.fmt.extractLsb' 12 2))
    s.onCore g.loc.die g.loc.core fun k => k.onTile u Tile.use

/-- MACCWR (R235): the source rows are read at issue. -/
def execMaccwr (c : Ctl) (ef : BitVec 2) (row0 nrow : BitVec 5) (d : VR) (a : SR) (s : State) : Out :=
  issue (.maccwr c ef row0 nrow d a) c s fun s g sp _ =>
    let u := twC (g.sr a)
    let n := nrow.toNat + 1
    let (id, s) := s.accept g sp c (.maccwr u row0.toNat n ((List.range n).map fun i => g.vr (d.toNat + i)) ef)
    s.onCore g.loc.die g.loc.core fun k => k.onTile u fun x => x.fill id

/-! ### Accumulation (R80 to R83, R237) -/

/-- Row `i` of a slot as 64 values of BF16 or F16. -/
def Core.rowVals (k : Core) (slot i : Nat) (f : FFmt) : List FVal :=
  (List.range 64).map fun n => FVal.ofBits f (memNat k.momMem (rowAddr slot i + 2 * n) 2)

/-- Code `n` of a row of half-step data (R75). -/
def Core.hsCode (k : Core) (slot i w n : Nat) : Nat :=
  if w == 8 then (memRead k.momMem (rowAddr slot i + n)).toNat
  else (memRead k.momMem (rowAddr slot i + n / 2)).toNat / 16 ^ (n % 2) % 16

/-- Scale of a group, and its zero point where enabled (R74, R75). -/
def Core.hsScale (k : Core) (slot i g : Nat) : FVal := FVal.ofBits fF16 (memNat k.momMem (sideAddr slot i + 2 * g) 2)
def Core.hsZero (k : Core) (slot i gs g : Nat) (en : Bool) : Int :=
  if en then readInt true 8 (memRead k.momMem (sideAddr slot i + 2 * gs + g)).toNat else 0

/-- One element's sixteen steps of R81. -/
def mac16 (f : FFmt) (c : Nat) (a b : List FVal) : Nat :=
  (List.range 16).foldl (fun c q => macStep f c (((a.drop (4 * q)).take 4).zip ((b.drop (4 * q)).take 4))) c

/-- One element's groups of R82. The reserved GROUP 3 gives groups of 256 by the same formula, and HS8 none (log 72). -/
def macHs (k : Core) (f : FFmt) (w : Nat) (fmt : BitVec 16) (sa sb i j c : Nat) : Nat :=
  let n := 32 * 2 ^ (fmt.extractLsb' 8 2).toNat
  let gs := (if w == 8 then 128 else 256) / n
  let top : Int := 2 ^ w - 1
  (List.range gs).foldl (fun c g =>
    let za := k.hsZero sa i gs g (fmt.getLsbD 14)
    let zb := k.hsZero sb j gs g (fmt.getLsbD 15)
    let sum := (List.range n).foldl (fun (x : Int) m =>
      let la : Int := 2 * (k.hsCode sa i w (g * n + m) : Int) - top - 2 * za
      let lb : Int := 2 * (k.hsCode sb j w (g * n + m) : Int) - top - 2 * zb
      x + la * lb) 0
    hsStep f c (k.hsScale sa i g) (k.hsScale sb j g) sum) c

/-- C + A × Bᵀ on a tile (R81, R82). -/
def Core.mac (k : Core) (fmt : BitVec 16) (a b u : Nat) : Core :=
  let acc80 := fmt.extractLsb' 10 2 == 1
  let f := accFmt acc80
  let af := (fmt.extractLsb' 0 4).toNat
  let bf := (fmt.extractLsb' 4 4).toNat
  let vs := (List.range 1024).map fun n =>
    let i := n / 32
    let j := n % 32
    let c := k.elemC u acc80 i j
    if af ≥ 2 then macHs k f (if af == 2 then 8 else 4) fmt a b i j c
    else mac16 f c (k.rowVals a i (if af == 0 then fBF16 else fF16)) (k.rowVals b j (if bf == 0 then fBF16 else fF16))
  k.setElems u acc80 vs

/-- HS8 or HS4 operands, for which the unit asks for power leave (R241). -/
def isHs (fmt : BitVec 16) : Bool := (fmt.extractLsb' 0 4).toNat ≥ 2

/-- A matrix leave is asked for (R241, R341). -/
def State.askLeave (s : State) (die id : Nat) : State :=
  s.onDie die fun x => { x with leaves := x.leaves ++ [{ id := id, coll := false, asked := s.clock, held := false, freed := false }] }

/-- MMAC (R237): the operands gain a user each, and the tile is held until the last addition. -/
def execMmac (c : Ctl) (a : SR) (s : State) : Out :=
  issue (.mmac c a) c s fun s g sp _ =>
    let w := g.sr a
    let (id, s) := s.accept g sp c (.mmac (twA w) (twB w) (twC w) sp.fmt false)
    let s := s.onCore g.loc.die g.loc.core fun k =>
      let k := k.onSlot (twA w) Tile.use
      let k := if twA w == twB w then k else k.onSlot (twB w) Tile.use
      k.onTile (twC w) Tile.use
    if isHs sp.fmt then s.askLeave g.loc.die id else s

/-- MLOOP (R239, R240): its slots and tile are reserved until it ends. -/
def execMloop (c : Ctl) (d a : SR) (s : State) : Out :=
  issue (.mloop c d a) c s fun s g sp _ =>
    let w := g.sr a
    let x := g.sr (a + 3)
    let u := fun (lo : Nat) => (x.extractLsb' lo 16).setWidth 64 * (128 : W64)
    let i := fun (lo : Nat) => (x.extractLsb' lo 16).signExtend 64 * (128 : W64)
    let (id, s) := s.accept g sp c (.mloop d (twA w) (twB w) (twC w) sp.fmt ((w.extractLsb' 32 16).toNat + 1) (w.getLsbD 48)
      (g.sr (a + 1)) (g.sr (a + 2)) (i 32) (i 48) (u 0) (u 16) 0 0 none)
    let s := s.onCore g.loc.die g.loc.core fun k =>
      let k := [twA w, twA w + 1, twB w, twB w + 1].foldl (fun (k : Core) n => k.onSlot n fun t => { t with resv := some id }) k
      k.onTile (twC w) fun t => { t.use with resv := some id }
    s.askLeave g.loc.die id

/-- An MLOOP ends with a status: the slots and the tile are READY and free of it. -/
def State.endLoop (s : State) (o : Op) (d : SR) (a b u : Nat) (cause done : Nat) : State :=
  let s := s.onCore o.die o.core fun k =>
    let k := [a, a + 1, b, b + 1].foldl (fun (k : Core) n => k.onSlot n fun t => { t.ready with resv := none }) k
    k.onTile u fun t => { t.unuse with resv := none }
  let s : State := { s with items := s.items.filter fun i => i.op != o.id }
  (s.freeLeave o.die o.id).setOp { o with kind := .calc [.sreg d (BitVec.ofNat 64 (done + 2 ^ 32 * cause))] }

/-- The cause codes of R240 for a failing check. -/
def loopCause (c : BitVec 8) : Nat := if c == causeXLATE then 1 else if c == causePROT then 2 else 3

/-- MLOOP_STEP (R239, R240): one move of the sequencer. It finishes a fetch that has arrived, or begins the next one, or
applies a step; a failed fetch ends the loop once the steps before it are applied, a stop ends it at once. Where both fetches of a step fail, an alignment of either
is reported before a check of A, and that before one of B, by the model's choice (log 104). -/
def execMloopStep (op : Nat) (s : State) : Out :=
  .next (match s.op? op with
    | none => s
    | some o =>
      match o.kind with
      | .mloop d a b u fmt n side pa pb ia ib sa sb fe st stop =>
        let again := fun (s : State) (fe st : Nat) (stop : Option Nat) =>
          s.setOp { o with kind := .mloop d a b u fmt n side pa pb ia ib sa sb fe st stop }
        let mine := s.items.filter fun i => i.op == op
        let ended := mine.all fun i => i.st == .done || i.st == .failed
        let slotA := a + fe % 2
        let slotB := b + fe % 2
        if stop == some 5 then s.endLoop o d a b u 5 st
        else if (s.die o.die).leaves.any fun l => l.id == op && !l.held then s
        else if !mine.isEmpty && ended then
          -- the fetch of step `fe` has arrived
          let s : State := { s with items := s.items.filter fun i => i.op != op }
          if mine.any (·.st == .failed) then again (s.fabricFail o.uid 15) fe st (some 4)
          else
            let s := s.onCore o.die o.core fun k =>
              (((k.fillSlot slotA 0 mine).fillSlot slotB 100 mine).onSlot slotA Tile.ready).onSlot slotB Tile.ready
            again s (fe + 1) st stop
        else if mine.isEmpty && stop.isNone && fe < n && fe < st + 2 then
          match s.gang? o.uid with
          | none => s.endLoop o d a b u 5 st
          | some g =>
            let xa := pa + ia * BitVec.ofNat 64 fe
            let xb := pb + ib * BitVec.ofNat 64 fe
            if (rowAlign 128 xa sa).isSome || (rowAlign 128 xb sb).isSome then again s fe st (some 3)
            else
              match s.checkLanes g rowNeed (tileLanes xa sa side) with
              | (s, .error f) => again s fe st (some (loopCause f.cause))
              | (s, .ok psA) =>
                match s.checkLanes g rowNeed (tileLanes xb sb side) with
                | (s, .error f) => again s fe st (some (loopCause f.cause))
                | (s, .ok psB) =>
                  ((s.rowItems g op 0 psA).rowItems g op 100 psB).onCore o.die o.core fun k =>
                    (k.onSlot slotA fun t => t.fill op).onSlot slotB fun t => t.fill op
        else if st < fe then
          let s := s.onCore o.die o.core fun k => k.mac fmt (a + st % 2) (b + st % 2) u
          if st + 1 == n then s.endLoop o d a b u 0 n else again s fe (st + 1) stop
        else
          match stop with
          | some c => s.endLoop o d a b u c fe
          | none => s
      | _ => s)

/-! ### Drains (R242, R243) -/

/-- Bytes of a stored row by OF. -/
def ofBytes (f : BitVec 2) : Nat :=
  match f.toNat with
  | 0 => 128
  | 1 => 320
  | _ => 64

/-- An element read out or written in another format, and exactly copied where it already has the target's format (R235); that a NaN
written so keeps its payload is the model's choice (log 103). -/
def convElem (a b : FFmt) (rnd : BitVec 2) (x : Nat) : Nat := if a == b then x else (roundF b rnd (FVal.ofBits a x)).bits

/-- An element of MSTORE's memory form: an ACC80 tile stored as ACC80 is copied, and every other conversion rounds (R242). -/
def storeElem (acc80 : Bool) (f rnd : BitVec 2) (x : Nat) : Nat :=
  if acc80 && f == 1 then x else (roundF (efFmt f) rnd (FVal.ofBits (accFmt acc80) x)).bits

/-- A row of a tile converted and packed, as one number (R78, R242). -/
def Core.packRow (k : Core) (u : Nat) (acc80 : Bool) (f rnd : BitVec 2) (i : Nat) : Nat :=
  (List.range 32).foldl (fun n j =>
    let v := storeElem acc80 f rnd (k.elemC u acc80 i j)
    n + v * 2 ^ (8 * (ofBytes f / 32) * j)) 0

/-- MSTORE (R242). In its memory form the rows are plain stores, cut at 64 bytes, in ascending row order. -/
def execMstore (c : Ctl) (hi tr tom : Bool) (f : BitVec 2) (a b t : SR) (s : State) : Out :=
  issue (.mstore c hi tr tom f a b t) c s fun s g sp pc =>
    let w := g.sr a
    let u := twC w
    let k := s.core g.loc.die g.loc.core
    let acc80 := ((k.tile? u).map (·.acc80)).getD false
    let rnd := sp.fmt.extractLsb' 12 2
    if tom then
      let (id, s) := s.accept g sp c (.mstoreTom u (twA w) hi tr f rnd)
      s.onCore g.loc.die g.loc.core fun k => (k.onTile u fun x => x.drain id).onSlot (twA w) fun x => x.fill id
    else
      let base := g.sr b
      let stride := g.sr t
      match rowAlign 64 base stride with
      | some ea => s.accFault g sp pc .store { lane := 32, ea := ea, cause := causeALIGN }
      | none =>
        let cuts := ofBytes f / 64
        let rows := (List.range 32).flatMap fun i => (List.range cuts).map fun q => (i, q)
        let lanes := rows.map fun x => (32, (base + stride * BitVec.ofNat 64 x.1 + BitVec.ofNat 64 (64 * x.2)).toNat)
        match s.checkLanes g (plainNeed .store 64) lanes with
        | (s, .error e) => s.accFault g sp pc .store e
        | (s, .ok ps) =>
          let (id, s) := s.accept g sp c (.mstore u)
          let data := fun (x : Nat × Nat) => k.packRow u acc80 f rnd x.1 / 2 ^ (512 * x.2) % 2 ^ 512
          let s := s.addItems g id (plainAsk .store 0)
            ((rows.zip ps).map fun x => { p := x.2.2, accs := [mkAcc 0 x.2.2.off 64 (data x.1) 0] })
          s.onCore g.loc.die g.loc.core fun k => k.onTile u fun x => x.drain id

/-- MDRAIN (R243): the tile drains until its data has been read out. From a gated run to another device it writes the fault's code (R94, R104). -/
def execMdrain (c : Ctl) (ord : Bool) (d a b t : SR) (s : State) : Out :=
  issue (.mdrain c ord d a b t) c s fun s g sp pc =>
    let w := g.sr a
    let name := g.sr b
    let u := twC w
    let k := s.core g.loc.die g.loc.core
    let acc80 := ((k.tile? u).map (·.acc80)).getD false
    if nameDev name != s.dev && !(s.gradeLines g.ctx g.inst).isEmpty then s.askData (s.gradeLines g.ctx g.inst)
    else if nameDev name != s.dev && s.gated g.ctx g.inst g.run then (s.long g sp c [.sreg d 5]).egressFault g pc
    else
      let (id, s) := s.accept g sp c (.mdrain d none)
      let (n, s) := s.fresh
      let x : Drain := {
        k := n, name := name, unit := twTC w, rank := if ord then some ((g.sr t).toNat % 65536) else none, acc80 := acc80
        vals := k.elems u acc80, ten := (s.ctx g.ctx).ten, op := id, pkt := none, tag := none, uid := g.uid }
      { s with drains := s.drains ++ [x] }.onCore g.loc.die g.loc.core fun k => k.onTile u fun x => x.drain id

/-! ### Additions at the target (R59, R60, R147, R148, R244) -/

/-- One addition into a tile: every element at once, and the arrival count rises by one (R147, R236). -/
def Core.addTile (k : Core) (u : Nat) (acc80 : Bool) (srcAcc80 : Bool) (vals : List Nat) : Core :=
  let f := accFmt acc80
  let add := fun (x v : Nat) => (finish f 0 (addV 0 (.ofBits f x) (.ofBits (accFmt srcAcc80) v))).bits
  (k.setElems u acc80 (((k.elems u acc80).zip vals).map fun p => add p.1 p.2)).onTile u fun t => { t with arriv := t.arriv + 1 }

/-- The tile may take an addition now: READY, and no MMAC or MLOOP accumulating into it (R60, R236). -/
def State.canAdd (s : State) (d c u : Nat) : Bool :=
  match (s.core d c).tile? u with
  | some t => t.st == .ready && !s.accumulating d c u
  | none => false

/-- The packets of a drain: a tile's bytes by 128 (R372, log 20). -/
def drainPieces (acc80 : Bool) : Nat := if acc80 then 80 else 32

/-- MDRAIN_ARRIVAL (R243, R244): the drain leaves for its device, or the target core decides it. An ordered addition to a FILLING tile is held with
no look at its rank: the count that decides is the one that the fill leaves (R59, R60, R148). -/
def execMdrainArrival (n : Nat) (s : State) : Out :=
  .next (match s.drains.find? (·.k == n) with
    | none => s
    | some x =>
      let dev := nameDev x.name
      if x.tag.isSome || (dev == s.dev && (s.core (nameDie x.name) (nameCore x.name)).gated) then s
      else if dev != s.dev then
        if x.pkt.isSome then s.endDrain x 5
        else
          match s.route? dev with
          | none => s.endDrain x 5
          | some _ =>
            let (t, s) := s.newTag
            let sz := if x.acc80 then 10 else 4
            let all := (x.vals.mapIdx fun i v => (i, v)).foldl (fun n (p : Nat × Nat) => n + p.2 * 2 ^ (8 * sz * p.1)) 0
            let h := { s.reqHdr 7 0 dev t x.ten with
              addr := x.name
              aux := BitVec.ofNat 32 (x.unit + 2 ^ 8 * x.acc80.toNat + 2 ^ 9 * x.rank.isSome.toNat + 2 ^ 16 * x.rank.getD 0) }
            let s : State := { s with drains := s.drains.map fun y => if y.k == x.k then { y with tag := some t } else y }
            (List.range (drainPieces x.acc80)).foldl (fun (s : State) n =>
              s.emit { h with mask := n + 256 * x.k, nflit := 2 } ([2 * n, 2 * n + 1].map fun i => all / 2 ^ (512 * i) % 2 ^ 512)) s
      else
        let r := nameLoc x.name
        if nameTen x.name != x.ten then s.endDrain x 3
        else
          match s.gangAt r with
          | none => s.endDrain x 1
          | some g =>
            if (s.ctx g.ctx).ten != nameTen x.name then s.endDrain x 3
            else if r.core ≥ s.ncore r.die || s.genOf r != nameGen x.name then s.endDrain x 1
            else if g.status != GStatus.saved && g.moving then s
            else
              let o := g.owner
              match (s.core r.die r.core).tileBy o x.unit with
              | none =>
                (s.onCore r.die r.core fun k => { k with dropped := k.dropped + 1 }).endDrain x 2
              | some t =>
                if t.st == .empty then (s.onCore r.die r.core fun k => { k with dropped := k.dropped + 1 }).endDrain x 2
                else
                  let late := t.st != .filling && (match x.rank with | some j => decide (j < t.arriv.toNat) | none => false)
                  let turn := match x.rank with | some j => t.st != .filling && j == t.arriv.toNat | none => true
                  if late then s.endDrain x 4
                  else if turn && s.canAdd r.die r.core x.unit then
                    (s.onCore r.die r.core fun k => k.addTile x.unit t.acc80 x.acc80 x.vals).endDrain x 0
                  else
                    let k := s.core r.die r.core
                    if !turn && (k.held.filter fun h => h.rank.isSome).length ≥ 64 then s
                    else
                      let h : HeldAdd := { unit := x.unit, rank := x.rank, acc80 := x.acc80, vals := x.vals, op := x.op, pkt := x.pkt }
                      { s with drains := s.drains.filter fun y => y.k != x.k }.onCore r.die r.core fun k => { k with held := k.held ++ [h] })

/-- HELD_ADDITION_APPLY (R60, R148): the first held addition whose turn has come. An addition of ARRIVAL mode that finds the tile READY does not wait
for older held ones (log 69). -/
def execHeldAdditionApply (d c u : Nat) (s : State) : Out :=
  .next (
    let k := s.core d c
    match k.tile? u with
    | none => s
    | some t =>
      let due := fun (h : HeldAdd) => h.unit == u && (match h.rank with | some j => decide (j ≤ t.arriv.toNat) | none => true)
      match k.held.find? due with
      | none => s
      | some h =>
        let rest := fun (s : State) => s.onCore d c fun k => { k with held := k.held.erase h }
        let late := match h.rank with | some j => decide (j < t.arriv.toNat) | none => false
        if t.st == .filling then s
        else if late then (rest s).drainEnd h.op h.pkt 4
        else if s.canAdd d c u then ((rest s).onCore d c fun k => k.addTile u t.acc80 h.acc80 h.vals).drainEnd h.op h.pkt 0
        else s)

/-! ### The ends of fills and drains -/

/-- TILE_FILL_DONE (R59): the fill of a slot or tile completes, and it is READY. -/
def execTileFillDone (d c : Nat) (acm : Bool) (i : Nat) (s : State) : Out :=
  .next (
    let k := s.core d c
    match (if acm then k.tile? i else k.slot? i) with
    | none => s
    | some t =>
      match (if t.st == .filling && t.resv.isNone then t.by'.bind s.op? else none) with
      | none => s
      | some o =>
        let finish := fun (s : State) => s.setOp { o with kind := .calc [] }
        match o.kind with
        | .mload slot =>
          let mine := s.items.filter fun x => x.op == o.id
          if acm || !(mine.all fun x => x.st == .done || x.st == .failed) then s
          else
            let s := if mine.any (·.st == .failed) then s.fabricFail o.uid o.setf else s
            let s : State := { s with items := s.items.filter fun x => x.op != o.id }
            finish ((s.onCore d c fun k => (k.fillSlot slot 0 mine).onSlot slot Tile.ready).reap d c)
        | .mzero u => finish ((s.onCore d c fun k => (k.setElems u t.acc80 (List.replicate 1024 0)).onTile u Tile.readyZero).reap d c)
        | .maccwr u row0 nrow rows ef =>
          let set := fun (k : Core) => (List.range nrow).foldl (fun (k : Core) n => (List.range 32).foldl (fun (k : Core) j =>
            let x := (lane (rows.getD n (mkV fun _ => 0)) j).toNat
            let x := if ef == 0 then x else x % 65536
            k.setElem u t.acc80 (row0 + n) j (convElem (efFmt ef) (accFmt t.acc80) 0 x)) k) k
          finish ((s.onCore d c fun k => (set k).onTile u Tile.readyZero).reap d c)
        | .mstoreTom u slot hi tr f rnd =>
          let a80 := ((k.tile? u).map (·.acc80)).getD false
          let set := fun (k : Core) => (List.range 1024).foldl (fun (k : Core) n =>
            let i := n / 32
            let j := n % 32
            let x := convElem (accFmt a80) (efFmt f) rnd (k.elemC u a80 i j)
            let at' := if tr then rowAddr slot j + 2 * (32 * hi.toNat + i) else rowAddr slot i + 2 * (32 * hi.toNat + j)
            { k with momMem := memWriteN k.momMem at' (leBytes 2 x) }) k
          finish ((s.onCore d c fun k => ((set k).onSlot slot Tile.ready).onTile u Tile.ready).reap d c)
        | _ => s)

/-- TILE_DRAIN_DONE (R59, R243): the tile's data has been read out, and it is READY again. -/
def execTileDrainDone (d c : Nat) (acm : Bool) (i : Nat) (s : State) : Out :=
  .next (
    let k := s.core d c
    match (if acm then k.tile? i else k.slot? i) with
    | none => s
    | some t =>
      let tom := match t.by'.bind s.op? with
        | some o => (match o.kind with | .mstoreTom _ _ _ _ _ _ => true | _ => false)
        | none => false
      if t.st != .draining || tom then s
      else (s.onCore d c fun k => if acm then k.onTile i Tile.ready else k.onSlot i Tile.ready).reap d c)

/-! ### MSTATE (R245) -/

def TileSt.code : TileSt → Nat
  | .empty => 0
  | .filling => 1
  | .ready => 2
  | .draining => 3

/-- MSTATE (R245). -/
def execMstate (c : Ctl) (d a : SR) (s : State) : Out :=
  issue (.mstate c d a) c s fun s g sp _ =>
    let w := g.sr a
    let k := s.core g.loc.die g.loc.core
    let t := if w.getLsbD 24 then k.acm.find? fun t => t.idx ≤ twC w && twC w < t.idx + t.span else k.slot? (twA w)
    let v := match t with
      | none => 0
      | some t =>
        let held := if w.getLsbD 24 then (k.held.filter fun h => h.unit == t.idx).length else 0
        t.st.code + 4 + 8 * (t.owner == g.owner && !t.going).toNat + 2 ^ 8 * (t.users % 256) + 2 ^ 16 * t.arriv.toNat + 2 ^ 32 * (held % 256)
    s.long g sp c [.sreg d (BitVec.ofNat 64 v)]

end Sys2Proof.Machine
end

