-- ==== Sys2Proof/Machine/Queue.lean ====
section
/-! DEFINITION. Queue registers (R246 to R250), the copy engines (R251 to R257, R87 to R89), the BFE's and the Halyard's commands
(R258, R260, R106). -/

namespace Sys2Proof.Machine

/-! ### QENG -/

/-- Drops what a queue register was bound to (R246). -/
def State.unbind (s : State) (g : Gang) (q : Nat) : State :=
  let s := match lookup g.q q with
    | some (.bfe d k _) => (s.bfeRelease d k false).bfePump d k
    | _ => s
  s.onGang g.uid fun g => { g with q := g.q.filter fun p => p.1 != q }

def Core.onEngine (k : Core) (n : Nat) (f : Engine → Engine) : Core :=
  { k with engines := k.engines.map fun e => if e.num == n then f e else e }
def Core.engine (k : Core) (n : Nat) : Engine := (k.engines.find? (·.num == n)).getD (Engine.init n)
def State.engine (s : State) (e : EngRef) : Engine := (s.core e.die e.core).engine e.num
def State.onEngine (s : State) (e : EngRef) (f : Engine → Engine) : State := s.onCore e.die e.core fun k => k.onEngine e.num f

/-- QBIND (R246, R247). -/
def execQbind (c : Ctl) (d : SR) (q : QR) (b : SR) (s : State) : Out :=
  issue (.qbind c d q b) c s fun s g sp _ =>
    let w := g.sr b
    let qn := q.toNat
    let n := (w.extractLsb' 2 2).toNat
    let die := (w.extractLsb' 4 2).toNat
    let s := s.unbind g qn
    let bind := fun (s : State) (x : QBind) => s.onGang g.uid fun g => { g with q := g.q ++ [(qn, x)] }
    let r := match (w.extractLsb' 0 2).toNat with
      | 0 =>
        let e := (s.core g.loc.die g.loc.core).engine n
        match e.owner with
        | none =>
          (bind (s.onCore g.loc.die g.loc.core fun k => k.onEngine n fun e =>
            { e with owner := some g.owner, ctx := g.ctx, events := [], restart := true }.settle) (.copy n w), 0)
        | some o => if o == g.owner then (bind s (.copy n w), 0) else (s, 1)
      | 1 =>
        match (List.range 16).find? fun i => (s.bfe? die i).isNone with
        | none => (s, 1)
        | some i =>
          let b : BfeCfg := {
            idx := i, owner := g.owner, die := g.loc.die, core := g.loc.core, ctx := g.ctx, set := false, kv := 0, ss := 0, ls := 0, nl := 0
            recA := 0, area := 0, batches := [] }
          (bind (s.onDie die fun x => { x with bfe := x.bfe ++ [b] }) (.bfe die i w), 0)
      | 2 => (bind s (.halyard die w), 0)
      | _ => (s, 2)
    r.1.long g sp c [.sreg d (BitVec.ofNat 64 r.2)]

/-- The timeline of a context (R125): every command up to it has completed. -/
def Engine.timeline (e : Engine) : Nat := match e.cmds with | [] => e.next - 1 | k :: ks => ks.foldl (fun m x => min m x.num) k.num - 1

/-- A QPUSH of an earlier instruction still waits for room in the context's queue, or the context waits to become idle (R246, R248). -/
def State.pushWaits (s : State) (d c n : Nat) : Bool :=
  ((s.core d c).engine n).restart || s.ops.any fun o => o.die == d && o.core == c && (match o.kind with | .qpush _ q _ => q.toNat == n | _ => false)

/-- Enters a command in a context's queue under its number (R248). -/
def State.enqueue (s : State) (g : Gang) (n : Nat) (words : List W64) : State × Nat :=
  let e := (s.core g.loc.die g.loc.core).engine n
  let (t, s) := s.fresh
  let k : Cmd := { num := e.next, words := words, uid := g.uid, inst := g.inst, run := g.run, ctx := g.ctx, tag := t, st := .queued, owner := g.owner }
  (s.onCore g.loc.die g.loc.core fun x => x.onEngine n fun e => { e with next := e.next + 1, cmds := e.cmds ++ [k] }, e.next)

/-- QPUSH (R248). -/
def execQpush (c : Ctl) (d : SR) (q : QR) (b : SR) (n : BitVec 3) (s : State) : Out :=
  issue (.qpush c d q b n) c s fun s g sp _ =>
    let words := (List.range (n.toNat + 1)).map fun i => g.sr (b + BitVec.ofNat 6 i)
    match g.qbind? q with
    | some (.copy k _) =>
      if ((s.core g.loc.die g.loc.core).engine k).cmds.length < 64 && !s.pushWaits g.loc.die g.loc.core k then
        let (s, num) := s.enqueue g k words
        s.long g sp c [.sreg d (BitVec.ofNat 64 num)]
      else (s.accept g sp c (.qpush d (BitVec.ofNat 4 k) words)).2
    | some (.bfe die k _) => (s.accept g sp c (.engine die (some k) d words)).2
    | some (.halyard die _) => (s.accept g sp c (.engine die none d words)).2
    | none => s

/-- The context that a queue register of the gang names. -/
def Gang.engRef (g : Gang) (q : QR) : EngRef := { die := g.loc.die, core := g.loc.core, num := (g.qcopy? q).getD 0 }

/-- QPOP (R249): it completes once there is an event to remove. -/
def execQpop (c : Ctl) (d : SR) (q : QR) (s : State) : Out :=
  issue (.qpop c d q) c s fun s g sp _ => (s.accept g sp c (.qpop d (g.engRef q))).2

/-- QTRY (R249). -/
def execQtry (c : Ctl) (d : SR) (q : QR) (s : State) : Out :=
  issue (.qtry c d q) c s fun s g sp _ =>
    match (s.engine (g.engRef q)).events with
    | [] => s.long g sp c [.sreg d 0xFFFFFFFFFFFFFFFF]
    | w :: ws => (s.onEngine (g.engRef q) fun e => { e with events := ws }).long g sp c [.sreg d w]

/-- TLWAIT (R250): the gang issues nothing until the wait ends. -/
def execTlwait (c : Ctl) (q : QR) (b : SR) (s : State) : Out :=
  issue (.tlwait c q b) c s fun s g sp _ =>
    let (id, s) := s.accept g sp c (.tlwait (g.engRef q) (g.sr b))
    s.onGang g.uid fun g => { g with wait := some (.op id) }

/-- TLREAD (R250). -/
def execTlread (c : Ctl) (d : SR) (q : QR) (s : State) : Out :=
  issue (.tlread c d q) c s fun s g sp _ => s.long g sp c [.sreg d (BitVec.ofNat 64 (s.engine (g.engRef q)).timeline)]

/-! ### Copy-engine accesses (R252) -/

/-! Statuses of Table 10.6. -/
def esBADCMD : Nat := 1
def esXLATE : Nat := 2
def esPROT : Nat := 3
def esALIGN : Nat := 4
def esFABRIC : Nat := 5

/-- Where one piece of an engine's access lies. -/
inductive EngLoc where
  | dev (pa : Nat)
  | out (dst : Dst) (line off : Nat)
  | hold (vline : W64) (off : Nat)
  | mom (slot a : Nat)
  | acm (unit a : Nat)
  | bad (status : Nat)
  deriving DecidableEq, Repr

/-- Finds a piece that stays within one line, by what the core's TLB and its walks give (R348); a window piece must lie in a slot or tile that the
owner of the gang that pushed the command holds (R64, R252). -/
def State.engLoc (s : State) (e : EngRef) (k : Cmd) (va : Nat) (write : Bool) : EngLoc :=
  if va ≥ 2 ^ 52 then .bad esPROT
  else if va ≥ lwin then
    let o := va - lwin
    let core := s.core e.die e.core
    let w := k.owner
    if 0x400000 ≤ o && o < 0x480000 then
        (if (core.slotBy w ((o - 0x400000) / 4096)).isSome then .mom ((o - 0x400000) / 4096) (o - 0x400000) else .bad esPROT)
    else if 0x600000 ≤ o && o < 0x620000 then
        (if (core.slotBy w ((o - 0x600000) / 1024)).isSome then .mom ((o - 0x600000) / 1024) (0x80000 + (o - 0x600000)) else .bad esPROT)
    else if 0x700000 ≤ o && o < 0x750000 then
        let u := (o - 0x700000) / 2048
        (match core.acm.find? fun t => t.owner == w && !t.going && t.idx ≤ u && u < t.idx + t.span with
         | some t => .acm t.idx (o - 0x700000)
         | none => .bad esPROT)
    else .bad esPROT
  else
    match s.peekCore e.die e.core k.ctx va (if write then .store else .load) with
    | .xlate => .bad esXLATE
    | .prot => .bad esPROT
    | .hold => .hold (BitVec.ofNat 64 (lineBase va)) (va % 128)
    | .ok pa x =>
      if ptePeer x then (if s.devid == some (BitVec.ofNat 12 (pteDev x)) then .bad esPROT else .out (.peer (pteDev x)) (lineBase pa) (pa % 128))
      else if pteHost x then .out .host (lineBase pa) (pa % 128)
      else .dev pa

/-- A range cut at line boundaries: address and length of each piece. -/
def cutRange (va n : Nat) : List (Nat × Nat) :=
  (linesIn va n).map fun l => (max l va, min (l + 128) (va + n) - max l va)

/-- A slot or tile that a range touches may be read, or filled, now (R59, R240, R252). -/
def State.engFree (s : State) (e : EngRef) (write : Bool) (l : EngLoc) : Bool :=
  let k := s.core e.die e.core
  match l with
  | .mom i _ => (k.slot? i).all fun t => if write then t.canFill else t.canRead
  | .acm u _ => (k.tile? u).all fun t => if write then t.canFill else t.canRead && !s.accumulating e.die e.core u
  | _ => true

/-- An access that an engine makes outside its die's memory, as an item of the ordering machine. -/
def Cmd.item (k : Cmd) (kind : ItemKind) (dst : Dst) (line off n val : Nat) (vline : W64) (hold : Bool) (id : Nat) : Item :=
  { id := id, op := k.tag, uid := 0, ctx := k.ctx, inst := k.inst, run := k.run, kind := kind, dst := dst, line := line, vline := vline
    accs := [mkAcc 0 off n val 0], scope := 0, pol := 0, rel := false, acq := false, nc := false, comm := none, tag := none, pub := none
    st := if hold then .held else .queued, retry := false }

/-- What a read of a range has come to. -/
inductive EngRead where
  | wait
  | got (bytes : List Byte) (status : Nat)
  deriving DecidableEq, Repr

/-- Reads a list of pieces in order, up to the first that fails. Outward pieces are fetched as items first; `wait` says that some
are on their way, or that a slot or tile is busy. -/
def State.engRead (s : State) (e : EngRef) (k : Cmd) : List (Nat × Nat) → State × EngRead
  | [] => (s, .got [] 0)
  | (va, n) :: rest =>
    let loc := s.engLoc e k va false
    let join := fun (s : State) (bs : List Byte) =>
      match s.engRead e k rest with
      | (s, .wait) => (s, .wait)
      | (s, .got r st) => (s, .got (bs ++ r) st)
    match loc with
    | .bad st => (s, .got [] st)
    | .hold _ _ => (s, .got [] esPROT)
    | .dev pa => let (s, bs) := s.devRead pa n; join s bs
    | .mom _ a => if s.engFree e false loc then join s (memReadN (s.core e.die e.core).momMem a n) else (s, .wait)
    | .acm _ a => if s.engFree e false loc then join s (memReadN (s.core e.die e.core).acmMem a n) else (s, .wait)
    | .out dst line off =>
      match s.items.find? fun i => i.op == k.tag && i.kind == .load && i.dst == dst && i.line == line && (i.accs.any fun a => a.off == off && a.n == n) with
      | some i =>
        if i.st == .done then join s (leBytes n ((i.accs.head?.map (·.val)).getD 0))
        else if i.st == .failed then (s, .got [] esFABRIC)
        else (s.engRead e k rest).1 |> fun s => (s, .wait)
      | none =>
        let (id, s) := s.fresh
        let s := { s with items := s.items ++ [k.item .load dst line off n 0 (BitVec.ofNat 64 (lineBase va)) false id] }
        ((s.engRead e k rest).1, .wait)

/-- Writes bytes to a list of pieces in order, up to the first that fails: the status. Outward pieces become store items (R103). -/
def State.engWrite (s : State) (e : EngRef) (k : Cmd) : List (Nat × Nat) → List Byte → State × Nat
  | [], _ => (s, 0)
  | (va, n) :: rest, bs =>
    if bs.isEmpty then (s, 0)
    else
      let now := bs.take n
      let later := bs.drop n
      match s.engLoc e k va true with
      | .bad st => (s, st)
      | .dev pa => (s.devWrite pa now).engWrite e k rest later
      | .mom i a => (s.onCore e.die e.core fun c => { c with momMem := memWriteN c.momMem a now }.onSlot i Tile.ready).engWrite e k rest later
      | .acm u a => (s.onCore e.die e.core fun c => { c with acmMem := memWriteN c.acmMem a now }.onTile u Tile.ready).engWrite e k rest later
      | .out dst line off =>
        let (id, s) := s.fresh
        { s with items := s.items ++ [k.item .store dst line off now.length (leNat now) (BitVec.ofNat 64 (lineBase va)) false id] }.engWrite e k rest later
      | .hold v off =>
        let (id, s) := s.fresh
        { s with items := s.items ++ [k.item .store .dev 0 off now.length (leNat now) v true id] }.engWrite e k rest later

/-- Every slot and tile that a write touches may be filled now. -/
def State.engRoom (s : State) (e : EngRef) (k : Cmd) (ps : List (Nat × Nat)) : Bool :=
  ps.all fun p => s.engFree e true (s.engLoc e k p.1 true)

def State.cmd? (s : State) (e : EngRef) (n : Nat) : Option Cmd := (s.engine e).cmds.find? (·.num == n)

def State.setCmd (s : State) (e : EngRef) (n : Nat) (st : CmdSt) : State :=
  s.onEngine e fun x => { x with cmds := x.cmds.map fun k => if k.num == n then { k with st := st } else k }

/-- The body of a command in progress: runs once its context has started it, and leaves the command with a status. -/
def runCmd (ecmd : Nat) (e : EngRef) (n : Nat) (s : State) (body : State → Cmd → State × Option Nat) : Out :=
  .next (match s.cmd? e n with
    | none => s
    | some k =>
      if k.st != .running || (k.words.getD 0 0).extractLsb' 0 8 != BitVec.ofNat 8 ecmd then s
      else match body s k with
        | (s, some st) => s.setCmd e n (.moved st)
        | (s, none) => s)

/-- Two pieces have a byte in common. -/
def EngLoc.meets (n m : Nat) : EngLoc → EngLoc → Bool
  | .dev a, .dev b => a < b + m && b < a + n
  | .mom _ a, .mom _ b => a < b + m && b < a + n
  | .acm _ a, .acm _ b => a < b + m && b < a + n
  | .out d l o, .out d' l' o' => d == d' && l + o < l' + o' + m && l' + o' < l + o + n
  | _, _ => false

/-- The destination overlaps the source, by address or in the storage that the addresses name (R252). -/
def State.engOverlap (s : State) (e : EngRef) (k : Cmd) (src dst : List (Nat × Nat)) : Bool :=
  src.any fun p => dst.any fun q =>
    (p.1 < q.1 + q.2 && q.1 < p.1 + p.2) || (s.engLoc e k p.1 false).meets p.2 q.2 (s.engLoc e k q.1 true)

/-- The bytes of a destination that overlaps its source are undefined (R252, R6): as many free values. -/
def State.freeBytes (s : State) (bs : List Byte) : State × List Byte :=
  ({ s with freeCtr := s.freeCtr + bs.length }, bs.mapIdx fun i _ => (Config.freeWord (s.freeCtr + i)).setWidth 8)

/-- The pages of a range are translated through the core's TLB, which keeps what it finds, a page not present among it (R348). -/
def State.engWarm (s : State) (e : EngRef) (k : Cmd) (write : Bool) (ps : List (Nat × Nat)) : State :=
  ps.foldl (fun (s : State) p => if p.1 < lwin then (s.xlateCore e.die e.core k.ctx p.1 (if write then .store else .load)).1 else s) s

/-- Moves bytes: the source is read whole, then the destination is written; `f` turns one into the other. The earlier failure in
byte order gives the status. In one step: a slot or tile passes through DRAINING or FILLING within it (R64; log 70). -/
def State.engMove (s : State) (e : EngRef) (k : Cmd) (src dst : List (Nat × Nat)) (f : List Byte → List Byte) : State × Option Nat :=
  let s := s.engWarm e k false src
  let s := s.engWarm e k true dst
  if !s.engRoom e k dst then (s, none)
  else
    let free := s.engOverlap e k src dst
    match s.engRead e k src with
    | (s, .wait) => (s, none)
    | (s, .got bs st) =>
      let (s, out) := if free then s.freeBytes (f bs) else (s, f bs)
      let (s, st2) := s.engWrite e k dst out
      (s, some (if st2 != 0 then st2 else st))

/-- COPY (R253). -/
def execCopy (e : EngRef) (n : Nat) (s : State) : Out :=
  runCmd 1 e n s fun s k =>
    let len := ((k.words.getD 3 0).extractLsb' 0 48).toNat
    s.engMove e k (cutRange (k.words.getD 1 0).toNat len) (cutRange (k.words.getD 2 0).toNat len) id

/-- COPY2D (R253): row by row. -/
def execCopy2d (e : EngRef) (n : Nat) (s : State) : Out :=
  runCmd 2 e n s fun s k =>
    let a := (k.words.getD 1 0).toNat
    let b := (k.words.getD 2 0).toNat
    let rows := ((k.words.getD 3 0).extractLsb' 32 32).toNat
    let len := ((k.words.getD 3 0).extractLsb' 0 32).toNat
    let ds := ((k.words.getD 4 0).extractLsb' 32 32).toNat
    let ss := ((k.words.getD 4 0).extractLsb' 0 32).toNat
    s.engMove e k ((List.range rows).flatMap fun r => cutRange (a + r * ss) len) ((List.range rows).flatMap fun r => cutRange (b + r * ds) len) id

/-- FILL (R253). -/
def execFill (e : EngRef) (n : Nat) (s : State) : Out :=
  runCmd 3 e n s fun s k =>
    let a := (k.words.getD 1 0).toNat
    let len := ((k.words.getD 2 0).extractLsb' 0 48).toNat
    let pat := leBytes 8 (k.words.getD 3 0).toNat
    if len % 8 != 0 then (s, some esBADCMD)
    else if len == 0 then (s, some 0)
    else if a % 8 != 0 then (s, some esALIGN)
    else s.engMove e k [] (cutRange a len) fun _ => (List.range (len / 8)).flatMap fun _ => pat

/-! ### CONVERT (R254) -/

/-- Bits of an element by its type code; 14 is ACC80. -/
def cvBits (t : Nat) : Nat := (NType.ofCode (BitVec.ofNat 4 t)).width

/-- The forms CONVERT accepts: those of VCVT, and ACC80 as a source of F32, F16 and BF16 (R79, R196, R254). -/
def cvOk (sat : Bool) (dt st : Nat) : Bool :=
  if st == 14 then !sat && (dt == 0 || dt == 2 || dt == 3)
  else cvtWf sat (BitVec.ofNat 4 dt) (BitVec.ofNat 4 st) 0

/-- The alignment of an element: its size, 10 bytes for ACC80 (R77, R254), and a byte for the halves of HS4 (log 18). -/
def cvAlign (t : Nat) : Nat := max 1 (cvBits t / 8)

def execConvert (e : EngRef) (n : Nat) (s : State) : Out :=
  runCmd 4 e n s fun s k =>
    let a := (k.words.getD 1 0).toNat
    let b := (k.words.getD 2 0).toNat
    let w := k.words.getD 3 0
    let p := k.words.getD 4 0
    let cnt := (w.extractLsb' 0 32).toNat
    let st := (w.extractLsb' 32 4).toNat
    let dt := (w.extractLsb' 36 4).toNat
    let rm := w.extractLsb' 40 2
    let sat := w.getLsbD 42
    let sw := cvBits st
    let dw := cvBits dt
    if !cvOk sat dt st || ((st == 13 || dt == 13) && cnt % 2 != 0) then (s, some esBADCMD)
    else if a % cvAlign st != 0 || b % cvAlign dt != 0 then (s, some esALIGN)
    else
      let z := readInt true 8 (p.extractLsb' 16 8).toNat
      let one := fun (x : Nat) =>
        (convert (NType.ofCode (BitVec.ofNat 4 st)) (NType.ofCode (BitVec.ofNat 4 dt)) rm sat (p.extractLsb' 0 16).toNat z x).bits
      s.engMove e k (cutRange a (cnt * sw / 8)) (cutRange b (cnt * dw / 8)) fun bs =>
        let all := leNat bs
        let m := min cnt (8 * bs.length / sw)
        leBytes (m * dw / 8) ((List.range m).foldl (fun r i => r + one (all / 2 ^ (sw * i) % 2 ^ sw) % 2 ^ dw * 2 ^ (dw * i)) 0)

/-! ### Chisel (R87 to R89, R255 to R257) -/

/-- Ranks a pair (y, id) into the best `n`: descending y, and among equals after those already there (R88). -/
def rankIn (n : Nat) (x : Nat × Nat) : List (Nat × Nat) → List (Nat × Nat)
  | [] => if n == 0 then [] else [x]
  | y :: ys =>
    match n with
    | 0 => []
    | m + 1 => if cmpV (f32 x.1) (f32 y.1) > 0 then (x :: y :: ys).take n else y :: rankIn m x ys

/-- What a row or a record holds while it is built. -/
structure ChAcc where
  m    : Nat
  s    : Nat
  nan  : Nat
  top  : List (Nat × Nat)
  deriving DecidableEq, Repr

/-- One element of a row (R87, R88). -/
def chStep (kscale top : Nat) (a : ChAcc) (i x : Nat) : ChAcc :=
  let bad := (f32 x).isNan || (f32 (fMul fF32 0 x kscale).bits).isNan
  let y := if bad then negInf32 else (fMul fF32 0 x kscale).bits
  let ms := chAdd a.m a.s y
  { m := ms.1, s := ms.2, nan := a.nan + bad.toNat, top := rankIn top (y, i) a.top }

/-- The 512 bytes of a record (Table 10.7). -/
def chRecord (k rowid : Nat) (a : ChAcc) : List Byte :=
  let pair := fun (p : Nat) => match a.top[p]? with
    | some x => if p < k then x.2 + 2 ^ 32 * x.1 else 0xFF800000FFFFFFFF
    | none => 0xFF800000FFFFFFFF
  leBytes 512 ((List.range 32).foldl (fun n p => n + pair p * 2 ^ (64 * p)) 0 + a.m * 2 ^ 2048 + a.s * 2 ^ 2080 +
    a.nan % 2 ^ 32 * 2 ^ 2112 + rowid % 2 ^ 32 * 2 ^ 2144 + k * 2 ^ 2176)

/-- A source range meets an ACC80 tile (R255). -/
def State.meetsAcc80 (s : State) (e : EngRef) (k : Cmd) (ps : List (Nat × Nat)) : Bool :=
  ps.any fun p => match s.engLoc e k p.1 false with
    | .acm u _ => (((s.core e.die e.core).tile? u).map (·.acc80)).getD false
    | _ => false

def execChisel (e : EngRef) (n : Nat) (s : State) : Out :=
  runCmd 5 e n s fun s k =>
    let src := (k.words.getD 1 0).toNat
    let dst := (k.words.getD 2 0).toNat
    let w := k.words.getD 3 0
    let top := (w.extractLsb' 32 5).toNat + 1
    let rows := (w.extractLsb' 16 16).toNat + 1
    let len := (w.extractLsb' 0 16).toNat + 1
    let ks := ((k.words.getD 4 0).extractLsb' 0 32).toNat
    let row0 := ((k.words.getD 4 0).extractLsb' 32 32).toNat
    let stride := (k.words.getD 5 0).toNat
    let ps := (List.range rows).flatMap fun r => cutRange (src + r * stride) (4 * len)
    if src % 4 != 0 || stride % 4 != 0 || dst % 128 != 0 then (s, some esALIGN)
    else if s.meetsAcc80 e k ps then (s, some esBADCMD)
    else s.engMove e k ps ((List.range rows).flatMap fun r => cutRange (dst + 512 * r) 512) fun bs =>
      (List.range (bs.length / (4 * len))).flatMap fun r =>
        let row := (bs.drop (4 * len * r)).take (4 * len)
        let a := (List.range len).foldl (fun (a : ChAcc) i => chStep ks top a i (leNat ((row.drop (4 * i)).take 4)))
          { m := negInf32, s := 0, nan := 0, top := [] }
        chRecord top (row0 + r) a

/-- A record as CHMERGE reads it: all 32 pairs take part. -/
def chParse (bs : List Byte) : ChAcc × Nat :=
  let n := leNat bs
  ({ m := bitsOf n 2048 32, s := bitsOf n 2080 32, nan := bitsOf n 2112 32
     top := (List.range 32).map fun p => (bitsOf n (64 * p + 32) 32, bitsOf n (64 * p) 32) }, bitsOf n 2144 32)

/-- The pair x ranks above the pair y: by descending y, then the first record before the second, then the lower id (R89). Where a NaN has no rank, which is
above the other is a free choice (log 85). -/
def ranksAbove (x y : Nat × Nat × Nat) : Bool :=
  if (f32 x.1).isNan || (f32 y.1).isNan then Config.freeAbove (BitVec.ofNat 32 x.1) (BitVec.ofNat 32 y.1)
  else
    let c := cmpV (f32 x.1) (f32 y.1)
    c > 0 || (c == 0 && (x.2.1 < y.2.1 || (x.2.1 == y.2.1 && x.2.2 < y.2.2)))

/-- Puts a pair at its rank among the best `n`. -/
def rankTag (n : Nat) (x : Nat × Nat × Nat) : List (Nat × Nat × Nat) → List (Nat × Nat × Nat)
  | [] => if n == 0 then [] else [x]
  | y :: ys =>
    match n with
    | 0 => []
    | m + 1 =>
      if ranksAbove x y then (x :: y :: ys).take n else y :: rankTag m x ys

def chTop (k : Nat) (a b : List (Nat × Nat)) : List (Nat × Nat) :=
  let l := (a.map fun p => (p.1, 0, p.2)) ++ b.map fun p => (p.1, 1, p.2)
  (l.foldl (fun r x => rankTag k x r) []).map fun p => (p.1, p.2.2)

/-- Two records combined (R89). Of maxima −0 and +0 the first record's stays (log 73); of a NaN and another the maximum is a free value (log 85). -/
def chMerge2 (k : Nat) (a b : ChAcc) : ChAcc :=
  let m :=
    if (f32 a.m).isNan || (f32 b.m).isNan then (Config.freeMax (BitVec.ofNat 32 a.m) (BitVec.ofNat 32 b.m)).toNat
    else if cmpV (f32 b.m) (f32 a.m) > 0 then b.m else a.m
  { m := m, s := (fAdd fF32 0 (chT a.s a.m m) (chT b.s b.m m)).bits, nan := a.nan + b.nan, top := chTop k a.top b.top }

def execChmerge (e : EngRef) (n : Nat) (s : State) : Out :=
  runCmd 6 e n s fun s k =>
    let src := (k.words.getD 1 0).toNat
    let dst := (k.words.getD 2 0).toNat
    let w := k.words.getD 3 0
    let per := (w.extractLsb' 0 16).toNat + 1
    let groups := (w.extractLsb' 16 16).toNat + 1
    let top := (w.extractLsb' 32 5).toNat + 1
    if src % 128 != 0 then (s, some esALIGN)
    else s.engMove e k (cutRange src (512 * per * groups)) (cutRange dst (512 * groups)) fun bs =>
      (List.range (bs.length / (512 * per))).flatMap fun g =>
        let recs := (List.range per).map fun i => chParse ((bs.drop (512 * (g * per + i))).take 512)
        match recs with
        | [] => []
        | r :: rs =>
          let start : ChAcc := { r.1 with top := chTop top r.1.top [] }
          let a := rs.foldl (fun (a : ChAcc) x => chMerge2 top a x.1) start
          chRecord top r.2 a

/-! ### Starting, completing and posting (R248, R249, R251) -/

/-- The words of each copy command (Table 10.5). -/
def cmdWords (ecmd : Nat) : Option Nat :=
  match ecmd with
  | 1 => some 4
  | 2 => some 5
  | 3 => some 4
  | 4 => some 5
  | 5 => some 6
  | 6 => some 4
  | _ => none

/-- BADCMD as the command's own words decide it (R251). -/
def cmdBad (ws : List W64) : Bool :=
  let w := fun (i : Nat) => ws.getD i 0
  let ecmd := ((w 0).extractLsb' 0 8).toNat
  cmdWords ecmd != some ws.length || (w 0).extractLsb' 9 55 != 0 ||
    (match ecmd with
     | 1 => (w 3).extractLsb' 48 16 != 0
     | 3 => (w 2).extractLsb' 48 16 != 0
     | 4 => (w 3).extractLsb' 43 21 != 0 || (w 4).extractLsb' 24 40 != 0
     | 5 => (w 3).extractLsb' 37 27 != 0
     | 6 => (w 3).extractLsb' 37 27 != 0
     | _ => false)

/-- Nothing of the command is left but stores in the egress hold: it counts as delivered for its run (R100), and as completed only once they are
performed (R125). -/
def State.cmdHeld (s : State) (k : Cmd) : Bool :=
  (match k.st with | .moved _ => true | _ => false) && s.items.all fun i => i.op != k.tag || i.st == .done || i.st == .failed || i.st == .egress

/-- ENGINE_COMMAND_START (R248): the next command in number order, at most four in progress, those aside that wait for the hold alone. -/
def execEngineCommandStart (e : EngRef) (s : State) : Out :=
  .next (
    let x := s.engine e
    match x.cmds.find? fun k => k.st == .queued with
    | none => s
    | some k =>
      if (x.cmds.filter fun k => match k.st with | .running => true | .moved _ => !s.cmdHeld k | _ => false).length ≥ 4 then s
      else s.setCmd e k.num (if cmdBad k.words then .moved esBADCMD else .running))

/-- ENGINE_COMMAND_COMPLETE (R248, R249): its writes are performed; an event is due with EV set or after a failure. -/
def execEngineCommandComplete (e : EngRef) (n : Nat) (s : State) : Out :=
  .next (match s.cmd? e n with
    | none => s
    | some k =>
      match k.st with
      | .moved st =>
        let mine := s.items.filter fun i => i.op == k.tag
        if !(mine.all fun i => i.st == .done || i.st == .failed) then s
        else
          let st := if st == 0 && mine.any (·.st == .failed) then esFABRIC else st
          let s : State := { s with items := s.items.filter fun i => i.op != k.tag }
          if st != 0 || (k.words.getD 0 0).getLsbD 8 then s.setCmd e n (.posting st)
          else s.onEngine e fun x => x.drop n
      | _ => s)

/-- The owner of a command has ended: nobody is left to take its event (log 25). -/
def Engine.orphan (e : Engine) (k : Cmd) : Bool := e.owner.isNone || (e.restart && e.owner != some k.owner)

/-- EVENT_POST (R249): the event enters the queue of 16, and the command has completed. -/
def execEventPost (e : EngRef) (n : Nat) (s : State) : Out :=
  .next (match s.cmd? e n with
    | none => s
    | some k =>
      match k.st with
      | .posting st =>
        if (s.engine e).orphan k then s.onEngine e fun x => x.drop n
        else if (s.engine e).events.length ≥ 16 then s
        else
          let w : W64 := (k.words.getD 0 0).extractLsb' 0 8 ++ BitVec.ofNat 8 st ++ 0#8 ++ BitVec.ofNat 40 n
          s.onEngine e fun x => { x.drop n with events := x.events ++ [w] }
      | _ => s)

/-! ### The BFE: BFCFG (R258) -/

/-- The tenant that a record's queue belongs to, when the record can be read. -/
def State.recTenant (s : State) (ctx recA : Nat) : State × Option Nat :=
  match s.ctxRead ctx recA 128 with
  | (s, some bs) => (s, some (s.queue (bitsOf (leNat bs) 99 6)).ten)
  | (s, none) => (s, none)

/-- An engine operation ends with its result word. -/
def State.endEngine (s : State) (o : Op) (d : SR) (w : Nat) : State := s.setOp { o with kind := .calc [.sreg d (BitVec.ofNat 64 w)] }

/-- BFCFG (R258): the pending batches go first, as buffers become free; a failure leaves the configuration as it was. -/
def execBfcfg (op : Nat) (s : State) : Out :=
  .next (match s.op? op with
    | none => s
    | some o =>
      match o.kind with
      | .engine die (some cfg) d ws =>
        (match s.bfe? die cfg with
         | none => s.endEngine o d 1
         | some b =>
           let w := fun (i : Nat) => ws.getD i 0
           let ss := ((w 2).extractLsb' 32 32).toNat
           let ls := ((w 2).extractLsb' 0 32).toNat
           let bad := ws.length != 6 || (w 0).extractLsb' 0 8 != 0x10 || (w 0).extractLsb' 9 55 != 0 || (w 3).extractLsb' 8 56 != 0 ||
             (w 3).extractLsb' 0 8 == 0 || (w 1).toNat % 128 != 0 || (w 4).toNat % 128 != 0 || (w 5).toNat % 128 != 0 ||
             ss % 128 != 0 || ls % 128 != 0
           if !b.batches.isEmpty then b.batches.foldl (fun (s : State) x => s.bfeLaunch die cfg x.layer) s
           else if bad then s.endEngine o d 1
           else
             let (s, ten) := s.recTenant b.ctx (w 4).toNat
             if ten.any fun t => t != (s.ctx b.ctx).ten then s.endEngine o d 2
             else
               (s.onBfe die cfg fun b => { b with set := true, kv := w 1, ss := ss, ls := ls, nl := ((w 3).extractLsb' 0 8).toNat
                                                  recA := w 4, area := w 5 }).endEngine o d 0)
      | _ => s)

/-- BFE_BATCH_TIMEOUT (R110, R246): 4096 cycles after a batch's first entry; a full batch, or one of a released configuration, that found no
free buffer is launched by it too. -/
def execBfeBatchTimeout (die cfg layer : Nat) (s : State) : Out :=
  .next (s.bfeLayer die cfg layer)

/-! ### The Halyard (R106, R260) -/

/-- The compare of a watch entry (R106). -/
def watchHolds (c : BitVec 2) (word val : W64) : Bool :=
  match c.toNat with
  | 0 => word == val
  | 1 => word != val
  | 2 => val.toNat ≤ word.toNat
  | _ => word &&& val != 0

/-- ARM (R260): the result word, and the entry armed. The compare is evaluated on the word's present value, unless nothing may be launched
(R333); a write in progress on its line is waited for, and the writes performed before it are no writes of this entry. -/
def State.armWatch (s : State) (ctx die va : Nat) (cmp : BitVec 2) (val recA : W64) (persist launch : Bool) : Option (State × Nat) :=
  if va % 8 != 0 then some (s, 3)
  else
    let s := s.tablesReady ctx va 8
    if !s.wants.isEmpty then some (s, 0) else
    match s.translate ctx va .load with
    | .ok pa e =>
      let (s, ten) := s.recTenant ctx recA.toNat
      if ten.any fun t => t != (s.ctx ctx).ten then some (s, 3)
      else if ptePeer e || pteHost e || homeDie pa != die then some (s, 2)
      else if (s.txn? (lineBase pa)).isSome then none
      else
        match (List.range 64).find? fun i => !((s.die die).watch.any fun w => w.idx == i) with
        | none => some (s, 1)
        | some i =>
          let (s, v) := s.devReadNat pa 8
          let holds := launch && watchHolds cmp (BitVec.ofNat 64 v) val
          let (id, s) := s.fresh
          let w : Watch := { idx := i, id := id, ctx := ctx, addr := pa, cmp := cmp, val := val, recA := recA, persist := persist }
          let s := if holds then s.addLaunch ctx recA none none false .halyard die else s
          let s := if holds && !persist then s else s.onDie die fun x => { x with watch := x.watch ++ [w] }
          some (s, 2 ^ 8 * i)
    | _ => some (s, 3)

/-- DISARM (R260). -/
def State.disarmWatch (s : State) (ctx die i : Nat) : State × Nat :=
  if (s.die die).watch.any fun w => w.idx == i && w.ctx == ctx then
    (s.onDie die fun x => { x with watch := x.watch.filter fun w => w.idx != i }, 0)
  else (s, 4)

/-- ARM of a pushed command, and every malformed command of a Halyard (R260). -/
def execArm (op : Nat) (s : State) : Out :=
  .next (match s.op? op with
    | none => s
    | some o =>
      match o.kind with
      | .engine die none d ws =>
        let w := fun (i : Nat) => ws.getD i 0
        if (w 0).extractLsb' 0 8 == 0x21 then s
        else if ws.length != 4 || (w 0).extractLsb' 0 8 != 0x20 || (w 0).extractLsb' 9 7 != 0 || (w 0).extractLsb' 19 45 != 0 then s.endEngine o d 3
        else
          (match s.armWatch o.ctx die (w 1).toNat ((w 0).extractLsb' 16 2) (w 2) (w 3) ((w 0).getLsbD 18) true with
           | some (s, r) => s.endEngine o d r
           | none => s)
      | _ => s)

/-- DISARM of a pushed command (R260). -/
def execDisarm (op : Nat) (s : State) : Out :=
  .next (match s.op? op with
    | none => s
    | some o =>
      match o.kind with
      | .engine die none d ws =>
        let w := fun (i : Nat) => ws.getD i 0
        if (w 0).extractLsb' 0 8 != 0x21 then s
        else if ws.length != 2 || (w 0).extractLsb' 9 55 != 0 || (w 1).extractLsb' 6 58 != 0 then s.endEngine o d 3
        else
          let (s, r) := s.disarmWatch o.ctx die (w 1).toNat
          s.endEngine o d r
      | _ => s)

/-- HALYARD_EVALUATE (R106, R260): the oldest performed write to a watched word is compared with each entry on it that was armed before it. -/
def execHalyardEvaluate (die : Nat) (s : State) : Out :=
  .next (match (s.die die).evals with
    | [] => s
    | (a, v, n) :: rest =>
      let s := s.onDie die fun x => { x with evals := rest }
      let hit := (s.die die).watch.filter fun w => w.addr == a && w.id < n && watchHolds w.cmp v w.val
      hit.foldl (fun (s : State) w =>
        let s := s.addLaunch w.ctx w.recA none none false .halyard die
        if w.persist then s else s.onDie die fun x => { x with watch := x.watch.filter fun y => y.id != w.id }) s)

end Sys2Proof.Machine
end

