-- ==== Sys2Proof/Machine/Named.lean ====
section
/-! DEFINITION. Named gangs (R126, R135 to R139, R269 to R271): RSTV and its fate at the target core, forwarding, and HOLD. -/

namespace Sys2Proof.Machine

/-- RSTV (R270). -/
def execRstv (c : Ctl) (p : Pred) (rel sts : Bool) (scope : BitVec 3) (d : VR) (a : SR) (b : VR) (st : SR) (s : State) : Out :=
  issue (.rstv c p rel sts scope d a b st) c s fun s g sp pc =>
    let lanes := takes g sp p
    let name := g.sr a
    let dest := if sts then some st else none
    if lanes == 0 then (s.accept g sp c (.rstv dest (some 255))).2
    else if nameDev name != s.dev && !(s.gradeLines g.ctx g.inst).isEmpty then s.askData (s.gradeLines g.ctx g.inst)
    else if nameDev name != s.dev && s.gated g.ctx g.inst g.run then (s.accept g sp c (.rstv dest (some 6))).2.egressFault g pc
    else
      match g.region with
      | some r => s.bufferItem g sp pc c r (.rstv name d lanes (g.vr b.toNat) rel scope) 1 [] none
      | none =>
        let (id, s) := s.accept g sp c (.rstv dest none)
        s.newRstv g id name d lanes (g.vr b.toNat) rel scope

/-- HOLD (R271): it arms entry `k`, and the counter of the flag rises with the remaining count. -/
def execHold (c : Ctl) (regm : Bool) (d : VR) (k : BitVec 4) (n : BitVec 6) (s : State) : Out :=
  issue (.hold c regm d k n) c s fun s g _ _ =>
    (s.noResult g.uid c).onGang g.uid fun g =>
      let h := g.hold.getD k.toNat HoldEnt.blank
      let e : HoldEnt := { armed := true, regm := regm, reg := d, rem := h.rem + n.toNat }
      { g.incFlag k n.toNat with hold := g.hold.setIfInBounds k.toNat e }

/-! ### Delivery -/

/-- The entry accepts a delivery to this register (R271). -/
def HoldEnt.hit (h : HoldEnt) (reg : VR) : Bool := h.armed && (!h.regm || h.reg == reg)

/-- One delivery taken off an entry, which disarms at 0 (R271). -/
def HoldEnt.take (h : HoldEnt) : HoldEnt := { h with rem := h.rem - 1, armed := decide (h.rem > 1) }

/-- The hold entries that a delivery matches, and their counters, fall by one (R271). -/
def Gang.releaseHolds (g : Gang) (reg : VR) : Gang :=
  (List.range 12).foldl (fun (g : Gang) k =>
    let h := g.hold.getD k HoldEnt.blank
    if h.hit reg then { g.decFlag (BitVec.ofNat 4 k) with hold := g.hold.setIfInBounds k h.take } else g) g

/-- A delivery with code 0 to a resident gang: the lanes in the main file first, then the holds (R126, R136, R271). -/
def Gang.deliver (g : Gang) (reg : VR) (lanes : W32) (v : VReg) : Gang :=
  (g.setMain reg.toNat (mergeV (g.mainV reg.toNat) v lanes 0xFFFFFFFF)).releaseHolds reg

/-- A hold entry as its 4 bytes in a save area spell it (Table 17.1). -/
def HoldEnt.ofNat (n : Nat) : HoldEnt :=
  { armed := n.testBit 15, regm := n.testBit 8, reg := BitVec.ofNat 8 n, rem := n / 2 ^ 9 % 64 }

/-- Row 5 of Table 06.2: the lanes go into the V image of the save area, and the saved holds fall (R327). None where a write faults. -/
def State.deliverSaved (s : State) (g : Gang) (reg : VR) (lanes : W32) (v : VReg) : Option State :=
  let base := g.saveA.toNat
  let put := (lanesOf lanes).foldl (fun (o : Option State) l =>
    o.bind fun s => s.ctxWrite g.ctx (base + 0x1000 + 128 * reg.toNat + 4 * l) (leBytes 4 (lane v l).toNat)) (some s)
  match put with
  | none => none
  | some s =>
    match s.ctxRead g.ctx (base + 0x200) 64 with
    | (_, none) => none
    | (s, some bs) =>
      let ent := fun (k : Nat) => HoldEnt.ofNat (leNat ((bs.drop (16 + 4 * k)).take 4))
      (List.range 12).foldl (fun (o : Option State) k =>
        if (ent k).hit reg then
          let n := (bs.getD k 0).toNat - 1
          (o.bind fun s => s.ctxWrite g.ctx (base + 0x200 + k) (leBytes 1 n)).bind fun s =>
            s.ctxWrite g.ctx (base + 0x210 + 4 * k) (leBytes 4 (ent k).take.word.toNat)
        else o) (some s)

/-- The sender and target of an RSTV, which decide its order: the gang or the source device, and the name (R126). -/
def State.rstvStream (s : State) (r : Rstv) : Nat × Nat × W64 :=
  match r.pkt.bind s.pkt? with
  | some p => (0, p.h.sdev.toNat, r.name)
  | none => (r.uid, 0, r.name)

/-- An earlier RSTV of the same sender to the same name is still here (R126). -/
def State.rstvBehind (s : State) (r : Rstv) : Bool :=
  s.rstvs.any fun x => x.k < r.k && x.tag.isNone && s.rstvStream x == s.rstvStream r

/-- An RSTV.REL has kept the waits of a STREL at its scope (R126, R122, R54). -/
def State.rstvReleased (s : State) (r : Rstv) : Bool :=
  !r.rel || (s.performedBefore r.uid r.op r.scope.toNat && (r.scope.toNat < 2 || !s.hasDirty r.uid))

/-- Table 06.2 at the target device. -/
def State.rstvDecide (s : State) (r : Rstv) : State :=
  let loc := nameLoc r.name
  let k := s.core loc.die loc.core
  let fwd := k.fwd.find? fun f => f.old == r.name
  let stale :=
    match fwd with
    | some f =>
      if r.hops ≥ 4 then s.rstvEnd r 1
      else { s with rstvs := s.rstvs.map fun x => if x.k == r.k then { x with name := f.new, hops := x.hops + 1 } else x }
    | none => s.rstvEnd r 1
  if nameTen r.name != r.ten then s.rstvEnd r 3
  else
    match s.gangAt loc with
    | none => stale
    | some g =>
      if (s.ctx g.ctx).ten != nameTen r.name then s.rstvEnd r 3
      else if loc.core ≥ s.ncore loc.die || s.genOf loc != nameGen r.name then stale
      else if g.status == GStatus.saved then
        (match s.deliverSaved g r.reg r.lanes r.v with
         | some s => s.rstvEnd r 0
         | none => s.rstvEnd r 4)
      else if g.moving then s
      else if r.reg.toNat ≥ 32 * g.vblocks then s.rstvEnd r 2
      else if (g.region.any fun x => x.inSet r.reg.toNat && x.stage != .step3) then s
      else (s.onGang g.uid fun g => g.deliver r.reg r.lanes r.v).rstvEnd r 0

/-- Lanes as the byte mask of their 128 bytes (Table 22.2), and back. -/
def laneMask (m : W32) : Nat := (lanesOf m).foldl (fun n l => n + 15 * 2 ^ (4 * l)) 0
def maskLanes (n : Nat) : W32 := (List.range 32).foldl (fun (m : W32) l => if n.testBit (4 * l) then m ||| (1#32 <<< l) else m) 0

/-- RSTV_ARRIVAL (R126, R136, R376): the item leaves for its device once its turn has come and REL's waits are over, or the target
core decides it. An ORD packet leaves on CH0 alone. -/
def execRstvArrival (n : Nat) (s : State) : Out :=
  .next (match s.rstvs.find? (·.k == n) with
    | none => s
    | some r =>
      let dev := nameDev r.name
      if r.tag.isSome || s.rstvBehind r || !s.rstvReleased r then s
      else if dev == s.dev then (if (s.core (nameDie r.name) (nameCore r.name)).gated then s else s.rstvDecide r)
      else if r.pkt.isSome then s.rstvEnd r 5
      else
        match (s.route? dev).map s.primaryHop with
        | some (.port _) =>
          let (t, s) := s.newTag
          let h := { s.reqHdr 6 4 dev t r.ten with addr := r.name, aux := r.reg.setWidth 32, mask := laneMask r.lanes, nflit := 2 }
          let data := (List.range 2).map fun i =>
            (List.range 16).foldl (fun n l => n + (lane r.v (16 * i + l)).toNat * 2 ^ (32 * l)) 0
          let s : State := { s with rstvs := s.rstvs.map fun x => if x.k == r.k then { x with tag := some t } else x }
          s.emit h data
        | _ => s.rstvEnd r 5)

/-- FORWARD_ENTRY_EXPIRY (R36, R137): entries 65,536 cycles old are dropped. -/
def execForwardEntryExpiry (d c : Nat) (s : State) : Out :=
  .next (s.onCore d c fun k => { k with fwd := k.fwd.filter fun f => s.clock < f.since + 65536 })

/-- A forwarding entry is made; a 17th drops the oldest (R137). -/
def State.addForward (s : State) (d c : Nat) (old new : W64) : State :=
  s.onCore d c fun k =>
    let f := k.fwd ++ [{ old := old, new := new, since := s.clock }]
    { k with fwd := f.drop (f.length - 16) }

end Sys2Proof.Machine
end

