-- ==== Sys2Proof/Machine/Coll.lean ====
section
/-! DEFINITION. Collectives (R140 to R146, R274, R275): the COLL forms, the injection arbiter and the abort of a communicator. -/

namespace Sys2Proof.Machine

/-! ### Checks and targets (R141) -/

/-- The rank-list entry of a rank, read through the context (R140). -/
def State.rankEntry (s : State) (ctx e rank : Nat) : State × Option Nat :=
  match s.ctxRead ctx (ceRlist e + 8 * rank) 8 with
  | (s, some bs) => (s, some (leNat bs))
  | (s, none) => (s, none)

/-- The communicator's entry as a gang reads it at issue, with its place (R140, R141). -/
def State.readComm (s : State) (g : Gang) (comm : Nat) : State × Option CommAt :=
  let va := s.commVa (s.ctx g.ctx).ten comm
  let s := s.tablesReady g.ctx va 32
  match s.translate g.ctx va .load with
  | .ok pa e =>
    (match s.ctxRead g.ctx va 32 with
     | (s, some bs) => (s, some { pa := pa, far := ptePeer e || pteHost e, ent := leNat bs })
     | (s, none) => (s, none))
  | _ => (s, none)

/-! ### Abort: what is discarded (R145) -/

/-- A context of the tenant through which the communicator's entry is reached, and the entry's place: one whose gangs
have used it, else any enabled one that maps the table (log 15). -/
def State.commHome (s : State) (ten comm : Nat) : Option (Nat × CommAt) :=
  let mine := s.ctxs.filter fun c => c.ten == ten
  match (mine.filterMap fun c => (lookup c.comms comm).map fun x => (c.num, x)).head? with
  | some x => some x
  | none =>
    (mine.filterMap fun c =>
      if !c.en then none
      else
        match s.translate c.num (s.commVa ten comm) .load with
        | .ok pa e => if ptePeer e || pteHost e then none else some (c.num, { pa := pa, far := false, ent := 0 })
        | _ => none).head?

/-- Nothing more of the communicator may be injected: an abort is in progress, or its ABT is set (R145). -/
def State.commDead (s : State) (ten comm : Nat) : Bool :=
  s.aborting ten comm || (match s.commHome ten comm with | some (_, c) => ceAbt (s.commWord c) | none => false)

/-- An item of the communicator, by tenant and index. -/
def State.itemOf (s : State) (ten comm : Nat) (i : Item) : Bool := i.comm == some comm && (s.ctx i.ctx).ten == ten

/-- A communicator aborts, unless its abort is in progress or has ended here (R145). -/
def State.beginAbort (s : State) (ten comm : Nat) : State :=
  let gone := s.ctxs.any fun c => c.ten == ten && c.aborted.contains comm
  if s.aborting ten comm || gone then s else { s with aborts := s.aborts ++ [(ten, comm)] }

/-- An item completes with FABRIC (R135); one of a communicator aborts it (R145). -/
def State.failItem (s : State) (i : Item) : State :=
  let s := (s.setItem { i with st := .failed, tag := none }).fabricFail i.uid (((s.op? i.op).map (·.setf)).getD 15)
  match i.comm with
  | some m => s.beginAbort (s.ctx i.ctx).ten m
  | none => s

/-- The other devices of a communicator, each once. -/
def State.commDevs (s : State) (ctx e : Nat) : State × List Nat :=
  let r := (List.range (ceRanks e + 1)).foldl (fun (a : State × List Nat) k =>
    match a.1.rankEntry ctx e k with
    | (s, some x) => (s, if a.2.contains (bitsOf x 52 12) then a.2 else a.2 ++ [bitsOf x 52 12])
    | (s, none) => (s, a.2)) (s, [])
  (r.1, r.2.filter fun d => d != r.1.dev)

/-- Every grant that has nothing more to inject ends (R145). -/
def State.endGrants (s : State) : State :=
  s.cores.foldl (fun (s : State) k =>
    match k.grant with
    | some r => (s.grantOver k.die k.core).pushCommit r.uid
    | none => s) s

/-- The COLLs of a committing region's buffer are discarded: each completes with FABRIC on its flag (R145, R135). -/
def Gang.dropColls (g : Gang) : Gang :=
  match g.region with
  | none => g
  | some r =>
    let isColl := fun (b : BufItem) => match b.body with | .coll _ _ _ => true | _ => false
    (r.buf.filter isColl).foldl (fun (g : Gang) b => g.fabricFail b.setf) { g with region := some { r with buf := r.buf.filter fun b => !isColl b } }

/-- The gang is in step 3 of the RCOMMIT of a region of the communicator. -/
def State.committing (s : State) (ten comm : Nat) (g : Gang) : Bool :=
  (s.ctx g.ctx).ten == ten && g.region.any fun r => r.stage == .step3 && r.comm == some comm

/-- Every item of a communicator that has not been handed to a first hop is discarded, those of committing regions that stand behind a fence
among them; requests for its grant go, grants with nothing left end, and their RCOMMITs go on (R145). -/
def State.discardColls (s : State) (ten comm : Nat) : State :=
  let gone := s.items.filter fun i => s.itemOf ten comm i && (i.st == .queued || i.st == .held || s.atSource i)
  let s : State := { s with pkts := s.pkts.filter fun p => !(gone.any fun i => s.ownPkt i p) }
  let s := gone.foldl (fun (s : State) i => s.failItem i) s
  let mine := (s.gangs.filter fun g => s.committing ten comm g).map (·.uid)
  let s := mine.foldl (fun (s : State) u => s.onGang u Gang.dropColls) s
  let s : State := { s with cores := s.cores.map fun k => { k with arbQ := k.arbQ.filter fun q => !(q.ten == ten && q.comm == comm) } }
  mine.foldl (fun (s : State) u => s.pushCommit u) s.endGrants

/-- A context has read the communicator's entry: so the tenant's other contexts know it that had reached it at the same place (log 15). -/
def State.noteComm (s : State) (ctx comm : Nat) (cm : CommAt) : State :=
  let ten := (s.ctx ctx).ten
  { s with ctxs := s.ctxs.map fun c =>
    if c.num == ctx || (c.ten == ten && (lookup c.comms comm).any fun x => x.far && x.pa == cm.pa) then { c with comms := insertAt c.comms comm cm }
    else c }

/-- The marks of an abort that has ended here go, once the runtime has cleared its ABT; what the abort had yet to discard is never injected (R145). -/
def State.abortCleared (s : State) (ten comm : Nat) : State :=
  if s.ctxs.any fun c => c.ten == ten && c.aborted.contains comm then
    let s := s.discardColls ten comm
    { s with ctxs := s.ctxs.map fun c => if c.ten == ten then { c with aborted := c.aborted.filter (· != comm) } else c }
  else s

/-- The core is in the tenant's collective partition (R142). -/
def State.inPartition (s : State) (g : Gang) : Bool :=
  (s.tenant (s.ctx g.ctx).ten).cpart.testBit (128 * g.loc.die + g.loc.core)

/-- The places of the lanes, up to the first that fails: the lane and its offset are reported then. -/
def State.collLanes (s : State) (ctx e : Nat) (rankOf : Nat → Nat) (offOf : Nat → Nat) : List Nat → State × Except (Nat × Nat) (List (Nat × Place1))
  | [] => (s, .ok [])
  | l :: ls =>
    let off := offOf l
    let rank := rankOf l
    if rank > ceRanks e || off % 4 != 0 || off ≥ ceWlen e then (s, .error (l, off))
    else
      match s.rankEntry ctx e rank with
      | (s, none) => (s, .error (l, off))
      | (s, some x) =>
        let pa := bitsOf x 0 52 + off
        let p : Place1 := {
          dst := if rank == ceMyRank e then .dev else .peer (bitsOf x 52 12), line := lineBase pa, off := pa % 128, vline := 0, nc := false
          hold := false }
        match s.collLanes ctx e rankOf offOf ls with
        | (s, .error x) => (s, .error x)
        | (s, .ok ps) => (s, .ok ((l, p) :: ps))

/-- A COLL of one form: checked, refused from a gated run, buffered in a region, or placed in the outbound set with a request for
the grant (R141, R143, R274, R275). `sub` is the SUB of its form (Table 17.3). -/
def State.coll (s : State) (g : Gang) (sp : Split) (pc : W64) (c : Ctl) (kind : OpKind) (k : ItemKind) (sub : BitVec 8) (lanes : W32)
    (d : VR) (a : SR) (scl : BitVec 2) (off rank : VR) (disp : BitVec 15) : State :=
  let comm := ((g.sr a).extractLsb' 0 8).toNat
  let offOf := fun (l : Nat) => g.ea 0 off scl (disp15 disp) l
  -- a region keeps to the communicator of its first COLL (R31)
  let s := s.onGang g.uid fun g => { g with region := g.region.map fun r => { r with comm := some comm } }
  match lanesOf lanes with
  | [] => s.long g sp c []
  | l0 :: ls =>
    let prot := fun (s : State) (l o : Nat) => s.trapAt g sp causePROT sub 0 l pc (BitVec.ofNat 64 o)
    match s.readComm g comm with
    | (s, none) => prot s 0 (offOf l0)
    | (s, some cm) =>
      let e := cm.ent
      -- an ABT that the runtime has set in a table elsewhere is known here from now on (R145)
      let s := if cm.far && ceLive e && ceAbt e then s.noteComm g.ctx comm cm else s
      if !ceLive e || ceAbt e || !s.inPartition g then prot s 0 (offOf l0)
      else
        match s.collLanes g.ctx e (fun l => (lane (g.vr rank.toNat) l).toNat) offOf (l0 :: ls) with
        | (s, .error x) => prot s x.1 x.2
        | (s, .ok ps) =>
          let s := (s.noteComm g.ctx comm cm).abortCleared (s.ctx g.ctx).ten comm
          if !(s.gradeLines g.ctx g.inst).isEmpty then s.askData (s.gradeLines g.ctx g.inst)
          else if s.gated g.ctx g.inst g.run then (s.long g sp c []).egressFault g pc
          else
            let accs := ps.map fun p => (p.2, mkAcc p.1 p.2.off 4 (lane (g.vr d.toNat) p.1).toNat 0)
            match g.region with
            | some r => s.bufferItem g sp pc c r (.coll comm k accs) (groupLanes accs).length [] (some comm)
            | none =>
              let (id, s) := s.accept g sp c kind
              (s.addItems g id { kind := k, scope := 4, pol := 0, rel := false, acq := false, comm := some comm } (groupLanes accs)).askGrant
                g id comm

/-! ### The forms (R274) -/

/-- COLL.PUT: writes the element. -/
def execCollPut (c : Ctl) (p : Pred) (d : VR) (a : SR) (scl : BitVec 2) (off rank : VR) (disp : BitVec 15) (s : State) : Out :=
  issue (.collPut c p d a scl off rank disp) c s fun s g sp pc =>
    s.coll g sp pc c .coll .store 1 (takes g sp p) d a scl off rank disp
/-- COLL.GET: reads the element. -/
def execCollGet (c : Ctl) (p : Pred) (d : VR) (a : SR) (scl : BitVec 2) (off rank : VR) (disp : BitVec 15) (s : State) : Out :=
  issue (.collGet c p d a scl off rank disp) c s fun s g sp pc =>
    s.coll g sp pc c (.loadV d 2 false) .load 0 (takes g sp p) d a scl off rank disp
/-- COLL.RADD.F32: adds and rounds once. -/
def execCollRaddF32 (c : Ctl) (p : Pred) (d : VR) (a : SR) (scl : BitVec 2) (off rank : VR) (disp : BitVec 15) (s : State) : Out :=
  issue (.collRaddF32 c p d a scl off rank disp) c s fun s g sp pc =>
    s.coll g sp pc c .coll (.reduce .faddF32) 3 (takes g sp p) d a scl off rank disp
/-- COLL.RADD.BF16: each half apart. -/
def execCollRaddBf16 (c : Ctl) (p : Pred) (d : VR) (a : SR) (scl : BitVec 2) (off rank : VR) (disp : BitVec 15) (s : State) : Out :=
  issue (.collRaddBf16 c p d a scl off rank disp) c s fun s g sp pc =>
    s.coll g sp pc c .coll (.reduce .faddBf16x2) 3 (takes g sp p) d a scl off rank disp
/-- COLL.RMAX.F32: the maximum of R73. -/
def execCollRmaxF32 (c : Ctl) (p : Pred) (d : VR) (a : SR) (scl : BitVec 2) (off rank : VR) (disp : BitVec 15) (s : State) : Out :=
  issue (.collRmaxF32 c p d a scl off rank disp) c s fun s g sp pc =>
    s.coll g sp pc c .coll (.reduce .fmaxF32) 3 (takes g sp p) d a scl off rank disp
/-- COLL.RADD.I32: adds modulo 2^32. -/
def execCollRaddI32 (c : Ctl) (p : Pred) (d : VR) (a : SR) (scl : BitVec 2) (off rank : VR) (disp : BitVec 15) (s : State) : Out :=
  issue (.collRaddI32 c p d a scl off rank disp) c s fun s g sp pc =>
    s.coll g sp pc c .coll (.reduce .add) 3 (takes g sp p) d a scl off rank disp

/-! ### The arbiter (R143) -/

/-- The request of the highest priority; among equals the earliest. -/
def bestReq : List CollReq → Option CollReq
  | [] => none
  | x :: xs => some (xs.foldl (fun b y => if b.prio < y.prio then y else b) x)

/-- INJECTION_GRANT (R143). A grant with nothing left to inject ends with its grant. -/
def execInjectionGrant (d c : Nat) (s : State) : Out :=
  .next (
    let k := s.core d c
    match k.grant, bestReq k.arbQ with
    | none, some r =>
      let s := s.onCore d c fun k => { k with grant := some r, arbQ := k.arbQ.erase r }
      (s.grantOver d c).pushCommit r.uid
    | _, _ => s)

/-! ### The end of an abort (R145) -/

/-- The runtime has cleared the ABT that an abort here had set: the mark of that abort goes (R145). -/
def State.abtCleared (s : State) (ten comm : Nat) : Bool :=
  (s.ctxs.any fun c => c.ten == ten && c.aborted.contains comm) &&
    (match s.commHome ten comm with | some (_, c) => !ceAbt (s.commWord c) | none => false)

/-- ABT is set in this device's entry (R145). -/
def State.setAbt (s : State) (ctx ten comm : Nat) (c : CommAt) : State :=
  if c.far then
    let va := s.commVa ten comm + 20
    match s.ctxRead ctx va 1 with
    | (s, some bs) =>
      let s := (s.ctxWrite ctx va (bs.map (· ||| 2))).getD s
      s.noteComm ctx comm { c with ent := c.ent ||| 2 ^ 161 }
    | (s, none) => s
  else
    let (s, b) := s.devReadNat (c.pa + 20) 1
    s.devWriteNat (c.pa + 20) 1 (b ||| 2)

/-- Other devices hold ranks of the communicator. What they have sent to this rank is known outside alone. -/
def State.farRanks (s : State) (ten comm : Nat) : Bool :=
  match s.commHome ten comm with
  | some (ctx, c) => !(s.commDevs ctx (s.commWord c)).2.isEmpty
  | none => false

/-- COMMUNICATOR_ABORT (R145): it begins when the runtime has set ABT in this device's entry, or for an abort recorded already. The
items that have not left are discarded, and the other ranks' devices told. It ends at a further such event, once no item of the communicator is left here:
ABT is set and the vector raised. Items that other devices have sent to this rank may still be on the fabric, so the device takes that event of its
own accord only where it holds every rank; else it comes when the fabric has delivered or failed them (log 81). -/
def execCommunicatorAbort (ten comm : Nat) (s : State) : Out :=
  .next (
    let began := s.aborting ten comm
    let asked := match s.commHome ten comm with
      | some (ctx, c) => ceAbt (s.commWord c) && !(s.ctx ctx).aborted.contains comm
      | none => false
    if s.abtCleared ten comm then s.abortCleared ten comm
    else if !began && !asked then s
    else
      let s : State := if began then s else { s with aborts := s.aborts ++ [(ten, comm)] }
      let s := s.discardColls ten comm
      let mine := s.items.any fun i => s.itemOf ten comm i && i.st != .done && i.st != .failed
      let coming := s.pkts.any fun p => p.loc == .here && p.h.kind == 5 && !p.h.resp && p.h.ten.toNat == ten
      if !s.told.contains (ten, comm) then
        let s : State := { s with told := (ten, comm) :: s.told }
        match s.commHome ten comm with
        | none => s
        | some (ctx, c) =>
          let (s, devs) := s.commDevs ctx (s.commWord c)
          devs.foldl (fun (s : State) dev => s.emit { s.reqHdr 8 0 dev 0 ten with aux := BitVec.ofNat 32 comm } []) s
      else if mine || coming then s
      else
        let s : State := { s with aborts := s.aborts.filter fun a => a != (ten, comm), told := s.told.filter fun a => a != (ten, comm) }
        match s.commHome ten comm with
        | none => s.msix ten 0
        | some (ctx, c) => ((s.setAbt ctx ten comm c).onCtx ctx fun x => { x with aborted := comm :: x.aborted }).msix ten 0)

end Sys2Proof.Machine
end

