-- ==== Sys2Proof/Machine/Infer.lean ====
section
/-! DEFINITION. The INFER group (R86, R109, R276 to R282): CONFX, ACCEPT, APPORT and VRAND. -/

namespace Sys2Proof.Machine

/-! ### CONFX (R277, R278) -/

/-- The confidence meets the threshold: neither is a NaN, and −0 equals +0 (R277). -/
def confident (c t : Nat) : Bool := !(f32 c).isNan && !(f32 t).isNan && decide (cmpV (f32 c) (f32 t) ≥ 0)

/-- CONFX (R277, R278). With EMIT, what it reports is done when the operation completes. -/
def execConfx (c : Ctl) (p : Pred) (emit : Bool) (k : KR) (a : VR) (b : SR) (ver : VR) (q : QR) (s : State) : Out :=
  issue (.confx c p emit k a b ver q) c s fun s g sp _ =>
    let w := g.sr b
    let m := maskOf (takes g sp p) fun l => confident (lane (g.vr a.toNat) l).toNat (w.extractLsb' 0 32).toNat
    let wrs := [Wr.kreg k m]
    match emit, g.qbfe? q with
    | true, some (die, cfg) =>
      let rows := (lanesOf m).map fun l => (l, (lane (g.vr (a.toNat + 1)) l).toNat, (lane (g.vr ver.toNat) l).toNat % 65536)
      (s.accept g sp c (.confx wrs die cfg (w.extractLsb' 32 8).toNat rows rows.length)).2
    | _, _ => s.long g sp c wrs

/-- The entries that a die's BFE holds (R259). -/
def State.bfeCount (s : State) (die : Nat) : Nat :=
  (s.die die).bfe.foldl (fun n b => b.batches.foldl (fun n x => n + x.pairs.length) n) 0

/-- A state word in peer or host memory, last seen as `w`: with the lane's version it is compared and replaced in one access at its order
point, and again with what that access found where it had changed meanwhile. -/
def State.skipFar (s : State) (ctx : Nat) (dst : Dst) (pa ver : Nat) (new : Nat → Nat) : Nat → Nat → State
  | 0, _ => s.ask .later
  | f + 1, w =>
    if w % 65536 != ver then s.versionDrop ctx
    else
      match s.farAccess ctx dst pa 8 (.cas w (new w)) with
      | (s, .got old) => if old == w then s else s.skipFar ctx dst pa ver new f old
      | (s, .wait) => s
      | (s, .failed) => s.versionDrop ctx

/-- One skipped layer of one lane: a state word with the lane's version becomes PENDING with its token; any other, and one that
cannot be reached, counts a version drop (R109, R278). -/
def State.skipLayer (s : State) (b : BfeCfg) (layer slot ver : Nat) : State :=
  let va := (b.kv.toNat + layer * b.ls + slot * b.ss) % 2 ^ 64
  let s := s.tablesReady b.ctx va 8
  let held := s.holdWishes b.ctx va .rmw
  if !s.wants.isEmpty then s
  else if !held.isEmpty then held.foldl State.ask s
  else
  let s := s.unhold b.ctx [va]
  match s.translate b.ctx va .rmw with
  | .ok pa e =>
    let new := fun (w : Nat) => bitsOf w 0 16 + 2 ^ 16 + bitsOf w 18 14 * 2 ^ 18 + slot % 2 ^ 32 * 2 ^ 32
    if ptePeer e && s.devid == some (BitVec.ofNat 12 (pteDev e)) then s.versionDrop b.ctx
    else if ptePeer e || pteHost e then
      let dst : Dst := if ptePeer e then .peer (pteDev e) else .host
      match s.farAccess b.ctx dst pa 8 .read with
      | (s, .got w) => s.skipFar b.ctx dst pa ver new (s.items.length + 1) w
      | (s, .wait) => s
      | (s, .failed) => s.versionDrop b.ctx
    else
      let (s, w) := s.devReadNat pa 8
      if w % 65536 == ver then s.devWriteNat pa 8 (new w) else s.versionDrop b.ctx
  | _ => s.versionDrop b.ctx

/-- Adds an entry to the batch of a layer (R110). -/
def BfeCfg.push (b : BfeCfg) (clock layer slot ver : Nat) : BfeCfg :=
  if b.batches.any (·.layer == layer) then
    { b with batches := b.batches.map fun x => if x.layer == layer then { x with pairs := x.pairs ++ [(slot, ver, clock)] } else x }
  else { b with batches := b.batches ++ [{ layer := layer, pairs := [(slot, ver, clock)] }] }

/-- Reports marked lanes in ascending order while the BFE has room: the lanes left over (R278, R259). -/
def State.confxRows (s : State) (die cfg e : Nat) : List (Nat × Nat × Nat) → State × List (Nat × Nat × Nat)
  | [] => (s, [])
  | (l, slot, ver) :: rest =>
    match s.bfe? die cfg with
    | none => (s, [])
    | some b =>
      let n := if b.set then b.nl else 0
      let skipped := (List.range n).drop (e + 1)
      if s.bfeCount die + skipped.length > 4096 then (s, (l, slot, ver) :: rest)
      else
        let s := skipped.foldl (fun (s : State) y => s.skipLayer b y slot ver) s
        let s := (skipped.foldl (fun (s : State) y => s.onBfe die cfg fun b => b.push s.clock y slot ver) s).bfePump die cfg
        s.confxRows die cfg e rest

/-! ### ACCEPT (R279, R280) -/

/-- The test of ACCEPT.P, exact over the extended reals, a product of 0 and ∞ being 0. -/
def probPass (pt pd u : Nat) : Bool :=
  let t := f32 pt
  let d := f32 pd
  let x := f32 u
  let zero : FVal := .fin false 0 0
  let prod := if x.isZero || d.isZero then zero else (mulV x d).1
  !t.isNan && !d.isNan && !x.isNan &&
    (if cmpV d zero > 0 then decide (cmpV prod t < 0) else decide (cmpV t zero > 0))

/-- The acceptance run over 32 lanes (R279): a start sets it, a lane that is not ok ends it. -/
def acceptRun (start ok : Nat → Bool) : Nat → Nat → Bool → W32 → W32
  | 0, _, _, m => m
  | f + 1, l, run, m =>
    let run := (run || l == 0 || start l) && ok l
    acceptRun start ok f (l + 1) run (if run then m ||| (1#32 <<< l) else m)

/-- ACCEPT (R279, R280). -/
def execAccept (c : Ctl) (p : Pred) (prob : Bool) (k : KR) (a : VR) (b : SR) (seg : KR) (s : State) : Out :=
  issue (.accept c p prob k a b seg) c s fun s g sp pc =>
    let t := takes g sp p
    let col := fun (n l : Nat) => (lane (g.vr (a.toNat + n)) l).toNat
    let vl := ((g.sr b).extractLsb' 0 32).toNat
    let lo := ((g.sr (b + 1)).extractLsb' 0 32).toNat
    let hi := ((g.sr (b + 1)).extractLsb' 32 32).toNat
    let oor := fun (l : Nat) => t.getLsbD l && (col 0 l ≥ vl || (lo ≤ col 0 l && col 0 l < hi))
    let pass := fun (l : Nat) => if prob then probPass (col 1 l) (col 2 l) (col 3 l) else col 0 l == col 1 l
    let any := (List.range 32).any oor
    if any && g.oorTrap then
      (s.onGang g.uid fun g => { g with gstat := g.gstat ||| gsDRAFTOOR }).trapAt g sp causeOOR 0 0
        ((((List.range 32).find? oor)).getD 0) pc 0
    else
      let m := acceptRun (fun l => (g.kr seg).getLsbD l) (fun l => t.getLsbD l && !oor l && pass l) 32 0 false 0
      s.long g sp c ([.kreg k m] ++ (if any then [.gsSet gsDRAFTOOR] else []))

/-! ### APPORT (R281) -/

/-- The weights as integers over one power of two: NaN, negative and zero count 0, and with an infinity each counts 1. -/
def apportWeights (ws : List Nat) : List Nat :=
  let vs := ws.map f32
  if vs.any (fun v => v == .inf false) then vs.map fun v => if v == .inf false then 1 else 0
  else vs.map fun v => match v with
    | .fin false m e => m * 2 ^ (e - fF32.qmin).toNat
    | _ => 0

/-- The lane of the largest fraction among those not yet chosen; ties to the lower lane. -/
def largestFrac (fr : List Nat) (chosen : List Nat) : Option Nat :=
  ((List.range fr.length).filter fun i => !chosen.contains i).foldl (fun (b : Option Nat) i =>
    match b with
    | none => some i
    | some j => if fr.getD i 0 > fr.getD j 0 then some i else some j) none

/-- The positions that receive one more. -/
def pickRem (fr : List Nat) : Nat → List Nat → List Nat
  | 0, cs => cs
  | n + 1, cs => match largestFrac fr cs with | some i => pickRem fr n (cs ++ [i]) | none => cs

/-- The counts of the taking-part lanes, in their order (R281). -/
def apport (total : Nat) (ws : List Nat) : List Nat :=
  let w := apportWeights ws
  let sum := w.foldl (· + ·) 0
  let cnt := w.map fun x => if sum == 0 then total / ws.length else total * x / sum
  let fr := w.map fun x => if sum == 0 then 0 else total * x % sum
  let more := pickRem fr (total - cnt.foldl (· + ·) 0) []
  cnt.mapIdx fun i x => if more.contains i then x + 1 else x

/-- APPORT (R281). -/
def execApport (c : Ctl) (p : Pred) (d a : VR) (b : SR) (s : State) : Out :=
  issue (.apport c p d a b) c s fun s g sp _ =>
    let t := takes g sp p
    let ls := lanesOf t
    let out := apport ((g.sr b).extractLsb' 0 32).toNat (ls.map fun l => (lane (g.vr a.toNat) l).toNat)
    let v := mkV fun l => match ls.findIdx? (· == l) with | some i => BitVec.ofNat 32 (out.getD i 0) | none => 0
    s.long g sp c [.vreg d t 0xFFFFFFFF v]

/-! ### VRAND (R86, R282) -/

/-- h of R86. -/
def hash32 (x : W32) : W32 :=
  let x := (x ^^^ (x >>> 16)) * 0x7FEB352D
  let x := (x ^^^ (x >>> 15)) * 0x846CA68B
  x ^^^ (x >>> 16)

/-- raw of R86. -/
def rawRand (ctr : W32) (seed : W64) : W32 := hash32 (hash32 (ctr ^^^ seed.extractLsb' 0 32) ^^^ seed.extractLsb' 32 32)

/-- u of R86, exact in F32. -/
def unitRand (raw : W32) : W32 := BitVec.ofNat 32 (roundF fF32 0 (.fin false (raw.toNat / 256) (-24))).bits

/-- VRAND (R282). -/
def execVrand (c : Ctl) (p : Pred) (raw : Bool) (d a : VR) (b : SR) (s : State) : Out :=
  issue (.vrand c p raw d a b) c s fun s g sp _ =>
    let v := mkV fun l =>
      let x := rawRand (lane (g.vr a.toNat) l) (g.sr b)
      if raw then x else unitRand x
    s.long g sp c [.vreg d (takes g sp p) 0xFFFFFFFF v]

end Sys2Proof.Machine
end

