-- ==== Sys2Proof/Machine/Graded.lean ====
section
/-! DEFINITION. The grade board (R90 to R105, R127, R261 to R268): values, publication, promotion and its propagation, firing and
re-firing, retirement, task records, and the GRD instructions. Each operation on a value is one step at its home (R92). -/

namespace Sys2Proof.Machine

/-! ### Task records (R95, R96) -/

/-- A record read from its 128 bytes (Table 04.4). -/
def TaskRec.ofNat (n : Nat) : TaskRec :=
  { entry := BitVec.ofNat 64 (bitsOf n 0 52), ngang := bitsOf n 64 16 + 1, vblk := bitsOf n 80 4, stashp := bitsOf n 84 8
    cohsz := bitsOf n 92 7, queue := bitsOf n 99 6, nin := bitsOf n 105 3, nout := bitsOf n 108 3
    argp := BitVec.ofNat 64 (bitsOf n 128 52), fhrec := bitsOf n 192 52
    ins := (List.range (min 6 (bitsOf n 105 3))).map fun i => (bitsOf n (256 + 32 * i) 20, bitsOf n (256 + 32 * i + 20) 2, n.testBit (256 + 32 * i + 22))
    outs := (List.range (min 4 (bitsOf n 108 3))).map fun i => bitsOf n (640 + 32 * i) 20 }

/-- The record breaks R96. The unused descriptors are ignored (R95). -/
def State.recBad (s : State) (ctx recA n : Nat) : Bool :=
  let t := TaskRec.ofNat n
  recA % 128 != 0 || t.nin > 6 || t.nout > 4 || t.vblk == 0 || t.vblk > 8 || t.cohsz > 64 || t.ins.any (fun i => i.2.1 == 0) ||
    bitsOf n 52 12 != 0 || bitsOf n 111 17 != 0 || bitsOf n 180 12 != 0 || bitsOf n 244 12 != 0 || bitsOf n 448 192 != 0 ||
    bitsOf n 768 256 != 0 || (List.range (min 6 t.nin)).any (fun i => bitsOf n (256 + 32 * i + 23) 9 != 0) ||
    (List.range (min 4 t.nout)).any (fun i => bitsOf n (640 + 32 * i + 20) 12 != 0) ||
    (s.queue t.queue).ten != (s.ctx ctx).ten

def State.readRec (s : State) (ctx recA : Nat) : State × Option Nat :=
  match s.ctxRead ctx recA 128 with
  | (s, some bs) => (s, some (leNat bs))
  | (s, none) => (s, none)

/-! ### Firing (R98, R99, R127) -/

/-- The held stores of earlier runs of an instance are discarded and counted (R104). -/
def State.discardRuns (s : State) (ctx inst run : Nat) : State :=
  let gone := fun (h : HeldStore) => h.item.ctx == ctx && h.item.inst == inst && h.item.run != run
  let ids := s.dies.flatMap fun d => (d.eghold.filter gone).map (·.item.id)
  { s with
    dies := s.dies.map fun d =>
      { d with eghold := d.eghold.filter fun h => !gone h, egdisc := d.egdisc + BitVec.ofNat 64 (d.eghold.filter gone).length }
    items := s.items.filter fun i => !ids.contains i.id }

/-- The inputs at their current versions; an input that was freed stays dropped (R98, R99). -/
def State.acquire (s : State) (ctx : Nat) (old : List Consumed) : List (Nat × Nat) → State × List Consumed
  | [] => (s, [])
  | (n, id) :: rest =>
    let was := old[n]?
    let (s, c) :=
      if was.any (·.freed) then (s, was.getD { val := id, ver := 0, grade := 3, freed := true })
      else
        match s.readValue ctx id with
        | (s, some e) => (s, { val := id, ver := veVersion e, grade := veGrade e, freed := !veLive e })
        | (s, none) => (s, { val := id, ver := 0, grade := 3, freed := true })
    let (s, cs) := s.acquire ctx old rest
    (s, c :: cs)

/-- Fires an instance for the given run: it acquires its inputs and places its gangs through its queue (R98, R99). -/
def State.fireRun (s : State) (ctx num run : Nat) : State :=
  match s.inst? ctx num with
  | none => s
  | some i =>
    let (s, cons) := s.acquire ctx i.cons ((List.range i.tr.ins.length).map fun n => (n, (i.tr.ins.getD n (0, 0, false)).1))
    let past := if i.st == .completed then i.past ++ [{ cons := i.cons, pubs := i.pubs }] else i.past
    let (n, s) := s.fresh
    let s := s.setInst { i with st := .running, run := run % 65536, cons := cons, pubs := [], again := false, past := past, joined := n }
    let s := s.discardRuns ctx num (run % 65536)
    { s with places := s.places ++ [{ queue := i.tr.queue, ctx := ctx, inst := num, run := run % 65536, next := 0, tr := i.tr }] }

/-! ### Retirement and cancelling (R98, R102, R259) -/

/-- The batch buffer that an instance was launched from is free again (R259). -/
def State.freeBuffer (s : State) (ctx : Nat) (b : LaunchBy) : State :=
  match b with
  | .bfe die _ _ (some a) => s.onDie die fun x => { x with bufs := x.bufs.erase (ctx, a) }
  | _ => s

/-- The egress hold still has stores of the instance. -/
def State.hasHeld (s : State) (ctx inst : Nat) : Bool :=
  s.dies.any fun d => d.eghold.any fun h => h.item.ctx == ctx && h.item.inst == inst

/-- Every REFIRE input is final or freed, and the last run has completed (R102). -/
def State.retirable (s : State) (i : Inst) : Bool :=
  i.st == .completed && (List.range i.tr.ins.length).all fun n =>
    let d := i.tr.ins.getD n (0, 0, false)
    !d.2.2 || (i.cons[n]?).any (·.freed) || (s.peekValue i.ctx d.1).any fun e => veGrade e == 3

/-- An instance leaves every consumer list (R102). -/
def State.retire (s : State) (i : Inst) : State :=
  let s := if s.hasHeld i.ctx i.num then s.setInst { i with st := .retired }
    else { s with insts := s.insts.filter fun x => !(x.ctx == i.ctx && x.num == i.num) }
  s.freeBuffer i.ctx i.by'

/-- Every instance of a tenant that can retire does. -/
def State.retireAll (s : State) (ten : Nat) : State :=
  s.insts.foldl (fun (s : State) i =>
    if (s.ctx i.ctx).ten != ten || i.st != .completed then s
    else
      let s := i.tr.ins.foldl (fun (s : State) d => s.peekReady i.ctx d.1) s
      if s.retirable i then s.retire i else s) s

/-- A handler instance has ended: its record can be written again (R94). -/
def State.handlerEnds (s : State) (i : Inst) : State :=
  match i.by' with
  | .armature h => s.onCtx i.ctx fun c => { c with handlers := c.handlers.filter fun x => x.1 != h }
  | _ => s

/-- Cancels an instance with a graded fault on one of its inputs (R98). No grade was requested: REQG is 0 (log 74). -/
def State.cancel (s : State) (i : Inst) (cause id e : Nat) : State :=
  let s : State := { s with insts := s.insts.filter fun x => !(x.ctx == i.ctx && x.num == i.num) }
  ((s.freeBuffer i.ctx i.by').handlerEnds i).gradedFault i.ctx i.tr.fhrec (faultWords cause id (veVersion e) (veGrade e) 0 0 (taskId i.num i.run) 0)

/-! ### Publication, promotion, propagation (R93, R99, R101) -/

/-- What an operation on a value answers: the code of Table 11.2 and the entry it reports. -/
structure ValRes where
  code : Nat
  ent  : Nat
  deriving DecidableEq, Repr

/-- The result word (Table 11.2). -/
def ValRes.word (r : ValRes) (id : Nat) : W64 :=
  BitVec.ofNat 64 (r.code + 2 ^ 16 * (id % 2 ^ 20) + 2 ^ 36 * veVersion r.ent + 2 ^ 52 * veGrade r.ent + 2 ^ 54 * veAmcnt r.ent)

/-- An entry with a new version, grade and amend count. -/
def veSet (e ver grade am : Nat) : Nat := setBits (setBits (setBits e 104 16 ver) 96 2 grade) 100 4 am

/-- Re-fires the REFIRE consumers of older versions (R99): a completed one at once, a running one after its run. -/
def State.refire (s : State) (ten id ver : Nat) : State :=
  s.insts.foldl (fun (s : State) i =>
    let older := (List.range i.tr.ins.length).any fun n =>
      (i.tr.ins.getD n (0, 0, false)).2.2 && (i.cons[n]?).any fun c => c.val == id && !c.freed && c.ver < ver
    if (s.ctx i.ctx).ten != ten || !older then s
    else
      match i.st with
      | .running => s.setInst { i with again := true }
      | .completed => s.fireRun i.ctx i.num (i.run + 1)
      | _ => s) s

/-- Publishes at a grade (Table 04.2). `nb` is a new base, taken with a row that publishes (R265). -/
def State.publish (s : State) (ctx id g : Nat) (nb : Option Nat) : State × ValRes :=
  match s.readValue ctx id with
  | (s, none) => (s, { code := gfINVALID, ent := 0 })
  | (s, some e) =>
    let put := fun (s : State) (e : Nat) (amend : Bool) =>
      let e := match nb with | some b => setBits e 0 52 b | none => e
      match s.writeValue ctx id e with
      | none => (s, { code := gfINVALID, ent := 0 : ValRes })
      | some s => (if amend then s.refire (s.ctx ctx).ten id (veVersion e) else s, { code := 0, ent := e })
    if !veLive e then (s, { code := gfINVALID, ent := e })
    else if veVersion e == 0 then put s (veSet e 1 (max g (veGrade e)) (veAmcnt e)) false
    else if veGrade e == 3 then (s, { code := gfFINAL, ent := e })
    else if veAmcnt e + 1 > (s.ctx ctx).amendLimit then (s, { code := gfAMEND, ent := e })
    else put s (veSet e (veVersion e + 1) (max g (veGrade e)) (veAmcnt e + 1)) true

/-- The current version has risen in grade: every run that consumed it counts the new grade (R100, R101). -/
def State.raised (s : State) (ten id ver g : Nat) : State :=
  let up := fun (cs : List Consumed) => cs.map fun c => if c.val == id && c.ver == ver && !c.freed then { c with grade := max c.grade g } else c
  { s with insts := s.insts.map fun i =>
      if (s.ctx i.ctx).ten == ten && i.st != .retired then
        { i with cons := up i.cons, past := i.past.map fun p => { p with cons := up p.cons } }
      else i }

def consumedGrade (cs : List Consumed) : Nat := cs.foldl (fun n k => if k.freed then n else min n k.grade) 3

/-- The outputs that completed runs published by completion and whose runs consumed a version: instance's context, value,
version, the new G (R101). -/
def State.downstream (s : State) (ten id ver : Nat) : List (Nat × Nat × Nat × Nat) :=
  s.insts.flatMap fun i =>
    if (s.ctx i.ctx).ten != ten || i.st == .retired || i.st == .waiting then []
    else
      let runs := i.past ++ (if i.st == .completed then [{ cons := i.cons, pubs := i.pubs }] else [])
      runs.flatMap fun r =>
        if r.cons.any fun c => c.val == id && c.ver == ver && !c.freed then
          (r.pubs.filter (·.implicit)).map fun p => (i.ctx, i.tr.outs.getD p.idx 0, p.ver, consumedGrade r.cons)
        else []

/-- Promotes downstream outputs, one after another (R101); `fuel` bounds the chain: a value rises three times at most. -/
def State.propagate (ten : Nat) : Nat → State → List (Nat × Nat × Nat) → State
  | 0, s, _ => s
  | _ + 1, s, [] => s
  | f + 1, s, (id, ver, g) :: q =>
    let s := s.raised ten id ver g
    let r := (s.downstream ten id ver).foldl (fun (a : State × List (Nat × Nat × Nat)) o =>
      match a.1.readValue o.1 o.2.1 with
      | (s, none) => (s, a.2)
      | (s, some e) =>
        if veLive e && veVersion e == o.2.2.1 && veGrade e < o.2.2.2 then
          (match s.writeValue o.1 o.2.1 (setBits e 96 2 o.2.2.2) with
           | some s => (s, a.2 ++ [(o.2.1, o.2.2.1, o.2.2.2)])
           | none => (s, a.2))
        else (s, a.2)) (s, [])
    State.propagate ten f r.1 (q ++ r.2)

/-- Promotes to a grade, naming a version (Table 04.2), and propagates (R101). -/
def State.promote (s : State) (ctx id ver g : Nat) : State × ValRes :=
  match s.readValue ctx id with
  | (s, none) => (s, { code := gfINVALID, ent := 0 })
  | (s, some e) =>
    if !veLive e || veVersion e == 0 then (s, { code := gfINVALID, ent := e })
    else if ver != veVersion e then (s, { code := 16, ent := e })
    else
      let x := setBits e 96 2 (max g (veGrade e))
      if x == e then (s, { code := 0, ent := e })
      else
        match s.writeValue ctx id x with
        | none => (s, { code := gfINVALID, ent := 0 })
        | some s =>
          let ten := (s.ctx ctx).ten
          ((s.propagate ten (12 * s.insts.length + 4) [(id, ver, veGrade x)]).retireAll ten, { code := 0, ent := x })

/-- Frees a value and detaches it from its consumers (R91, R98). A re-fire that an amendment decided before stands (log 48). -/
def State.freeValue (s : State) (ctx id : Nat) : State × ValRes :=
  match s.readValue ctx id with
  | (s, none) => (s, { code := gfINVALID, ent := 0 })
  | (s, some e) =>
    if !veLive e then (s, { code := gfINVALID, ent := e })
    else
      match s.writeValue ctx id (setBits e 120 1 0) with
      | none => (s, { code := gfINVALID, ent := 0 })
      | some s =>
        let ten := (s.ctx ctx).ten
        let s := s.insts.foldl (fun (s : State) i =>
          let names := i.tr.ins.any fun d => d.1 == id
          if (s.ctx i.ctx).ten != ten || !names then s
          else if i.st == .waiting then s.cancel i gfFREED id e
          else
            let gone := fun (cs : List Consumed) => cs.map fun c => if c.val == id then { c with freed := true } else c
            s.setInst { i with cons := gone i.cons, past := i.past.map fun p => { p with cons := gone p.cons } }) s
        (s.retireAll ten, { code := 0, ent := setBits e 120 1 0 })

/-- Creates a value (R263). -/
def State.newValue (s : State) (ctx : Nat) (a b : W64) : State × ValRes :=
  let id := (b.extractLsb' 32 20).toNat
  if a.toNat % 4 != 0 || b.toNat % 4 != 0 || a.extractLsb' 54 10 != 0 || b.extractLsb' 52 12 != 0 then
    (s.peekReady ctx id, { code := 18, ent := (s.peekValue ctx id).getD 0 })
  else
    match s.readValue ctx id with
    | (s, none) => (s, { code := gfINVALID, ent := 0 })
    | (s, some e) =>
      if veLive e then (s, { code := 17, ent := e })
      else
        let x := (a.extractLsb' 0 52).toNat + 2 ^ 64 * (b.extractLsb' 0 32).toNat + 2 ^ 98 * (a.getLsbD 52).toNat + 2 ^ 99 * (a.getLsbD 53).toNat + 2 ^ 120
        match s.writeValue ctx id x with
        | none => (s, { code := gfINVALID, ent := 0 })
        | some s => (s, { code := 0, ent := x })

/-- Reads a value (R267). -/
def State.queryValue (s : State) (ctx id : Nat) : State × ValRes :=
  match s.readValue ctx id with
  | (s, none) => (s, { code := gfINVALID, ent := 0 })
  | (s, some e) => if veLive e then (s, { code := 0, ent := e }) else (s, { code := gfINVALID, ent := e })

/-! ### The GRD instructions (R261 to R268) -/

def valueId (w : W64) : Nat := (w.extractLsb' 0 20).toNat

/-- GNEW (R263). -/
def execGnew (c : Ctl) (d a b : SR) (s : State) : Out :=
  issue (.gnew c d a b) c s fun s g sp _ => (s.accept g sp c (.gnew d (g.sr a) (g.sr b))).2
/-- GFREE (R264). -/
def execGfree (c : Ctl) (d a : SR) (s : State) : Out :=
  issue (.gfree c d a) c s fun s g sp _ => (s.accept g sp c (.gfree d (valueId (g.sr a)))).2
/-- GPUB (R265). -/
def execGpub (c : Ctl) (nb : Bool) (gr : BitVec 2) (d a b : SR) (s : State) : Out :=
  issue (.gpub c nb gr d a b) c s fun s g sp _ => (s.accept g sp c (.gpub d (valueId (g.sr a)) nb (g.sr b) gr.toNat)).2
/-- GPROM (R266). -/
def execGprom (c : Ctl) (gr : BitVec 2) (d a b : SR) (s : State) : Out :=
  issue (.gprom c gr d a b) c s fun s g sp _ => (s.accept g sp c (.gprom d (valueId (g.sr a)) ((g.sr b).toNat % 65536) gr.toNat)).2
/-- GQRY (R267). -/
def execGqry (c : Ctl) (d a : SR) (s : State) : Out :=
  issue (.gqry c d a) c s fun s g sp _ => (s.accept g sp c (.gqry d (valueId (g.sr a)))).2

/-- TSPAWN (R268): the record is checked as a load at issue; an unaligned one is left to R96 (DEDUCED, log 19). -/
def execTspawn (c : Ctl) (p : Pred) (one keep : Bool) (d a : SR) (b : VR) (s : State) : Out :=
  issue (.tspawn c p one keep d a b) c s fun s g sp pc =>
    let ls := lanesOf (takes g sp p)
    if ls.isEmpty then s.long g sp c [.sreg d 0]
    else
      let recA := (g.sr a).toNat
      let ends := if recA % 128 == 0 then [recA] else [recA, recA + 127]
      match s.checkLanes g { plainNeed .load 1 with window := false } (ends.map fun x => (32, x)) with
      | (s, .error f) => s.accFault g sp pc .load f
      | (s, .ok _) =>
        let args := (if one then ls.take 1 else ls).map fun l => if keep then none else some (g.pair b.toNat l).toNat
        (s.accept g sp c (.tspawn d recA args false 0 [])).2

/-! ### What a GRD operation does when it is performed at the home -/

/-- A graded fault raised by an instruction: code, value and entry as reported, with the instruction's gang, task and address (R94). -/
def State.instFault (s : State) (o : Op) (r : ValRes) (id reqg : Nat) : State :=
  if 1 ≤ r.code && r.code ≤ 6 then
    let fh := ((s.inst? o.ctx o.inst).map (·.tr.fhrec)).getD 0
    s.gradedFault o.ctx fh (faultWords r.code id (veVersion r.ent) (veGrade r.ent) reqg o.name (taskId o.inst o.run) o.ip)
  else s

/-- A publication by an instruction of a run counts for every output of the run that it names (R265). -/
def State.notePub (s : State) (o : Op) (id ver : Nat) : State :=
  match s.inst? o.ctx o.inst with
  | none => s
  | some i =>
    if i.run != o.run || i.st != .running then s
    else
      let mine := (i.tr.outIds.filter fun x => x.2 == id && !(i.pubs.any fun p => p.idx == x.1)).map fun x =>
        ({ idx := x.1, ver := ver, implicit := false } : Published)
      s.setInst { i with pubs := i.pubs ++ mine }

/-- The waits of a release at a scope are over, the stash write-back included (R122, R54). -/
def State.releaseMet (s : State) (uid id scope : Nat) : Bool :=
  s.performedBefore uid id scope && (scope < 2 || !s.hasDirty uid)

/-- Performs a GRD operation: the state and its result word; none while a release has to wait (R262 to R267). -/
def State.gradedOp (s : State) (o : Op) : Option (State × W64) :=
  let fin := fun (r : State × ValRes) (id reqg : Nat) => some (r.1.instFault o r.2 id reqg, r.2.word id)
  match o.kind with
  | .gnew _ a b => fin (s.newValue o.ctx a b) ((b.extractLsb' 32 20).toNat) 0
  | .gfree _ id => fin (s.freeValue o.ctx id) id 0
  | .gqry _ id => fin (s.queryValue o.ctx id) id 0
  | .gprom _ id ver g => fin (s.promote o.ctx id ver g) id g
  | .gpub _ id nb base g =>
    let scope := ((s.peekValue o.ctx id).map veScope).getD 3
    if !s.releaseMet o.uid o.id scope then none
    else if nb && (base.toNat % 4 != 0 || base.extractLsb' 52 12 != 0) then
      fin (s.peekReady o.ctx id, { code := 18, ent := (s.peekValue o.ctx id).getD 0 }) id g
    else
      let r := s.publish o.ctx id g (if nb then some base.toNat else none)
      fin (if r.2.code == 0 then r.1.notePub o id (veVersion r.2.ent) else r.1, r.2) id g
  | _ => none

/-- The result word of TSPAWN (R268). -/
def spawnWord (first count code : Nat) : W64 := BitVec.ofNat 64 (first % 2 ^ 32 * 2 ^ 32 + count * 2 ^ 16 + code)

/-- TSPAWN starts once its release at DEVICE scope has been kept: the children, with consecutive instance numbers, or BADREC (R268). -/
def State.startSpawn (s : State) (o : Op) (recA : Nat) (args : List (Option Nat)) : State × Option Nat × List Nat :=
  match s.readRec o.ctx recA with
  | (s, none) => (s.instFault o { code := gfBADREC, ent := 0 } 0 0, none, [])
  | (s, some n) =>
    if s.recBad o.ctx recA n || (args.any fun a => a.any fun v => v ≥ 2 ^ 52) then
      (s.instFault o { code := gfBADREC, ent := 0 } 0 0, none, [])
    else
      let first := (s.ctx o.ctx).instN.toNat
      let r := args.foldl (fun (a : State × List Nat) v =>
        let k := a.2.length
        let (id, s) := a.1.fresh
        let l : Launch := {
          id := id, ctx := o.ctx, recA := BitVec.ofNat 64 recA, argp := v.map (BitVec.ofNat 64), num := some ((first + k) % 2 ^ 32), bad := false
          tr := some (TaskRec.ofNat n), by' := .tspawn, src := o.uid }
        ({ s with launches := s.launches ++ [l] }, a.2 ++ [id])) (s, [])
      (r.1.onCtx o.ctx fun c => { c with instN := c.instN + BitVec.ofNat 32 args.length }, some first, r.2)

end Sys2Proof.Machine
end

