-- ==== Sys2Proof/Machine/Wire.lean ====
section
/-! DEFINITION. What a remote item looks like on the wire (R134, R372, R373, Tables 06.1 and 22.2). Where the layout leaves a
field open, the coding is the model's (DESIGN CHOICE, log 20). -/

namespace Sys2Proof.Machine

/-! ### Lines as numbers -/

/-- A line, or a part of it, as one number. -/
def lineNum (bytes : List (Nat × Byte)) : Nat := bytes.foldl (fun n p => setBits n (8 * p.1) 8 p.2.toNat) 0

/-- The byte mask of some places in a line. -/
def byteMask (offs : List Nat) : Nat := offs.eraseDups.foldl (fun n o => n + 2 ^ (o % 128)) 0

/-- The 64-byte halves of a line that a mask needs (Table 06.1). -/
def halves (mask line : Nat) : List Nat :=
  (if mask % 2 ^ 64 != 0 then [line % 2 ^ 512] else []) ++ (if mask / 2 ^ 64 != 0 then [line / 2 ^ 512 % 2 ^ 512] else [])

/-- The line that such halves spell. -/
def unhalves (mask : Nat) (data : List Nat) : Nat :=
  if mask % 2 ^ 64 != 0 then data.getD 0 0 + 2 ^ 512 * (if mask / 2 ^ 64 != 0 then data.getD 1 0 else 0)
  else 2 ^ 512 * data.getD 0 0

/-- The bytes of a line number under a mask. -/
def maskedBytes (mask line : Nat) : List (Nat × Byte) :=
  ((List.range 128).filter fun o => mask.testBit o).map fun o => (o, BitVec.ofNat 8 (line / 2 ^ (8 * o)))

/-! ### Atomic and reduction operands -/

/-- The operands of lanes in ascending order, a CAS with each comparand after its operand. -/
def operandNum (f : AFn) (accs : List Acc) : Nat × Nat :=
  accs.foldl (fun (a : Nat × Nat) x =>
    let v := a.1 + x.val % 2 ^ (8 * x.n) * 2 ^ (8 * a.2)
    if f == .cas then (v + x.cmp % 2 ^ (8 * x.n) * 2 ^ (8 * (a.2 + x.n)), a.2 + 2 * x.n) else (v, a.2 + x.n)) (0, 0)

/-- A number of `n` bytes cut into flits. -/
def flitsOf (v n : Nat) : List Nat := (List.range ((n + 63) / 64)).map fun i => v / 2 ^ (512 * i) % 2 ^ 512
def ofFlits (data : List Nat) : Nat := (data.mapIdx fun i v => (i, v)).foldl (fun n p => n + p.2 * 2 ^ (512 * p.1)) 0

def lidxOf (accs : List Acc) : Nat := (accs.mapIdx fun i a => (i, a)).foldl (fun n p => n + p.2.off / 4 % 32 * 2 ^ (5 * p.1)) 0

/-- The accesses that an operand packet carries. -/
def operandAccs (f : AFn) (n count lidx : Nat) (data : List Nat) : List Acc :=
  let all := ofFlits data
  let step := if f == .cas then 2 * n else n
  (List.range count).map fun i =>
    mkAcc i (4 * bitsOf lidx (5 * i) 5) n (bitsOf all (8 * step * i) (8 * n)) (if f == .cas then bitsOf all (8 * (step * i + n)) (8 * n) else 0)

/-! ### COLL functions (R274) -/

/-- The COLL function code of an item. -/
def collCode : ItemKind → Nat
  | .store => 0
  | .load => 1
  | .reduce .faddF32 => 2
  | .reduce .faddBf16x2 => 3
  | .reduce .fmaxF32 => 4
  | _ => 5

def collFn (n : Nat) : AFn :=
  match n with
  | 2 => .faddF32
  | 3 => .faddBf16x2
  | 4 => .fmaxF32
  | _ => .add

/-! ### Requests -/

/-- The tag of a store that R105 lets travel: the value id, the high four bits of the version and the grade in AUX, the other
twelve bits of the version above the address. -/
def pubAux (p : Option PubTag) : Nat :=
  match p with
  | some t => t.val + 2 ^ 20 * (t.ver / 2 ^ 12) + 2 ^ 24 * t.grade + 2 ^ 28
  | none => 0

def pubAddr (p : Option PubTag) : Nat :=
  match p with
  | some t => 2 ^ 52 * (t.ver % 2 ^ 12)
  | none => 0

/-- The tag on a checked store, whose AUX[15:0] is the guard version: the version in AUX[31:16], the grade plus one below the line's address, and
the value id above the address and in the mask's bits of the guard word, which a checked store never writes (R105, R208). -/
def pubGuard (p : Option PubTag) : Nat × Nat × Nat :=
  match p with
  | some t => (2 ^ 16 * t.ver, 2 ^ 52 * (t.val % 2 ^ 12) + t.grade + 1, t.val / 2 ^ 12)
  | none => (0, 0, 0)

/-- The request packet of an item bound for a peer (Table 22.2). -/
def State.request (s : State) (i : Item) (dev tag : Nat) : Hdr × List Nat :=
  let ten := (s.ctx i.ctx).ten
  let comm := i.comm.map fun m => s.commEntry i.ctx m
  let cls := match comm with | some e => ceClass e | none => 0
  let mask := byteMask (accOffs i.accs)
  let line := lineNum (storeBytes i.accs)
  let sc := i.scope.toNat * 2 ^ 29
  let hdr := fun (kind aux mask lidx : Nat) (data : List Nat) =>
    ({ s.reqHdr kind cls dev tag ten with addr := BitVec.ofNat 64 (i.line + pubAddr i.pub), aux := BitVec.ofNat 32 aux, mask := mask, lidx := lidx
                                          nflit := BitVec.ofNat 4 data.length }, data)
  match i.kind with
  | .load => if comm.isSome then hdr 5 (1 + sc) mask 0 [] else hdr 1 sc mask 0 []
  | .loadG _ => hdr 1 sc (byteMask ([0, 1] ++ accOffs i.accs)) 0 []
  | .store => if comm.isSome then hdr 5 sc mask 0 (halves mask line) else hdr 2 (pubAux i.pub + sc) mask 0 (halves mask line)
  | .storeG ver =>
    let (a, b, c) := pubGuard i.pub
    let r := hdr 3 (ver.toNat + a) mask 0 (halves mask line)
    ({ r.1 with addr := BitVec.ofNat 64 (i.line + b), mask := mask + c }, r.2)
  | .atomic f w =>
    let (v, b) := operandNum f i.accs
    hdr 4 (f.code + 2 ^ 5 * w.toNat + 2 ^ 8 * (i.accs.length - 1) + sc) 0 (lidxOf i.accs) (flitsOf v b)
  | .reduce f =>
    let (v, b) := operandNum f i.accs
    hdr 5 (collCode (.reduce f) + 2 ^ 8 * (i.accs.length - 1) + sc) 0 (lidxOf i.accs) (flitsOf v b)

end Sys2Proof.Machine
end

