-- ==== Sys2Proof/Machine/Order.lean ====
section
/-! DEFINITION. The ordering machine (R112 to R131, R349, R356 to R369): items are sent and performed, writes are applied, fanned
out and exposed, and copies come and go. Each event whose conditions do not hold leaves the state. -/

namespace Sys2Proof.Machine

/-- The access is still on its way. A store kept in a copy of an NC line is not: nothing but its gang's own CFLUSH ends it (R130). -/
def Item.open' (i : Item) : Bool := i.st != .done && i.st != .failed && i.st != .kept

/-- The access is not performed: a store in the egress hold and one kept in a copy of an NC line are among those (R103, R130). -/
def Item.pending (i : Item) : Bool := i.st != .done && i.st != .failed

def Item.isLoad (i : Item) : Bool :=
  match i.kind with
  | .load | .loadG _ => true
  | _ => false

def Item.isStore (i : Item) : Bool :=
  match i.kind with
  | .store | .storeG _ => true
  | _ => false

/-! ### What holds an item back -/

/-- Where the line of an item lives: stash lines are lines of device memory. -/
def Dst.space : Dst → Nat × Nat
  | .dev => (0, 0)
  | .stash _ => (0, 0)
  | .host => (1, 0)
  | .peer d => (2, d)
  | .window => (3, 0)

/-- Two items of one gang reach the same line (R117). A store held under PEND is known by its virtual line alone. -/
def sameLine (a b : Item) : Bool :=
  if a.st == .held || b.st == .held then a.vline == b.vline else a.dst.space == b.dst.space && a.line == b.line

/-- The access goes to a peer or to the host. -/
def Item.leavesDev (i : Item) : Bool := match i.dst with | .host | .peer _ => true | _ => false

/-- The run of the item may not send stores off the device yet (R103). -/
def State.itemGated (s : State) (i : Item) : Bool := s.gated i.ctx i.inst i.run

/-- An earlier CFLUSH of the gang to the line is not complete (R210). -/
def State.behindFlush (s : State) (i : Item) : Bool :=
  i.dst.space == (0, 0) && s.ops.any fun o => o.uid == i.uid && o.id < i.pos && (match o.kind with | .cflush ls => ls.contains i.line | _ => false)

/-- The virtual line of an access; a window access is known by its place there. -/
def Item.seen (i : Item) : Nat := if i.dst == .window then lwin + i.line else i.vline.toNat

/-- An earlier MLOOP of the gang has yet to fetch the line (R117, R239). -/
def State.behindLoop (s : State) (i : Item) : Bool := s.ops.any fun o => o.uid == i.uid && o.id < i.pos && o.kind.yetReads i.seen

/-- An earlier access of the gang to the line is not over (R117). A store in the egress hold does not hold back a load, nor a store
that enters the hold after it. -/
def State.behindLine (s : State) (i : Item) : Bool :=
  i.uid != 0 && (s.behindFlush i || s.behindLoop i || s.items.any fun x =>
    x.before i && x.open' && sameLine x i && !(x.st == .egress && (i.isLoad || s.itemGated i)))

/-- Packets of one instruction leave in the order of their lowest lanes, the rows of an MSTORE in ascending order (R134, R242): those of an
instruction's items that stand before this one have left, and an MSTORE's are performed. -/
def State.behindOp (s : State) (i : Item) : Bool :=
  let rows := (s.op? i.op).any fun o => (match o.kind with | .mstore _ => true | _ => false)
  i.op != 0 && i.uid != 0 && s.items.any fun x => x.op == i.op && x.id < i.id &&
    ((rows && x.open' && x.st != .egress) || (x.st == .queued && i.dst.space.1 == 2 && x.dst.space.1 == 2))

/-- Every byte of an access is covered by the gang's earlier stores that have not been performed; the bytes of the latest (R117, R121).
Nothing but plain stores stands before it on its line: the others are performed first. -/
def State.ownBytes (s : State) (i : Item) (a : Acc) : Option Nat :=
  let earlier := s.items.filter fun x => x.before i && x.open' && sameLine x i
  if s.behindFlush i || s.behindLoop i || earlier.any fun x => x.kind != .store || x.st == .held then none else
  let bytes := earlier.flatMap fun x => storeBytes x.accs
  let find := fun (o : Nat) => (bytes.reverse.find? fun b => b.1 == o).map (·.2)
  if (List.range a.n).all fun k => (find (a.off + k)).isSome then some (leNat ((List.range a.n).map fun k => (find (a.off + k)).getD memBlank))
  else none

/-! ### The core-local window (R63, R64, R117) -/

/-- A byte of VBASE or SBASE, by its offset in the window. -/
def Gang.winByte (g : Gang) (a : Nat) : Byte :=
  if a < 0x100000 then BitVec.ofNat 8 ((lane (g.mainV (a / 128)) (a % 128 / 4)).toNat / 256 ^ (a % 4))
  else ((g.stash[(a - 0x100000) / 4096]?).map fun p => memRead p.data (a % 4096)).getD memBlank

def Gang.setWinByte (g : Gang) (a : Nat) (b : Byte) : Gang :=
  if a < 0x100000 then
    let l := a % 128 / 4
    g.setMain (a / 128) (mergeV (g.mainV (a / 128)) (mkV fun _ => b.setWidth 32 <<< (8 * (a % 4))) (1#32 <<< l) (0xFF#32 <<< (8 * (a % 4))))
  else g.onPage ((a - 0x100000) / 4096) fun p => { p with data := memWrite p.data (a % 4096) b }

def Gang.winRead (g : Gang) (a n : Nat) : Nat := leNat ((List.range n).map fun k => g.winByte (a + k))
def Gang.winWrite (g : Gang) (a n v : Nat) : Gang :=
  (List.range n).foldl (fun (g : Gang) k => g.setWinByte (a + k) (BitVec.ofNat 8 (v / 256 ^ k))) g

/-- An item in the window is performed within the core, its lanes in turn. -/
def Gang.winItem (g : Gang) (i : Item) : Gang × List Acc :=
  i.accs.foldl (fun (r : Gang × List Acc) a =>
    let at' := i.line + a.off
    match i.kind with
    | .store | .storeG _ => (r.1.winWrite at' a.n a.val, r.2 ++ [{ a with done := true }])
    | .atomic f _ | .reduce f =>
      let old := r.1.winRead at' a.n
      (r.1.winWrite at' a.n (atomicNew f (8 * a.n) old a.val a.cmp), r.2 ++ [{ a with val := old, done := true }])
    | _ => (r.1, r.2 ++ [{ a with val := r.1.winRead at' a.n, done := true }])) (g, [])

/-! ### The egress hold (R103 to R105) -/

/-- The die whose hold an item's stores enter: that of its gang or engine. -/
def State.itemDie (s : State) (i : Item) : Nat :=
  match s.op? i.op with
  | some o => o.die
  | none => ((s.cores.find? fun k => k.engines.any fun e => e.cmds.any fun c => c.tag == i.op).map (·.die)).getD 0

def holdBytes : Nat := 4 * 1048576

/-- A store enters the hold, or waits while the hold is full (R104). Its data bytes are what it takes of the 4 MiB (log 86). -/
def State.enterHold (s : State) (i : Item) : State :=
  let d := s.itemDie i
  let n := i.accs.foldl (fun n a => n + a.n) 0
  if (s.die d).eghold.foldl (fun m h => m + h.data) 0 + n > holdBytes then s
  else
    let i := { i with st := .egress }
    (s.setItem i).onDie d fun x => { x with eghold := x.eghold ++ [{ item := i, data := n }] }

/-- The tag under which a gated store to a peer travels at once: all of it lies in the data of a POD-scope output of its run (R105). Its version is
the one the run will publish, or the first that it has published (log 86). -/
def State.tagFor (s : State) (i : Item) : Option PubTag :=
  match s.inst? i.ctx i.inst with
  | none => none
  | some x =>
    (x.tr.outIds.filterMap fun o =>
      match s.peekValue i.ctx o.2 with
      | none => none
      | some e =>
        let inside := i.accs.all fun a => veBase e ≤ i.vline.toNat + a.off && i.vline.toNat + a.off + a.n ≤ veBase e + veLen e
        if vePod e && inside then
          let ver := match x.pubs.find? (·.idx == o.1) with | some p => p.ver | none => veVersion e + 1
          some { val := o.2, ver := ver, grade := (s.egressGrade i.ctx i.inst i.run).getD 3 : PubTag }
        else none).head?

/-! ### Sending (R117, R122, R129, R134, R143, R382) -/

/-- The function whose requester ID a context's host requests carry (R382). -/
def State.hostFn (s : State) (ctx : Nat) : HostFn := if (s.ctx ctx).priv then .pf else .vf (s.ctx ctx).ten

/-- The AtomicOp of a lane (R213). -/
def hostAtomic (f : AFn) (n v : Nat) : HostAtomic × Nat :=
  match f with
  | .add => (.fetchAdd, v)
  | .sub => (.fetchAdd, (2 ^ (8 * n) - v % 2 ^ (8 * n)) % 2 ^ (8 * n))
  | .xchg => (.swap, v)
  | .cas => (.cas, v)
  | _ => (.other, v)

/-- A load that leaves the device sees the bytes of the gang's earlier stores that stand in the egress hold (R117; log 21). -/
def State.withHeld (s : State) (i : Item) : Item :=
  let earlier := s.items.filter fun x => x.before i && x.st == .egress && x.kind == .store && x.dst.space == i.dst.space && x.line == i.line
  let bytes := earlier.flatMap fun x => storeBytes x.accs
  let see := fun (a : Acc) =>
    (List.range a.n).foldl (fun (a : Acc) k =>
      match bytes.reverse.find? fun b => b.1 == a.off + k with
      | some b => if a.ov.testBit k then a else { a with ov := a.ov + 2 ^ k, ovv := setBits a.ovv (8 * k) 8 b.2.toNat }
      | none => a) a
  if i.isLoad then { i with accs := i.accs.map see } else i

/-- Sends an item to the host; an atomic sends its lanes one after another. -/
def State.sendHost (s : State) (i : Item) : State :=
  if !s.hlUp then s.failItem i
  else
    let s := s.setItem { i with st := .sent }
    match i.kind with
    | .atomic f _ | .reduce f =>
      (match i.accs.find? fun a => !a.done with
       | some a =>
         let (k, v) := hostAtomic f a.n a.val
         s.say (.atomicReq i.id (s.hostFn i.ctx) k (BitVec.ofNat 64 v) (BitVec.ofNat 64 a.cmp) a.n)
       | none => s)
    | _ => s.say (.request i.id (s.hostFn i.ctx) i.isStore)

/-- Sends an item to a peer: with no route it completes with FABRIC (R133). -/
def State.sendPeer (s : State) (i : Item) (dev : Nat) : State :=
  match s.route? dev with
  | none => s.failItem i
  | some _ =>
    let (t, s) := s.newTag
    let r := s.request i dev t
    (s.setItem { i with st := .sent, tag := some t }).emit r.1 r.2

/-- An NC store is written into the core's copy, which takes the line first (R363), and is kept there until the gang's CFLUSH (R130); a clean
copy that an access through a coherent mapping has left gives way to it (R364). A partition core that may not keep the line sends the store to
the order point (R366). -/
def State.storeNc (s : State) (i : Item) : State :=
  match s.op? i.op with
  | none => s.setItem { i with st := .arrived }
  | some o =>
    if s.sharedFrame o.die o.core i.ctx i.line then s.setItem { i with st := .arrived }
    else if (s.txn? i.line).isSome && !(((s.core o.die o.core).l1.any fun x => x.line == i.line && x.nc)) then s
    else
      let s := if (s.core o.die o.core).l1.any fun x => x.line == i.line && x.nc then s else s.lineReady i.line false
      let s := s.onCore o.die o.core fun k => { k with l1 := k.l1.filter fun x => x.line != i.line || x.nc }
      let s := (s.fillL1 o.die o.core i.line true false).fillL2 o.die i.line true
      let bytes := storeBytes i.accs
      (s.onCore o.die o.core fun k => { k with l1 := k.l1.map fun x =>
        if x.line == i.line && x.nc then { x with data := setBytes x.data bytes, dirty := (bytes.map (·.1) ++ x.dirty).eraseDups } else x }).setItem
        { i with st := .kept }

/-- The waits of a STREL at its scope (R122). -/
def State.relWaits (s : State) (i : Item) : Bool := i.rel && !s.releaseMet i.uid i.pos i.scope.toNat

/-- A COLL item may be injected: its grant stands and holds the power leave it asked for (R143, R341). -/
def State.mayInject (s : State) (i : Item) : Bool :=
  match s.op? i.op with
  | none => false
  | some o => ((s.core o.die o.core).grant).any fun r => s.underGrant r i && !s.leaveMissing o.die r.op

/-- After a COLL item has been handed to its first hop. -/
def State.injected (s : State) (i : Item) : State :=
  match i.comm, s.op? i.op with
  | some _, some o => (s.grantOver o.die o.core).pushCommit i.uid
  | _, _ => s

/-- An item leaves for its order point. What cannot be held was refused at issue, so that an atomic here was issued before its run was gated (R104). -/
def State.sendItem (s : State) (i : Item) : State :=
  match i.dst with
  | .window =>
    (match s.gang? i.uid with
     | none => s
     | some g =>
       let (g, accs) := g.winItem i
       (s.setGang g).setItem { i with accs := accs, st := .done })
  | .stash n =>
    (match i.kind with
     | .storeG _ => s.leavesStash i
     | _ =>
       if !s.pageOver i n then s.leavesStash i else
       let dirty := ((s.gang? i.uid).bind fun g => g.stash[n]?).any fun p => p.covers i.line && p.lineState (p.lnOf i.line) == .dirty
       if dirty then s.stashPerform i n else s.setItem { i with st := .notice })
  | .dev => if i.nc && i.kind == .store then s.storeNc i else s.setItem { i with st := .arrived }
  | .host =>
    if s.itemGated i then
      (if i.isStore then s.enterHold i else s.sendHost (s.withHeld i))
    else s.sendHost (s.withHeld i)
  | .peer dev =>
    if s.itemGated i && i.comm.isNone then
      (if i.isStore then
        (match s.tagFor i with
         | some t => s.sendPeer { i with pub := some t } dev
         | none => s.enterHold i)
       else s.sendPeer (s.withHeld i) dev)
    else s.sendPeer (s.withHeld i) dev

/-- The store of IDLE's device rows waits for step 2 of R327. -/
def State.idleWaits (s : State) (i : Item) : Bool := (s.op? i.op).any fun o => (match o.kind with | .idle _ set => !set | _ => false)

/-- OUTBOUND_SEND (R117, R118, R122, R129, R134, R376, R382). A load of device memory is performed by LOAD_PERFORM alone. -/
def execOutboundSend (n : Nat) (s : State) : Out :=
  match s.item? n with
  | none => .next s
  | some i =>
    let local' := i.dst.space.1 == 0 || i.dst.space.1 == 3
    if i.st == .queued && i.leavesDev && !(s.gradeLines i.ctx i.inst).isEmpty then .next (s.askData (s.gradeLines i.ctx i.inst))
    else if i.st != .queued || (i.isLoad && local') || s.behindLine i || s.behindOp i || s.relWaits i || s.idleWaits i then .next s
    else if i.comm.any fun m => s.commDead (s.ctx i.ctx).ten m then .next ((s.failItem i).injected i)
    else if i.comm.isSome && !s.mayInject i then .next s
    else if i.dst == .dev && !s.present i.line then .fault .absentAddress
    else .next ((s.sendItem i).injected i)

/-! ### Loads (R116, R117, R121, R207, R363, R366) -/

/-- A partition core keeps no copy of a frame that another tenant's windows reach, and reads it at its order point (R366). -/
def State.mayFill (s : State) (d c ctx line : Nat) : Bool := !s.sharedFrame d c ctx line

/-- A copy holds a write that is not exposed (R116). -/
def State.early (s : State) (line : Nat) (c : CopyRef) : Bool := (s.txn? line).any fun t => !t.inval && !t.wait.contains c

def readData (data : List Byte) (off n : Nat) : Nat := leNat ((data.drop off).take n)

/-- The accesses that the event performs: its lanes, and those of forms without lanes. -/
def pickAcc (lanes : BitVec 32) (a : Acc) : Bool := !a.done && (a.lane ≥ 32 || lanes.getLsbD a.lane)

/-- The picked accesses take their values. -/
def State.tookLoad (s : State) (i : Item) (lanes : BitVec 32) (val : Acc → Nat) : State :=
  let accs := i.accs.map fun a => if pickAcc lanes a then { a with val := val a, done := true } else a
  s.setItem { i with accs := accs, st := if accs.all (·.done) then .done else i.st }

/-- The host may hold the line modified: its data is asked for first (R368). -/
def State.snoopFirst (s : State) (line : Nat) : Option State :=
  if s.snoops.contains line then some s
  else if s.hostFilter.contains (line, true) then some { (s.say (.bisnp line false)) with snoops := line :: s.snoops }
  else none

/-- The first of two needs of a fill that is not met: the modified data of the host (R368), or a way of a directory (R358, R362). -/
def State.fillFirst (s : State) (d line : Nat) : Option State :=
  match s.snoopFirst line with
  | some s => some s
  | none => (s.fillNeed d line).map s.ask

/-- A load from a mapped stash page (R53); the host's data comes first here too (R368). A load whose page covers its line no more is performed at the order point. -/
def State.loadStash (s : State) (i : Item) (n : Nat) (lanes : BitVec 32) : State :=
  match s.gang? i.uid, (s.gang? i.uid).bind fun g => g.stash[n]? with
  | some g, some p =>
    let ln := p.lnOf i.line
    if !p.covers i.line then s.setItem { i with dst := .dev }
    else if p.lineState ln == .invalid then
      (if (s.txn? i.line).isSome then s
       else
         match s.fillFirst g.loc.die i.line with
         | some s => s
         | none =>
           let s := s.recall i.line
           (s.fillStash i.uid n i.line).tookLoad i lanes fun a => memNat s.mem (i.line + a.off) a.n)
    else if s.early i.line (.stash i.uid n) then s
    else (s.snoopFirst i.line).getD (s.tookLoad i lanes fun a => memNat p.data (128 * ln + a.off) a.n)
  | _, _ => s.setItem { i with dst := .dev }

/-- What an access reads at the order point of its line: memory, but the bytes of its gang's own earlier stores that its core still keeps (R117, R130). -/
def State.pointRead (s : State) (o : Op) (i : Item) (a : Acc) : Nat :=
  let own := ((s.items.filter fun x => x.before i && x.st == .kept && x.line == i.line).flatMap fun x => storeBytes x.accs).map (·.1)
  match (s.core o.die o.core).l1.find? fun x => x.line == i.line && x.nc with
  | some x =>
    if !i.nc || own.isEmpty then memNat s.mem (i.line + a.off) a.n
    else leNat ((List.range a.n).map fun k =>
      if own.contains (a.off + k) && x.dirty.contains (a.off + k) then x.data.getD (a.off + k) memBlank else memRead s.mem (i.line + a.off + k))
  | none => memNat s.mem (i.line + a.off) a.n

/-- A load at the order point (R115, R121); VLDC compares the guard word there (R207). A load fills the copies, one of policy 2 no L1
(R205). -/
def State.loadPoint (s : State) (o : Op) (i : Item) (lanes : BitVec 32) : State :=
  let fills := o.kind != .store && i.kind == .load && i.comm.isNone && s.mayFill o.die o.core i.ctx i.line
  if (s.txn? i.line).isSome then s
  else
    match (if fills && !i.nc then s.fillFirst o.die i.line else s.snoopFirst i.line) with
    | some s => s
    | none =>
      let s := s.recall i.line
      match i.kind with
      | .loadG ver =>
        let ok := memNat s.mem i.line 2 == ver.toNat
        if ok then s.tookLoad i lanes (s.pointRead o i)
        else s.setItem { i with accs := i.accs.map fun a => { a with val := 0, cmp := 1, ov := 0, done := true }, st := .done }
      | _ =>
        let s := if fills then
            (if i.pol == 2 then s else s.fillL1 o.die o.core i.line i.nc (i.pol == 1)).fillL2 o.die i.line i.nc
          else s
        s.tookLoad i lanes (s.pointRead o i)

/-- The load may read a copy on the core, or on the die: an ordered one as its scope lets it (R121), one of policy 2 past the L1 (R205); a
COLL.GET reads at the order point (R141). -/
def Item.mayCopy (i : Item) (core : Bool) : Bool :=
  match i.kind with
  | .load => i.comm.isNone && if i.acq then (if core then i.scope.toNat < 2 else i.scope == 0) else !core || i.pol != 2
  | _ => false

/-- A COLL.GET of the own rank's window is performed under the grant, as one that leaves the device is sent under it (R141, R143). -/
def State.loadColl (s : State) (o : Op) (i : Item) (lanes : BitVec 32) : State :=
  match i.comm with
  | none => s.loadPoint o i lanes
  | some m =>
    if s.commDead (s.ctx i.ctx).ten m then (s.failItem i).injected i
    else if !s.mayInject i then s
    else
      let t := s.loadPoint o i lanes
      if (t.item? i.id).any fun x => x.st == .queued then t else t.injected i

/-- A load from a copy; a line that the host may have modified is asked for first, and its data updates the copy (R368). -/
def State.readCopy (s : State) (i : Item) (lanes : BitVec 32) (nc : Bool) (data : List Byte) : State :=
  match (if nc then none else s.snoopFirst i.line) with
  | some s => s
  | none => s.tookLoad i lanes fun a => readData data a.off a.n

/-- An NC line that a load finds in the die's L2 is filled into its core's L1, as it stands there (R363); not under policy 2 (R205). -/
def State.l2Nc (s : State) (o : Op) (i : Item) (x : L2Copy) : State :=
  if i.nc && x.nc && i.pol != 2 then s.onCore o.die o.core fun k =>
    { k with l1 := { line := i.line, data := x.data, nc := true, dirty := [], first := i.pol == 1 } :: k.l1.filter fun y => y.line != i.line }
  else s

/-- LOAD_PERFORM (R116 to R118, R121, R130). A copy of an NC line that holds what only it has is read also under policy 2 (R205; log 87). -/
def execLoadPerform (n : Nat) (src : LoadSrc) (lanes : BitVec 32) (s : State) : Out :=
  match s.item? n with
  | none => .next s
  | some i =>
    let own := src == .own && i.acq && i.scope == 0 && i.kind == .load
    if i.st != .queued || !i.isLoad then .next s
    else if own then
      .next (if i.accs.all fun a => !pickAcc lanes a || (s.ownBytes i a).isSome then s.tookLoad i lanes fun a => (s.ownBytes i a).getD 0 else s)
    else if s.behindLine i then .next s
    else
      match i.dst, s.op? i.op with
      | .window, _ =>
        .next (match s.gang? i.uid with
          | none => s
          | some g => s.tookLoad i lanes fun a => g.winRead (i.line + a.off) a.n)
      | .stash k, _ => if s.present i.line then .next (s.loadStash i k lanes) else .fault .absentAddress
      | .dev, some o =>
        let k := s.core o.die o.core
        let inL1 := k.l1.find? fun x => x.line == i.line
        let fill := s.mayFill o.die o.core i.ctx i.line
        let ncHere := i.nc && fill && inL1.any (·.nc)
        (match src with
         | .l1 =>
           .next (match inL1 with
             | none => s
             | some x =>
               if !fill || !(i.mayCopy true || (ncHere && !i.acq)) || (!x.nc && s.early i.line (.l1 o.die o.core)) then s
               else s.readCopy i lanes x.nc x.data)
         | .l2 =>
           .next (match (s.die o.die).l2.find? fun x => x.line == i.line with
             | none => s
             | some x =>
               if !fill || !i.mayCopy false || ncHere || (s.sliceDH o.die i.line).isSome || (!x.nc && s.early i.line (.l2 o.die)) then s
               else (s.l2Nc o i x).readCopy i lanes x.nc x.data)
         | .orderPoint =>
           if !s.present i.line then .fault .absentAddress
           else if ncHere && (!i.acq || i.scope.toNat < 2) && i.kind == .load then .next s
           else .next (s.loadColl o i lanes)
         | .own => .next s)
      | _, _ => .next s

/-! ### Writes at the order point (R115) -/

/-- ORDER_POINT_APPLY (R115): the earliest arrived write of the line takes the next position. -/
def execOrderPointApply (line : Nat) (s : State) : Out :=
  match s.items.find? fun i => i.st == .arrived && i.line == line with
  | none => .next s
  | some i =>
    if !s.present line then .fault .absentAddress
    else if (s.txn? line).isSome || s.snoops.contains line then .next s
    else
      -- an atomic reads the line: what the host holds modified comes first (R368)
      let reads := !i.isStore || (match i.kind with | .storeG _ => true | _ => false)
      match (if reads then s.snoopFirst line else none) with
      | some s => .next s
      | none => .next (s.applyItem i)

/-- UPDATE (R115, R116, R357): one copy applies the write, or acknowledges in its stead (R361, R365). The host answers by BIRSP. -/
def execUpdate (line : Nat) (c : CopyRef) (s : State) : Out :=
  .next (match s.txn? line with
    | none => s
    | some t => if t.inval || c == .host || !t.wait.contains c then s else s.ackCopy t c)

/-- INVALIDATION (R360): a die drops its copies, a DIRTY one after its write-back. -/
def execInvalidation (line die : Nat) (s : State) : Out :=
  .next (match s.txn? line with
    | none => s
    | some t => if !t.inval || !t.wait.contains (.l2 die) then s else s.ackCopy t (.l2 die))

/-- WRITE_EXPOSE (R115, step 3). The notice of a stash store ends with the store itself (R53). -/
def execWriteExpose (line : Nat) (s : State) : Out :=
  .next (match s.txn? line with
    | none => s
    | some t => if t.wait.isEmpty then s.expose t else s)

/-- DIRTY_HOLDER_NOTICE (R53, R360): a line that the page does not hold is filled first; other dies and the host give up their copies before the
slice acknowledges the store. -/
def execDirtyHolderNotice (n : Nat) (s : State) : Out :=
  match s.item? n with
  | none => .next s
  | some i =>
    match i.dst, s.gang? i.uid with
    | .stash k, some g =>
      if i.st != .notice || (s.txn? i.line).isSome || s.snoops.contains i.line then .next s
      else if !s.present i.line then .fault .absentAddress
      else if !s.pageOver i k then .next (s.leavesStash i)
      else
        match s.fillNeed g.loc.die i.line with
        | some w => .next (s.ask w)
        | none =>
          let s := s.recall i.line
          let held := (g.stash[k]?).any fun p => p.lineState (p.lnOf i.line) != .invalid
          let s := if held then s else s.fillStash i.uid k i.line
          let others := (List.range 4).filter fun d => d != g.loc.die && d != homeDie i.line && s.dieHolds d i.line
          let host := s.hostFilter.any fun p => p.1 == i.line
          let s := if host then s.say (.bisnp i.line true) else s
          .next { s with txns := s.txns ++ [{
            line := i.line, bytes := [], wait := (others.map fun d => .l2 d) ++ (if host then [.host] else []), item := some i.id, inval := true }] }
    | _, _ => .next (if i.st == .notice then s.leavesStash i else s)

/-! ### Write-backs, evictions and overflows (R53, R54, R358 to R362) -/

/-- A release of the gang waits for its DIRTY lines (R54, R268). -/
def State.wantsClean (s : State) (uid : Nat) : Bool :=
  (s.ops.any fun o => o.uid == uid &&
    (match o.kind with
     | .fence k sc => k.toNat ≥ 1 && sc.toNat ≥ 2
     | .gpub _ _ _ _ _ => true
     | .tspawn _ _ _ started _ _ => !started
     | .tlbinv w => s.sweeps.any fun x => x.id == w && !x.began
     | _ => false)) ||
  (s.items.any fun i => i.uid == uid && i.rel && i.st == .queued && i.scope.toNat ≥ 2) ||
  (s.rstvs.any fun r => r.uid == uid && r.rel && r.scope.toNat ≥ 2)

/-- WRITE_BACK (R53, R360): a DIRTY line of a gang that releases goes to its order point and stays CLEAN. -/
def execWriteBack (line die : Nat) (s : State) : Out :=
  .next (
    if (s.txn? line).isSome then s
    else
      match (s.stashHolders line).find? fun h =>
          h.2.2.2 == .dirty && s.wantsClean h.1 && ((s.gang? h.1).map fun g => g.loc.die == die).getD false with
      | some h => s.writeBack h.1 h.2.1 h.2.2.1 .clean
      | none => s)

/-- EVICTION_NOTICE (R360, R361, R363): a die gives up its clean copies of a line homed elsewhere, never an O line; the dirty NC data
that its cores hold for a line are written back. -/
def execEvictionNotice (line die : Nat) (s : State) : Out :=
  .next (
    let s := s.cores.foldl (fun (s : State) k => if k.die == die && (s.txn? line).isNone then s.flushNc die k.core line else s) s
    if homeDie line == die || (s.sliceDH die line).isSome || (s.txn? line).isSome then s else s.dropDie die line)

/-- SLICE_DIRECTORY_OVERFLOW (R358): the victim of a full set loses its copies on the die, a DIRTY line after its write-back. It is the way
allocated least recently of those without an action in progress; a fill that needs the entry makes the same step (log 10). -/
def execSliceDirectoryOverflow (die line : Nat) (s : State) : Out :=
  .next (
    let ways := (s.die die).dir.filter fun l => sliceSet l == sliceSet line && s.dieHolds die l
    if s.victim ways == some line then s.dropDie die line else s)

/-- Every die but the home gives up a line (Table 21.1, the victim row). -/
def State.dropFar (s : State) (line : Nat) : State :=
  ((List.range 4).filter fun d => d != homeDie line).foldl (fun (s : State) d => s.dropDie d line) s

/-- SNOOP_FILTER_VICTIM (R362): a way of a full set, with no action in progress, goes. -/
def execSnoopFilterVictim (line : Nat) (s : State) : Out :=
  .next (
    if s.farHeld line && 16 ≤ (s.sfWays line).length + 1 && (s.txn? line).isNone && !s.snoops.contains line then s.dropFar line else s)

/-- BIRSP (R368): the host gives up, or shares, a device line, with its data where it had changed the line: they reach the order point, every
copy and the watched words as any write does, but for the bytes that the write in progress has given since. -/
def execBirsp (line : Nat) (data : List Byte) (s : State) : Out :=
  .next (
    let put := fun (s : State) (keep : List Nat) =>
      if data.length == 128 then
        let given := (List.range 128).filter fun o => !keep.contains o
        let new := given.filter fun o => data.getD o memBlank != memRead s.mem (line + o)
        (s.putLine line (new.map fun o => (o, data.getD o memBlank))).notePhys line given
      else s
    match s.txn? line with
    | some t =>
      if t.wait.contains .host then (put s (t.bytes.map (·.1))).ackCopy t .host else s
    | none =>
      if s.snoops.contains line then
        let s := put s []
        { s with snoops := s.snoops.filter (· != line), hostFilter := s.hostFilter.map fun p => if p.1 == line then (line, false) else p }
      else s)

/-! ### PEND and sweeps (R318, R349, R350) -/

/-- What a held item asks of a translation. -/
def Item.need (i : Item) : Need :=
  let n := (i.accs.head?.map (·.n)).getD 1
  match i.kind with
  | .storeG _ => guardedNeed .store n
  | .atomic f _ => atomNeed n (hostAtomOk f)
  | _ => plainNeed .store n

/-- A held item translates again as its access does: each lane of a gang's vector access through its last-page register, anything else through
the TLB of its core (R348, R349). -/
def State.xlateItem (s : State) (i : Item) (va : Nat) (k : AccKind) : State × XRes :=
  match s.gang? i.uid, s.itemCore i with
  | some g, _ =>
    let one := fun (s : State) (l : Nat) => if l < 32 then s.xlateLane g l va k else s.xlateCore g.loc.die g.loc.core g.ctx va k
    (match i.accs.map (·.lane) with
     | [] => one s 32
     | l :: ls => ls.foldl (fun r l => one r.1 l) (one s l))
  | none, some c => s.xlateCore c.1 c.2 i.ctx va k
  | none, none => let s := s.tablesReady i.ctx va 1; (s, s.translate i.ctx va k)

/-- PEND_STORE_RETRY (R349): the item translates again; a fault is recorded and leaves it held. -/
def execPendStoreRetry (n : Nat) (s : State) : Out :=
  .next (match s.item? n with
    | none => s
    | some i =>
      if i.st != .held || !i.retry then s
      else
        let q := i.need
        let va := i.vline.toNat
        match (s.setItem { i with retry := false }).xlateItem i va q.kind with
        | (s, .hold) => s
        | (s, .xlate) => s.enterFault i.ctx va q.kind
        | (s, .prot) => s.enterFault i.ctx va q.kind
        | (s, .ok pa e) =>
          match placeOf s q va pa e with
          | .ok p =>
            -- a page of the gang's stash that is mapped over the line takes the access (R52)
            let page := (s.gang? i.uid).bind fun g => (g.stashOver va).filter fun n => p.dst == .dev && (g.stash[n]?).any fun x => x.covers p.line
            s.setItem { i with dst := (match page with | some n => .stash n | none => p.dst), line := p.line, nc := p.nc, st := .queued, retry := false }
          | .bad _ => s.enterFault i.ctx va q.kind)

/-- The items of a context that a sweep has to wait for: those placed under a translation it drops (R322). -/
def State.sweepItems (s : State) (w : Sweep) : List Nat :=
  (s.items.filter fun i => i.ctx == w.ctx && i.pending && i.st != .held && i.dst != .window &&
    (w.all || i.vline.toNat / 2 ^ 47 == w.va / 2 ^ 47)).map (·.id)

/-- A sweep names the core: it holds a translation that the sweep covers, or a gang of it has a stash page mapped (R350). -/
def State.sweepNames (s : State) (k : Core) (ent : TlbEnt → Bool) (wk : WalkEnt → Bool) (ctx : Nat) : Bool :=
  k.tlb.any ent || k.walkc.any wk || s.gangs.any fun g => g.loc.die == k.die && g.loc.core == k.core &&
    (g.lanePg.any (fun p => ent p.2) || (g.ctx == ctx && g.stash.any (·.mapped)))

/-- The gated cores, which a sweep that names them wakes first (R365). -/
def State.sleepers (s : State) : List Core := s.cores.filter (·.gated)

/-- TLB_SWEEP_DONE (R322, R349, R350). The sweep begins once the issuing gang's earlier accesses are performed at DEVICE scope, its DIRTY lines written back: every
named core drops its translations. It is done once the accesses that used them are performed. -/
def execTlbSweepDone (n : Nat) (s : State) : Out :=
  .next (match s.sweeps.find? (·.id == n) with
    | none => s
    | some w =>
      if !w.began then
        (if (w.op.isSome && !s.releaseMet w.uid w.after 3) || s.sleepers.any (fun k => s.sweepNames k (sweptEnt w.ctx w.all w.va) (sweptWalk w.ctx w.all w.va) w.ctx) then s
         else
           let s := (s.dropXlate w.ctx w.all w.va).sweepStash w.ctx w.all w.va
           let w := { w with began := true, waits := s.sweepItems w }
           { s with sweeps := s.sweeps.map fun x => if x.id == n then w else x })
      else if s.items.any fun i => w.waits.contains i.id && i.pending then s
      else
        let s := (s.dropXlate w.ctx w.all w.va).sweepRetry w.ctx w.all w.va
        let s : State := { s with sweeps := s.sweeps.filter fun x => x.id != n }
        match w.op with
        | none => s.onCtx w.ctx fun c => { c with tinv := false }
        | some id => { s with ops := s.ops.map fun o => if o.id == id then { o with kind := .calc [] } else o })

/-- An entry of the translation directory goes: its cores drop what derives from its table line (R350). -/
def State.dropWalk (s : State) (die idx : Nat) : State :=
  match (s.die die).tdir[idx]? with
  | none => s
  | some v =>
    let derived := fun (ctx lvl page : Nat) => ctx == v.ctx && lvl ≤ v.lvl && tdKey v.lvl page == v.va
    let here := fun (d c : Nat) => d == die && v.cores.contains c
    let s : State := { s with
      cores := s.cores.map fun k => if here k.die k.core then
          { k with tlb := k.tlb.filter fun t => !derived t.ctx t.lvl t.page, walkc := k.walkc.filter fun w => !derived w.ctx w.lvl w.va }
        else k
      gangs := s.gangs.map fun g =>
        if here g.loc.die g.loc.core then { g with lanePg := g.lanePg.filter fun p => !derived p.2.ctx p.2.lvl p.2.page } else g }
    s.onDie die fun x => { x with tdir := x.tdir.eraseIdx idx }

/-- TRANSLATION_DIRECTORY_OVERFLOW (R350): the victim is a way of a full set; a walk that needs the entry makes the same step (log 10). -/
def execTranslationDirectoryOverflow (die idx : Nat) (s : State) : Out :=
  .next (
    let td := (s.die die).tdir
    if (td[idx]?).any fun v => 16 ≤ (td.filter fun t => tdSet t.lvl t.va == tdSet v.lvl v.va).length then s.dropWalk die idx else s)

end Sys2Proof.Machine
end

