-- ==== Sys2Proof/Machine/Late.lean ====
section
/-! DEFINITION. Completion of long-latency instructions (R40, R204): what each waits for, and what lands when it completes. -/

namespace Sys2Proof.Machine

/-- The results that land: those of an aborted region that target its OPB are discarded, also when they come after the abort (R30). -/
def Op.landing (o : Op) (ws : List Wr) : List Wr :=
  if o.lost then ws.filter fun w => (match w with | .vreg _ _ _ _ => false | _ => true) else ws

/-- An operation completes: its writes land, its flag falls, and its performed items go (R40). With its gang gone nothing lands (R167). -/
def State.finish (s : State) (o : Op) (ws : List Wr) : State :=
  let s := (s.dropOp o.id).onGang o.uid fun g => (g.landAll o.opb (o.landing ws)).decFlag o.setf
  { s with items := s.items.filter fun i => i.op != o.id || i.st == .egress || i.st == .kept }

/-! ### Loaded data (R204, R207, R211, R212) -/

/-- The datum of a lane as the registers of a V destination receive it (Table 09.1). -/
def loadWrs (d : VR) (wid : BitVec 3) (sx : Bool) (accs : List Acc) : List Wr :=
  let m := accs.foldl (fun (m : W32) a => if a.lane < 32 then m ||| (1#32 <<< a.lane) else m) 0
  let val := fun (l : Nat) => match accs.find? (·.lane == l) with
    | some a => if wid.toNat ≤ 2 then extendTo 32 wid sx (a.merged a.val) else a.merged a.val
    | none => 0
  if accs.isEmpty then []
  else (List.range ((datumRegs wid d).length)).map fun k =>
    .vreg (d + BitVec.ofNat 8 k) m 0xFFFFFFFF (mkV fun l => BitVec.ofNat 32 (val l / 2 ^ (32 * k)))

/-- The single datum of a scalar destination. -/
def scalarWrs (d : SR) (wid : BitVec 3) (sx : Bool) (accs : List Acc) : List Wr :=
  match accs.head? with
  | some a => [.sreg d (BitVec.ofNat 64 (extendTo 64 wid sx (a.merged a.val)))]
  | none => []

/-- VLDC met another version in some line (R207). -/
def missWrs (accs : List Acc) (kind : List ItemKind) : List Wr :=
  if (kind.any fun k => match k with | .loadG _ => true | _ => false) && accs.any (·.cmp == 1) then [.gsSet gsVMISS] else []

/-- Items of an operation that have nothing more to do; a held store counts for stores alone (R103). -/
def Item.isOver (i : Item) (held : Bool) : Bool := i.st == .done || i.st == .failed || (held && i.st == .egress)

/-- The gang waits for its counters and cannot issue: a trap has been raised, or its region commits. What it has sent completes without any
action of it (R28, R204, R319), also a store kept in a copy of an NC line, whose flag else falls with the CFLUSH (R130; log 33). -/
def State.endsAlone (s : State) (uid : Nat) : Bool :=
  match s.gang? uid with
  | none => true
  | some g => g.trap.isSome || g.region.any fun r => r.stage != .opened

/-! ### STASH (R52, R53, R55, R215, R216) -/

/-- An earlier STASH of the gang is not complete. -/
def State.stashBehind (s : State) (o : Op) : Bool :=
  s.ops.any fun x => x.uid == o.uid && x.id < o.id && (match x.kind with | .stash _ _ _ _ _ _ => true | _ => false)

/-- A page whose mapping has ended (R55): its data stays as scratch, and the bytes of lines that were INVALID are free values (R6; log 84). -/
def StashPage.scratch (p : StashPage) (n : Nat) : StashPage :=
  let gone := (List.range 32).filter fun l => !p.lines.any fun x => x.1 == l && x.2 != .invalid
  let free := fun (l : Nat) => (List.range 128).map fun i => (Config.freeWord (n + 128 * l + i)).setWidth 8
  { p with mapped := false, va := 0, wr := false, frame := none, lines := [], stored := [], data := gone.foldl (fun m l => memWriteN m (128 * l) (free l)) p.data }

/-- A STASH function takes effect: its status and the state. The status is that of the pages as they then stand. -/
def State.stashNow (s : State) (uid : Nat) (fn : BitVec 2) (page : Option Nat) (frame va ent : W64) : State × Nat :=
  match s.gang? uid with
  | none => (s, 0)
  | some g =>
    let pages := match page with | some n => [n] | none => g.mappedPages
    let p := page.bind fun n => g.stash[n]?
    let unmapped := page.isSome && p.any fun x => !x.mapped
    match fn.toNat with
    | 0 =>
      if p.any (·.mapped) then (s, 3)
      else if g.stash.any fun x => x.mapped && x.va == va then (s, 1)
      else
        (s.onGang uid fun g => pages.foldl (fun (g : Gang) n => g.onPage n fun _ =>
          { mapped := true, va := va, wr := pteW ent, pend := ptePend ent, frame := if frame == 1 then none else some (frame.toNat / 4096 * 4096), data := []
            lines := [], stored := [], lvl := s.leafLvl g.loc.die g.loc.core g.ctx va.toNat }) g, 0)
    | 1 =>
      if unmapped then (s, 4)
      else
        let t := (s.flushPages uid pages .clean true).onGang uid fun g => pages.foldl (fun (g : Gang) n => g.onPage n fun x => x.scratch s.freeCtr) g
        ({ t with freeCtr := t.freeCtr + 4096 }, 0)
    | 2 => if unmapped then (s, 4) else (s.flushPages uid pages .clean true, 0)
    | _ =>
      if unmapped then (s, 4)
      else (s.onGang uid fun g => pages.foldl (fun (g : Gang) n => g.onPage n fun x => { x with lines := [], stored := [] }) g, 0)

/-! ### IDLE (R327) -/

/-- Step 2: every earlier access is performed, those in the egress hold and the NC stores that the core keeps apart. -/
def State.idleMet (s : State) (o : Op) : Bool :=
  ({ s with items := s.items.filter fun i => i.st != .kept } : State).performedBefore o.uid o.id 5

/-- The NC lines that hold kept stores of the gang: their write-back performs them, as a CFLUSH would (R130, R363; log 90). -/
def State.keptLines (s : State) (o : Op) : List Nat :=
  ((s.items.filter fun i => i.uid == o.uid && i.pos < o.id && i.st == .kept).map (·.line)).eraseDups

/-- Step 2 waits for what the egress hold keeps of the gang too, which is not performed until it is released (R128). -/
def State.idleHeld (s : State) (o : Op) : Bool := s.items.any fun i => i.uid == o.uid && i.pos < o.id && i.st == .egress

/-- Step 3: every earlier access is performed and the stash pages are written back; the store of the device rows may go. -/
def State.idleRowsNow (s : State) (o : Op) (base : W64) : State :=
  match s.gang? o.uid with
  | none => s.dropOp o.id
  | some g =>
    let s := (s.flushPages o.uid g.mappedPages .clean true).setOp { o with kind := .idle base true }
    { s with items := s.items.map fun i => if i.op == o.id then { i with accs := idleRows g (s.nameOf g) } else i }

/-- Steps 4 and 5: the marker, and the return of the gang's pages (R46). Claims and copy-engine contexts stay with their owner, be it the gang
itself (R327; log 22). The flag never falls (Table 17.5). -/
def State.idleNow (s : State) (o : Op) (base : W64) : State :=
  match s.gang? o.uid with
  | none => s.dropOp o.id
  | some g =>
    let s := (s.flushPages o.uid g.mappedPages .invalid false).dropOp o.id
    let s : State := { s with items := s.items.filter fun i => i.op != o.id || i.st == .egress }
    s.onGang o.uid fun g =>
      { g with status := .saved, move := .no, saveA := base, lanePg := [], wait := none, stash := g.stash.map fun _ => StashPage.blank }

/-! ### Completion -/

/-- QPUSH enters its command once the queue has room and no earlier QPUSH of the context waits (R248). -/
def State.pushNow (s : State) (o : Op) (n : Nat) (words : List W64) : Option (State × Nat) :=
  let e := (s.core o.die o.core).engine n
  let first := !(s.ops.any fun x => x.id < o.id && x.die == o.die && x.core == o.core && (match x.kind with | .qpush _ q _ => q.toNat == n | _ => false))
  if e.cmds.length < 64 && first && !e.restart then
    let (t, s) := s.fresh
    let k : Cmd := { num := e.next, words := words, uid := o.uid, inst := o.inst, run := o.run, ctx := o.ctx, tag := t, st := .queued
                     owner := match s.gang? o.uid with | some g => g.owner | none => .gang o.uid }
    some (s.onCore o.die o.core fun x => x.onEngine n fun e => { e with next := e.next + 1, cmds := e.cmds ++ [k] }, e.next)
  else none

/-- A prefetch fills what it may (R209); lines at an odd address stand for the die's L2 alone. -/
def State.prefetchNow (s : State) (o : Op) (lines : List (Nat × Bool)) : State :=
  lines.foldl (fun (s : State) l =>
    let line := lineBase l.1
    if !s.present line || (s.txn? line).isSome || s.hostFilter.contains (line, true) || !s.mayFill o.die o.core o.ctx line ||
        (!l.2 && (s.fillNeed o.die line).isSome) then s
    else
      let s := s.recall line
      let s := if l.1 % 128 == 0 then s.fillL1 o.die o.core line l.2 false else s
      s.fillL2 o.die line l.2) s

/-- A fence has kept its waits (Table 05.3). -/
def State.fenceOver (s : State) (o : Op) (k : BitVec 2) (scope : BitVec 3) : Bool :=
  (k.toNat == 1 || k.toNat == 3 || s.loadsBefore o.uid o.id) && (k.toNat == 0 || s.releaseMet o.uid o.id scope.toNat)

/-- An earlier TSPAWN of the gang has not spawned its children (R20). -/
def State.spawnBehind (s : State) (o : Op) : Bool :=
  s.ops.any fun x => x.uid == o.uid && x.id < o.id && (match x.kind with | .tspawn _ _ _ started _ _ => !started | _ => false)

/-- What an operation does when it completes; nothing while it has to wait. -/
def State.completeOp (s : State) (o : Op) : State :=
  let mine := s.items.filter fun i => i.op == o.id
  let got := (mine.filter (·.st == .done)).flatMap (·.accs)
  let all := mine.all fun i => i.isOver false
  let code := fun (d : SR) (v : Nat) => [Wr.sreg d (BitVec.ofNat 64 v)]
  match o.kind with
  | .calc ws => s.finish o ws
  | .loadV d wid sx => if all then s.finish o (loadWrs d wid sx got ++ missWrs got (mine.map (·.kind))) else s
  | .loadS d wid sx => if all then s.finish o (scalarWrs d wid sx got) else s
  | .atomV d wid => if all then s.finish o (loadWrs d wid false got) else s
  | .atomS d wid => if all then s.finish o (scalarWrs d wid false got) else s
  | .store | .mstore _ => if mine.all fun i => i.isOver true || (i.st == .kept && s.endsAlone o.uid) then s.finish o [] else s
  | .coll => if all then s.finish o [] else s
  | .prefetch lines => (s.prefetchNow o lines).finish o []
  | .cflush lines => if s.flushWaits o.uid o.id lines then s else (s.cflushNow o.uid o.die o.core o.id lines).finish o []
  | .fence k scope => if s.fenceOver o k scope then s.finish o [] else s
  | .stash fn d page frame va ent =>
    if s.stashBehind o then s
    else
      let r := s.stashNow o.uid fn page frame va ent
      r.1.finish o (code d r.2)
  | .mrel _ _ _ _ _ =>
    let k := s.core o.die o.core
    if (k.mom ++ k.acm).any fun t => t.relBy == some o.id then s else s.finish o []
  | .maccrd d u row0 nrow ef rnd =>
    let k := s.core o.die o.core
    let a80 := ((k.tile? u).map (·.acc80)).getD false
    let ws := (List.range nrow).map fun n => Wr.vreg (d + BitVec.ofNat 8 n) 0xFFFFFFFF 0xFFFFFFFF (mkV fun j =>
      BitVec.ofNat 32 (convElem (accFmt a80) (efFmt ef) rnd (k.elemC u a80 (row0 + n) j)))
    ((s.onCore o.die o.core fun k => k.onTile u Tile.unuse).reap o.die o.core).finish o ws
  | .mmac a b u fmt _ =>
    if (s.die o.die).leaves.any fun l => l.id == o.id && !l.held then s
    else
      let s := s.onCore o.die o.core fun k =>
        let k := (k.mac fmt a b u).onSlot a Tile.unuse
        let k := if a == b then k else k.onSlot b Tile.unuse
        k.onTile u Tile.unuse
      ((s.freeLeave o.die o.id).reap o.die o.core).finish o []
  | .mdrain d (some c) => (if c == 5 then s.fabricFail o.uid o.setf else s).finish o (code d c)
  | .qpush d q words =>
    (match s.pushNow o q.toNat words with
     | some (s, n) => s.finish o (code d n)
     | none => s)
  | .qpop d e =>
    let first := !(s.ops.any fun x => x.id < o.id && (match x.kind with | .qpop _ f => f == e | _ => false))
    (match (s.engine e).events with
     | w :: ws => if first then (s.onEngine e fun e => { e with events := ws }).finish o [.sreg d w] else s
     | [] => s)
  | .tlwait e n =>
    if n.toNat ≤ (s.engine e).timeline then
      (s.finish o []).onGang o.uid fun g => if g.wait == some (.op o.id) then { g with wait := none } else g
    else s
  | .gnew d _ _ | .gfree d _ | .gpub d _ _ _ _ | .gprom d _ _ _ | .gqry d _ =>
    (match s.gradedOp o with
     | some (s, w) => s.finish o [.sreg d w]
     | none => s)
  | .tspawn d recA args started first left =>
    if started then
      (if left.any fun id => s.launches.any (·.id == id) then s else s.finish o [.sreg d (spawnWord first args.length 0)])
    else if !s.releaseMet o.uid o.id 3 || s.spawnBehind o then s
    else
      (match s.startSpawn o recA args with
       | (s, some first, ids) => s.setOp { o with kind := .tspawn d recA args true first ids }
       | (s, none, _) => s.finish o [.sreg d (spawnWord 0 0 6)])
  | .rstv st (some c) =>
    (if c == 5 then s.fabricFail o.uid o.setf else s).finish o (match st with | some d => code d c | none => [])
  | .confx ws die cfg e rows _ =>
    let r := s.confxRows die cfg e rows
    if r.2.isEmpty then r.1.finish o ws else r.1.setOp { o with kind := .confx ws die cfg e r.2 r.2.length }
  | .pgpool d va =>
    let r := s.pgpoolNow o.ctx va
    r.1.finish o (code d r.2)
  | .sysset n v => (s.sysWrite o.uid n.toNat v).finish o []
  | .idle base false =>
    if !s.idleMet o || s.idleHeld o then s
    else if (s.keptLines o).isEmpty then s.idleRowsNow o base
    else s.cflushNow o.uid o.die o.core o.id (s.keptLines o)
  | .idle base true => if mine.all fun i => i.isOver false then s.idleNow o base else s
  | .rcommit => s.pushCommit o.uid
  | _ => s

/-- LONG_LATENCY_COMPLETE (R40). Operations that another event ends (claims, barriers, fills, engine commands, sweeps) complete once
that event has decided them. On a gated core a completion waits for its wake (R365). -/
def execLongLatencyComplete (id : Nat) (s : State) : Out :=
  .next (match s.op? id with
    | some o => if (s.core o.die o.core).gated then s else s.completeOp o
    | none => s)

end Sys2Proof.Machine
end

