-- ==== Sys2Proof/Machine/Sched.lean ====
section
/-! DEFINITION. The schedulers (R17, R41 to R43), fetch latches (R149 to R156, R168, R169), the entry of traps and the retry of
parked gangs (R318, R319), what keeps a core awake (R365) and power leave (R341 to R343). -/

namespace Sys2Proof.Machine

/-! ### The next instruction of a split (R150 to R156) -/

/-- S-class words (R155). -/
def isSclass (opc : Nat) : Bool := 0x08 ≤ opc && opc ≤ 0x0C

/-- Groups that no pair holds (R155). -/
def notInPair (opc : Nat) : Bool := opc == 0x00 || opc == 0x01 || opc == 0x22 || opc == 0x24 || opc == 0x50 || opc == 0x54

/-- The S and K registers an instruction of a pair writes: true for a K register. CALL counts as writing S63 (log 76). -/
def pairDst : Instr → Option (Bool × Nat)
  | .sadd _ d _ _ | .ssub _ d _ _ | .smul _ d _ _ | .smulhi _ d _ _ | .smulhu _ d _ _ | .sdiv _ d _ _ | .sdivu _ d _ _
  | .srem _ d _ _ | .sremu _ d _ _ | .sand _ d _ _ | .sor _ d _ _ | .sxor _ d _ _ | .sandn _ d _ _ | .sshl _ d _ _
  | .sshr _ d _ _ | .ssar _ d _ _ | .smin _ d _ _ | .smax _ d _ _ | .sminu _ d _ _ | .smaxu _ d _ _ => some (false, d.toNat)
  | .spopc _ d _ | .sclz _ d _ | .sctz _ d _ | .smov _ d _ => some (false, d.toNat)
  | .ssel _ d _ _ _ | .salui _ _ d _ _ => some (false, d.toNat)
  | .smovi _ d _ | .smoviz _ d _ | .smovhi _ d _ => some (false, d.toNat)
  | .scmp _ _ k _ _ | .scmpi _ _ k _ _ => some (true, k.toNat)
  | .sld _ d _ => some (false, d.toNat)
  | .sfromv _ _ _ d _ _ => some (false, d.toNat)
  | .vreduce _ _ _ _ _ d _ => some (false, d.toNat)
  | .vcmp _ _ _ _ k _ _ | .vcmpi _ _ _ _ k _ _ | .vfcmp _ _ _ _ k _ _ => some (true, k.toNat)
  | .kand _ d _ _ | .kor _ d _ _ | .kxor _ d _ _ | .kandn _ d _ _ => some (true, d.toNat)
  | .knot _ d _ | .kmov _ d _ => some (true, d.toNat)
  | .kfroms _ d _ => some (true, d.toNat)
  | .kpopc _ d _ | .kffs _ d _ | .ktos _ d _ => some (false, d.toNat)
  | .call _ _ => some (false, 63)
  | .satom _ _ d _ _ => some (false, d.toNat)
  | .stashMap _ d _ _ _ => some (false, d.toNat)
  | .stashUnmap _ d _ | .stashFlush _ d _ | .stashInval _ d _ => some (false, d.toNat)
  | .mclaim _ d _ | .mtry _ d _ | .mstate _ d _ | .mloop _ d _ => some (false, d.toNat)
  | .mdrain _ _ d _ _ _ => some (false, d.toNat)
  | .qbind _ d _ _ => some (false, d.toNat)
  | .qpush _ d _ _ _ => some (false, d.toNat)
  | .qpop _ d _ | .qtry _ d _ | .tlread _ d _ => some (false, d.toNat)
  | .confx _ _ _ k _ _ _ _ => some (true, k.toNat)
  | .accept _ _ _ k _ _ _ => some (true, k.toNat)
  | _ => none

/-- Two words may form a pair (R155). -/
def pairOk (w x : BitVec 96) (i j : Instr) : Bool :=
  let a := (Word96.ofBits w).opc.toNat
  let b := (Word96.ofBits x).opc.toNat
  (isSclass a != isSclass b) && !notInPair a && !notInPair b && (Word96.ofBits x).c.stall == 0 &&
    ((pairDst i).isNone || pairDst i != pairDst j)

/-- What a split would issue next. -/
inductive Next where
  | fetch
  | bad (c : Ctl)
  | one (c : Ctl) (i : Instr)
  | pair (c d : Ctl) (i j : Instr)
  deriving DecidableEq, Repr

/-- A pair whose second slot is the split's reconvergence PC issues its first alone: the split then stands there (R14, R18, R156). -/
def Split.rpcNext (sp : Split) : Bool := sp.depth != 0 && sp.rpc == sp.pc + 12

def Split.next (sp : Split) : Next :=
  match sp.latch, slotOf sp.pc with
  | some l, some n =>
    if l.va != lineOf sp.pc then .fetch
    else
      let w := l.slots.getD n 0
      let c := (Word96.ofBits w).c
      if lineIllegal l.word then .bad c
      else
        match decodeWord w with
        | .error _ => .bad c
        | .ok i =>
          if n < 4 && pairBit l.word n then
            let x := l.slots.getD (n + 1) 0
            (match decodeWord x with
             | .ok j => if !pairOk w x i j then .bad c else if sp.rpcNext then .one c i else .pair c (Word96.ofBits x).c i j
             | .error _ => .bad c)
          else .one c i
  | _, _ => .fetch

/-- What a gang's split would issue next. A handler runs as one undivided split, to which the interrupted split's RPC is nothing (R314). -/
def Gang.nextOf (g : Gang) (sp : Split) : Next := (if g.tl == 0 then sp else { sp with depth := 0 }).next

/-- The split that runs at TL1 and TL2: the one that took the trap, which alone has issued since (R319). -/
def Gang.handler (g : Gang) : Option Nat := g.turn.getLast?

/-- The split may issue as far as its gang is concerned (R12, R14, R16, R319). -/
def Gang.live (g : Gang) (sp : Split) : Bool :=
  sp.kind == .live && (if g.tl > 0 then g.handler == some sp.sid else !sp.atRpc && !sp.atBar)

/-- The split may fetch: it may issue, or it has arrived at its RPC and owes that arrival's TGT check (R18, R154). -/
def Gang.fetches (g : Gang) (sp : Split) : Bool :=
  g.live sp || (g.tl == 0 && sp.kind == .live && sp.atRpc && sp.chk != 0)

/-- The gang's splits may issue now. -/
def Gang.mayIssue (g : Gang) : Bool := g.trap.isNone && (g.status == .active || g.status == .pending)

/-- Neither flag of a pair would overflow (R155). -/
def Gang.pairFlags (g : Gang) (c d : Ctl) : Bool := c.setf != d.setf || c.setf.toNat ≥ 12 || g.counter c.setf.toNat + 2 ≤ 63

/-- The split's next instruction, or pair, could issue at this moment but for the scheduler's choice (R41, R42). -/
def State.canIssue (s : State) (g : Gang) (sp : Split) : Bool :=
  g.mayIssue && g.live sp && g.unwaiting &&
    (match g.nextOf sp with
     | .fetch => false
     | .bad c => g.ready s.clock c
     | .one c i => g.ready s.clock c && (g.fabTrap c || illegalUse s g sp sp.pc i || !waitsAtIssue s g sp sp.pc i)
     | .pair c d i j =>
       let pc2 := sp.pc + 12
       g.ready s.clock c && g.ready s.clock { d with stall := c.stall } && g.pairFlags c d &&
         (g.fabTrap c || illegalUse s g sp sp.pc i || (!waitsAtIssue s g sp sp.pc i && (illegalUse s g sp pc2 j || !waitsAtIssue s g sp pc2 j))))

def State.eligible (s : State) (g : Gang) : Bool := g.table.any fun sp => s.canIssue g sp

/-- The split that issues: the ready one that has not issued for longest (R17). -/
def State.readySplit (s : State) (g : Gang) : Option Split :=
  let rs := g.table.filter fun sp => s.canIssue g sp
  match rs.find? fun sp => !g.turn.contains sp.sid with
  | some sp => some sp
  | none => (g.turn.filterMap fun id => rs.find? fun sp => sp.sid == id).head?

def State.activeSet (s : State) (d c n : Nat) : List Gang :=
  s.gangs.filter fun g => g.loc.die == d && g.loc.core == c && schedOf g.loc == n && g.status == .active

/-- The older of two gangs; a paused one is the youngest (R42). -/
def older (clock : Nat) (a b : Gang) : Bool :=
  let pa := decide (clock < a.pauseTo)
  let pb := decide (clock < b.pauseTo)
  if pa == pb then a.age < b.age else !pa

/-- The gang that a scheduler issues from: the oldest eligible gang of its active set that has not issued in this cycle (R42). -/
def State.pick (s : State) (d c n : Nat) : Option Gang :=
  let es := (s.activeSet d c n).filter fun g => s.eligible g
  match es with
  | [] => none
  | x :: xs => some (xs.foldl (fun b y => if older s.clock y b then y else b) x)

/-! ### Events of the schedulers -/

/-- PAUSE_END (R42). -/
def execPauseEnd (r : GRef) (s : State) : Out :=
  .next (match s.gangAt r with
    | some g => if g.pauseTo ≤ s.clock then s.onGang g.uid fun g => { g with pauseTo := 0 } else s
    | none => s)

/-- Orders results by their cycle; those of one cycle stand in issue order. -/
def insertPend (x : Pend) : List Pend → List Pend
  | [] => [x]
  | y :: ys => if x.due < y.due then x :: y :: ys else y :: insertPend x ys

/-- FIXED_RESULT_WRITE (R39): every result that is due is written, and its flag falls. -/
def execFixedResultWrite (r : GRef) (s : State) : Out :=
  .next (match s.gangAt r with
    | none => s
    | some g =>
      let due := (g.pend.filter fun p => p.due ≤ s.clock).foldl (fun l p => insertPend p l) []
      let g := { g with pend := g.pend.filter fun p => s.clock < p.due }
      s.setGang (due.foldl (fun (g : Gang) p => (g.landAll p.opb p.wrs).decFlag p.setf) g))

/-- The next instruction of a live split of the gang waits, by its WAIT mask, on a counter that has not been zero for more than 64 cycles (R42). That
no other wait counts is the model's choice (log 95). -/
def Gang.onCounter (clock : Nat) (g : Gang) : Bool :=
  let waits := fun (c : Ctl) => (List.range 12).any fun k => c.wait.getLsbD k && g.counter k != 0 && (lookup g.nz k).any fun t => t + 64 < clock
  g.table.any fun sp => g.live sp && (match g.nextOf sp with | .one c _ => waits c | .pair c d _ _ => waits c || waits d | _ => false)

/-- A gang waits so long on a counter, or has issued an instruction with YLD (R42). -/
def State.wantsExchange (s : State) (g : Gang) : Bool := g.yielded || g.onCounter s.clock

/-- A pending gang has waited so long, eligible, that its promise of entry within 2048 cycles falls due (R43). -/
def State.mustEnter (s : State) (h : Gang) : Bool := h.status == .pending && h.waitC.any fun t => t + 1024 ≤ s.clock

/-- ACTIVE_SET_EXCHANGE (R42, R43): `h` takes the place of `g`; with `h` the same gang, it enters a free place. -/
def execActiveSetExchange (r q : GRef) (s : State) : Out :=
  .next (match s.gangAt r, s.gangAt q with
    | some g, some h =>
      let enter := fun (s : State) (uid : Nat) =>
        let (n, s) := s.fresh
        s.onGang uid fun x => { x with status := .active, age := n, waitC := none, yielded := false }
      if r == q then
        (if g.status == .pending && (s.activeSet r.die r.core (schedOf r)).length < 8 then enter s g.uid else s)
      else if r.die == q.die && r.core == q.core && schedOf r == schedOf q && g.status == .active && h.status == .pending &&
          (s.wantsExchange g || s.mustEnter h) && s.eligible h then
        enter (s.onGang g.uid fun x => { x with status := .pending, waitC := none, yielded := false }) h.uid
      else s
    | _, _ => s)

/-! ### Fetch (R152, R154, R168, R169) -/

/-- A fetch that fails: reported at the instruction the split would issue next, with the line's address (R169, R318). -/
def State.fetchFault (s : State) (g : Gang) (sp : Split) (cause : BitVec 8) : State :=
  let va := lineOf sp.pc
  if cause == causeXLATE && g.tl == 0 && g.region.isNone then s.park g.uid sp.sid va AccKind.fetch.code
  else
    s.raise g.uid { cause := cause, sub := AccKind.fetch.code, code := 0, lane := 0, ip := sp.pc, ret := sp.pc, va := va, sid := sp.sid
                    reg := false }

/-- The line has come: its parity, counted for the gang line by line, then the TGT bit that a transfer owes (R152, R154). -/
def State.latchLine (s : State) (g : Gang) (sp : Split) (bs : List Byte) : State :=
  let slots := (List.range 5).map fun i => lineSlot bs i
  let word := lineWord bs
  if !parityOk slots word then
    let n := (lookup g.parity (lineOf sp.pc).toNat).getD 0
    if n ≥ 3 then s.killContext g.ctx errMCHK (s.snapshot g 0 sp.pc 0)
    else s.onGang g.uid fun g => { g with parity := insertAt g.parity (lineOf sp.pc).toNat (n + 1) }
  else if sp.chk != 0 && !((slotOf sp.pc).any fun i => tgtBit word i) then
    if sp.chk == 2 then
      let t := g.tregs g.tl
      s.killContext g.ctx errHVEC (s.snapshot g (t.cause.extractLsb' 0 8 |>.setWidth 64) t.ip t.va)
    else s.killGang g.uid errIBT
  else
    s.onGang g.uid fun g =>
      { g with parity := g.parity.filter (·.1 != (lineOf sp.pc).toNat) }.onSplit sp.sid fun x =>
        { x with latch := some { va := lineOf sp.pc, slots := slots, word := word }, chk := 0 }

/-- A line of device memory, from the core's copy or its order point; a coherent copy stays with the core (R168). -/
def State.fetchDev (s : State) (g : Gang) (sp : Split) (pa : Nat) (nc : Bool) : State :=
  let d := g.loc.die
  let c := g.loc.core
  let line := lineBase pa
  let fill := s.mayFill d c g.ctx line
  match (s.core d c).l1.find? fun x => x.line == line && fill with
  | some x =>
    if !x.nc && s.early line (.l1 d c) then s
    else ((if x.nc then none else s.snoopFirst line).getD (s.latchLine g sp ((x.data.drop (pa % 128)).take 64)))
  | none =>
    if (s.txn? line).isSome then s
    else
      match (if fill && !nc then s.fillFirst d line else s.snoopFirst line) with
      | some s => s
      | none =>
        let s := s.recall line
        let s := if fill then (s.fillL1 d c line nc false).fillL2 d line nc else s
        s.latchLine g sp (memReadN s.mem pa 64)

/-- A line of a peer's or the host's memory, as a load item without an instruction (operation 0). -/
def State.fetchFar (s : State) (g : Gang) (sp : Split) (dst : Dst) (pa : Nat) : State :=
  match s.items.find? fun i => i.op == 0 && i.uid == g.uid && i.dst == dst && i.line == lineBase pa && (i.accs.any fun a => a.off == pa % 128) with
  | some i =>
    let gone : State := { s with items := s.items.filter fun x => x.id != i.id }
    if i.st == .done then gone.latchLine g sp (leBytes 64 ((i.accs.head?.map (·.val)).getD 0))
    else if i.st == .failed then gone
    else s
  | none =>
    let p : Place1 := { dst := dst, line := lineBase pa, off := pa % 128, vline := lineOf sp.pc, nc := false, hold := false }
    s.addItems g 0 (plainAsk .load 2) [{ p := p, accs := [mkAcc 32 (pa % 128) 64 0 0] }]

/-- LINE_FETCH (R168, R169). -/
def execLineFetch (r : GRef) (sid : Nat) (s : State) : Out :=
  match s.gangAt r with
  | none => .next s
  | some g =>
    match g.split? sid with
    | none => .next s
    | some sp =>
      let va := (lineOf sp.pc).toNat
      if !g.mayIssue || !g.fetches sp || sp.next != .fetch || (s.core r.die r.core).gated then .next s
      else if (slotOf sp.pc).isNone then .next (s.killGang g.uid errIBT)
      else if va ≥ lwin then .next (s.fetchFault g sp causePROT)
      else
        match s.xlateCore r.die r.core g.ctx va .fetch with
        | (s, .xlate) => .next (s.fetchFault g sp causeXLATE)
        | (s, .ok pa e) =>
          if ptePeer e then
            .next (if s.devid == some (BitVec.ofNat 12 (pteDev e)) then s.fetchFault g sp causePROT else s.fetchFar g sp (.peer (pteDev e)) pa)
          else if pteHost e then .next (s.fetchFar g sp .host pa)
          else if !s.present pa then .fault .absentAddress
          else .next (s.fetchDev g sp pa (pteNC e))
        | (s, _) => .next (s.fetchFault g sp causePROT)

/-! ### Traps and parked gangs (R318, R319) -/

/-- TRAP_ENTRY (R319). -/
def execTrapEntry (r : GRef) (s : State) : Out :=
  .next (match s.gangAt r with
    | some g => s.takeTrap g.uid
    | none => s)

def accOfCode (n : BitVec 2) : AccKind :=
  match n.toNat with
  | 0 => .load
  | 1 => .store
  | 2 => .fetch
  | _ => .rmw

/-- PARKED_RETRY (R318): anything but a translation fault lets the gang go on; a fault leaves it parked, and recorded (R352). -/
def execParkedRetry (r : GRef) (s : State) : Out :=
  .next (match s.gangAt r with
    | none => s
    | some g =>
      match g.pfAcc with
      | none => s
      | some (va, acc) =>
        if g.status != .parkedFault || !g.retry then s
        else
          let s := s.onGang g.uid fun g => { g with retry := false }
          match s.xlateCore r.die r.core g.ctx va.toNat (accOfCode acc) with
          | (s, .xlate) => s
          | (s, _) => s.onGang g.uid fun g => { g with status := .pending, pfAcc := none })

/-! ### What keeps a core from being gated (R365) -/

/-- The operation only waits, for what another instruction or command brings. -/
def State.opWaits (s : State) (o : Op) : Bool :=
  match o.kind with
  | .bar _ _ _ _ | .rquota _ _ | .mclaim _ _ _ _ => true
  | .qpop _ e => (s.engine e).events.isEmpty
  | .tlwait e n => (s.engine e).timeline < n.toNat
  | .store => s.items.all fun i => i.op != o.id || i.isOver true || i.st == .kept
  | _ => false

/-- Something of the core is in progress: a result, an access, a fill, matrix work, an engine command, an arrival (R365). A wait is nothing in
progress. -/
def State.coreBusy (s : State) (d c : Nat) : Bool :=
  let k := s.core d c
  let mine := s.gangs.filter fun g => g.loc.die == d && g.loc.core == c
  let here := fun (n : W64) => nameDev n == s.dev && nameDie n == d && nameCore n == c
  (mine.any fun g => !g.pend.isEmpty) || (s.ops.any fun o => o.die == d && o.core == c && !s.opWaits o) ||
    (s.items.any fun i => i.open' && mine.any fun g => g.uid == i.uid) || (k.engines.any fun e => !e.cmds.isEmpty) || !k.held.isEmpty ||
    (s.rstvs.any fun r => here r.name) || s.drains.any fun x => here x.name

/-- For 4096 cycles nothing of the core was in progress, and none of its gangs has issued (R365). -/
def State.coreIdle (s : State) (d c : Nat) : Bool :=
  let mine := s.gangs.filter fun g => g.loc.die == d && g.loc.core == c
  !s.coreBusy d c && (s.core d c).idleFrom + 4096 ≤ s.clock && mine.all fun g => (g.last.all fun t => t + 4096 ≤ s.clock) && g.placed + 4096 ≤ s.clock

/-! ### Power leave (R341 to R343) -/

/-- The fields of PLBUDGET; a RAMP of 0 reads as 1 (Table 19.4). -/
def plRamp (w : W64) : Nat := max 1 (w.extractLsb' 20 4).toNat
def plCbud (w : W64) : Nat := (w.extractLsb' 8 8).toNat
def plMbud (w : W64) : Nat := (w.extractLsb' 0 8).toNat

/-- Grants in order of asking, while the kind has a unit free and RAMP allows (R343): the leaves and the grants made at the boundary. -/
def grantLeaves (plb : W64) (clock : Nat) : List Leave → List Leave → Nat → List Leave × Nat
  | done, [], n => (done, n)
  | done, l :: rest, n =>
    let heldNow := ((done ++ l :: rest).filter fun x => x.held && x.coll == l.coll).length
    if !l.held && l.asked < clock && n < plRamp plb && heldNow < (if l.coll then plCbud plb else plMbud plb) then
      grantLeaves plb clock (done ++ [{ l with held := true }]) rest (n + 1)
    else grantLeaves plb clock (done ++ [l]) rest n

/-- POWER_LEAVE_GRANT (R343): a grant boundary, every 32 cycles. Its grants are made once: what is released afterwards waits for the next. -/
def execPowerLeaveGrant (die : Nat) (s : State) : Out :=
  .next (
    if s.clock % 32 != 0 then s
    else
      s.onDie die fun x =>
        let b := s.clock / 32
        if x.bound / 16 == b then x
        else
          let r := grantLeaves x.plb s.clock [] x.leaves 0
          { x with leaves := r.1, bound := 16 * b + r.2 })

/-- POWER_LEAVE_RELEASE (R341): the unit of an operation that is over is free from the next boundary on. -/
def execPowerLeaveRelease (die id : Nat) (s : State) : Out :=
  .next (s.onDie die fun x => { x with leaves := x.leaves.filter fun l => !(l.id == id && l.freed) })

end Sys2Proof.Machine
end

