-- ==== Sys2Proof/Machine/Armature.lean ====
section
/-! DEFINITION. The Armature (R94 to R104, R107, R325, R326, R328, R336 to R338): launches, firing, placement, completion, graded
faults, the release of held stores, pre-emption and resumption. -/

namespace Sys2Proof.Machine

/-! ### Launches (R96, R97, R98) -/

/-- Two launches come from one source, one gang, one die's Halyard, one layer of one BFE configuration, or one record of the Armature, whose launches join in order (log 36). -/
def sameSource (a b : Launch) : Bool :=
  a.ctx == b.ctx &&
    (match a.by', b.by' with
     | .tspawn, .tspawn => a.src == b.src
     | .halyard, .halyard => a.src == b.src
     | .bfe d c l _, .bfe e f m _ => d == e && c == f && l == m
     | .armature h, .armature k => h == k
     | _, _ => false)

/-- Consumer links in use by a tenant (R97). -/
def State.linksUsed (s : State) (ten : Nat) : Nat :=
  s.insts.foldl (fun n i => if (s.ctx i.ctx).ten == ten && i.st != .retired then n + i.tr.ins.length else n) 0

/-- A launch is gone: its buffer is free again, and a handler's record can be written again (R259, R94). -/
def State.endLaunch (s : State) (l : Launch) : State :=
  let s : State := { s with launches := s.launches.filter fun x => x.id != l.id }
  match l.by' with
  | .armature h => s.onCtx l.ctx fun c => { c with handlers := c.handlers.filter fun x => x.1 != h }
  | b => s.freeBuffer l.ctx b

/-- The fault BADREC of a launch without a spawning instruction (R96). -/
def badrecWords : List W64 := faultWords gfBADREC 0 0 0 0 0 0 0

/-- The first input that is not live at launch, with its entry (R98). -/
def State.deadInput (s : State) (ctx : Nat) : List (Nat × Nat × Bool) → State × Option (Nat × Nat)
  | [] => (s, none)
  | d :: ds =>
    match s.readValue ctx d.1 with
    | (s, none) => (s, some (d.1, 0))
    | (s, some e) => if veLive e then s.deadInput ctx ds else (s, some (d.1, e))

/-- The instance of a launch whose record is good joins its consumer lists, or is cancelled at launch (R97, R98), with REQG 0 (log 74). -/
def State.join (s : State) (l : Launch) (t : TaskRec) : State :=
  let c := s.ctx l.ctx
  let t := match l.argp with | some v => { t with argp := v } | none => t
  let dead := s.deadInput l.ctx t.ins
  let s := dead.1
  if dead.2.isNone && !t.ins.isEmpty && s.linksUsed c.ten + t.ins.length > (s.tenant c.ten).clsize.toNat then s
  else
    let num := match l.num with | some n => n | none => c.instN.toNat
    let s := if l.num.isNone then s.onCtx l.ctx fun c => { c with instN := c.instN + 1 } else s
    match dead.2 with
    | some (id, e) =>
      (s.endLaunch l).gradedFault l.ctx t.fhrec (faultWords gfINVALID id (veVersion e) (veGrade e) 0 0 (taskId num 0) 0)
    | none =>
      let i : Inst := {
        ctx := l.ctx, num := num, tr := t, st := .waiting, run := 0, cons := [], pubs := [], past := [], again := false, by' := l.by' }
      let s : State := { s with launches := s.launches.filter fun x => x.id != l.id, insts := s.insts ++ [i] }
      let s := match l.by' with
        | .armature h => s.onCtx l.ctx fun c => { c with handlers := c.handlers.map fun x => if x.1 == h then (h, num) else x }
        | _ => s
      if t.ins.isEmpty then s.fireRun l.ctx num 0 else s

/-- TASK_LAUNCH (R96, R97, R98). Launches to a killed context are refused (R325). -/
def execTaskLaunch (id : Nat) (s : State) : Out :=
  .next (match s.launches.find? (·.id == id) with
    | none => s
    | some l =>
      if s.launches.any fun x => x.id < l.id && sameSource x l then s
      else if (s.ctx l.ctx).killed then s.endLaunch l
      else
        let refuse := fun (s : State) (fh : Nat) => (s.endLaunch l).gradedFault l.ctx fh badrecWords
        match l.tr with
        | some t => s.join l t
        | none =>
          match s.readRec l.ctx l.recA.toNat with
          | (s, none) => refuse s 0
          | (s, some n) =>
            let t := TaskRec.ofNat n
            if l.bad || s.recBad l.ctx l.recA.toNat n then refuse s t.fhrec else s.join l t)

/-- FIRE (R98): every input has reached its minimum grade. -/
def execFire (ctx num : Nat) (s : State) : Out :=
  .next (match s.inst? ctx num with
    | none => s
    | some i =>
      let ok := i.tr.ins.all fun d => (s.peekValue ctx d.1).any fun e => veLive e && veVersion e > 0 && d.2.1 ≤ veGrade e
      let lines := i.tr.ins.flatMap fun d => s.peekLines ctx d.1
      if i.st == .waiting && !lines.isEmpty then s.askData lines
      else if i.st == .waiting && ok then s.fireRun ctx num 0 else s)

/-! ### Placement (R8, R9, R23, R336, R337) -/

/-- What stands at the head of a queue: a gang parked by pre-emption, or the next gangs of a run (R337). -/
inductive QHead where
  | parked (g : Gang)
  | place (p : Place)
  deriving DecidableEq, Repr

/-- Gang `a` stands before gang `b` in their queue: by the order in which their instances' runs joined it, then by GANGIDX (R337). -/
def State.earlierGang (s : State) (a b : Gang) : Bool :=
  let at' := fun (g : Gang) => ((s.inst? g.ctx g.inst).map (·.joined)).getD 0
  at' a < at' b || (at' a == at' b && (a.gidx < b.gidx || (a.gidx == b.gidx && a.uid < b.uid)))

/-- The first in queue order of the gangs of a queue that are parked by pre-emption. -/
def State.firstParked (s : State) (q : Nat) : Option Gang :=
  match s.gangs.filter fun g => g.status == .saved && g.queue == q with
  | [] => none
  | g :: gs => some (gs.foldl (fun b x => if s.earlierGang x b then x else b) g)

/-- The head of a queue: parked gangs rank ahead of those never placed (R337). -/
def State.qhead (s : State) (q : Nat) : Option QHead :=
  match s.firstParked q with
  | some g => some (.parked g)
  | none => (s.places.find? (·.queue == q)).map .place

/-- Which head it is, for the waits that R338 counts. -/
def QHead.key : QHead → List Nat
  | .parked g => [g.uid]
  | .place p => [p.ctx, p.inst, p.run, p.next]

/-- How many gangs the head places at once: a co-located group, or one (R23). -/
def Place.size (p : Place) : Nat := if p.tr.cohsz == 0 then 1 else min p.tr.cohsz (p.tr.ngang - p.next)

/-- The pages of the Core Store that the head takes on its core (R46, R328). -/
def QHead.charge : QHead → Nat
  | .parked g => g.vblocks + 1 + g.stash.length
  | .place p => p.size * (p.tr.vblk + 1 + p.tr.stashp)

def QHead.count : QHead → Nat
  | .parked _ => 1
  | .place p => p.size

def QHead.ctx : QHead → Nat
  | .parked g => g.ctx
  | .place p => p.ctx

/-- The head needs a cohort number of its own. -/
def QHead.grouped : QHead → Bool
  | .parked _ => false
  | .place p => p.tr.cohsz != 0

def freeCohort (k : Core) : Option Nat := (List.range 16).find? fun n => !(k.cohorts.any (·.num == n))

/-- The core may take the queue's gangs at all (R336, R142, R328). -/
def State.inMask (s : State) (q : LaunchQueue) (h : QHead) (d c : Nat) : Bool :=
  let ten := (s.ctx h.ctx).ten
  c < s.ncore d && !(s.tenants.any fun t => t.num != ten && t.cpart.testBit (128 * d + c)) &&
    (match h with
     | .parked g => if g.cohort.isSome then g.loc.die == d && g.loc.core == c else q.mask.testBit (128 * d + c)
     | .place _ => q.mask.testBit (128 * d + c))

/-- Slots of a core that can be given out; the marker of a gang to be resumed frees its own (R328). -/
def State.openSlots (s : State) (h : QHead) (d c : Nat) : List Nat :=
  let s : State := match h with | .parked g => { s with gangs := s.gangs.filter fun x => x.uid != g.uid } | .place _ => s
  s.freeSlots d c

/-- The core is eligible when `extra` more pages were free (R336, R46). -/
def State.eligibleWith (s : State) (q : LaunchQueue) (h : QHead) (d c extra : Nat) : Bool :=
  s.inMask q h d c && h.count ≤ (s.openSlots h d c).length && h.charge + 64 ≤ s.l1Pages d c + extra &&
    (!h.grouped || (freeCohort (s.core d c)).isSome)

def State.allCores (s : State) : List (Nat × Nat) := (List.range 4).flatMap fun d => (List.range (s.ncore d)).map fun c => (d, c)

def State.eligibleCores (s : State) (q : LaunchQueue) (h : QHead) : List (Nat × Nat) :=
  s.allCores.filter fun x => s.eligibleWith q h x.1 x.2 0

/-- The gangs of a core that a queue of priority `p` may pre-empt, those to go first in front (R338). -/
def State.victims (s : State) (p d c : Nat) : List Gang :=
  let prio := fun (g : Gang) => (s.queue g.queue).prio
  let may := s.gangs.filter fun g => g.loc.die == d && g.loc.core == c && g.status != .saved && prio g < p &&
    !((s.tenant (s.ctx g.ctx).ten).cpart.testBit (128 * d + c))
  let before := fun (a b : Gang) => prio a < prio b || (prio a == prio b && (b.placed < a.placed || (a.placed == b.placed && b.uid < a.uid)))
  let insert := fun (l : List Gang) (g : Gang) => (l.filter fun x => before x g) ++ [g] ++ l.filter fun x => !before x g
  may.foldl insert []

/-- The fewest victims on a core that make room for the head. -/
def State.victimsFor (s : State) (q : LaunchQueue) (h : QHead) (d c : Nat) : Option (List Gang) :=
  let vs := s.victims q.prio d c
  ((List.range (vs.length + 1)).find? fun n => s.eligibleWith q h d c ((vs.take n).foldl (fun m g => m + g.charge) 0)).map fun n => vs.take n

/-- The core is promised to the head of a queue: its gangs are pre-empted for that very head, and it can still make room (R338). -/
def State.claimAt (s : State) (q : LaunchQueue) (d c : Nat) : Bool :=
  q.claim == some (d, c) && q.en && q.preempt && (s.qhead q.num).any fun h => q.head == h.key && (s.victimsFor q h d c).isSome

/-- On a core, queue `r` goes before queue `q`: the one for whose head its gangs are pre-empted (R338), then the one of higher PRIO,
and among equals the one whose turn comes first (R337). -/
def State.goesBefore (s : State) (r q : LaunchQueue) (d c : Nat) : Bool :=
  if s.claimAt r d c then true
  else if s.claimAt q d c then false
  else q.prio < r.prio || (r.prio == q.prio && (r.turn < q.turn || (r.turn == q.turn && r.num < q.num)))

/-- No queue that goes before this one has a head for the core (R337). One for whose head gangs of the core are pre-empted keeps the core until that head
is placed, also while it does not fit yet (R338). -/
def State.firstOn (s : State) (q : LaunchQueue) (d c : Nat) : Bool :=
  !(s.queues.any fun r => r.num != q.num && r.en && s.goesBefore r q d c &&
    (match s.qhead r.num with
     | some h => s.claimAt r d c || s.eligibleWith r h d c 0
     | none => false))

def State.resident (s : State) (d c : Nat) : Nat :=
  (s.gangs.filter fun g => g.loc.die == d && g.loc.core == c && g.status != .saved).length

/-- The core that the head of a queue goes to: the one freed for it (R338), else the fewest resident gangs, then the lowest number (R336). -/
def State.chooseCore (s : State) (q : LaunchQueue) (h : QHead) : Option (Nat × Nat) :=
  let cores := (s.eligibleCores q h).filter fun x => s.firstOn q x.1 x.2
  if q.claim.any fun x => s.claimAt q x.1 x.2 && cores.contains x then q.claim
  else match cores with
  | [] => none
  | x :: xs => some (xs.foldl (fun b y => if s.resident y.1 y.2 < s.resident b.1 b.2 then y else b) x)

/-- The slot of a new gang: the lowest free one of the scheduler with fewer resident gangs (R8). The marker of a parked gang does not count, and
where that scheduler has no free slot the lowest of the other serves (log 66). -/
def State.chooseSlot (s : State) (d c : Nat) : Option Nat :=
  let on := fun (n : Nat) => (s.gangs.filter fun g => g.loc.die == d && g.loc.core == c && schedOf g.loc == n && g.status != .saved).length
  let free := s.freeSlots d c
  let first := if on 1 < on 0 then 1 else 0
  match free.find? fun n => n / 32 == first with
  | some n => some n
  | none => free.head?

/-- The trap registers of a level at launch (Table 17.1). -/
def TrapRegs.fresh (save : W64) : TrapRegs := { cause := 0, ret := 0, va := 0, save := save, stat := 0, scr := 0, ip := 0 }

/-- A freshly launched gang (R9, R273). -/
def newGang (s : State) (uid : Nat) (loc : GRef) (p : Place) (gidx : Nat) (cohort : Option Nat) : Gang :=
  let c := s.ctx p.ctx
  let s1 : W64 := match cohort with | some n => BitVec.ofNat 64 n | none => 0xFFFFFFFFFFFFFFFF
  let top : Split := {
    kind := .live, sid := 0, pc := p.tr.entry, exec := 0xFFFFFFFF, fmt := 0, rpc := 0, depth := 0, fast := true, atBar := false
    latch := none, chk := 1 }
  { uid := uid, loc := loc, ctx := p.ctx, inst := p.inst, run := p.run, gidx := gidx, ngangs := p.tr.ngang, queue := p.queue
    status := .pending, age := 0, placed := s.clock, pauseTo := 0, vblocks := p.tr.vblk
    vseeds := (List.range p.tr.vblk).map fun b => s.freeCtr + b
    stash := List.replicate p.tr.stashp StashPage.blank
    s := Vector.ofFn fun i : Fin 64 => if i.val == 0 then p.tr.argp else if i.val == 1 then s1 else 0
    k := Vector.ofFn fun i : Fin 16 => if i.val == 0 then 0xFFFFFFFF else 0
    v := [], fpstat := 0, gstat := 0, trapen := 0, tidx := mkV fun l => BitVec.ofNat 32 (gidx * 32 + l)
    fc := Vector.ofFn fun _ : Fin 12 => 0, hold := Vector.ofFn fun _ : Fin 12 => HoldEnt.blank
    table := [top], exited := false, last := none, waitC := none, nz := [], yielded := false, turn := [0], pend := [], region := none, wait := none
    cohort := cohort, lastArr := none, q := [], tl := 0, t1 := TrapRegs.fresh (c.tsave 1 loc), t2 := TrapRegs.fresh (c.tsave 2 loc)
    trap := none, lanePg := [], retry := false, pfAcc := none, pfSid := 0, parity := [], owed := [], preempt := false, spill := false, rgArg := none, rgPred := 0, fab := 0
    saveA := 0, rst := [] }

/-- Places the next gang of a run on a core, and gives the slot a new generation (R8, R35). -/
def State.placeOne (s : State) (p : Place) (gidx d c : Nat) (cohort : Option Nat) : State :=
  match s.chooseSlot d c with
  | none => s
  | some n =>
    let loc : GRef := { die := d, core := c, slot := n }
    let (uid, s) := s.fresh
    let g := newGang s uid loc p gidx cohort
    let s : State := { s with freeCtr := s.freeCtr + 8, gangs := s.gangs ++ [g] }
    let s := (s.bumpGen loc).passPage d c
    match cohort with
    | some k => s.onCohort d c k fun x => { x with members := x.members ++ [uid] }
    | none => s

/-- Places one gang, or one co-located group in its new cohort (R23). -/
def State.placeHead (s : State) (p : Place) (d c : Nat) : State :=
  let (coh, s) :=
    if p.tr.cohsz == 0 then (none, s)
    else
      match freeCohort (s.core d c) with
      | none => (none, s)
      | some n =>
        let k : Cohort := { num := n, ctx := p.ctx, members := [], arrived := [], phase := 0, pool := 0 }
        (some n, s.onCore d c fun x => { x with cohorts := x.cohorts ++ [k] })
  let s := (List.range p.size).foldl (fun (s : State) i => s.placeOne p (p.next + i) d c coh) s
  let next := p.next + p.size
  let upd := fun (x : Place) => x.ctx == p.ctx && x.inst == p.inst && x.run == p.run
  { s with places := (s.places.map fun x => if upd x then { x with next := next } else x).filter fun x => !(upd x && x.next ≥ x.tr.ngang) }

/-- The queue has had its turn (R337). -/
def State.tookTurn (s : State) (q : LaunchQueue) : State :=
  let (t, s) := s.fresh
  s.setQueue { q with turn := t, since := none, claim := none }

/-- GANG_PLACEMENT (R336, R337): the head of an enabled queue is placed, unless a parked gang ranks before it. A gated core wakes first. -/
def execGangPlacement (n : Nat) (s : State) : Out :=
  .next (
    let q := s.queue n
    match s.qhead n with
    | some (.place p) =>
      if !q.en then s
      else
        (match s.chooseCore q (.place p) with
         | some (d, c) => if (s.core d c).gated then s else (s.placeHead p d c).tookTurn q
         | none => s)
    | _ => s)

/-! ### Completion of a run (R100 to R102) -/

/-- Every effect of the run has been delivered; a held store counts as delivered (R100). -/
def State.runOver (s : State) (i : Inst) : Bool :=
  let mine := fun (c n r : Nat) => c == i.ctx && n == i.num && r == i.run
  !(s.places.any fun p => mine p.ctx p.inst p.run) && !(s.gangs.any fun g => mine g.ctx g.inst g.run) &&
    !(s.ops.any fun o => mine o.ctx o.inst o.run) && !(s.items.any fun x => mine x.ctx x.inst x.run && x.open' && x.st != .egress) &&
    !(s.cores.any fun k => k.engines.any fun e => e.cmds.any fun x => mine x.ctx x.inst x.run && !s.cmdHeld x)

/-- Publishes one output that no GPUB of the run has published (R100); a failure is a fault of the Armature (R94). -/
def State.publishOut (s : State) (ctx num : Nat) (o : Nat × Nat) : State :=
  match s.inst? ctx num with
  | none => s
  | some i =>
    if i.pubs.any fun p => p.idx == o.1 then s
    else
      let g := i.grade
      let r := s.publish ctx o.2 g none
      if r.2.code == 0 then
        match r.1.inst? ctx num with
        | some i => r.1.setInst { i with pubs := i.pubs ++ [{ idx := o.1, ver := veVersion r.2.ent, implicit := true }] }
        | none => r.1
      else r.1.gradedFault ctx i.tr.fhrec (faultWords r.2.code o.2 (veVersion r.2.ent) (veGrade r.2.ent) g 0 (taskId num i.run) 0)

/-- RUN_COMPLETE (R99 to R102). -/
def execRunComplete (ctx num : Nat) (s : State) : Out :=
  .next (match s.inst? ctx num with
    | none => s
    | some i =>
      if i.st != .running || !s.runOver i then s
      else
        let s := i.tr.outIds.foldl (fun (s : State) o => s.publishOut ctx num o) s
        match s.inst? ctx num with
        | none => s
        | some i =>
          let s := (s.setInst { i with st := .completed }).handlerEnds i
          if i.again then s.fireRun ctx num (i.run + 1) else s.retireAll (s.ctx ctx).ten)

/-! ### Graded faults and held stores (R94, R104) -/

/-- GRADED_FAULT_DELIVERY (R94): the oldest waiting fault whose handler record is not in service. -/
def execGradedFaultDelivery (ctx : Nat) (s : State) : Out :=
  .next (
    let c := s.ctx ctx
    match c.faults.find? fun f => !(c.handlers.any fun h => h.1 == f.fhrec) with
    | none => s
    | some f =>
      let kill := fun (s : State) => s.killContext ctx errGRADED []
      match s.readRec ctx f.fhrec with
      | (s, none) => kill s
      | (s, some n) =>
        if s.recBad ctx f.fhrec n then kill s
        else
          match s.ctxWrite ctx (TaskRec.ofNat n).argp.toNat (f.w.flatMap fun w => leBytes 8 w.toNat) with
          | none => kill s
          | some s =>
            let s := s.onCtx ctx fun c => { c with faults := c.faults.erase f, handlers := c.handlers ++ [(f.fhrec, s.nextId + 2 ^ 32)] }
            s.addLaunch ctx (BitVec.ofNat 64 f.fhrec) none none false (.armature f.fhrec))

/-- The store whose turn it is among the held ones of its gang, or of its engine command: none of them is older, and none that was released before
it has still to leave (R104). -/
def State.nextHeld (s : State) (x : Item) : Bool :=
  !s.items.any fun y => y.id < x.id && y.uid == x.uid && (x.uid != 0 || y.op == x.op) && y.inst == x.inst && (y.st == .egress || y.outward)

/-- EGRESS_HOLD_RELEASE (R104): the run's egress grade is final, and its held stores go back to the outbound set, those of one gang one after
another, in program order. -/
def execEgressHoldRelease (ctx num : Nat) (s : State) : Out :=
  .next (match s.inst? ctx num with
    | none => s
    | some i =>
      if !s.hasHeld ctx num then s
      else if !(s.gradeLines ctx num).isEmpty then s.askData (s.gradeLines ctx num)
      else if s.gated ctx num i.run then s
      else
        let ids := (s.items.filter fun x => x.ctx == ctx && x.inst == num && x.st == .egress && s.nextHeld x).map (·.id)
        let s : State := { s with
          items := s.items.map fun x => if ids.contains x.id then { x with st := .queued } else x
          dies := s.dies.map fun d => { d with eghold := d.eghold.filter fun h => !ids.contains h.item.id } }
        if i.st == .retired && !s.hasHeld ctx num then { s with insts := s.insts.filter fun x => !(x.ctx == ctx && x.num == num) } else s)

/-! ### Pre-emption (R326, R338) -/

/-- Gangs of the core are pre-empted for the head of another queue, which is to be placed there ahead of any other (R338; log 28). -/
def State.promised (s : State) (n : Nat) (x : Nat × Nat) : Bool :=
  s.queues.any fun r => r.num != n && s.claimAt r x.1 x.2

/-- PREEMPT_REQUEST (R338): the head is the one that has waited, on a core that no other queue's head is promised. -/
def execPreemptRequest (n : Nat) (s : State) : Out :=
  .next (
    let q := s.queue n
    match s.qhead n with
    | none => s
    | some h =>
      if !q.en || !q.preempt || q.head != h.key || !(q.since.any fun t => t + 4096 ≤ s.clock) || !(s.eligibleCores q h).isEmpty then s
      else
        let fits := (s.allCores.filterMap fun x => (s.victimsFor q h x.1 x.2).map fun v => (x, v)).filter fun f => !s.promised n f.1
        -- a core chosen before stays the choice as long as it can still make room
        match (match fits.filter fun f => q.claim == some f.1 with | [] => fits | f => f) with
        | [] => s
        | v :: vs =>
          let fewer := fun (x b : (Nat × Nat) × List Gang) =>
            x.2.length < b.2.length || (x.2.length == b.2.length && s.resident x.1.1 x.1.2 < s.resident b.1.1 b.1.2)
          let best := vs.foldl (fun b x => if fewer x b then x else b) v
          (best.2.foldl (fun (s : State) g => s.onGang g.uid fun g => { g with preempt := true }) s).setQueue { q with claim := some best.1 })

/-- PREEMPT_ENTRY (R326): held back at TL1 and TL2, after step 1 of RCOMMIT, and, since the next issue boundary lies behind them, in a wait of
the present instruction (log 27) and while a transfer's TGT check waits for its line (R154). A PARKED-FAULT gang takes it at once, at the split that
met the fault. The cause is then taken as R319 gives. -/
def execPreemptEntry (r : GRef) (s : State) : Out :=
  .next (match s.gangAt r with
    | none => s
    | some g =>
      let busy := g.tl > 0 || g.trap.isSome || g.status == .saved || !g.unwaiting || (g.region.any fun x => x.stage == .step3)
      let parked := g.status == .parkedFault
      let busy := busy || (!parked && g.table.any fun x => x.kind == .live && x.chk != 0)
      match g.table.find? fun x => x.kind == .live && (!parked || x.sid == g.pfSid) with
      | none => s
      | some sp =>
        if !g.preempt || busy then s
        else
          let s := s.onGang g.uid fun g =>
            { g with preempt := false, wait := none, retry := false, pfAcc := none, status := if g.status == .parkedFault then .pending else g.status }
          s.raise g.uid { cause := causePREEMPT, sub := 0, code := 0, lane := 0, ip := 0, ret := sp.pc, va := 0, sid := sp.sid, reg := false })

/-! ### Resumption (R328, R138) -/

/-- A gang as it stands on its new core before its save area is read and PREEMPT with SUB 1 entered: what the area does not hold for the device is
free (R6), and the handler restores it. GSTAT, which no instruction can set, stays with the gang (R228; log 44). -/
def resumed (s : State) (g : Gang) (loc : GRef) (blocks : Nat) : Gang :=
  let n := s.freeCtr
  let top : Split := {
    kind := .live, sid := 0, pc := 0, exec := 0, fmt := 0, rpc := 0, depth := 0, fast := true, atBar := false, latch := none
    chk := 0 }
  { g with
    loc := loc, status := .pending, placed := s.clock, pauseTo := 0, vblocks := blocks, vseeds := (List.range blocks).map fun b => n + b
    stash := g.stash.map fun _ => StashPage.blank
    s := Vector.ofFn fun i : Fin 64 => if i.val == 63 then 0 else Config.freeWord (n + 8 + i.val)
    k := Vector.ofFn fun i : Fin 16 => if i.val == 0 then 0xFFFFFFFF else (Config.freeWord (n + 72 + i.val)).setWidth 32
    v := [], fpstat := (Config.freeWord (n + 88)).setWidth 5, gstat := g.gstat
    trapen := (Config.freeWord (n + 90)).setWidth 3, tidx := mkV fun l => Config.freeLane n 256 l
    fc := Vector.ofFn fun _ : Fin 12 => 0, hold := Vector.ofFn fun _ : Fin 12 => HoldEnt.blank
    table := [top], last := none, waitC := none, nz := [], yielded := false, turn := [0], pend := [], region := none, wait := none
    q := g.q.filter fun b => (match b.2 with | .copy _ _ => false | _ => true)
    tl := 0, t1 := { TrapRegs.fresh g.saveA with ret := 0 }
    trap := some { cause := causePREEMPT, sub := 1, code := 0, lane := 0, ip := 0, ret := 0, va := 0, sid := 0, reg := false }
    lanePg := [], parity := [], owed := [], preempt := false, spill := false, rst := [], move := .toRead }

/-- The counters and the hold table of a save area, from its offset 0x200 on (Table 17.6). -/
def Gang.restored (g : Gang) (area : List Byte) : Gang :=
  { g with
    fc := Vector.ofFn fun i : Fin 12 => BitVec.ofNat 6 (area.getD i.val 0).toNat
    hold := Vector.ofFn fun i : Fin 12 => HoldEnt.ofNat (leNat ((area.drop (16 + 4 * i.val)).take 4))
    move := .restoring }

/-- An RSTV to the gang's name is being written into its save area: PEND holds the write, or it is on its way to peer or host memory (R138). -/
def State.saveBusy (s : State) (g : Gang) : Bool :=
  s.rstvs.any (fun r => r.name == s.nameOf g) &&
    ((s.heldWr.any fun h => h.ctx == g.ctx && g.saveA.toNat ≤ h.va && h.va < g.saveA.toNat + 0xA000) || s.items.any fun i => i.inst == farInst && i.ctx == g.ctx && (match i.kind with | .store => true | _ => false))

/-- Step 3 of a resumption, once the marker has been replaced: the counters and the hold table come from the area, and PREEMPT with SUB 1 is
entered (R328). An area that cannot be read is read again later (log 91). -/
def State.readArea (s : State) (g : Gang) : State :=
  match s.ctxRead g.ctx (g.saveA.toNat + 0x200) 64 with
  | (s, none) => s
  | (s, some area) => (s.onGang g.uid fun g => g.restored area).takeTrap g.uid

/-- RESUME (R328, R138): the gang parked in pre-emption under this name of the model takes a slot with the blocks that VALLOC names, and the old
name is forwarded, after every write to the area that has begun; at a further such event the area is read (log 91). -/
def execResume (uid : Nat) (s : State) : Out :=
  .next (match s.gang? uid with
    | none => s
    | some g =>
      let q := s.queue g.queue
      if g.move == .toRead then s.readArea g
      else if g.status != .saved || !q.en || s.qhead g.queue != some (.parked g) || s.saveBusy g then s
      else
        match s.chooseCore q (.parked g) with
        | none => s
        | some (d, c) =>
          if (s.core d c).gated then s
          else
            let old := s.nameOf g
            match s.ctxRead g.ctx (g.saveA.toNat + 0x240) 8 with
            | (s, none) => s
            | (s, some area) =>
              -- VALLOC of the area says how many blocks the gang asks for (R328)
              let n := leNat area
              let blocks := if 1 ≤ n && n ≤ 8 then n else g.vblocks
              if blocks != g.vblocks then s.onGang uid fun g => { g with vblocks := blocks } else
              let without : State := { s with gangs := s.gangs.filter fun x => x.uid != uid }
              match without.chooseSlot d c with
              | none => s
              | some n =>
                let loc : GRef := { die := d, core := c, slot := n }
                let g2 := resumed s g loc blocks
                let s := ((s.setGang g2).bumpGen loc).passPage d c
                let s : State := { s with freeCtr := s.freeCtr + 96 }
                let move := fun (b : BfeCfg) => if b.owner == Owner.gang uid then { b with die := d, core := c } else b
                let s : State := { s with dies := s.dies.map fun x => { x with bfe := x.bfe.map move } }
                (s.addForward g.loc.die g.loc.core old (s.nameOf g2)).tookTurn q)

/-! ### Kill of a context (R325) -/

/-- CONTEXT_KILL (R324, R325): an uncorrectable soft error in state that no gang owns kills the context with ECCK. The other causes kill it
within the step that meets them. -/
def execContextKill (ctx : Nat) (s : State) : Out := .next (s.killContext ctx errECCK [])

end Sys2Proof.Machine
end

