-- ==== Sys2Proof/Machine/Control.lean ====
section
/-! DEFINITION. Branches (R217 to R220, R13) and gang control (R225 to R228). -/

namespace Sys2Proof.Machine

/-! ### BR -/

/-- A taken transfer to a direct target; to the head of an open region it commits and re-enters (R29). -/
def State.goTo (s : State) (g : Gang) (sp : Split) (c : Ctl) (pc : W64) (t : BTgt) : State :=
  let x := target pc t
  if g.region.any fun r => x == r.head then (s.startCommit g sp c .head).transfer g.uid sp.sid x 1
  else (s.noResult g.uid c).jump g.uid sp.sid x

/-- BRA (R218). -/
def execBra (c : Ctl) (mode : BitVec 2) (k : KR) (t : BTgt) (s : State) : Out :=
  issue (.bra c mode k t) c s fun s g sp pc =>
    if g.branches sp mode k then s.goTo g sp c pc t else s.noResult g.uid c

/-- Where the lanes that a BRX does not take go on: at its successor (R150), or past the instruction paired with it, which acts once (R156). -/
def State.pastBrx (s : State) (pc : W64) : W64 := if s.focus.any (·.first) then succPc (pc + 12) else succPc pc

/-- Step 2 or step 3 of R13: the current entry becomes the taken split, below a join of two children. The first entry of a spill stack takes a page
of the L1 (R12, R363). The taken split keeps the entry's name, so a SETEXEC still in flight lands in it, by the model's choice (log 98). -/
def State.divide (s : State) (g : Gang) (sp : Split) (pc : W64) (taken : W32) (tgt rpc : W64) : State :=
  let fast := g.fastFree ≥ 2
  let (j, s) := s.fresh
  let (f, s) := s.fresh
  let join : Split := {
    kind := .join, sid := j, pc := rpc, exec := 2, fmt := 0, rpc := sp.rpc, depth := sp.depth, fast := fast, atBar := false, latch := none
    chk := 0 }
  let on := { sp with pc := tgt, exec := taken, rpc := rpc, depth := sp.depth + 1, latch := none, chk := 1 }
  let n := s.pastBrx pc
  let off := { sp with
    kind := if fast then .live else .deferred, sid := f, pc := n, exec := sp.exec &&& ~~~taken, rpc := rpc, depth := sp.depth + 1
    fast := fast, latch := if n != rpc && lineOf n == lineOf pc then sp.latch else none, chk := if n == rpc then 1 else 0 }
  let s := (if fast || g.spill then s else s.passPage g.loc.die g.loc.core).onGang g.uid fun g =>
    { g with table := g.table.flatMap fun x => if x.sid == sp.sid then [join, on, off] else [x]
             spill := g.spill || !fast, turn := g.turn ++ [f] }
  { s with focus := s.focus.map fun x => { x with moved := true } }

/-- BRX (R13, R219). Both addresses must be instruction addresses (R150). -/
def execBrx (c : Ctl) (clear : Bool) (k : KR) (t r : BTgt) (s : State) : Out :=
  issue (.brx c clear k t r) c s fun s g sp pc =>
    let tgt := target pc t
    let rpc := target pc r
    let bad := fun (x : W64) => (slotOf x).isNone || x.toNat ≥ lwin
    let taken := sp.exec &&& (if clear then ~~~(g.kr k) else g.kr k)
    if bad tgt || bad rpc then s.killGang g.uid errIBT
    else if sp.exec == 0 then (s.noResult g.uid c).jump g.uid sp.sid rpc
    else if taken == sp.exec then (s.noResult g.uid c).jump g.uid sp.sid tgt
    else if taken == 0 then s.noResult g.uid c
    else if sp.depth.toNat ≥ 64 then s.trapAt g sp causeSPLITOVF 0 0 0 pc 0
    else (s.noResult g.uid c).divide g sp pc taken tgt rpc

/-- JMP (R218). -/
def execJmp (c : Ctl) (t : JTgt) (s : State) : Out :=
  issue (.jmp c t) c s fun s g sp pc =>
    match t with
    | .direct t => s.goTo g sp c pc t
    | .indirect a => (s.noResult g.uid c).jump g.uid sp.sid (g.sr a)

/-- CALL (R218): S63 receives the successor with the scalar-ALU latency. -/
def execCall (c : Ctl) (t : JTgt) (s : State) : Out :=
  issue (.call c t) c s fun s g sp pc =>
    let dest := match t with
      | .direct t => target pc t
      | .indirect a => g.sr a
    (s.fixed g.uid latScalar c [.sreg 63 (succPc pc)]).jump g.uid sp.sid dest

/-- RET (R218). -/
def execRet (c : Ctl) (a : SR) (s : State) : Out :=
  issue (.ret c a) c s fun s g sp _ => (s.noResult g.uid c).jump g.uid sp.sid (g.sr a)

/-! ### MISC -/

/-- NOP (R225). -/
def execNop (c : Ctl) (s : State) : Out := issue (.nop c) c s fun s g _ _ => s.noResult g.uid c

/-- PAUSE (R225): the gang is the youngest for n cycles; 0 has no effect. -/
def execPause (c : Ctl) (n : BitVec 18) (s : State) : Out :=
  issue (.pause c n) c s fun s g _ _ =>
    (s.noResult g.uid c).onGang g.uid fun g => if n == 0 then g else { g with pauseTo := s.clock + n.toNat }

/-- WAITF (R225). -/
def execWaitf (c : Ctl) (mask : BitVec 12) (t : BitVec 6) (s : State) : Out :=
  issue (.waitf c mask t) c s fun s g _ _ =>
    (s.noResult g.uid c).onGang g.uid fun g => { g with wait := some (.waitf mask t.toNat) }

/-- EXIT (R15, R29). -/
def execExit (c : Ctl) (s : State) : Out :=
  issue (.exit c) c s fun s g sp _ =>
    if g.region.isSome then s.startCommit g sp c .exit else (s.noResult g.uid c).exitSplit g.uid sp.sid

/-- TRAP (R225): TRET holds the successor. Its flag rises, to fall one cycle later (R160). -/
def execTrap (c : Ctl) (code : BitVec 16) (s : State) : Out :=
  issue (.trap c code) c s fun s g sp pc => (s.noResult g.uid c).trapAt g sp causeTRAPI 0 code 0 (succPc pc) 0

/-- BRK (R225): TRET holds the BRK. Its flag rises, to fall one cycle later (R160). -/
def execBrk (c : Ctl) (code : BitVec 16) (s : State) : Out :=
  issue (.brk c code) c s fun s g sp pc => (s.noResult g.uid c).trapAt g sp causeBRK 0 code 0 pc 0

/-- The CLOCK that a core reads (R227, log 7). -/
def State.clockOf (s : State) (g : Gang) : W64 :=
  BitVec.ofNat 64 (s.clock - (Config.clockLag g.loc.die g.loc.core s.clock).toNat)

/-- The items of Table 09.7 but LANEID. -/
def State.sgetValue (s : State) (g : Gang) (n : BitVec 4) : W64 :=
  match n.toNat with
  | 1 => BitVec.ofNat 64 g.gidx
  | 2 => BitVec.ofNat 64 g.ngangs
  | 3 => s.nameOf g
  | 4 => taskId g.inst g.run
  | 5 => BitVec.ofNat 64 g.loc.core
  | 6 => BitVec.ofNat 64 g.loc.die
  | 7 => BitVec.ofNat 64 s.dev
  | 8 => s.clockOf g
  | 9 => g.fpstat.setWidth 64
  | 10 => g.gstat.setWidth 64
  | 11 => g.trapen.setWidth 64
  | _ => (s.genOf g.loc).setWidth 64

/-- SGET (R227): LANEID writes all 32 lanes of a V register, every other item an S register. -/
def execSget (c : Ctl) (num : BitVec 4) (d : VR) (s : State) : Out :=
  issue (.sget c num d) c s fun s g _ _ =>
    if num == 0 then s.fixed g.uid latScalar c [.vreg d 0xFFFFFFFF 0xFFFFFFFF (mkV fun l => BitVec.ofNat 32 l)]
    else s.fixed g.uid latScalar c [.sreg (d.setWidth 6) (s.sgetValue g num)]

/-- SETFMT (R225). -/
def execSetfmt (c : Ctl) (v : BitVec 16) (s : State) : Out :=
  issue (.setfmt c v) c s fun s g sp _ => s.fixed g.uid latScalar c [.fmt sp.sid v]

/-- GETFMT (R225). -/
def execGetfmt (c : Ctl) (d : SR) (s : State) : Out :=
  issue (.getfmt c d) c s fun s g sp _ => s.fixed g.uid latScalar c [.sreg d (sp.fmt.setWidth 64)]

/-- SETEXEC (R225): a diverged split only turns lanes off; a handler runs as one undivided split (R314). -/
def execSetexec (c : Ctl) (k : KR) (s : State) : Out :=
  issue (.setexec c k) c s fun s g sp _ =>
    s.fixed g.uid latScalar c [.exec sp.sid (if g.diverged && g.tl == 0 then g.kr k &&& sp.exec else g.kr k)]

/-- GETEXEC (R225). -/
def execGetexec (c : Ctl) (k : KR) (s : State) : Out :=
  issue (.getexec c k) c s fun s g sp _ => s.fixed g.uid latScalar c [.kreg k sp.exec]

/-- SSET (R228). -/
def execSset (c : Ctl) (num : BitVec 4) (a : SR) (s : State) : Out :=
  issue (.sset c num a) c s fun s g _ _ =>
    let v := g.sr a
    s.fixed g.uid latScalar c [if num == 9 then .fpSet (v.setWidth 5) else if num == 10 then .gsClear (v.setWidth 4) else .trapen (v.setWidth 3)]

end Sys2Proof.Machine
end

