-- ==== Sys2Proof/Machine/Fabric.lean ====
section
/-! DEFINITION. The Usden fabric (R370 to R379): flits and links, custody, routing, and what a remote item does at its destination
and at its source. Each event whose conditions do not hold leaves the state. -/

namespace Sys2Proof.Machine

/-! ### Header flits (Table 22.2) -/

/-- A header as the 512 bits of its flit. -/
def Hdr.toNat (h : Hdr) : Nat :=
  h.ddev.toNat + 2 ^ 12 * h.sdev.toNat + 2 ^ 24 * h.hop.toNat + 2 ^ 27 * h.cls.toNat + 2 ^ 30 * h.kind.toNat + 2 ^ 36 * h.nflit.toNat +
    2 ^ 40 * h.tag.toNat + 2 ^ 64 * h.ten.toNat + 2 ^ 68 * h.resp.toNat + 2 ^ 69 * h.err.toNat + 2 ^ 128 * h.addr.toNat +
    2 ^ 192 * (h.mask % 2 ^ 128) + 2 ^ 320 * h.aux.toNat + 2 ^ 352 * (h.lidx % 2 ^ 160)

/-- The fields of a header flit. -/
def Hdr.ofNat (n : Nat) : Hdr :=
  { lidx := bitsOf n 352 160, aux := BitVec.ofNat 32 (bitsOf n 320 32), mask := bitsOf n 192 128, addr := BitVec.ofNat 64 (bitsOf n 128 64)
    err := n.testBit 69, resp := n.testBit 68, ten := BitVec.ofNat 4 (bitsOf n 64 4), tag := BitVec.ofNat 24 (bitsOf n 40 24)
    nflit := BitVec.ofNat 4 (bitsOf n 36 4), kind := BitVec.ofNat 6 (bitsOf n 30 6), cls := BitVec.ofNat 3 (bitsOf n 27 3)
    hop := BitVec.ofNat 3 (bitsOf n 24 3), sdev := BitVec.ofNat 12 (bitsOf n 12 12), ddev := BitVec.ofNat 12 (bitsOf n 0 12) }

/-- The KINDs of Table 22.2. -/
def kindListed (k : Nat) : Bool := (1 ≤ k && k ≤ 8) || (0x10 ≤ k && k ≤ 0x12)

/-- The packet carries operands with their places: an atomic or a COLL reduction (Table 22.2). -/
def Hdr.operands (h : Hdr) : Bool := h.kind == 4 || (h.kind == 5 && 2 ≤ (h.aux.extractLsb' 0 8).toNat)

/-- R372, of a packet as received on a link. -/
def Hdr.malformed (h : Hdr) (n : Nat) : Bool :=
  bitsOf n 70 58 != 0 || (h.lidx != 0 && !h.operands) || 5 ≤ h.cls.toNat || !kindListed h.kind.toNat || 6 ≤ h.hop.toNat || 3 ≤ h.nflit.toNat

/-- The data flits that follow a header. -/
def Hdr.flits (h : Hdr) : Nat := h.nflit.toNat

/-- The virtual channel on which a packet crosses its next link: six for each class, one for each HOP (R375). -/
def Hdr.vc (h : Hdr) : Nat := 6 * h.cls.toNat + h.hop.toNat

/-! ### Links (R371) -/

/-- Sends the flits of a packet on a link, one after another on its virtual channel, each with the next sequence number and a place in the replay
buffer. -/
def State.sendFlits (s : State) (p : Port) (vc : Nat) (fs : List Nat) : State :=
  let r := fs.foldl (fun (a : Port × List OutMsg) f =>
    ({ a.1 with txSeq := a.1.txSeq + 1, replay := a.1.replay ++ [(a.1.txSeq, f, vc)] }, a.2 ++ [.flit p.num a.1.txSeq f vc])) (p, [])
  { s.setPort r.1 with out := s.out ++ r.2 }

/-- An error notice or an in-doubt notice. -/
def Hdr.isNotice (h : Hdr) : Bool := h.kind == 0x10 || h.kind == 0x11

/-- The AUX of a notice about a packet names what failed (log 20): [0] neither a request nor a probe, [12:1] the packet's DDEV, [13] a probe, [14] the
response to a probe, [15] a notice, [16] an abort notice, of the communicator in [24:17]. -/
def Hdr.failure (h : Hdr) : BitVec 32 :=
  let probe := h.kind == 0x12
  BitVec.ofNat 32 ((h.resp || (8 ≤ h.kind.toNat && !probe)).toNat + 2 * h.ddev.toNat + 2 ^ 13 * (probe && !h.resp).toNat + 2 ^ 14 * (probe && h.resp).toNat +
    2 ^ 15 * h.isNotice.toNat + (if h.kind == 8 then 2 ^ 16 + 2 ^ 17 * (h.aux.extractLsb' 0 8).toNat else 0))

/-- The device whose item a packet belongs to: the source of a request, the receiver of a response; a notice goes to it, or, where no request failed,
names it. -/
def Hdr.itemDev (h : Hdr) : Nat :=
  if h.isNotice then (if h.aux.getLsbD 0 && !h.aux.getLsbD 16 then (h.aux.extractLsb' 1 12).toNat else h.ddev.toNat)
  else if h.resp then h.ddev.toNat
  else h.sdev.toNat

/-- A notice about a packet, to a device. One about a notice carries that notice's AUX and KIND in ADDR, and one about such a notice the same
AUX and ADDR as that: whoever gets it can send the first notice again, however many were lost since (log 20, log 52). -/
def State.notice (s : State) (h : Hdr) (kind dev : Nat) : State :=
  let deep := h.isNotice && h.aux.getLsbD 15
  s.emit { Hdr.blank with kind := BitVec.ofNat 6 kind, tag := h.tag, ten := h.ten, aux := if deep then h.aux else h.failure
                          sdev := BitVec.ofNat 12 s.dev, ddev := BitVec.ofNat 12 dev
                          addr := if deep then h.addr else if h.isNotice then BitVec.ofNat 64 (h.aux.toNat + 2 ^ 32 * h.kind.toNat) else 0 } []

/-- The link of a port is gone: the source of every item whose packet was crossing it is told (R378). -/
def State.linkLost (s : State) (n : Nat) : State :=
  let lost := s.pkts.filter fun p => p.loc == .link n
  let s : State := { s with pkts := s.pkts.filter fun p => p.loc != .link n }
  let s := lost.foldl (fun (s : State) p => s.notice p.h 0x11 p.h.itemDev) s
  match s.port? n with
  | some p => s.setPort { p with replay := [], replayed := false, rx := [], fails := 0, q1 := (0, 0), q2 := (0, 0) }
  | none => s

/-- Ports carry traffic once DEVID is written and they are UP (Table 22.1). -/
def State.portUp? (s : State) (n : Nat) : Option Port := s.devid.bind fun _ => (s.port? n).bind fun p => if p.st == .up then some p else none

/-- FLIT_RECEIVE (R371): a flit in sequence is taken and acknowledged, one taken before is acknowledged again, and any other, or one
whose CRC fails, is asked for afresh. -/
def execFlitReceive (port seq : Nat) (crcOk : Bool) (flit : Nat) (s : State) : Out :=
  .next (match s.portUp? port with
    | none => s
    | some p =>
      let q := BitVec.ofNat 12 seq
      if !crcOk then s.say (.replayAsk port p.rxSeq)
      else if q == p.rxSeq then (s.setPort { p with rxSeq := q + 1, rx := p.rx ++ [flit % 2 ^ 512] }).say (.flitAck port q)
      else if (p.rxSeq - q).toNat ≤ 2048 then s.say (.flitAck port q)
      else s.say (.replayAsk port p.rxSeq))

/-- FLIT_ACKNOWLEDGEMENT (R371): it acknowledges a flit and every earlier one. -/
def execFlitAcknowledgement (port seq : Nat) (s : State) : Out :=
  .next (match s.port? port with
    | none => s
    | some p =>
      match p.replay.findIdx? fun x => x.1 == BitVec.ofNat 12 seq with
      | some i => s.setPort { p with replay := p.replay.drop (i + 1), replayed := false, fails := 0 }
      | none => s)

/-- FLIT_REPLAY (R371): the flits of the replay buffer go out again, in order. Where a replay went out before and nothing has been acknowledged
since, that replay has failed; after the sixteenth failure in a row the link retrains instead. -/
def execFlitReplay (port : Nat) (s : State) : Out :=
  .next (match s.portUp? port with
    | none => s
    | some p =>
      if p.replay.isEmpty then s
      else
        let fails := if p.replayed then p.fails + 1 else p.fails
        if 16 ≤ fails then s.setPort { p with fails := fails }
        else
          let s := s.setPort { p with retry := p.retry + BitVec.ofNat 64 p.replay.length, replayed := true, fails := fails }
          { s with out := s.out ++ p.replay.map fun x => .flit port x.1 x.2.1 x.2.2 })

/-- LINK_RETRAIN (R371): after 16 consecutive failed replays. -/
def execLinkRetrain (port : Nat) (s : State) : Out :=
  .next (match s.portUp? port with
    | none => s
    | some p => if p.fails < 16 then s else s.setPort { p with st := .retrain, replayed := false, fails := 0 })

/-- PORT_TRAINING_END (R370, R371): UP with 4 or 8 lanes, or one more failure, the fourth of which makes the link DEAD. -/
def execPortTrainingEnd (port : Nat) (ok : Bool) (lanes peer : Nat) (s : State) : Out :=
  .next (match s.port? port with
    | none => s
    | some p =>
      if p.st != .training && p.st != .retrain then s
      else if ok then
        (if lanes != 4 && lanes != 8 then s
         else
           let p := if p.st == .training then { p with txSeq := 0, rxSeq := 0, replay := [], rx := [] } else p
           s.setPort { p with st := .up, lanes := BitVec.ofNat 4 lanes, peer := BitVec.ofNat 12 peer, retrains := 0 })
      else if p.retrains + 1 < 4 then s.setPort { p with retrains := p.retrains + 1 }
      else (s.setPort { p with st := .dead, lanes := 0, retrains := 0 }).linkLost port)

/-- CREDIT_RETURN (R376): the two deepest queues of the neighbour, saturating. -/
def execCreditReturn (port p1 d1 p2 d2 : Nat) (s : State) : Out :=
  .next (match s.portUp? port with
    | none => s
    | some p => s.setPort { p with q1 := (p1, min 255 d1), q2 := (p2, min 255 d2) })

/-! ### Custody (R377) -/

/-- The item of this device that holds a TAG completes with FABRIC (R135, R136, R243). -/
def State.failTag (s : State) (t : Nat) : State :=
  match s.items.find? fun i => i.tag == some t && i.st == .sent with
  | some i => s.failItem i
  | none =>
    match s.rstvs.find? (·.tag == some t) with
    | some r => s.rstvEnd r 5
    | none =>
      match s.drains.find? (·.tag == some t) with
      | some x => s.endDrain x 5
      | none => s

/-- A probed TAG is not used again for 2^21 cycles from now (R378). -/
def State.holdTag (s : State) (t : Nat) : State := { s with quarantine := s.quarantine.filter (·.1 != t) ++ [(t, s.clock + 2 ^ 21)] }

/-- The packet is a probe of this device. -/
def Pkt.ownProbe (p : Pkt) : Bool := p.inPort.isNone && p.h.kind == 0x12 && !p.h.resp

/-- Without the packet an item would not end, and its source is the holder itself: a response, a notice or a probe (R379; log 52). -/
def Pkt.stays (p : Pkt) : Bool := p.inPort.isNone && (p.h.resp || 8 ≤ p.h.kind.toNat)

/-- A holder gives up a packet: its own request fails at once, another source is sent an error notice, whatever the packet was (R376, R377). What
the holder itself has to bring to its end is kept for a later attempt. -/
def State.giveUp (s : State) (p : Pkt) : State :=
  if p.stays && (s.pkts.any (·.k == p.k)) then
    (if p.since + 2 ^ 18 ≤ s.clock then
      let s : State := { s with pkts := s.pkts.map fun q => if q.k == p.k then { q with since := s.clock } else q }
      if p.ownProbe then s.holdTag p.h.tag.toNat else s
     else s)
  else match p.inPort with
  | none => (s.dropPkt p.k).failTag p.h.tag.toNat
  | some n =>
    let s := s.dropPkt p.k
    let s := match s.port? n with
      | some x => s.setPort { x with errn := x.errn + 1 }
      | none => s
    s.notice p.h 0x10 p.h.sdev.toNat

/-- CUSTODY_TAKE (R372, R375, R377): a whole packet is acknowledged and its HOP raised; a malformed one is given up. -/
def execCustodyTake (port : Nat) (s : State) : Out :=
  .next (match s.portUp? port with
    | none => s
    | some p =>
      match p.rx with
      | [] => s
      | f :: fs =>
        let h := Hdr.ofNat f
        if fs.length < h.flits then s
        else
          let s := (s.setPort { p with rx := fs.drop h.flits }).say (.custAck port h.tag.toNat h.sdev.toNat)
          let (k, s) := s.fresh
          let here := h.ddev.toNat == s.dev
          let q : Pkt := {
            k := k, h := { h with hop := h.hop + 1 }, data := fs.take h.flits, loc := if here then .here else .held, inPort := some port
            since := s.clock }
          if h.malformed f then s.giveUp q else { s with pkts := s.pkts ++ [q] })

/-- CUSTODY_ACK (R377): the previous holder frees its copy. The packets of a link stand in the order in which they crossed it, and their
acknowledgements come in that order, so of two with one TAG and SDEV, a request and a response or a notice, the earlier is meant (log 92). -/
def execCustodyAck (port tag sdev : Nat) (s : State) : Out :=
  .next (match s.pkts.find? fun p => p.loc == .link port && p.h.tag.toNat == tag && p.h.sdev.toNat == sdev with
    | some p => s.dropPkt p.k
    | none => s)

/-- The next hop of a packet: the choice of R376 at its source, where an ORD packet goes out on CH0 or not at all, and CH0 elsewhere
(R375). -/
def State.nextHop (s : State) (p : Pkt) : Hop :=
  if p.h.hop == 6 then .dead
  else
    match s.route? p.h.ddev.toNat with
    | none => .dead
    | some e =>
      if p.inPort.isSome then s.primaryHop e
      else if p.h.cls != 4 then s.firstHop e
      else match s.primaryHop e with | .port n => .port n | _ => .dead

/-- An earlier ORD packet of the same source and destination has not left yet (R129). -/
def State.ordBehind (s : State) (p : Pkt) : Bool :=
  p.h.cls == 4 && s.pkts.any fun q => q.k < p.k && q.h.cls == 4 && q.loc == .held && q.h.sdev == p.h.sdev && q.h.ddev == p.h.ddev

/-- The COLL item of this device that the packet carries, if any, has been handed to its first hop, or has failed: its grant may end (R143). -/
def State.handedOver (s t : State) (p : Pkt) : State :=
  match s.items.find? fun i => i.comm.isSome && s.ownPkt i p with
  | some i => t.injected i
  | none => t

/-- PACKET_FORWARD (R374 to R377). -/
def execPacketForward (k : Nat) (s : State) : Out :=
  .next (match s.pkt? k with
    | none => s
    | some p =>
      if p.loc != .held || s.devid.isNone || s.ordBehind p then s
      else
        match s.nextHop p with
        | .wait => s
        | .dead => s.handedOver (s.giveUp p) p
        | .port n =>
          match s.port? n with
          | none => s
          | some x =>
            let t := (if p.ownProbe then s.holdTag p.h.tag.toNat else s).sendFlits x p.h.vc (p.h.toNat :: p.data)
            s.handedOver { t with pkts := (t.pkts.filter fun q => q.k != k) ++ [{ p with loc := .link n }] } p)

/-- PACKET_HOLD_TIMEOUT (R377): held for 2^18 cycles. -/
def execPacketHoldTimeout (k : Nat) (s : State) : Out :=
  .next (match s.pkt? k with
    | none => s
    | some p => if p.loc == .held && p.since + 2 ^ 18 ≤ s.clock then s.handedOver (s.giveUp p) p else s)

/-! ### At the destination (R129, R133, R134, R141) -/

/-- The tag of R105 on a store: value id, version, grade. -/
def pubOf (h : Hdr) : Option PubTag :=
  if h.kind == 3 then
    (if h.addr.extractLsb' 0 7 == 0 then none
     else some { val := (h.addr.extractLsb' 52 12).toNat + 2 ^ 12 * (h.mask % 256), ver := (h.aux.extractLsb' 16 16).toNat, grade := (h.addr.extractLsb' 0 7).toNat - 1 })
  else if h.aux.getLsbD 28 then
    some { val := (h.aux.extractLsb' 0 20).toNat, ver := (h.addr.extractLsb' 52 12).toNat + 2 ^ 12 * (h.aux.extractLsb' 20 4).toNat,
           grade := (h.aux.extractLsb' 24 2).toNat }
  else none

/-- The current version of a value, read through an enabled context of the tenant that reaches its entry (log 15). -/
def State.versionOf (s : State) (ten val : Nat) : Option Nat :=
  ((s.ctxs.filter fun c => c.ten == ten && c.en).filterMap fun c => (s.peekValue c.num val).map veVersion).head?

/-- What the version of a tagged store's value is read from stands at its order points (R368). -/
def State.versionReady (s : State) (h : Hdr) : State :=
  match pubOf h with
  | some t => (s.ctxs.filter fun c => c.ten == h.ten.toNat && c.en).foldl (fun (s : State) c => s.peekReady c.num t.val) s
  | none => s

/-- A tagged store comes too late (R105). -/
def State.outdated (s : State) (h : Hdr) : Bool :=
  match pubOf h with
  | some t => (s.versionOf h.ten.toNat t.val).any fun v => t.ver < v
  | none => false

/-- Operands that a packet brings, applied as one position of the line's order; the old values (R134). -/
def State.peerAtomic (s : State) (f : AFn) (n line : Nat) (h : Hdr) (data : List Nat) : State × Nat × Nat :=
  let accs := operandAccs f n ((h.aux.extractLsb' 8 5).toNat + 1) h.lidx data
  let (m, done) := atomicAccs f line accs s.mem
  let bytes := accs.flatMap fun a => (List.range a.n).map fun k => (a.off + k, memRead m (line + a.off + k))
  let old := done.foldl (fun (r : Nat × Nat) a => (r.1 + a.val * 2 ^ (8 * r.2), r.2 + a.n)) (0, 0)
  ((s.writeLine line bytes).notePhys line (bytes.map (·.1)), old)

/-- A request on a line of this device, once no write is in progress on it and the host has given up its copy, or what it had modified. -/
def State.serve (s : State) (p : Pkt) (line : Nat) : State :=
  let h := p.h
  let fn := (h.aux.extractLsb' 0 8).toNat
  let s := (s.lineReady line !(h.kind == 1 || (h.kind == 5 && fn == 1))).versionReady h
  let mask := if h.kind == 3 then h.mask / 256 * 256 else h.mask
  let bytes := maskedBytes mask (unhalves mask p.data)
  let put := fun (s : State) => (s.writeLine line bytes).notePhys line (bytes.map (·.1))
  let ok := fun (s : State) => s.respond p false 0 [] 0
  let load := fun (s : State) => s.respond p false 0 (halves h.mask (memNat s.mem line 128)) h.mask
  match h.kind.toNat with
  | 1 => load s
  | 2 => if s.outdated h then ok { s with stale := s.stale + 1 } else ok (put s)
  | 3 =>
    if s.outdated h then ok { s with stale := s.stale + 1 }
    else if memNat s.mem line 2 == (h.aux.extractLsb' 0 16).toNat then ok (put s) else s.respond p false 0x100 [] 0
  | 4 =>
    (match AFn.ofCode (fn % 32) with
     | none => s.respond p true 5 [] 0
     | some f =>
       let r := s.peerAtomic f (2 ^ (fn / 32)) line h p.data
       r.1.respond p false 0 (flitsOf r.2.1 r.2.2) 0)
  | _ =>
    if fn == 0 then ok (put s)
    else if fn == 1 then load s
    else ok (s.peerAtomic (collFn fn) 4 line h p.data).1

/-- An RSTV as its packet spells it. -/
def rstvOf (p : Pkt) (id : Nat) : Rstv :=
  { k := id, name := p.h.addr, reg := p.h.aux.setWidth 8, lanes := maskLanes p.h.mask
    v := mkV fun l => BitVec.ofNat 32 (p.data.getD (l / 16) 0 / 2 ^ (32 * (l % 16)))
    ten := p.h.ten.toNat, hops := 0, op := 0, uid := 0, pkt := some p.k, rel := false, scope := 0, tag := none }

/-- The packets of one drain that have come: MASK [7:0] says which piece each is, the rest of MASK which drain (log 20). -/
def State.pieces (s : State) (p : Pkt) : List Pkt :=
  s.pkts.filter fun q => q.loc == .here && !q.h.resp && q.h.kind == 7 && q.h.sdev == p.h.sdev && q.h.tag == p.h.tag && q.h.mask / 256 == p.h.mask / 256

/-- The pieces of a drain in order, once every one has come. -/
def State.wholeDrain (s : State) (p : Pkt) : Option (List Nat) :=
  let ps := s.pieces p
  let ds := (List.range (drainPieces (p.h.aux.getLsbD 8))).map fun i => (ps.find? fun q => q.h.mask % 256 == i).map (·.data)
  if ds.all (·.isSome) then some (ds.flatMap fun d => d.getD []) else none

/-- A drain as its packets spell it. -/
def drainOf (p : Pkt) (data : List Nat) (id : Nat) : Drain :=
  let a80 := p.h.aux.getLsbD 8
  let sz := if a80 then 10 else 4
  let all := ofFlits data
  { k := id, name := p.h.addr, unit := (p.h.aux.extractLsb' 0 8).toNat
    rank := if p.h.aux.getLsbD 9 then some (p.h.aux.extractLsb' 16 16).toNat else none, acc80 := a80
    vals := (List.range 1024).map fun i => bitsOf all (8 * sz * i) (8 * sz), ten := p.h.ten.toNat, op := 0, pkt := some p.k, tag := none, uid := 0 }

/-- The packet's RSTV or drain is at work here already. -/
def State.atWork (s : State) (k : Nat) : Bool :=
  s.rstvs.any (·.pkt == some k) || s.drains.any (·.pkt == some k) || s.cores.any fun c => c.held.any (·.pkt == some k)

/-- REMOTE_REQUEST (R129, R133, R134, R136, R141, R147, R378). -/
def execRemoteRequest (k : Nat) (s : State) : Out :=
  .next (match s.pkt? k with
    | none => s
    | some p =>
      let kind := p.h.kind.toNat
      let key := (p.h.sdev.toNat, p.h.tag.toNat)
      if p.loc != .here || p.h.resp || kind == 0 || 8 ≤ kind || s.atWork k then s
      else if s.refused.any fun r => r.1 == key.1 && r.2.1 == key.2 then s.dropPkt k
      else
        let s : State := { s with performed := s.performed.filter fun r => !(r.1 == key.1 && r.2.1 == key.2) }
        if kind ≤ 5 then
          let line := lineBase (p.h.addr.toNat % 2 ^ 52)
          if !s.inFwin p.h.ten.toNat (line / 65536 * 65536) || !s.present line then
            ({ s with peerBad := s.peerBad + 1 }).respond p true 5 [] 0
          else s.serve p line
        else if kind == 6 then
          -- R126: the RSTVs of one source in the order of their arrival
          if s.pkts.any fun q => q.k < k && q.loc == .here && q.h.kind == 6 && !q.h.resp && q.h.sdev == p.h.sdev && !s.atWork q.k then s
          else
            let (id, s) := s.fresh
            { s with rstvs := s.rstvs ++ [rstvOf p id] }
        else
          match s.wholeDrain p with
          | none => s
          | some data =>
            let (id, s) := s.fresh
            { s with drains := s.drains ++ [drainOf p data id]
                     pkts := s.pkts.filter fun q => q.k == k || !(q.loc == .here && !q.h.resp && q.h.kind == 7 && q.h.sdev == p.h.sdev && q.h.tag == p.h.tag) })

/-! ### At the source (R129, R135) -/

/-- An item completes with the response that its destination gave. -/
def State.answered (s : State) (i : Item) (h : Hdr) (data : List Nat) : State :=
  let done := fun (accs : List Acc) => s.setItem { i with accs := accs, st := .done, tag := none }
  let line := unhalves h.mask data
  let took := fun (a : Acc) => { a with val := bitsOf line (8 * a.off) (8 * a.n), done := true }
  let plain := i.accs.map fun a => { a with done := true }
  if h.err then s.failItem i
  else
    match i.kind with
    | .load => done (i.accs.map took)
    | .loadG ver =>
      if bitsOf line 0 16 == ver.toNat then done (i.accs.map took)
      else done (i.accs.map fun a => { a with val := 0, cmp := 1, ov := 0, done := true })
    | .storeG _ =>
      if h.aux.getLsbD 8 then (done plain).versionDrop i.ctx else done plain
    | .atomic _ _ =>
      let all := ofFlits data
      let r := i.accs.foldl (fun (r : List Acc × Nat) a => (r.1 ++ [{ a with val := bitsOf all (8 * r.2) (8 * a.n), done := true }], r.2 + a.n)) ([], 0)
      (done r.1).casDrops i r.1
    | _ => done plain

/-- What a response does at its source; one for an item that is over does nothing. -/
def State.response (s : State) (h : Hdr) (data : List Nat) : State :=
  let t := some h.tag.toNat
  match s.items.find? fun i => i.tag == t && i.st == .sent with
  | some i => s.answered i h data
  | none =>
    match s.rstvs.find? (·.tag == t) with
    | some r => s.rstvEnd r (h.aux.extractLsb' 0 8).toNat
    | none =>
      match s.drains.find? (·.tag == t) with
      | some x => s.endDrain x (h.aux.extractLsb' 0 8).toNat
      | none => s

/-- REMOTE_RESPONSE (R129, R134, R135). -/
def execRemoteResponse (k : Nat) (s : State) : Out :=
  .next (match s.pkt? k with
    | none => s
    | some p => if p.loc != .here || !p.h.resp || 8 ≤ p.h.kind.toNat then s else (s.dropPkt k).response p.h p.data)

/-- The device that an outstanding TAG's item goes to, and its tenant. -/
def State.tagDev (s : State) (t : Nat) : Option (Nat × Nat) :=
  match s.items.find? fun i => i.tag == some t && i.st == .sent with
  | some i => (match i.dst with | .peer d => some (d, (s.ctx i.ctx).ten) | _ => none)
  | none =>
    match s.rstvs.find? (·.tag == some t) with
    | some r => some (nameDev r.name, r.ten)
    | none => (s.drains.find? (·.tag == some t)).map fun x => (nameDev x.name, x.ten)

/-- The source of an item in doubt probes (R378). -/
def State.probe (s : State) (t : Nat) : State :=
  match s.tagDev t with
  | some (dev, ten) => (s.holdTag t).emit (s.reqHdr 0x12 0 dev t ten) []
  | none => s

/-- A packet of this device without data, sent again as a notice names it. -/
def State.again (s : State) (h : Hdr) (kind : Nat) (resp : Bool) (aux : BitVec 32) : State :=
  s.emit { Hdr.blank with kind := BitVec.ofNat 6 kind, tag := h.tag, ten := h.ten, resp := resp, aux := aux, sdev := BitVec.ofNat 12 s.dev
                          ddev := h.aux.extractLsb' 1 12 } []

/-- An item that has not been seen here: any later copy of it is refused for 2^21 cycles (R378). -/
def State.refuse (s : State) (src t : Nat) : State := { s with refused := s.refused ++ [(src, t, s.clock + 2 ^ 21)] }

/-- ERROR_NOTICE (R377, R378, R379): the item completes with FABRIC, unless it is over. What this device sent to end an item of another, and that has been
given up on its way, is sent again: a response, the answer to a probe, a notice; and a probe, since the item may have been performed (log 52). -/
def execErrorNotice (k : Nat) (s : State) : Out :=
  .next (match s.pkt? k with
    | none => s
    | some p =>
      if p.loc != .here || p.h.kind != 0x10 then s
      else
        let s := s.dropPkt k
        let t := p.h.tag.toNat
        let a := p.h.aux
        let src := (a.extractLsb' 1 12).toNat
        if a.getLsbD 0 then
          (if a.getLsbD 15 then s.again p.h (p.h.addr.extractLsb' 32 6).toNat false (p.h.addr.setWidth 32)
           else if a.getLsbD 16 then s.again p.h 8 false (a.extractLsb' 17 8 |>.setWidth 32)
           else
             match s.performed.find? fun r => r.1 == src && r.2.1 == t with
             | some (_, _, q) => s.emit q.h q.data
             | none => if a.getLsbD 14 then (s.again p.h 0x12 true 0).refuse src t else s)
        else if a.getLsbD 13 then s.probe t
        else s.failTag t)

/-- IN_DOUBT_NOTICE (R378): the source probes, and does not use the TAG again for 2^21 cycles. An abort notice in doubt goes out again, which changes
nothing at a device that it has reached (R145). -/
def execInDoubtNotice (k : Nat) (s : State) : Out :=
  .next (match s.pkt? k with
    | none => s
    | some p =>
      if p.loc != .here || p.h.kind != 0x11 then s
      else
        let s := s.dropPkt k
        let a := if p.h.aux.getLsbD 15 then p.h.addr.setWidth 32 else p.h.aux
        if a.getLsbD 16 then s.again { p.h with aux := a } 8 false (a.extractLsb' 17 8 |>.setWidth 32) else s.probe p.h.tag.toNat)

/-- PROBE (R378): PERFORMED with the item's response, or NOTSEEN, which refuses any later copy. An item that is at work here is
answered once it has ended; of a drain whose pieces have not all come, those that have are dropped. The item is the last that came under its TAG (log 52). -/
def execProbe (k : Nat) (s : State) : Out :=
  .next (match s.pkt? k with
    | none => s
    | some p =>
      if p.loc != .here || p.h.kind != 0x12 || p.h.resp then s
      else
        let src := p.h.sdev.toNat
        let t := p.h.tag.toNat
        let here := fun (q : Pkt) => q.loc == .here && !q.h.resp && q.h.kind.toNat < 8 && q.h.sdev == p.h.sdev && q.h.tag == p.h.tag
        if s.pkts.any fun q => here q && (q.h.kind != 7 || s.atWork q.k || (s.wholeDrain q).isSome) then s
        else
          let back := { p.h with resp := true, sdev := p.h.ddev, ddev := p.h.sdev, hop := 0, cls := 0 }
          match s.performed.find? fun r => r.1 == src && r.2.1 == t with
          | some (_, _, q) =>
            (s.dropPkt k).emit { back with err := q.h.err, aux := q.h.aux ||| 0x80000000, mask := q.h.mask, nflit := q.h.nflit } q.data
          | none =>
            let s := ((s.dropPkt k).emit back []).refuse src t
            { s with pkts := s.pkts.filter fun q => !here q })

/-- PROBE_RESPONSE (R378): DDEV may refuse the TAG for 2^21 cycles, and it is not used before. -/
def execProbeResponse (k : Nat) (s : State) : Out :=
  .next (match s.pkt? k with
    | none => s
    | some p =>
      if p.loc != .here || p.h.kind != 0x12 || !p.h.resp then s
      else
        let s := (s.dropPkt k).holdTag p.h.tag.toNat
        if p.h.aux.getLsbD 31 then s.response { p.h with aux := p.h.aux &&& 0x7FFFFFFF } p.data else s.failTag p.h.tag.toNat)

/-- ABORT_NOTICE (R145). -/
def execAbortNotice (k : Nat) (s : State) : Out :=
  .next (match s.pkt? k with
    | none => s
    | some p =>
      if p.loc != .here || p.h.kind != 8 then s
      else (s.dropPkt k).beginAbort p.h.ten.toNat (p.h.aux.extractLsb' 0 8).toNat)

/-- REFUSAL_EXPIRY (R378): a record 2^21 cycles old goes. -/
def execRefusalExpiry (k : Nat) (s : State) : Out :=
  .next (match s.refused[k]? with
    | some r => if r.2.2 ≤ s.clock then { s with refused := s.refused.eraseIdx k } else s
    | none => s)

end Sys2Proof.Machine
end

