-- ==== Sys2Proof/Machine/HostLink.lean ====
section
/-! DEFINITION. The host link (R131, R367 to R369, R380 to R382): host accesses to device memory, completions of the device's
requests, and the link itself. Each event whose conditions do not hold leaves the state. -/

namespace Sys2Proof.Machine

/-! ### Host accesses to device memory -/

/-- The function reaches a byte of device memory: the physical function all of it, virtual function `n` the windows of tenant `n`
(R339, R381). -/
def State.hostReaches (s : State) (f : HostFn) (pa n : Nat) : Bool :=
  (linesIn pa n).all fun l => s.present l && (match f with | .pf => true | .vf t => s.inFwin t (l / 65536 * 65536))

/-- A write or a back-invalidation is in progress on one of the lines (R368). -/
def State.hostBusy (s : State) (pa n : Nat) : Bool := (linesIn pa n).any fun l => (s.txn? l).isSome || s.snoops.contains l

/-- A host access waits for its lines, and for an earlier host write to one of them (R131, R368). -/
def State.hostWaits (s : State) (pa n : Nat) : Bool :=
  s.hostBusy pa n || s.hostOrd.any fun w => (linesIn w.pa w.data.length).any (linesIn pa n).contains

/-- A line of a host write at its order point: every copy on the device is updated, the host's own is its own affair. -/
def State.hostPut (s : State) (line : Nat) (bytes : List (Nat × Byte)) : State := ((s.recall line).putLine line bytes).notePhys line (bytes.map (·.1))

/-- A refused host access is counted (R339). -/
def State.hostRefused (s : State) (m : OutMsg) : State := ({ s with peerBad := s.peerBad + 1 }).say m

/-- A host write enters at the order points of its lines. -/
def State.hostStore (s : State) (pa : Nat) (data : List Byte) : State :=
  (linesIn pa data.length).foldl (fun (s : State) l =>
    let lo := max l pa
    let hi := min (l + 128) (pa + data.length)
    s.hostPut l ((List.range (hi - lo)).map fun i => (lo + i - l, data.getD (lo + i - pa) memBlank))) s

/-- HOST_WRITE (R131, R339, R381). Writes with the Relaxed Ordering attribute clear enter in arrival order: one that has to wait, or finds
others waiting, waits behind them. One with it set passes them (log 82). -/
def execHostWrite (f : HostFn) (pa : Nat) (data : List Byte) (relaxed : Bool) (s : State) : Out :=
  .next (
    if !s.hlUp || data.isEmpty then s
    else if !s.hostReaches f pa data.length then s.hostRefused .writeFail
    else if relaxed then (if s.hostBusy pa data.length then s.ask .later else s.hostStore pa data)
    else if s.hostBusy pa data.length || !s.hostOrd.isEmpty then { s with hostOrd := s.hostOrd ++ [{ pa := pa, data := data }] }
    else s.hostStore pa data)

/-- The first of the host writes that wait enters once its lines are free (R131). -/
def hostNext (s : State) : Out :=
  .next (match s.hostOrd with
    | [] => s
    | w :: rest => if s.hostBusy w.pa w.data.length then s else ({ s with hostOrd := rest } : State).hostStore w.pa w.data)

/-- The set of a line in the snoop filter of the host: 524,288 sets of 16 ways (R368). -/
def filterSet (line : Nat) : Nat := line / 128 % 524288

/-- The filter has a way for the line. -/
def State.filterRoom (s : State) (line : Nat) : Bool :=
  s.hostFilter.any (·.1 == line) || (s.hostFilter.filter fun p => filterSet p.1 == filterSet line).length < 16

/-- A way of the full set, of those on which nothing is in progress, is asked back of the host; the read waits (R368). -/
def State.filterVictim (s : State) (line : Nat) : State :=
  let set := (s.hostFilter.filter fun p => filterSet p.1 == filterSet line).map (·.1)
  s.ask (match set.find? fun l => (s.txn? l).isNone && !s.snoops.contains l with
    | some l => .snoop l true
    | none => .later)

/-- The filter records what the host caches: Any where it asked to own the line, else Shared (R368). -/
def State.recordHost (s : State) (line : Nat) (own : Bool) : State :=
  { s with hostFilter := (line, own || s.hostFilter.contains (line, true)) :: s.hostFilter.filter fun p => p.1 != line }

/-- HOST_READ (R368, R369, R381): the value at the order points. Under CXL 3.1 the host caches the lines. -/
def execHostRead (f : HostFn) (pa n id : Nat) (own : Bool) (s : State) : Out :=
  .next (
    if !s.hlUp || n == 0 then s
    else if !s.hostReaches f pa n then s.hostRefused (.readFail id)
    else if s.hostWaits pa n then s.ask .later
    else
      let lines := linesIn pa n
      match (if s.hlMode == 4 then lines.find? fun l => !s.filterRoom l else none) with
      | some l => s.filterVictim l
      | none =>
        let s := lines.foldl (fun (s : State) l => s.recall l) s
        let s := if s.hlMode == 4 then lines.foldl (fun (s : State) l => s.recordHost l own) s else s
        s.say (.readData id (memReadN s.mem pa n)))

/-- HOST_ATOMICOP (R381, R120): FetchAdd, Swap and CAS at 32 or 64 bits, aligned; any other is unsupported. -/
def execHostAtomicop (f : HostFn) (k : HostAtomic) (pa n : Nat) (v cmp : BitVec 64) (id : Nat) (s : State) : Out :=
  .next (
    let fn : Option AFn := match k with
      | .fetchAdd => some .add
      | .swap => some .xchg
      | .cas => some .cas
      | .other => none
    match fn with
    | none => if s.hlUp then s.say (.atomicUnsup id) else s
    | some fn =>
      if !s.hlUp then s
      else if (n != 4 && n != 8) || pa % n != 0 then s.say (.atomicUnsup id)
      else if !s.hostReaches f pa n then s.hostRefused (.readFail id)
      else if s.hostWaits pa n then s.ask .later
      else
        let line := lineBase pa
        let s := s.lineReady line true
        let old := memNat s.mem pa n
        let s := (s.notePhys line ((List.range n).map (pa - line + ·))).writeLine line (datumBytes (pa - line) n (atomicNew fn (8 * n) old (v.toNat % 2 ^ (8 * n)) (cmp.toNat % 2 ^ (8 * n))))
        s.say (.atomicOld id (BitVec.ofNat 64 old)))

/-! ### The device's requests (R131, R135, R213, R382) -/

/-- The lane whose AtomicOp is answered ends, and the next one goes out. A lane whose AtomicOp failed writes nothing. -/
def State.hostAtomicDone (s : State) (i : Item) (ok : Bool) (v : Nat) : State :=
  match i.accs.find? fun a => !a.done with
  | none => s
  | some a =>
    if !ok && i.inst == farInst then s.failItem i else
    let s := if ok then s else s.fabricFail i.uid (((s.op? i.op).map (·.setf)).getD 15)
    let accs := if ok then i.accs.map fun x => if x == a then { x with val := v % 2 ^ (8 * a.n), done := true } else x
      else i.accs.filter (· != a)
    let j := { i with accs := accs }
    let s := if ok then s.casDrops { i with accs := [a] } [{ a with val := v }] else s
    if accs.all (·.done) then s.setItem { j with st := if accs.isEmpty then .failed else .done } else s.sendHost j

/-- HOST_COMPLETION (R135, R382): one with an error, or unsupported, completes the item with FABRIC and is counted. -/
def execHostCompletion (n : Nat) (ok : Bool) (data : List Byte) (s : State) : Out :=
  .next (match s.item? n with
    | none => s
    | some i =>
      if i.st != .sent || i.dst != .host then s
      else
        let s := if ok then s else { s with hlerr := s.hlerr + 1 }
        match i.kind with
        | .atomic _ _ | .reduce _ => s.hostAtomicDone i ok (leNat data)
        | .load | .loadG _ =>
          if !ok then s.failItem i
          else if data.length != 128 then s
          else s.setItem { i with st := .done, accs := i.accs.map fun a => { a with val := readData data a.off a.n, done := true } }
        | _ => if ok then s.setItem { i with st := .done, accs := i.accs.map fun a => { a with done := true } } else s.failItem i)

/-! ### The link (R380, R382) -/

/-- HOST_LINK_TRAIN (R380, R383): one of the modes of R380, with a width that it has; from the third stage of the boot on. -/
def execHostLinkTrain (mode width : Nat) (s : State) : Out :=
  .next (
    let legal := (mode < 3 && 2 ≤ width && width ≤ 4) || (3 ≤ mode && mode ≤ 4 && width == 4)
    if !legal || s.hlUp || s.boot.stage.toNat < 3 || s.boot.result != 0 then s
    else { s with hlMode := BitVec.ofNat 3 mode, hlWidth := BitVec.ofNat 3 width, hlUp := true })

/-- HOST_LINK_DOWN (R382): every host-bound item completes with FABRIC. The lost host holds no line any more. -/
def execHostLinkDown (s : State) : Out :=
  .next (
    if !s.hlUp then s
    else
      let s : State := { s with hlUp := false, hostFilter := [], snoops := [] }
      let s := s.txns.foldl (fun (s : State) t => if t.wait.contains .host then s.ackCopy t .host else s) s
      let gone := s.items.filter fun i => i.dst == .host && i.st == .sent
      gone.foldl (fun (s : State) i => s.failItem i) s)

end Sys2Proof.Machine
end

