-- ==== Sys2Proof/Machine/Driver.lean ====
section
/-! DEFINITION. The driver's registers (R331 to R335, R342, R351 to R354, R371, Tables 19.1, 19.4, 19.5, 20.2, 22.1, 22.4 and
23.2): what a write does, what a read gives, and the page engines that PGREQ starts. Each event whose conditions do not hold leaves the
state. -/

namespace Sys2Proof.Machine

/-- The bits `lo` to `hi` of a written word; the others read zero (R5). -/
def keepBits (v : W64) (lo hi : Nat) : W64 := BitVec.ofNat 64 (bitsOf v.toNat lo (hi - lo + 1) * 2 ^ lo)

/-! ### Contexts (R325, R332) -/

/-- A gang of the context is resident, parked or queued (R332). -/
def State.ctxBusy (s : State) (c : Nat) : Bool := s.gangs.any (·.ctx == c) || s.places.any (·.ctx == c) || s.launches.any (·.ctx == c)

/-- CTXCMD_KILL (R332, R325). -/
def execCtxcmdKill (ctx : Nat) (s : State) : Out := .next (if s.boot.ready then s.killContext ctx errDRVK [] else s)

/-- CTXCMD_RESET (R332): only a killed context. -/
def execCtxcmdReset (ctx : Nat) (s : State) : Out :=
  .next (
    if !s.boot.ready || !(s.ctx ctx).killed then s
    else s.onCtx ctx fun c => { c with err := 0, ksnap := [], killed := false, comms := [], aborted := [] })

/-- CTXCFG (R332): a write that would change TEN while EN is 1, or while the context has a gang, is ignored as a whole. -/
def execCtxcfg (ctx : Nat) (v : BitVec 64) (s : State) : Out :=
  .next (
    let c := s.ctx ctx
    let w := keepBits v 0 3 ||| keepBits v 8 12 ||| keepBits v 16 22
    if !s.boot.ready || (w.extractLsb' 0 4 != c.cfg.extractLsb' 0 4 && (c.en || s.ctxBusy ctx)) then s
    else s.onCtx ctx fun c => { c with cfg := w })

/-! ### Translation registers (R351, R352) -/

/-- TINV (R351): it starts a sweep of a page or of the context. -/
def execTinv (ctx : Nat) (v : BitVec 64) (s : State) : Out :=
  .next (
    let kind := (v.extractLsb' 0 2).toNat
    if !s.boot.ready || (s.ctx ctx).tinv || 2 ≤ kind then s
    else
      let (id, s) := s.fresh
      let w : Sweep := {
        id := id, ctx := ctx, all := kind == 1, va := (keepBits v 16 51).toNat, op := none, after := 0, uid := 0, began := false, waits := [] }
      { (s.onCtx ctx fun c => { c with tinv := true }) with sweeps := s.sweeps ++ [w] })

/-- PFVA (R351, R352): the read removes and returns the oldest record; OVF says that a record was lost. -/
def execPfva (ctx : Nat) (s : State) : Out :=
  .next (
    let c := s.ctx ctx
    if !s.boot.ready then s.say (.pfvaData 0)
    else
      match c.pfq with
      | [] => s.say (.pfvaData 0)
      | r :: rest =>
        (s.say (.pfvaData (if c.pfOvf then r ||| 0x4000000000000000 else r))).onCtx ctx fun c => { c with pfq := rest, pfOvf := false })

/-- PFREL (R351): parked gangs and stores held under PEND try again. -/
def execPfrel (ctx : Nat) (v : BitVec 64) (s : State) : Out :=
  .next (if s.boot.ready && v == 1 then s.sweepRetry ctx true 0 else s)

/-! ### The page engines (R353, R354) -/

/-- Where the entry of a level on the path of an address stands (R344, R347). -/
def State.entryFrom (s : State) (ten va lvl : Nat) : Nat → Nat → Option Nat
  | n, t =>
    let pa := t + 8 * (va / 2 ^ lvlBits n % 512)
    if n == lvl then some pa
    else
      let e := BitVec.ofNat 64 (memNat s.mem pa 8)
      if !pteV e || malformed e n || pteL e || !s.inFwin ten (pteFrame e) then none
      else
        match n with
        | 0 => none
        | k + 1 => s.entryFrom ten va lvl k (pteFrame e)

def State.entryAt (s : State) (ctx va lvl : Nat) : Option Nat :=
  let c := s.ctx ctx
  s.entryFrom c.ten va lvl 3 (keepBits c.ptroot 12 51).toNat

def State.readEnt (s : State) (pa : Nat) : State × W64 :=
  let (s, v) := s.devReadNat pa 8
  (s, BitVec.ofNat 64 v)

def State.writeEnt (s : State) (pa : Nat) (e : W64) : State := s.devWriteNat pa 8 e.toNat

/-- A range lies within one window of the tenant. -/
def State.rangeFwin (s : State) (ten base n : Nat) : Bool :=
  (s.tenant ten).fwin.any fun w => (keepBits w.1 16 51).toNat ≤ base && base + n ≤ (keepBits w.2 16 51).toNat

/-- The engine may start: IDLE, DONE or FAILED, and no other command than `op` (R351). -/
def State.pgFree (s : State) (ctx : Nat) (v : W64) (op : Nat) : Bool :=
  let c := s.ctx ctx
  s.boot.ready && (c.pgst == .idle || c.pgst == .done || c.pgst == .failed) && (v.extractLsb' 0 2).toNat == op

def State.pgFail (s : State) (ctx n : Nat) : State := s.onCtx ctx fun c => { c with pgst := .failed, pgres := BitVec.ofNat 4 n, pgSave := [] }

/-- The range that PGREQ names: its address and its level. -/
def Context.pgVa (c : Context) : Nat := (keepBits c.pgreq 25 51).toNat
def Context.pgLvl (c : Context) : Nat := if c.pgreq.getLsbD 2 && c.pgreq.extractLsb' 0 2 == 1 then 2 else 1

/-- What a sweep of a range of 2^bits bytes covers: the range, and what derives from the table lines on the path of its address (R350). -/
def rangeEnt (ctx va bits : Nat) (t : TlbEnt) : Bool := t.ctx == ctx && (t.page / 2 ^ bits == va / 2 ^ bits || derivedFrom t.lvl t.page va)
def rangeWalk (ctx va bits : Nat) (w : WalkEnt) : Bool := w.ctx == ctx && (w.va / 2 ^ bits == va / 2 ^ bits || derivedFrom w.lvl w.va va)

/-- Every named core drops what the sweep of a range covers, and the directories forget the swept cores; mapped stash pages in the range are
written back (R53, R350). -/
def State.dropRange (s : State) (ctx va bits : Nat) : State :=
  let s : State := { s with
    cores := s.cores.map fun k =>
      { k with tlb := k.tlb.filter fun t => !rangeEnt ctx va bits t, walkc := k.walkc.filter fun w => !rangeWalk ctx va bits w }
    gangs := s.gangs.map fun g => { g with lanePg := g.lanePg.filter fun p => !rangeEnt ctx va bits p.2 }
    dies := s.dies.map fun d =>
      { d with tdir := d.tdir.filter fun t => !(t.ctx == ctx && (t.va / 2 ^ bits == va / 2 ^ bits || t.va == tdKey t.lvl va)) } }
  ((s.holdBuffered ctx false va).staleMaps ctx fun v => v.toNat / 2 ^ bits == va / 2 ^ bits).stalePages ctx fun p =>
    p.va.toNat / 2 ^ bits == va / 2 ^ bits

/-- The accesses to a range that were placed under translations that a sweep drops, loads among them (R322, R349). -/
def State.rangeItems (s : State) (ctx va bits : Nat) : List Nat :=
  (s.items.filter fun i => i.ctx == ctx && i.pending && i.st != .held && i.dst != .window &&
    i.vline.toNat / 2 ^ bits == va / 2 ^ bits).map (·.id)

/-- The sweep of a page engine (R349, R350). It begins once no core that it names is asleep: what it covers is dropped. Once the accesses placed
before are performed it is over: what was cached meanwhile goes too, parked gangs and held stores may try again, and `then'` follows. -/
def State.pgSweep (s : State) (ctx bits : Nat) (then' : State → State) : State :=
  let c := s.ctx ctx
  let va := c.pgVa
  match c.pgWait with
  | none =>
    if s.sleepers.any fun k => s.sweepNames k (rangeEnt ctx va bits) (rangeWalk ctx va bits) ctx then s
    else (s.dropRange ctx va bits).onCtx ctx fun c => { c with pgWait := some (s.rangeItems ctx va bits) }
  | some ids =>
    if s.items.any fun i => ids.contains i.id && i.pending then s
    else then' (((s.dropRange ctx va bits).sweepRetry ctx false va).onCtx ctx fun c => { c with pgWait := none })

/-- PGREQ_SPLIT (R353, Table 20.3): CHECK, and BUILD of the 512 leaves. -/
def execPgreqSplit (ctx : Nat) (v : BitVec 64) (s : State) : Out :=
  .next (
    if !s.pgFree ctx v 1 then s
    else
      let s := s.onCtx ctx fun c => { c with pgreq := keepBits v 25 51 ||| keepBits v 0 2, pgres := 0 }
      let c := s.ctx ctx
      let lvl := c.pgLvl
      let va := c.pgVa
      let s := s.tablesReady ctx va 1
      let frame := (keepBits c.pgfrm 12 51).toNat
      match s.entryAt ctx va lvl with
      | none => s.pgFail ctx 1
      | some pa =>
        let (s, e) := s.readEnt pa
        if !pteV e || !pteL e || malformed e lvl || va % 2 ^ lvlBits lvl != 0 then s.pgFail ctx 1
        else if !pteMig e then s.pgFail ctx 2
        else if !s.inFwin c.ten frame || !s.present frame then s.pgFail ctx 3
        else
          let leaf := fun (i : Nat) => BitVec.ofNat 64 (e.toNat + i * 2 ^ lvlBits (lvl - 1))
          let s := s.devWrite frame ((List.range 512).flatMap fun i => leBytes 8 (leaf i).toNat)
          s.onCtx ctx fun c => { c with pgst := .swap, pgSave := [(pa, e)] })

/-- The engine swaps: a split, or a promotion. -/
def Context.splits (c : Context) : Bool := c.pgreq.extractLsb' 0 2 == 1

/-- SPLINTER_SWAP (R353). -/
def execSplinterSwap (ctx : Nat) (s : State) : Out :=
  .next (
    let c := s.ctx ctx
    if c.pgst != .swap || !c.splits then s
    else
      match c.pgSave with
      | [] => s
      | (pa, e) :: _ =>
        let (s, now) := s.readEnt pa
        if now != e then s.pgFail ctx 4
        else (s.writeEnt pa (1 ||| keepBits c.pgfrm 12 51)).onCtx ctx fun c => { c with pgst := .sweep })

/-- SPLINTER_SWEEP (R353). -/
def execSplinterSweep (ctx : Nat) (s : State) : Out :=
  .next (
    let c := s.ctx ctx
    if c.pgst != .sweep || !c.splits then s
    else s.pgSweep ctx (lvlBits c.pgLvl) fun s => s.onCtx ctx fun c => { c with pgst := .done, pgres := 0, pgSave := [] })

/-- The frame is 32 MiB-aligned, within a window of the tenant, and wholly in one channel-local region (R354, R387). -/
def State.targetOk (s : State) (ten frame : Nat) : Bool :=
  let d := homeDie frame
  let mib := 1048576
  let l := (s.boot.chloc.extractLsb' 0 11).toNat * mib
  let base := s.nchan d * (1152 * mib - l)
  let off := frame % dieStride
  frame % 2 ^ 25 == 0 && s.rangeFwin ten frame (2 ^ 25) && s.present frame && base ≤ off && l != 0 &&
    (off - base) / l == (off - base + 2 ^ 25 - 1) / l

/-- The 512 leaves of a table, each with its address. -/
def State.leaves (s : State) (table : Nat) : State × List (Nat × W64) :=
  let (s, bs) := s.devRead table 4096
  (s, (List.range 512).map fun i => (table + 8 * i, BitVec.ofNat 64 (leNat ((bs.drop (8 * i)).take 8))))

/-- A leaf that may be promoted (Table 20.4). -/
def promOk (e : W64) : Bool := pteV e && pteL e && !malformed e 0 && pteProm e && !ptePeer e && !pteHost e && !pteNC e && !pteMig e

/-- What PROTECT writes into a leaf: W 0 and PEND 1 where W was set. -/
def protectEnt (e : W64) : W64 := if pteW e then (e &&& ~~~(1#64 <<< 3)) ||| (1#64 <<< 10) else e

/-- W restored and PEND cleared in the leaves that PROTECT changed. -/
def State.unprotect (s : State) (old : List (Nat × W64)) : State :=
  old.foldl (fun (s : State) p =>
    if pteW p.2 then
      let (s, e) := s.readEnt p.1
      if ptePend e then s.writeEnt p.1 ((e &&& ~~~(1#64 <<< 10)) ||| (1#64 <<< 3)) else s
    else s) s

/-- PGREQ_PROMOTE (R354, Table 20.4): CHECK, and the writes of PROTECT. -/
def execPgreqPromote (ctx : Nat) (v : BitVec 64) (s : State) : Out :=
  .next (
    if !s.pgFree ctx v 2 then s
    else
      let s := s.onCtx ctx fun c => { c with pgreq := keepBits v 25 51 ||| keepBits v 0 2, pgres := 0 }
      let c := s.ctx ctx
      let s := s.tablesReady ctx c.pgVa 1
      match s.entryAt ctx c.pgVa 1 with
      | none => s.pgFail ctx 5
      | some pa =>
        let (s, e) := s.readEnt pa
        if !pteV e || pteL e || malformed e 1 || !s.inFwin c.ten (pteFrame e) then s.pgFail ctx 5
        else
          let (s, ls) := s.leaves (pteFrame e)
          let rwx := fun (e : W64) => e.extractLsb' 2 3
          if !(ls.all fun p => promOk p.2 && rwx p.2 == rwx ((ls.map (·.2)).headD 0)) then s.pgFail ctx 5
          else if !s.targetOk c.ten (keepBits c.pgfrm 12 51).toNat then s.pgFail ctx 6
          else
            let s := ls.foldl (fun (s : State) p => if pteW p.2 then s.writeEnt p.1 (protectEnt p.2) else s) s
            s.onCtx ctx fun c => { c with pgst := .protect, pgSave := (pa, e) :: ls, pgDirty := [] })

/-- PROMOTION_COPY (R354): the sweep of PROTECT, and then, in COPY, each leaf's 64 KiB goes to its place in the target. -/
def execPromotionCopy (ctx : Nat) (s : State) : Out :=
  .next (
    let c := s.ctx ctx
    if c.pgst == .protect then s.pgSweep ctx 25 fun s => s.onCtx ctx fun c => { c with pgst := .copy }
    else if c.pgst != .copy then s
    else
      let dst := (keepBits c.pgfrm 12 51).toNat
      let s := (List.range 512).foldl (fun (s : State) i =>
        let r := s.devRead (pteFrame (((c.pgSave.drop 1).map (·.2)).getD i 0)) 65536
        r.1.devWrite (dst + 65536 * i) r.2) s
      s.onCtx ctx fun c => { c with pgst := .swap })

/-- Bytes of the new page whose old frame was written by physical address during COPY or SWAP are free values (R354, R6). -/
def State.freeStale (s : State) (dst : Nat) (offs : List Nat) : State :=
  offs.foldl (fun (s : State) o =>
    let (v, s) := s.freeVal
    s.devWrite (dst + o) [v.setWidth 8]) s

/-- PROMOTION_SWAP (R354): unchanged leaves and an unchanged entry let the 32 MiB leaf in. -/
def execPromotionSwap (ctx : Nat) (s : State) : Out :=
  .next (
    let c := s.ctx ctx
    if c.pgst != .swap || c.splits then s
    else
      match c.pgSave with
      | [] => s
      | (pa, e) :: ls =>
        let (s, now) := s.leaves (pteFrame e)
        let (s, ent) := s.readEnt pa
        if now != ls.map (fun p => (p.1, protectEnt p.2)) || ent != e then s.onCtx ctx fun c => { c with pgst := .abort }
        else
          let dst := (keepBits c.pgfrm 12 51).toNat
          let s := s.freeStale dst c.pgDirty
          let rwx := keepBits ((ls.map (·.2)).headD 0) 2 4
          (s.writeEnt pa (0x83 ||| rwx ||| BitVec.ofNat 64 dst)).onCtx ctx fun c => { c with pgst := .sweep })

/-- PROMOTION_SWEEP (R354): SWEEP ends in DONE, and ABORT in FAILED. -/
def execPromotionSweep (ctx : Nat) (s : State) : Out :=
  .next (
    let c := s.ctx ctx
    if c.splits then s
    else
      match c.pgst with
      | .sweep => s.pgSweep ctx 25 fun s => (s.unprotect (c.pgSave.drop 1)).onCtx ctx fun c => { c with pgst := .done, pgres := 0, pgSave := [] }
      | .abort => (if c.pgWait.isNone then s.unprotect (c.pgSave.drop 1) else s).pgSweep ctx 25 fun s => s.pgFail ctx 4
      | _ => s)

/-! ### The Halyard from the host (R333, Table 19.5) -/

/-- HWCMD_ARM (R333, R260). A write in progress on the watched line ends first. -/
def execHwcmdArm (ctx : Nat) (v : BitVec 64) (s : State) : Out :=
  .next (
    if !s.boot.ready || v.extractLsb' 0 2 != 1 then s
    else
      let c := s.ctx ctx
      let va := (keepBits c.hwaddr 0 51).toNat
      let s := s.tablesReady ctx va 8
      let s := match s.translate ctx va .load with
        | .ok pa e => if ptePeer e || pteHost e then s else s.lineReady (lineBase pa) false
        | _ => s
      match s.armWatch ctx (v.extractLsb' 8 2).toNat va (v.extractLsb' 2 2) c.hwval c.hwrec (v.getLsbD 4) false with
      | some (s, r) => s.onCtx ctx fun c => { c with hwres := BitVec.ofNat 64 r }
      | none => s)

/-- HWCMD_DISARM (R333, R260). -/
def execHwcmdDisarm (ctx : Nat) (v : BitVec 64) (s : State) : Out :=
  .next (
    if !s.boot.ready || v.extractLsb' 0 2 != 2 then s
    else
      let r := s.disarmWatch ctx (v.extractLsb' 8 2).toNat (v.extractLsb' 16 6).toNat
      r.1.onCtx ctx fun c => { c with hwres := BitVec.ofNat 64 r.2 })

/-! ### Ports, DEVID and power (R371, R376, R342, R383) -/

/-- An enabled port that is DOWN trains, once the device is READY and its DEVID is written. A port that the part disables never
trains (R387). -/
def State.startTraining (s : State) (n : Nat) : State :=
  match s.port? n with
  | some p => if s.boot.ready && s.devid.isSome && s.fuses.ports.getLsbD n && p.en && p.st == .down then s.setPort { p with st := .training, retrains := 0 } else s
  | none => s

/-- PORTCTL_EN (R371, R387): a disabled port is DOWN with no lane, and loses what is on its link. A DEAD port stays DEAD. -/
def execPortctlEn (port : Nat) (v : BitVec 64) (s : State) : Out :=
  .next (match s.port? port with
    | none => s
    | some p =>
      if !s.boot.ready then s
      else if v.getLsbD 0 then (s.setPort { p with en := true }).startTraining port
      else (s.setPort { p with en := false, st := .down, lanes := 0, fails := 0, retrains := 0 }).linkLost port)

/-- PORTCTL_REENABLE (R371): a DEAD port leaves DEAD. -/
def execPortctlReenable (port : Nat) (s : State) : Out :=
  .next (match s.port? port with
    | none => s
    | some p => if s.boot.ready && p.st == .dead then (s.setPort { p with st := .down }).startTraining port else s)

/-- DEVID (R371, R383): accepted from the third stage on. -/
def execDevid (v : BitVec 64) (s : State) : Out :=
  .next (
    if s.boot.stage.toNat < 3 || s.boot.result != 0 then s
    else
      let s : State := { s with devid := some (v.extractLsb' 0 12) }
      (List.range 18).foldl (fun (s : State) n => s.startTraining n) s)

/-- PLBUDGET (R342): the firmware's write stands; a driver's that sets a field above the firmware's value is ignored as a whole. -/
def execPlbudget (die : Nat) (fw : Bool) (v : BitVec 64) (s : State) : Out :=
  .next (
    let w := keepBits v 0 15 ||| keepBits v 20 23
    let d := s.die die
    if fw then (if s.boot.stage.toNat < 3 || s.boot.result != 0 then s else s.onDie die fun x => { x with plb := w, plbFw := w })
    else if !s.boot.ready || plRamp d.plbFw < plRamp w || plCbud d.plbFw < plCbud w || plMbud d.plbFw < plMbud w then s
    else s.onDie die fun x => { x with plb := w })

/-! ### The other registers (Tables 19.1, 19.2, 20.2, 22.3) -/

/-- The bits of 64-bit word `k` of a core mask that stand for enabled cores (R387). -/
def State.coreBits (s : State) (k : Nat) : W64 :=
  BitVec.ofNat 64 (((List.range 64).filter fun i => 64 * (k % 2) + i < s.ncore (k / 2)).foldl (fun n i => n + 2 ^ i) 0)

/-- A core mask with one of its words replaced. -/
def State.maskWord (s : State) (m k : Nat) (v : W64) : Nat := setBits m (64 * k) 64 (v &&& s.coreBits k).toNat

/-- A queue has a resident, parked or queued gang (R334, R332). -/
def State.queueBusy (s : State) (q : Nat) : Bool := s.gangs.any (·.queue == q) || s.places.any (·.queue == q)

def State.writeQueue (s : State) (q r : Nat) (v : W64) : State :=
  let x := s.queue q
  if r == 0 then
    let w := keepBits v 0 6 ||| keepBits v 8 9
    if w.extractLsb' 0 4 != x.ctl.extractLsb' 0 4 && (x.en || s.queueBusy q) then s else s.setQueue { x with ctl := w }
  else if 64 ≤ r && r % 8 == 0 then s.setQueue { x with mask := s.maskWord x.mask ((r - 64) / 8) v }
  else s

def State.writeTenant (s : State) (t r : Nat) (v : W64) : State :=
  let x := s.tenant t
  if r == 0 then s.setTenant { x with vtbase := keepBits v 0 51 }
  else if r == 0x08 then s.setTenant { x with vtsize := v.setWidth 21 }
  else if r == 0x10 then s.setTenant { x with clbase := keepBits v 0 51 }
  else if r == 0x18 then s.setTenant { x with clsize := v.setWidth 32 }
  else if r == 0x20 then s.setTenant { x with combase := keepBits v 0 51 }
  else if 0x40 ≤ r && r < 0xC0 && r % 8 == 0 then
    let w := (r - 0x40) / 16
    let old := x.fwin.getD w (0, 0)
    s.setTenant { x with fwin := x.fwin.set w (if r % 16 == 0 then (keepBits v 16 51, old.2) else (old.1, keepBits v 16 51)) }
  else if 0x100 ≤ r && r < 0x140 && r % 8 == 0 then s.setTenant { x with cpart := s.maskWord x.cpart ((r - 0x100) / 8) v }
  else s

def State.writeContext (s : State) (n r : Nat) (v : W64) : State :=
  let c := s.ctx n
  match r with
  | 0x08 => s.setCtx { c with ptroot := keepBits v 12 51 }
  | 0x10 => s.setCtx { c with poolB := keepBits v 0 51 }
  | 0x18 => s.setCtx { c with poolN := v.setWidth 32 }
  | 0x118 => s.setCtx { c with pgfrm := keepBits v 12 51 }
  | 0x180 => s.setCtx { c with tvec1 := keepBits v 0 51 }
  | 0x188 => s.setCtx { c with tvec2 := keepBits v 0 51 }
  | 0x190 => s.setCtx { c with tsb1 := keepBits v 12 51 }
  | 0x198 => s.setCtx { c with tsb2 := keepBits v 12 51 }
  | 0x1A0 => s.setCtx { c with priv := v.getLsbD 0 }
  | 0x200 => s.setCtx { c with hwaddr := keepBits v 0 51 }
  | 0x208 => s.setCtx { c with hwval := v }
  | 0x210 => s.setCtx { c with hwrec := keepBits v 0 51 }
  | _ => s

/-- CONFIG_WRITE (R331, R5): the registers that do nothing but hold what is written. Through a virtual function nothing is written. -/
def execConfigWrite (f : HostFn) (off : Nat) (v : BitVec 64) (s : State) : Out :=
  .next (
    if f != .pf || !s.boot.ready || off % 8 != 0 then s
    else if 0x10000 ≤ off && off < 0x12000 then s.writeQueue ((off - 0x10000) / 128) (off % 128) v
    else if 0x20000 ≤ off && off < 0x30000 then s.writeTenant ((off - 0x20000) / 0x1000) (off % 0x1000) v
    else if 0x40000 ≤ off && off < 0x80000 then s.writeContext ((off - 0x40000) / 0x1000) (off % 0x1000) v
    else if 0xC0000 ≤ off && off < 0xC8000 then { s with routes := insertAt s.routes ((off - 0xC0000) / 8) (keepBits v 0 35) }
    else s)

/-! ### Reads (R331, R381, R383) -/

def PgState.code : PgState → Nat
  | .idle => 0
  | .check => 1
  | .build => 2
  | .swap => 3
  | .sweep => 4
  | .done => 5
  | .failed => 6
  | .protect => 7
  | .copy => 8
  | .abort => 9

def PortSt.code : PortSt → Nat
  | .down => 0
  | .training => 1
  | .up => 2
  | .retrain => 3
  | .dead => 4

def State.readTenant (s : State) (t r : Nat) : W64 :=
  let x := s.tenant t
  if r == 0 then x.vtbase
  else if r == 0x08 then x.vtsize.setWidth 64
  else if r == 0x10 then x.clbase
  else if r == 0x18 then x.clsize.setWidth 64
  else if r == 0x20 then x.combase
  else if 0x40 ≤ r && r < 0xC0 then
    let w := x.fwin.getD ((r - 0x40) / 16) (0, 0)
    if r % 16 == 0 then w.1 else w.2
  else if 0x100 ≤ r && r < 0x140 then BitVec.ofNat 64 (bitsOf x.cpart (8 * (r - 0x100)) 64)
  else 0

/-- A context register, but for PFVA, whose read changes it. -/
def State.readContext (s : State) (n r : Nat) : W64 :=
  let c := s.ctx n
  if 0x40 ≤ r && r < 0x100 then c.ksnap.getD ((r - 0x40) / 8) 0
  else
    match r with
    | 0x00 => c.cfg
    | 0x08 => c.ptroot
    | 0x10 => c.poolB
    | 0x18 => c.poolN.setWidth 64
    | 0x20 => c.err
    | 0x30 => c.vdrop
    | 0x38 => if c.tinv then 0x8000000000000000 else 0
    | 0x118 => c.pgfrm
    | 0x120 => BitVec.ofNat 64 (c.pgst.code + 2 ^ 8 * c.pgres.toNat)
    | 0x180 => c.tvec1
    | 0x188 => c.tvec2
    | 0x190 => c.tsb1
    | 0x198 => c.tsb2
    | 0x1A0 => BitVec.ofNat 64 c.priv.toNat
    | 0x200 => c.hwaddr
    | 0x208 => c.hwval
    | 0x210 => c.hwrec
    | 0x220 => c.hwres
    | _ => 0

def State.readPort (s : State) (n r : Nat) : W64 :=
  match s.port? n with
  | none => 0
  | some p =>
    match r with
    | 0x00 => BitVec.ofNat 64 p.en.toNat
    | 0x08 => BitVec.ofNat 64 (p.st.code + 2 ^ 4 * p.lanes.toNat + 2 ^ 16 * p.peer.toNat)
    | 0x10 => p.retry
    | 0x18 => p.errn
    | _ => 0

def State.readBoot (s : State) (r : Nat) : W64 :=
  match r with
  | 0x00 => BitVec.ofNat 64 (s.boot.stage.toNat + 2 ^ 4 * s.boot.result.toNat + 2 ^ 8 * s.boot.ready.toNat + 2 ^ 9 * s.boot.slotB.toNat)
  | 0x08 => s.boot.ncore
  | 0x10 => s.boot.nchan
  | 0x18 => s.boot.chloc
  | 0x20 => s.boot.pkgpwr
  | _ => 0

/-- PLBUDGET as it reads: a RAMP of 0 reads as 1 (Table 19.4). -/
def plRead (w : W64) : W64 := if w.extractLsb' 20 4 == 0 then w ||| (1#64 <<< 20) else w

/-- What a read at an offset of BAR0 gives. Through virtual function `n` only tenant `n`'s block and its contexts' show (R331). -/
def State.readReg (s : State) (f : HostFn) (off : Nat) : W64 :=
  let sees := fun (t : Nat) => match f with | .pf => true | .vf n => n == t
  let pf := f == .pf
  if off == 0xF0000 && pf then s.readBoot 0
  else if !s.boot.ready || off % 8 != 0 then 0
  else if 0x20000 ≤ off && off < 0x30000 then
    let t := (off - 0x20000) / 0x1000
    if sees t then s.readTenant t (off % 0x1000) else 0
  else if 0x40000 ≤ off && off < 0x80000 then
    let c := (off - 0x40000) / 0x1000
    if sees (s.ctx c).ten then s.readContext c (off % 0x1000) else 0
  else if !pf then 0
  else if 0x10000 ≤ off && off < 0x12000 then
    let q := s.queue ((off - 0x10000) / 128)
    if off % 128 == 0 then q.ctl else if 64 ≤ off % 128 then BitVec.ofNat 64 (bitsOf q.mask (8 * (off % 128 - 64)) 64) else 0
  else if 0x80000 ≤ off && off < 0x80400 then
    let d := s.die ((off - 0x80000) / 0x100)
    if off % 0x100 == 0 then d.egdisc else if off % 0x100 == 8 then plRead d.plb else 0
  else if 0xC0000 ≤ off && off < 0xC8000 then (lookup s.routes ((off - 0xC0000) / 8)).getD 0
  else if 0xD0000 ≤ off && off < 0xD0480 then s.readPort ((off - 0xD0000) / 0x40) (off % 0x40)
  else if off == 0xD1000 then BitVec.ofNat 64 s.dev
  else if off == 0xE0000 then BitVec.ofNat 64 (s.hlMode.toNat + 2 ^ 4 * s.hlWidth.toNat + 2 ^ 8 * s.hlUp.toNat)
  else if off == 0xE0008 then s.hlerr
  else if 0xF0000 ≤ off then s.readBoot (off - 0xF0000)
  else 0

end Sys2Proof.Machine
end

