-- ==== Sys2Proof/Machine/Gate.lean ====
section
/-! DEFINITION. Power-gated cores (R365): when a core is gated, what arrives for it while it sleeps, and how it wakes. -/

namespace Sys2Proof.Machine

/-- CORE_GATE (R365). -/
def execCoreGate (d c : Nat) (s : State) : Out :=
  .next (
    if (s.core d c).gated || !s.coreIdle d c then s
    else
      let us := (s.gangs.filter fun g => g.loc.die == d && g.loc.core == c).map (·.uid)
      let s := us.foldl (fun (s : State) u => s.flushPages u (((s.gang? u).map (·.mappedPages)).getD []) .clean true) s
      let lines := ((s.core d c).l1.filter fun x => x.nc && !x.dirty.isEmpty).map (·.line)
      let s := lines.foldl (fun (s : State) l => s.flushNc d c l) s
      s.onCore d c fun k => { k with gated := true, touched := [] })

/-- What a sweep of a page engine that has still to begin covers, as a power of two (R353, R354). -/
def Context.sweepBits (c : Context) : Option Nat :=
  if c.pgWait.isSome then none
  else match c.pgst with
  | .sweep => some (if c.splits then lvlBits c.pgLvl else 25)
  | .protect | .abort => some 25
  | _ => none

/-- A sweep that has still to begin names the core (R350, R365). -/
def State.sweepComes (s : State) (k : Core) : Bool :=
  (s.sweeps.any fun w => !w.began && s.sweepNames k (sweptEnt w.ctx w.all w.va) (sweptWalk w.ctx w.all w.va) w.ctx) ||
    s.ctxs.any fun c => c.sweepBits.any fun n => s.sweepNames k (rangeEnt c.num c.pgVa n) (rangeWalk c.num c.pgVa n) c.num

/-- A gang is to be placed or resumed on the core (R336, R328, R365). -/
def State.headComes (s : State) (d c : Nat) : Bool :=
  s.queues.any fun q => q.en && (s.qhead q.num).any fun h => s.chooseCore q h == some (d, c)

/-- What arrives for a core (R365): a placement or a resumption, an RSTV, an MDRAIN, the end of a barrier phase, a completion, a sweep; and the gangs of the
core that go on by themselves, at the end of a PAUSE or with a trap. -/
def State.wakes (s : State) (d c : Nat) : Bool :=
  let mine := s.gangs.filter fun g => g.loc.die == d && g.loc.core == c
  let here := fun (n : W64) => nameDev n == s.dev && nameDie n == d && nameCore n == c
  (mine.any fun g => s.eligible g || !g.pend.isEmpty || g.trap.isSome || g.preempt || (g.status == .parkedFault && g.retry) ||
      (g.mayIssue && g.table.any fun sp => g.fetches sp && sp.next == .fetch)) ||
    (s.ops.any fun o => o.die == d && o.core == c && !s.opWaits o) || ((s.core d c).cohorts.any fun k => s.phaseOver k) ||
    (s.rstvs.any fun r => here r.name) || (s.drains.any fun x => here x.name) || s.headComes d c || s.sweepComes (s.core d c)

/-- CORE_WAKE (R365): every L1 line, and every stash line of a page touched while asleep, is INVALID. -/
def execCoreWake (d c : Nat) (s : State) : Out :=
  .next (
    let k := s.core d c
    if !k.gated || !s.wakes d c then s
    else
      let s := k.touched.foldl (fun (s : State) t => s.onGang t.1 fun g => g.onPage t.2 fun p => { p with lines := [], stored := [] }) s
      s.onCore d c fun k => { k with gated := false, l1 := [], touched := [], idleFrom := s.clock })

end Sys2Proof.Machine
end

