-- ==== Sys2Proof/Machine/Platform.lean ====
section
/-! DEFINITION. Bring-up and attestation (R383 to R388). The fused and cryptographic constants are those of Config, and the byte
layouts that the spec leaves open are the model's (log 8). -/

namespace Sys2Proof.Machine

/-! ### The boot stages (R383, Table 23.1) -/

/-- The device stands at a stage and has not stopped. -/
def State.atStage (s : State) (n : Nat) : Bool := s.boot.stage.toNat == n && s.boot.result == 0

/-- A stage fails: the device stops with its RESULT. -/
def State.bootFail (s : State) (n : Nat) : State := { s with boot := { s.boot with result := BitVec.ofNat 3 n } }

/-- The larger of two security versions. -/
def laterSvn (a b : BitVec 16) : BitVec 16 := if a.toNat ≤ b.toNat then b else a

/-- The fused minimum SVN (R384). -/
def Fuses.minSvn (f : Fuses) : BitVec 16 := laterSvn Config.minSvn f.svn

/-- DEVICE_RESET (R383): the machine right after reset. What the outside world still means to bring stays (log 2), and so does what the
part has fused. A minimum SVN that the driver asked for is fused now: fuses never change after reset (R384, R386). -/
def execDeviceReset (s : State) : Out :=
  .next { State.reset with
    agenda := s.agenda, freeCtr := s.freeCtr, fuses := { s.fuses with svn := laterSvn s.fuses.svn s.fuses.svnAsk, svnAsk := 0 } }

/-- The header fields of an image slot other than the signature, followed by the body (R384). -/
def imageBytes (i : ImageSlot) : List Byte := leBytes 64 i.key.toNat ++ leBytes 2 i.svn.toNat ++ leBytes 4 i.body.length ++ i.body

/-- The three conditions of R384. -/
def slotOk (f : Fuses) (i : ImageSlot) : Bool :=
  Config.sm3 (leBytes 64 i.key.toNat) == Config.keyHash && Config.sm2Verify i.key i.sig (imageBytes i) && f.minSvn.toNat ≤ i.svn.toNat

/-- BOOT_ROM_VERIFY (R384): slot A, then slot B with SLOTB set; the accepted slot is measured. -/
def execBootRomVerify (s : State) : Out :=
  .next (
    let take := fun (b : Bool) =>
      let i := Config.slot b
      let boot : Boot := { s.boot with stage := 2, slotB := b, meas2 := Config.sm3 (leBytes 64 i.sig.toNat ++ imageBytes i) }
      { s with boot := boot }
    if !s.atStage 1 then s
    else if slotOk s.fuses (Config.slot false) then take false
    else if slotOk s.fuses (Config.slot true) then take true
    else ({ s with boot := { s.boot with slotB := true } }).bootFail 1)

/-- MEMORY_TRAIN (R383, R103): the second stage. -/
def execMemoryTrain (ok : Bool) (s : State) : Out :=
  .next (
    if !s.atStage 2 then s
    else if ok then { s with boot := { s.boot with stage := 3 } }
    else s.bootFail 2)

/-- Registers that a part may report (Table 23.2, R388). -/
def platformOk (r : PlatformRegs) : Bool :=
  ((List.range 4).all fun d =>
    let c := (r.ncore.extractLsb' (8 * d) 8).toNat
    let n := (r.nchan.extractLsb' (8 * d) 8).toNat
    1 ≤ c && c ≤ 128 && 1 ≤ n && n ≤ 64) &&
  r.ncore.extractLsb' 32 32 == 0 && r.nchan.extractLsb' 32 32 == 0 && r.chloc.toNat ≤ 1152 && r.chloc.toNat % 32 == 0

/-- 2000, 1480, 260 and 260 W (R388). -/
def pkgPower : W64 := BitVec.ofNat 64 (2000 + 1480 * 2 ^ 11 + 260 * 2 ^ 22 + 260 * 2 ^ 32)

/-- RAMP 4, CBUD 32 and MBUD 96 (R342, R388). -/
def bringUpBudget : W64 := BitVec.ofNat 64 (96 + 32 * 2 ^ 8 + 4 * 2 ^ 20)

/-- PLATFORM_CONFIG (R383, R387, R388): the third stage writes the count, map and power registers, with the counts that the part has
fused, and ends once the host link has trained. -/
def execPlatformConfig (ok : Bool) (r : PlatformRegs) (s : State) : Out :=
  .next (
    if !s.atStage 3 then s
    else if !ok then s.bootFail 3
    else if !s.hlUp || !platformOk r || r.ncore != s.fuses.ncore || r.nchan != s.fuses.nchan || r.pkgpwr != pkgPower then s
    else
      let boot : Boot := { s.boot with stage := 4, ncore := r.ncore, nchan := r.nchan, chloc := r.chloc, pkgpwr := r.pkgpwr }
      { s with boot := boot, dies := s.dies.map fun d => { d with plb := bringUpBudget, plbFw := bringUpBudget } })

/-- READY (R383): the fourth stage; the fabric ports train once DEVID is written. -/
def execReady (s : State) : Out :=
  .next (
    if !s.atStage 4 || s.boot.ready then s
    else
      let s : State := { s with boot := { s.boot with ready := true } }
      (List.range 18).foldl (fun (s : State) n => s.startTraining n) s)

/-! ### SPDM (R385, R386) -/

/-- A message: the version of the exchange, its code, two parameters and a payload (log 8). -/
def spdmMsg (ver code p1 p2 : Byte) (body : List Byte) : List Byte := [ver, code, p1, p2] ++ body

/-- The responder answers from the third stage on; a signature covers what was exchanged so far, the request and the response. Both
carry the version of the exchange. -/
def State.spdmAnswer (s : State) (req resp : Byte → List Byte) (sign : Bool) (f : Spdm → Spdm) : State :=
  if s.boot.stage.toNat < 3 || s.boot.result != 0 then s
  else
    let resp := resp s.spdm.ver
    let said := s.spdm.seen ++ req s.spdm.ver ++ resp
    let all := if sign then resp ++ Config.sign said else resp
    let spdm := f { s.spdm with seen := if sign then [] else said }
    { (s.say (.spdm all)) with spdm := spdm }

/-- The responder of an exchange whose state has been set, once the firmware answers at all. -/
def State.spdmSet (s : State) (f : Spdm → Spdm) : State := if s.boot.stage.toNat < 3 || s.boot.result != 0 then s else { s with spdm := f s.spdm }

def bytes32 (v : BitVec 256) : List Byte := leBytes 32 v.toNat

/-- GET_VERSION (R386): 1.2 and 1.3. It begins a new exchange, and is itself of version 1.0 (log 8). -/
def execGetVersion (s : State) : Out :=
  .next ((s.spdmSet fun x => { x with seen := [], ver := 0x12 }).spdmAnswer (fun _ => spdmMsg 0x10 0x84 0 0 [])
    (fun _ => spdmMsg 0x10 0x04 0 0 [0, 2, 0x00, 0x12, 0x00, 0x13]) false id)

/-- GET_CAPABILITIES (R386): its version, 1.2 or 1.3 as the requester has chosen (log 8), is that of the exchange from here on. -/
def execGetCapabilities (s : State) : Out :=
  .next ((s.spdmSet fun x => { x with ver := if x.ask13 then 0x13 else 0x12 }).spdmAnswer (fun v => spdmMsg v 0xE1 0 0 [])
    (fun v => spdmMsg v 0x61 0 0 Config.spdmCaps) false fun x => { x with caps := true })

/-- NEGOTIATE_ALGORITHMS (R386): SM2_ECC_SM2_P256 and SM3_256. -/
def execNegotiateAlgorithms (s : State) : Out :=
  .next (s.spdmAnswer (fun v => spdmMsg v 0xE3 0 0 []) (fun v => spdmMsg v 0x63 0 0 (leBytes 4 0x200 ++ leBytes 4 0x40)) false fun x => { x with algs := true })

/-- GET_DIGESTS (R385, R386): the digest of slot 0's chain. -/
def execGetDigests (s : State) : Out :=
  .next (s.spdmAnswer (fun v => spdmMsg v 0x81 0 0 []) (fun v => spdmMsg v 0x01 0 1 (bytes32 (Config.sm3 Config.certChain))) false id)

/-- GET_CERTIFICATE (R385, R386): slot 0's chain. -/
def execGetCertificate (s : State) : Out :=
  .next (s.spdmAnswer (fun v => spdmMsg v 0x82 0 0 []) (fun v => spdmMsg v 0x02 0 0 Config.certChain) false id)

/-- The fused configuration that measurement 3 covers: the key hash, the minimum SVN and the enabled core, channel and port counts
(R385, log 8). -/
def fusedBytes (f : Fuses) : List Byte :=
  bytes32 Config.keyHash ++ leBytes 2 f.minSvn.toNat ++ leBytes 8 f.ncore.toNat ++ leBytes 8 f.nchan.toNat ++ leBytes 1 (popc 18 f.ports.toNat)

/-- The measurements 1, 2 with the SVN of the accepted slot, and 3 (R385). -/
def State.measurements (s : State) : List Byte :=
  [1] ++ bytes32 Config.romDigest ++ [2] ++ bytes32 s.boot.meas2 ++ leBytes 2 (Config.slot s.boot.slotB).svn.toNat ++ [3] ++
    bytes32 (Config.sm3 (fusedBytes s.fuses))

/-- CHALLENGE (R386): signed with the identity key. -/
def execChallenge (nonce : BitVec 256) (s : State) : Out :=
  .next (s.spdmAnswer (fun v => spdmMsg v 0x83 0 0 (bytes32 nonce)) (fun v => spdmMsg v 0x03 0 1 (bytes32 (Config.sm3 Config.certChain))) true id)

/-- GET_MEASUREMENTS (R385, R386): signed where the requester asks for it. -/
def execGetMeasurements (sign : Bool) (nonce : BitVec 256) (s : State) : Out :=
  .next (s.spdmAnswer (fun v => spdmMsg v 0xE0 (if sign then 1 else 0) 0xFF (bytes32 nonce)) (fun v => spdmMsg v 0x60 3 0 s.measurements) sign id)

/-- SPDM_UNSUPPORTED_REQUEST (R386): ERROR UnsupportedRequest, with the request's code. -/
def execSpdmUnsupportedRequest (code : BitVec 8) (s : State) : Out :=
  .next (
    if [0x84, 0xE1, 0xE3, 0x81, 0x82, 0x83, 0xE0].contains code then s
    else s.spdmAnswer (fun v => spdmMsg v code 0 0 []) (fun v => spdmMsg v 0x7F 0x07 code []) false id)

end Sys2Proof.Machine
end

