-- ==== Sys2Proof/Machine/Dispatch.lean ====
section
/-! DEFINITION. The dispatch: one arm for each constructor of `Instr`, each one call of that instruction's meaning. -/

namespace Sys2Proof.Machine

def exec (i : Instr) (s : State) : Host.Outcome State Fault Refusal :=
  match i with
  | .nop c => Sys2Proof.Machine.execNop c s
  | .pause c n => Sys2Proof.Machine.execPause c n s
  | .waitf c mask t => Sys2Proof.Machine.execWaitf c mask t s
  | .exit c => Sys2Proof.Machine.execExit c s
  | .trap c code => Sys2Proof.Machine.execTrap c code s
  | .brk c code => Sys2Proof.Machine.execBrk c code s
  | .sget c num d => Sys2Proof.Machine.execSget c num d s
  | .setfmt c v => Sys2Proof.Machine.execSetfmt c v s
  | .getfmt c d => Sys2Proof.Machine.execGetfmt c d s
  | .setexec c k => Sys2Proof.Machine.execSetexec c k s
  | .getexec c k => Sys2Proof.Machine.execGetexec c k s
  | .sset c num a => Sys2Proof.Machine.execSset c num a s
  | .eret c => Sys2Proof.Machine.execEret c s
  | .sysget c num d => Sys2Proof.Machine.execSysget c num d s
  | .sysset c num a => Sys2Proof.Machine.execSysset c num a s
  | .tlbinv c a b => Sys2Proof.Machine.execTlbinv c a b s
  | .kill c code => Sys2Proof.Machine.execKill c code s
  | .idle c a => Sys2Proof.Machine.execIdle c a s
  | .pgpool c d a => Sys2Proof.Machine.execPgpool c d a s
  | .sadd c d a b => Sys2Proof.Machine.execSadd c d a b s
  | .ssub c d a b => Sys2Proof.Machine.execSsub c d a b s
  | .smul c d a b => Sys2Proof.Machine.execSmul c d a b s
  | .smulhi c d a b => Sys2Proof.Machine.execSmulhi c d a b s
  | .smulhu c d a b => Sys2Proof.Machine.execSmulhu c d a b s
  | .sdiv c d a b => Sys2Proof.Machine.execSdiv c d a b s
  | .sdivu c d a b => Sys2Proof.Machine.execSdivu c d a b s
  | .srem c d a b => Sys2Proof.Machine.execSrem c d a b s
  | .sremu c d a b => Sys2Proof.Machine.execSremu c d a b s
  | .sand c d a b => Sys2Proof.Machine.execSand c d a b s
  | .sor c d a b => Sys2Proof.Machine.execSor c d a b s
  | .sxor c d a b => Sys2Proof.Machine.execSxor c d a b s
  | .sandn c d a b => Sys2Proof.Machine.execSandn c d a b s
  | .sshl c d a b => Sys2Proof.Machine.execSshl c d a b s
  | .sshr c d a b => Sys2Proof.Machine.execSshr c d a b s
  | .ssar c d a b => Sys2Proof.Machine.execSsar c d a b s
  | .smin c d a b => Sys2Proof.Machine.execSmin c d a b s
  | .smax c d a b => Sys2Proof.Machine.execSmax c d a b s
  | .sminu c d a b => Sys2Proof.Machine.execSminu c d a b s
  | .smaxu c d a b => Sys2Proof.Machine.execSmaxu c d a b s
  | .spopc c d a => Sys2Proof.Machine.execSpopc c d a s
  | .sclz c d a => Sys2Proof.Machine.execSclz c d a s
  | .sctz c d a => Sys2Proof.Machine.execSctz c d a s
  | .smov c d a => Sys2Proof.Machine.execSmov c d a s
  | .ssel c d a b k => Sys2Proof.Machine.execSsel c d a b k s
  | .salui c f d a imm => Sys2Proof.Machine.execSalui c f d a imm s
  | .scmp c cond k a b => Sys2Proof.Machine.execScmp c cond k a b s
  | .scmpi c cond k a imm => Sys2Proof.Machine.execScmpi c cond k a imm s
  | .smovi c d imm => Sys2Proof.Machine.execSmovi c d imm s
  | .smoviz c d imm => Sys2Proof.Machine.execSmoviz c d imm s
  | .smovhi c d imm => Sys2Proof.Machine.execSmovhi c d imm s
  | .sld c d m => Sys2Proof.Machine.execSld c d m s
  | .sst c d m => Sys2Proof.Machine.execSst c d m s
  | .vadd c p w d a b => Sys2Proof.Machine.execVadd c p w d a b s
  | .vsub c p w d a b => Sys2Proof.Machine.execVsub c p w d a b s
  | .vmul c p w d a b => Sys2Proof.Machine.execVmul c p w d a b s
  | .vmulhi c p w d a b => Sys2Proof.Machine.execVmulhi c p w d a b s
  | .vmulhu c p w d a b => Sys2Proof.Machine.execVmulhu c p w d a b s
  | .vmad c p w d a b e => Sys2Proof.Machine.execVmad c p w d a b e s
  | .vdiv c p w d a b => Sys2Proof.Machine.execVdiv c p w d a b s
  | .vdivu c p w d a b => Sys2Proof.Machine.execVdivu c p w d a b s
  | .vrem c p w d a b => Sys2Proof.Machine.execVrem c p w d a b s
  | .vremu c p w d a b => Sys2Proof.Machine.execVremu c p w d a b s
  | .vand c p w d a b => Sys2Proof.Machine.execVand c p w d a b s
  | .vor c p w d a b => Sys2Proof.Machine.execVor c p w d a b s
  | .vxor c p w d a b => Sys2Proof.Machine.execVxor c p w d a b s
  | .vandn c p w d a b => Sys2Proof.Machine.execVandn c p w d a b s
  | .vshl c p w d a b => Sys2Proof.Machine.execVshl c p w d a b s
  | .vshr c p w d a b => Sys2Proof.Machine.execVshr c p w d a b s
  | .vsar c p w d a b => Sys2Proof.Machine.execVsar c p w d a b s
  | .vmin c p w d a b => Sys2Proof.Machine.execVmin c p w d a b s
  | .vmax c p w d a b => Sys2Proof.Machine.execVmax c p w d a b s
  | .vminu c p w d a b => Sys2Proof.Machine.execVminu c p w d a b s
  | .vmaxu c p w d a b => Sys2Proof.Machine.execVmaxu c p w d a b s
  | .vabs c p w d a => Sys2Proof.Machine.execVabs c p w d a s
  | .vneg c p w d a => Sys2Proof.Machine.execVneg c p w d a s
  | .vpopc c p w d a => Sys2Proof.Machine.execVpopc c p w d a s
  | .vclz c p w d a => Sys2Proof.Machine.execVclz c p w d a s
  | .vadds c p u w d a b => Sys2Proof.Machine.execVadds c p u w d a b s
  | .vsubs c p u w d a b => Sys2Proof.Machine.execVsubs c p u w d a b s
  | .vsel c p w d a b k => Sys2Proof.Machine.execVsel c p w d a b k s
  | .vmov c p w d a => Sys2Proof.Machine.execVmov c p w d a s
  | .vfroms c p w d a => Sys2Proof.Machine.execVfroms c p w d a s
  | .sfromv c p w d a b => Sys2Proof.Machine.execSfromv c p w d a b s
  | .valui c p f u w d a imm => Sys2Proof.Machine.execValui c p f u w d a imm s
  | .vcmp c p cond w k a b => Sys2Proof.Machine.execVcmp c p cond w k a b s
  | .vcmpi c p cond w k a imm => Sys2Proof.Machine.execVcmpi c p cond w k a imm s
  | .vfadd c p r w d a b => Sys2Proof.Machine.execVfadd c p r w d a b s
  | .vfsub c p r w d a b => Sys2Proof.Machine.execVfsub c p r w d a b s
  | .vfmul c p r w d a b => Sys2Proof.Machine.execVfmul c p r w d a b s
  | .vfma c p r w d a b e => Sys2Proof.Machine.execVfma c p r w d a b e s
  | .vfms c p r w d a b e => Sys2Proof.Machine.execVfms c p r w d a b e s
  | .vfnma c p r w d a b e => Sys2Proof.Machine.execVfnma c p r w d a b e s
  | .vfmin c p w d a b => Sys2Proof.Machine.execVfmin c p w d a b s
  | .vfmax c p w d a b => Sys2Proof.Machine.execVfmax c p w d a b s
  | .vfdiv c p r w d a b => Sys2Proof.Machine.execVfdiv c p r w d a b s
  | .vfsqrt c p r w d a => Sys2Proof.Machine.execVfsqrt c p r w d a s
  | .vfrcp c p r w d a => Sys2Proof.Machine.execVfrcp c p r w d a s
  | .vfrsq c p r w d a => Sys2Proof.Machine.execVfrsq c p r w d a s
  | .vfexp2 c p r w d a => Sys2Proof.Machine.execVfexp2 c p r w d a s
  | .vflog2 c p r w d a => Sys2Proof.Machine.execVflog2 c p r w d a s
  | .vfabs c p w d a => Sys2Proof.Machine.execVfabs c p w d a s
  | .vfneg c p w d a => Sys2Proof.Machine.execVfneg c p w d a s
  | .vfclass c p w d a => Sys2Proof.Machine.execVfclass c p w d a s
  | .vfscale c p r w d a b => Sys2Proof.Machine.execVfscale c p r w d a b s
  | .vfrint c p r w d a => Sys2Proof.Machine.execVfrint c p r w d a s
  | .vfcmp c p cond w k a b => Sys2Proof.Machine.execVfcmp c p cond w k a b s
  | .vcvt c p sat dt st r pos d a b => Sys2Proof.Machine.execVcvt c p sat dt st r pos d a b s
  | .vshuf c p w d a b => Sys2Proof.Machine.execVshuf c p w d a b s
  | .vbcast c p w d a b => Sys2Proof.Machine.execVbcast c p w d a b s
  | .vrot c p w d a n => Sys2Proof.Machine.execVrot c p w d a n s
  | .vreduce c p r op w d a => Sys2Proof.Machine.execVreduce c p r op w d a s
  | .vscan c p r op w d a => Sys2Proof.Machine.execVscan c p r op w d a s
  | .vmatch c p w d a => Sys2Proof.Machine.execVmatch c p w d a s
  | .kand c d a b => Sys2Proof.Machine.execKand c d a b s
  | .kor c d a b => Sys2Proof.Machine.execKor c d a b s
  | .kxor c d a b => Sys2Proof.Machine.execKxor c d a b s
  | .kandn c d a b => Sys2Proof.Machine.execKandn c d a b s
  | .knot c d a => Sys2Proof.Machine.execKnot c d a s
  | .kmov c d a => Sys2Proof.Machine.execKmov c d a s
  | .kpopc c d a => Sys2Proof.Machine.execKpopc c d a s
  | .kffs c d a => Sys2Proof.Machine.execKffs c d a s
  | .kfroms c d a => Sys2Proof.Machine.execKfroms c d a s
  | .ktos c d a => Sys2Proof.Machine.execKtos c d a s
  | .bra c mode k t => Sys2Proof.Machine.execBra c mode k t s
  | .brx c clear k t r => Sys2Proof.Machine.execBrx c clear k t r s
  | .jmp c t => Sys2Proof.Machine.execJmp c t s
  | .call c t => Sys2Proof.Machine.execCall c t s
  | .ret c a => Sys2Proof.Machine.execRet c a s
  | .region c vb a => Sys2Proof.Machine.execRegion c vb a s
  | .rcommit c => Sys2Proof.Machine.execRcommit c s
  | .rabort c => Sys2Proof.Machine.execRabort c s
  | .join c d n => Sys2Proof.Machine.execJoin c d n s
  | .leave c => Sys2Proof.Machine.execLeave c s
  | .bar c => Sys2Proof.Machine.execBar c s
  | .bara c => Sys2Proof.Machine.execBara c s
  | .barw c => Sys2Proof.Machine.execBarw c s
  | .rquota c d n => Sys2Proof.Machine.execRquota c d n s
  | .vld c p d m => Sys2Proof.Machine.execVld c p d m s
  | .vst c p d m => Sys2Proof.Machine.execVst c p d m s
  | .vldc c p d ver m => Sys2Proof.Machine.execVldc c p d ver m s
  | .vstc c p d ver m => Sys2Proof.Machine.execVstc c p d ver m s
  | .ldacq c p d sx m => Sys2Proof.Machine.execLdacq c p d sx m s
  | .strel c p d m => Sys2Proof.Machine.execStrel c p d m s
  | .prefetch c p m => Sys2Proof.Machine.execPrefetch c p m s
  | .cflush c p m => Sys2Proof.Machine.execCflush c p m s
  | .vatom c p f d cmp m => Sys2Proof.Machine.execVatom c p f d cmp m s
  | .satom c f d cmp m => Sys2Proof.Machine.execSatom c f d cmp m s
  | .fenceAcq c scope => Sys2Proof.Machine.execFenceAcq c scope s
  | .fenceRel c scope => Sys2Proof.Machine.execFenceRel c scope s
  | .fenceAcqrel c scope => Sys2Proof.Machine.execFenceAcqrel c scope s
  | .fenceSc c scope => Sys2Proof.Machine.execFenceSc c scope s
  | .stashMap c d a sel disp => Sys2Proof.Machine.execStashMap c d a sel disp s
  | .stashUnmap c d sel => Sys2Proof.Machine.execStashUnmap c d sel s
  | .stashFlush c d sel => Sys2Proof.Machine.execStashFlush c d sel s
  | .stashInval c d sel => Sys2Proof.Machine.execStashInval c d sel s
  | .mclaim c d a => Sys2Proof.Machine.execMclaim c d a s
  | .mtry c d a => Sys2Proof.Machine.execMtry c d a s
  | .mrel c a => Sys2Proof.Machine.execMrel c a s
  | .mload c side a b t => Sys2Proof.Machine.execMload c side a b t s
  | .mzero c a => Sys2Proof.Machine.execMzero c a s
  | .mmac c a => Sys2Proof.Machine.execMmac c a s
  | .mloop c d a => Sys2Proof.Machine.execMloop c d a s
  | .maccrd c ef row0 nrow d a => Sys2Proof.Machine.execMaccrd c ef row0 nrow d a s
  | .maccwr c ef row0 nrow d a => Sys2Proof.Machine.execMaccwr c ef row0 nrow d a s
  | .mstore c hi tr tom of a b t => Sys2Proof.Machine.execMstore c hi tr tom of a b t s
  | .mdrain c ord d a b t => Sys2Proof.Machine.execMdrain c ord d a b t s
  | .mstate c d a => Sys2Proof.Machine.execMstate c d a s
  | .qbind c d q b => Sys2Proof.Machine.execQbind c d q b s
  | .qpush c d q b n => Sys2Proof.Machine.execQpush c d q b n s
  | .qpop c d q => Sys2Proof.Machine.execQpop c d q s
  | .qtry c d q => Sys2Proof.Machine.execQtry c d q s
  | .tlwait c q b => Sys2Proof.Machine.execTlwait c q b s
  | .tlread c d q => Sys2Proof.Machine.execTlread c d q s
  | .gnew c d a b => Sys2Proof.Machine.execGnew c d a b s
  | .gfree c d a => Sys2Proof.Machine.execGfree c d a s
  | .gpub c nb g d a b => Sys2Proof.Machine.execGpub c nb g d a b s
  | .gprom c g d a b => Sys2Proof.Machine.execGprom c g d a b s
  | .gqry c d a => Sys2Proof.Machine.execGqry c d a s
  | .tspawn c p one keep d a b => Sys2Proof.Machine.execTspawn c p one keep d a b s
  | .rstv c p rel sts scope d a b st => Sys2Proof.Machine.execRstv c p rel sts scope d a b st s
  | .hold c regm d k n => Sys2Proof.Machine.execHold c regm d k n s
  | .regroup c p vt key vl n => Sys2Proof.Machine.execRegroup c p vt key vl n s
  | .collPut c p d a scl off rank disp => Sys2Proof.Machine.execCollPut c p d a scl off rank disp s
  | .collGet c p d a scl off rank disp => Sys2Proof.Machine.execCollGet c p d a scl off rank disp s
  | .collRaddF32 c p d a scl off rank disp => Sys2Proof.Machine.execCollRaddF32 c p d a scl off rank disp s
  | .collRaddBf16 c p d a scl off rank disp => Sys2Proof.Machine.execCollRaddBf16 c p d a scl off rank disp s
  | .collRmaxF32 c p d a scl off rank disp => Sys2Proof.Machine.execCollRmaxF32 c p d a scl off rank disp s
  | .collRaddI32 c p d a scl off rank disp => Sys2Proof.Machine.execCollRaddI32 c p d a scl off rank disp s
  | .confx c p emit k a b ver q => Sys2Proof.Machine.execConfx c p emit k a b ver q s
  | .accept c p prob k a b seg => Sys2Proof.Machine.execAccept c p prob k a b seg s
  | .apport c p d a b => Sys2Proof.Machine.execApport c p d a b s
  | .vrand c p raw d a b => Sys2Proof.Machine.execVrand c p raw d a b s
  | .pauseEnd g => Sys2Proof.Machine.execPauseEnd g s
  | .fixedResultWrite g => Sys2Proof.Machine.execFixedResultWrite g s
  | .longLatencyComplete op => Sys2Proof.Machine.execLongLatencyComplete op s
  | .activeSetExchange g h => Sys2Proof.Machine.execActiveSetExchange g h s
  | .lineFetch g sid => Sys2Proof.Machine.execLineFetch g sid s
  | .deferredSplitResume g => Sys2Proof.Machine.execDeferredSplitResume g s
  | .splitMerge g => Sys2Proof.Machine.execSplitMerge g s
  | .barrierReconverge g => Sys2Proof.Machine.execBarrierReconverge g s
  | .barrierPhaseComplete die core num => Sys2Proof.Machine.execBarrierPhaseComplete die core num s
  | .rquotaGrant g => Sys2Proof.Machine.execRquotaGrant g s
  | .regroupStep die core num => Sys2Proof.Machine.execRegroupStep die core num s
  | .claimGrant die core => Sys2Proof.Machine.execClaimGrant die core s
  | .mloopStep op => Sys2Proof.Machine.execMloopStep op s
  | .tileFillDone die core acm idx => Sys2Proof.Machine.execTileFillDone die core acm idx s
  | .tileDrainDone die core acm idx => Sys2Proof.Machine.execTileDrainDone die core acm idx s
  | .mdrainArrival k => Sys2Proof.Machine.execMdrainArrival k s
  | .heldAdditionApply die core unit => Sys2Proof.Machine.execHeldAdditionApply die core unit s
  | .powerLeaveGrant die => Sys2Proof.Machine.execPowerLeaveGrant die s
  | .powerLeaveRelease die id => Sys2Proof.Machine.execPowerLeaveRelease die id s
  | .trapEntry g => Sys2Proof.Machine.execTrapEntry g s
  | .parkedRetry g => Sys2Proof.Machine.execParkedRetry g s
  | .coreGate die core => Sys2Proof.Machine.execCoreGate die core s
  | .coreWake die core => Sys2Proof.Machine.execCoreWake die core s
  | .engineCommandStart e => Sys2Proof.Machine.execEngineCommandStart e s
  | .copy e n => Sys2Proof.Machine.execCopy e n s
  | .copy2d e n => Sys2Proof.Machine.execCopy2d e n s
  | .fill e n => Sys2Proof.Machine.execFill e n s
  | .convert e n => Sys2Proof.Machine.execConvert e n s
  | .chisel e n => Sys2Proof.Machine.execChisel e n s
  | .chmerge e n => Sys2Proof.Machine.execChmerge e n s
  | .engineCommandComplete e n => Sys2Proof.Machine.execEngineCommandComplete e n s
  | .eventPost e n => Sys2Proof.Machine.execEventPost e n s
  | .bfcfg op => Sys2Proof.Machine.execBfcfg op s
  | .arm op => Sys2Proof.Machine.execArm op s
  | .disarm op => Sys2Proof.Machine.execDisarm op s
  | .bfeBatchTimeout die cfg layer => Sys2Proof.Machine.execBfeBatchTimeout die cfg layer s
  | .halyardEvaluate die => Sys2Proof.Machine.execHalyardEvaluate die s
  | .outboundSend item => Sys2Proof.Machine.execOutboundSend item s
  | .loadPerform item src lanes => Sys2Proof.Machine.execLoadPerform item src lanes s
  | .orderPointApply line => Sys2Proof.Machine.execOrderPointApply line s
  | .writeExpose line => Sys2Proof.Machine.execWriteExpose line s
  | .update line copy => Sys2Proof.Machine.execUpdate line copy s
  | .invalidation line die => Sys2Proof.Machine.execInvalidation line die s
  | .dirtyHolderNotice item => Sys2Proof.Machine.execDirtyHolderNotice item s
  | .writeBack line die => Sys2Proof.Machine.execWriteBack line die s
  | .evictionNotice line die => Sys2Proof.Machine.execEvictionNotice line die s
  | .sliceDirectoryOverflow die line => Sys2Proof.Machine.execSliceDirectoryOverflow die line s
  | .snoopFilterVictim line => Sys2Proof.Machine.execSnoopFilterVictim line s
  | .birsp line data => Sys2Proof.Machine.execBirsp line data s
  | .pendStoreRetry item => Sys2Proof.Machine.execPendStoreRetry item s
  | .tlbSweepDone id => Sys2Proof.Machine.execTlbSweepDone id s
  | .translationDirectoryOverflow die idx => Sys2Proof.Machine.execTranslationDirectoryOverflow die idx s
  | .taskLaunch id => Sys2Proof.Machine.execTaskLaunch id s
  | .fire ctx inst => Sys2Proof.Machine.execFire ctx inst s
  | .gangPlacement queue => Sys2Proof.Machine.execGangPlacement queue s
  | .runComplete ctx inst => Sys2Proof.Machine.execRunComplete ctx inst s
  | .gradedFaultDelivery ctx => Sys2Proof.Machine.execGradedFaultDelivery ctx s
  | .egressHoldRelease ctx inst => Sys2Proof.Machine.execEgressHoldRelease ctx inst s
  | .preemptRequest queue => Sys2Proof.Machine.execPreemptRequest queue s
  | .preemptEntry g => Sys2Proof.Machine.execPreemptEntry g s
  | .resume id => Sys2Proof.Machine.execResume id s
  | .contextKill ctx => Sys2Proof.Machine.execContextKill ctx s
  | .rstvArrival k => Sys2Proof.Machine.execRstvArrival k s
  | .forwardEntryExpiry die core => Sys2Proof.Machine.execForwardEntryExpiry die core s
  | .injectionGrant die core => Sys2Proof.Machine.execInjectionGrant die core s
  | .communicatorAbort ten comm => Sys2Proof.Machine.execCommunicatorAbort ten comm s
  | .flitReceive port seq crcOk flit => Sys2Proof.Machine.execFlitReceive port seq crcOk flit s
  | .flitAcknowledgement port seq => Sys2Proof.Machine.execFlitAcknowledgement port seq s
  | .flitReplay port => Sys2Proof.Machine.execFlitReplay port s
  | .linkRetrain port => Sys2Proof.Machine.execLinkRetrain port s
  | .portTrainingEnd port ok lanes peer => Sys2Proof.Machine.execPortTrainingEnd port ok lanes peer s
  | .creditReturn port p1 d1 p2 d2 => Sys2Proof.Machine.execCreditReturn port p1 d1 p2 d2 s
  | .custodyTake port => Sys2Proof.Machine.execCustodyTake port s
  | .custodyAck port tag sdev => Sys2Proof.Machine.execCustodyAck port tag sdev s
  | .packetForward k => Sys2Proof.Machine.execPacketForward k s
  | .packetHoldTimeout k => Sys2Proof.Machine.execPacketHoldTimeout k s
  | .remoteRequest k => Sys2Proof.Machine.execRemoteRequest k s
  | .remoteResponse k => Sys2Proof.Machine.execRemoteResponse k s
  | .errorNotice k => Sys2Proof.Machine.execErrorNotice k s
  | .inDoubtNotice k => Sys2Proof.Machine.execInDoubtNotice k s
  | .probe k => Sys2Proof.Machine.execProbe k s
  | .probeResponse k => Sys2Proof.Machine.execProbeResponse k s
  | .abortNotice k => Sys2Proof.Machine.execAbortNotice k s
  | .refusalExpiry k => Sys2Proof.Machine.execRefusalExpiry k s
  | .hostWrite f pa data relaxed => Sys2Proof.Machine.execHostWrite f pa data relaxed s
  | .hostRead f pa n id own => Sys2Proof.Machine.execHostRead f pa n id own s
  | .hostAtomicop f k pa n v cmp id => Sys2Proof.Machine.execHostAtomicop f k pa n v cmp id s
  | .hostCompletion item ok data => Sys2Proof.Machine.execHostCompletion item ok data s
  | .hostLinkTrain mode width => Sys2Proof.Machine.execHostLinkTrain mode width s
  | .hostLinkDown => Sys2Proof.Machine.execHostLinkDown s
  | .ctxcmdKill ctx => Sys2Proof.Machine.execCtxcmdKill ctx s
  | .ctxcmdReset ctx => Sys2Proof.Machine.execCtxcmdReset ctx s
  | .ctxcfg ctx v => Sys2Proof.Machine.execCtxcfg ctx v s
  | .tinv ctx v => Sys2Proof.Machine.execTinv ctx v s
  | .pfva ctx => Sys2Proof.Machine.execPfva ctx s
  | .pfrel ctx v => Sys2Proof.Machine.execPfrel ctx v s
  | .pgreqSplit ctx v => Sys2Proof.Machine.execPgreqSplit ctx v s
  | .pgreqPromote ctx v => Sys2Proof.Machine.execPgreqPromote ctx v s
  | .splinterSwap ctx => Sys2Proof.Machine.execSplinterSwap ctx s
  | .splinterSweep ctx => Sys2Proof.Machine.execSplinterSweep ctx s
  | .promotionCopy ctx => Sys2Proof.Machine.execPromotionCopy ctx s
  | .promotionSwap ctx => Sys2Proof.Machine.execPromotionSwap ctx s
  | .promotionSweep ctx => Sys2Proof.Machine.execPromotionSweep ctx s
  | .hwcmdArm ctx v => Sys2Proof.Machine.execHwcmdArm ctx v s
  | .hwcmdDisarm ctx v => Sys2Proof.Machine.execHwcmdDisarm ctx v s
  | .portctlEn port v => Sys2Proof.Machine.execPortctlEn port v s
  | .portctlReenable port => Sys2Proof.Machine.execPortctlReenable port s
  | .devid v => Sys2Proof.Machine.execDevid v s
  | .plbudget die fw v => Sys2Proof.Machine.execPlbudget die fw v s
  | .configWrite f off v => Sys2Proof.Machine.execConfigWrite f off v s
  | .deviceReset => Sys2Proof.Machine.execDeviceReset s
  | .bootRomVerify => Sys2Proof.Machine.execBootRomVerify s
  | .memoryTrain ok => Sys2Proof.Machine.execMemoryTrain ok s
  | .platformConfig ok r => Sys2Proof.Machine.execPlatformConfig ok r s
  | .ready => Sys2Proof.Machine.execReady s
  | .getVersion => Sys2Proof.Machine.execGetVersion s
  | .getCapabilities => Sys2Proof.Machine.execGetCapabilities s
  | .negotiateAlgorithms => Sys2Proof.Machine.execNegotiateAlgorithms s
  | .getDigests => Sys2Proof.Machine.execGetDigests s
  | .getCertificate => Sys2Proof.Machine.execGetCertificate s
  | .challenge nonce => Sys2Proof.Machine.execChallenge nonce s
  | .getMeasurements sign nonce => Sys2Proof.Machine.execGetMeasurements sign nonce s
  | .spdmUnsupportedRequest code => Sys2Proof.Machine.execSpdmUnsupportedRequest code s

end Sys2Proof.Machine
end

