-- ==== Sys2Proof/Machine/Wish.lean ====
section
/-! DEFINITION. What an access has to wait for, asked for (R350, R358, R362, R368; log 12). An operation that finds a line, a directory or another
memory not ready notes a wish in `wants`. What it would have done is not kept: the wishes are met on the state before it, and it is tried
again later. -/

namespace Sys2Proof.Machine

/-- The access that an agent without a gang makes to peer or host memory. -/
def farItem (id ctx : Nat) (dst : Dst) (line off n : Nat) (act : FarAct) : Item :=
  { id := id, op := 0, uid := 0, ctx := ctx, inst := farInst, run := 0, kind := act.kind, dst := dst, line := line, vline := 0
    accs := [{ mkAcc 0 off n act.val act.cmp with ovv := act.val }], scope := 0, pol := 2, rel := false, acq := false, nc := false, comm := none, tag := none, pub := none
    st := .queued, retry := false }

/-- Nothing is in progress on the line. -/
def State.lineFree (s : State) (line : Nat) : Bool := (s.txn? line).isNone && !s.snoops.contains line

/-- One wish is met as far as it can be now; what is under way already is not asked for twice. -/
def State.meetOne (s : State) (w : Wish) : State :=
  match w with
  | .later => s
  | .snoop line inv =>
    if !s.lineFree line then s
    else if inv then
      (if s.hostFilter.any fun p => p.1 == line then
        { (s.say (.bisnp line true)) with txns := s.txns ++ [{ line := line, bytes := [], wait := [.host], item := none, inval := false }] }
      else s)
    else if s.hostFilter.contains (line, true) then { (s.say (.bisnp line false)) with snoops := line :: s.snoops }
    else s
  | .slice d line => if s.lineFree line then s.dropDie d line else s
  | .filter line => if s.lineFree line then s.dropFar line else s
  | .walk d i => s.dropWalk d i
  | .hold ctx va =>
    if s.heldWr.any fun h => h.ctx == ctx && h.va == va then
      { s with heldWr := s.heldWr.map fun h => if h.ctx == ctx && h.va == va then { h with retry := false } else h }
    else { s with heldWr := s.heldWr ++ [{ ctx := ctx, va := va, retry := false }] }
  | .holdFault ctx va rmw =>
    ({ s with heldWr := s.heldWr.map fun h => if h.ctx == ctx && h.va == va then { h with retry := false } else h } : State).enterFault ctx va
      (if rmw then .rmw else .store)
  | .far ctx dst line off n act =>
    let (id, s) := s.fresh
    { s with items := s.items ++ [farItem id ctx dst line off n act] }

/-- What a step from `s` to `t` comes to: `t`, or, where `t` has wishes, `s` with these met. -/
def State.after (s t : State) : State := if t.wants.isEmpty then t else t.wants.foldl State.meetOne s

end Sys2Proof.Machine
end

