-- ==== Sys2Proof/Machine/Run.lean ====
section
/-! DEFINITION. How the device goes on (log 2): the events that are due at a moment, the scheduler's choice (R41 to R43) and the issue
of an instruction or a pair (R155, R156), the events that the device makes of its own accord, and the passing of a cycle. -/

namespace Sys2Proof.Machine

/-- The first event of a list that changes the state, or stops the machine; one that has to wait counts with what it asks for. -/
def firstChange (s : State) : List (State → Out) → Option Out
  | [] => none
  | e :: es =>
    match e s with
    | .next t =>
      let u := s.after t
      if u = s then firstChange s es else some (.next u)
    | r => some r

/-! ### Events that are due (R39, R42, R110, R131, R137, R343, R377, R378) -/

def Die.refs (d : Die) : List (State → Out) :=
  (if d.leaves.isEmpty then [] else [execPowerLeaveGrant d.die]) ++ (d.bfe.flatMap fun b => b.batches.map fun x => execBfeBatchTimeout d.die b.idx x.layer)

/-- What the clock brings about at this moment. -/
def State.dueEvents (s : State) : List (State → Out) :=
  (s.gangs.flatMap fun g =>
    (if g.pend.any fun p => p.due ≤ s.clock then [execFixedResultWrite g.loc] else []) ++
      (if g.pauseTo != 0 && g.pauseTo ≤ s.clock then [execPauseEnd g.loc] else [])) ++
  (s.dies.flatMap Die.refs) ++
  (s.cores.flatMap fun k => if k.fwd.isEmpty then [] else [execForwardEntryExpiry k.die k.core]) ++
  (s.ctxs.flatMap fun c => (c.aborted.filter fun m => s.abtCleared c.ten m).map fun m => execCommunicatorAbort c.ten m) ++
  (if s.hostOrd.isEmpty then [] else [hostNext]) ++ (s.pkts.map fun p => execPacketHoldTimeout p.k) ++ ((List.range s.refused.length).map execRefusalExpiry)

/-! ### The schedulers -/

/-- The scheduler of a gang has issued in this cycle, also from a gang that has ended since (R41, R42). -/
def State.issuedNow (s : State) (r : GRef) : Bool :=
  lookup (s.core r.die r.core).ended (schedOf r) == some s.clock || s.gangs.any fun g => g.loc.die == r.die && g.loc.core == r.core && schedOf g.loc == schedOf r && g.last == some s.clock

/-- The gangs and splits that may issue next: the choice of each scheduler that may issue (R17, R42). -/
def State.issuers (s : State) : List (Gang × Split) :=
  s.gangs.filterMap fun g =>
    if g.status != .active || (s.core g.loc.die g.loc.core).gated || s.issuedNow g.loc then none
    else (s.pick g.loc.die g.loc.core (schedOf g.loc)).bind fun x => (s.readySplit x).map fun sp => (x, sp)

/-- The first of them. -/
def State.issuer (s : State) : Option (Gang × Split) := s.issuers.head?

def State.focusOn (s : State) (uid sid : Nat) (pc : W64) : State :=
  { s with focus := some { uid := uid, sid := sid, pc := pc, first := false, second := false, moved := false } }

/-- The focus stands at the first slot of a pair. -/
def State.asFirst (s : State) : State := { s with focus := s.focus.map fun f => { f with first := true } }

/-- The issue is over. -/
def unfocus : Out → Out
  | .next s => .next { s with focus := none }
  | r => r

/-- The second slot of a pair issues with the first, unless the first has trapped or ended its split (R155, R156). -/
def issueSecond (j : Instr) (uid sid : Nat) : Out → Out
  | .next s =>
    match s.gang? uid with
    | none => .next s
    | some g =>
      if g.trap.isSome || g.status != .active || (g.split? sid).isNone then .next s
      else exec j { s with focus := s.focus.map fun f => { f with first := false, second := true, pc := f.pc + 12 } }
  | r => r

/-- Issue of a split's next instruction or pair: an undecodable word, or an illegal one in a pair, kills the gang (R153, R155, R166). -/
def issueSplit (g : Gang) (sp : Split) (s : State) : Out :=
  let f := s.focusOn g.uid sp.sid sp.pc
  unfocus (match g.nextOf sp with
    | .fetch => .next s
    | .bad _ => .next (s.killGang g.uid errILL)
    | .one _ i => exec i f
    | .pair c _ i j =>
      if !g.fabTrap c && (illegalUse s g sp sp.pc i || illegalUse s g sp (sp.pc + 12) j) then .next (s.killGang g.uid errILL)
      else issueSecond j g.uid sp.sid (exec i f.asFirst))

/-! ### What the device does of its own accord -/

/-- Of its own accord the device takes the next step of a gang's longer operations, and a trap, when the gang has no fixed-latency result
in flight, and in any case at every 64th cycle: what takes no fixed time is given no less than a fixed latency (log 2). -/
def State.atLeisure (s : State) (uid : Nat) : Bool := s.clock % 64 == 0 || (s.gangs.find? (·.uid == uid)).all (·.pend.isEmpty)

def Gang.events (s : State) (g : Gang) : List (State → Out) :=
  let r := g.loc
  (if s.atLeisure g.uid then [execTrapEntry r] else []) ++ [execPreemptEntry r, execParkedRetry r, execDeferredSplitResume r, execSplitMerge r, execBarrierReconverge r, execRquotaGrant r, execResume g.uid] ++
    (if g.wait == some .regroup && g.cohort.isNone then [execRegroupStep r.die r.core (r.slot + 16)] else []) ++
    ((g.table.filter fun sp => sp.next == .fetch).map fun sp => execLineFetch r sp.sid) ++
    (if g.status == .pending then [execActiveSetExchange r r] else []) ++
    (if g.status == .active then
      (s.gangs.filter fun h => h.status == .pending && schedOf h.loc == schedOf r && (s.wantsExchange g || s.mustEnter h)).map fun h =>
        execActiveSetExchange r h.loc else [])

/-- Engine commands, each tried as every kind that it may be. -/
def Core.engineEvents (k : Core) : List (State → Out) :=
  k.engines.flatMap fun e =>
    let r : EngRef := { die := k.die, core := k.core, num := e.num }
    execEngineCommandStart r :: e.cmds.flatMap fun c =>
      [execCopy r c.num, execCopy2d r c.num, execFill r c.num, execConvert r c.num, execChisel r c.num, execChmerge r c.num, execEngineCommandComplete r c.num,
       execEventPost r c.num]

def Core.events (k : Core) : List (State → Out) :=
  let d := k.die
  let c := k.core
  [execCoreWake d c, execClaimGrant d c, execInjectionGrant d c] ++ (k.cohorts.flatMap fun x => [execBarrierPhaseComplete d c x.num, execRegroupStep d c x.num]) ++
    (k.mom.flatMap fun t => [execTileFillDone d c false t.idx, execTileDrainDone d c false t.idx]) ++
    (k.acm.flatMap fun t => [execTileFillDone d c true t.idx, execTileDrainDone d c true t.idx]) ++
    (k.held.map fun h => execHeldAdditionApply d c h.unit) ++ k.engineEvents

def Die.events (d : Die) : List (State → Out) :=
  (if d.evals.isEmpty then [] else [execHalyardEvaluate d.die]) ++ (d.leaves.filter (·.freed)).map fun l => execPowerLeaveRelease d.die l.id

def Item.events (i : Item) : List (State → Out) :=
  let n := i.id
  match i.st with
  | .queued =>
    if i.isLoad then
      [execLoadPerform n .own 0xFFFFFFFF, execLoadPerform n .l1 0xFFFFFFFF, execLoadPerform n .orderPoint 0xFFFFFFFF, execOutboundSend n]
    else [execOutboundSend n]
  | .held => [execPendStoreRetry n]
  | .arrived => [execOrderPointApply i.line]
  | .notice => [execDirtyHolderNotice n]
  | _ => []

def Txn.events (t : Txn) : List (State → Out) :=
  (t.wait.flatMap fun c => (match c with | .l2 d => [execUpdate t.line c, execInvalidation t.line d] | .host => [] | _ => [execUpdate t.line c])) ++ [execWriteExpose t.line]

/-- DIRTY lines that a release waits for (R54). -/
def State.cleanEvents (s : State) (g : Gang) : List (State → Out) :=
  if s.wantsClean g.uid then
    g.stash.flatMap fun p =>
      match p.frame with
      | some f => (p.lines.filter fun l => l.2 == .dirty).map fun l => execWriteBack (f + 128 * l.1) g.loc.die
      | none => []
  else []

def Op.events (o : Op) : List (State → Out) :=
  (match o.kind with
   | .engine _ _ _ _ => [execBfcfg o.id, execArm o.id, execDisarm o.id]
   | .mloop _ _ _ _ _ _ _ _ _ _ _ _ _ _ _ _ => [execMloopStep o.id]
   | _ => []) ++ [execLongLatencyComplete o.id]

def Inst.events (i : Inst) : List (State → Out) := [execFire i.ctx i.num, execRunComplete i.ctx i.num, execEgressHoldRelease i.ctx i.num]

def Context.events (s : State) (c : Context) : List (State → Out) :=
  (if c.faults.isEmpty then [] else [execGradedFaultDelivery c.num]) ++ ((c.comms.filter fun m => !s.told.contains (c.ten, m.1)).map fun m => execCommunicatorAbort c.ten m.1) ++
    (match c.pgst with
     | .swap => [execSplinterSwap c.num, execPromotionSwap c.num]
     | .sweep => [execSplinterSweep c.num, execPromotionSweep c.num]
     | .protect => [execPromotionCopy c.num]
     | .copy => [execPromotionCopy c.num]
     | .abort => [execPromotionSweep c.num]
     | _ => [])

def Pkt.events (p : Pkt) : List (State → Out) :=
  match p.loc with
  | .held => [execPacketForward p.k]
  | .here => [execRemoteRequest p.k, execRemoteResponse p.k, execErrorNotice p.k, execInDoubtNotice p.k, execProbe p.k, execProbeResponse p.k, execAbortNotice p.k]
  | .link _ => []

def LaunchQueue.events (q : LaunchQueue) : List (State → Out) := if q.en then [execGangPlacement q.num, execPreemptRequest q.num] else []

/-- Every event that may be possible now without the outside world, in the order in which the model takes them by itself. -/
def State.ownEvents (s : State) : List (State → Out) :=
  (s.gangs.flatMap (Gang.events s)) ++ (s.txns.flatMap Txn.events) ++ ((s.items.filter fun i => s.atLeisure i.uid).flatMap Item.events) ++ (s.gangs.flatMap s.cleanEvents) ++
    (s.cores.flatMap Core.events) ++ (s.dies.flatMap Die.events) ++ (s.sweeps.map fun w => execTlbSweepDone w.id) ++ ((s.ops.filter fun o => s.atLeisure o.uid).flatMap Op.events) ++
    ((s.rstvs.filter fun r => s.atLeisure r.uid).map fun r => execRstvArrival r.k) ++ (s.drains.map fun x => execMdrainArrival x.k) ++ (s.launches.map fun l => execTaskLaunch l.id) ++
    (s.insts.flatMap Inst.events) ++ (s.ctxs.flatMap (Context.events s)) ++ ((s.aborts.filter fun a => !s.told.contains a || !s.farRanks a.1 a.2).map fun a => execCommunicatorAbort a.1 a.2) ++
    (s.queues.flatMap LaunchQueue.events) ++
    (s.ports.flatMap fun p => if p.rx.isEmpty && p.fails < 16 then [] else [execCustodyTake p.num, execLinkRetrain p.num]) ++ (s.pkts.flatMap Pkt.events) ++
    (s.cores.map fun k => execCoreGate k.die k.core)

/-! ### The passing of a cycle -/

/-- The counters that are not zero at the end of a cycle, each with the cycle since which (R42). -/
def Gang.nonZero (clock : Nat) (g : Gang) : List (Nat × Nat) :=
  (List.range 12).filterMap fun k => if g.counter k != 0 then some (k, (lookup g.nz k).getD clock) else none

/-- A pending gang that would take the place of an active one. -/
def State.takerFor (s : State) (g : Gang) : Bool :=
  s.gangs.any fun h => h.status == .pending && h.loc.die == g.loc.die && h.loc.core == g.loc.core && schedOf h.loc == schedOf g.loc && s.eligible h

/-- Since when the head of a queue finds no core (R338): a new head begins anew. -/
def State.queueSince (s : State) (q : LaunchQueue) : Option Nat :=
  if q.en && q.preempt then
    match s.qhead q.num with
    | some h => if (s.eligibleCores q h).isEmpty then some (if q.head == h.key then q.since.getD s.clock else s.clock) else none
    | none => none
  else none

/-- One cycle of the arithmetic clock: the waits that R42, R338 and R365 count go on. An agent's accesses to peer and host memory that nothing has taken,
since its reason has gone, go once none of its context is on its way. -/
def State.tick (s : State) : State :=
  { s with
    clock := s.clock + 1
    gangs := s.gangs.map fun g =>
      { g with waitC := if g.status == .pending && s.eligible g then some (g.waitC.getD s.clock) else none, nz := g.nonZero s.clock, yielded := g.yielded && s.takerFor g }
    queues := s.queues.map fun q =>
      let key := ((s.qhead q.num).map (·.key)).getD []
      { q with since := s.queueSince q, head := key, claim := if q.claim.any (fun x => s.claimAt q x.1 x.2) then q.claim else none }
    cores := s.cores.map fun k => if s.coreBusy k.die k.core then { k with idleFrom := s.clock } else k
    items := s.items.filter fun i => !(i.inst == farInst && (i.st == .done || i.st == .failed) &&
      s.items.all fun x => !(x.inst == farInst && x.ctx == i.ctx) || x.st == .done || x.st == .failed) }

/-- The first issue that goes through. One that has to wait for memory, with all of its pair, issues later; what it asks for is a step where it
changes the state. -/
def firstIssue (s : State) : List (Gang × Split) → Option Out
  | [] => none
  | x :: xs =>
    match issueSplit x.1 x.2 s with
    | .next t =>
      if t.wants.isEmpty then some (.next t)
      else
        let u := s.after t
        if u = s then firstIssue s xs else some (.next u)
    | r => some r

/-- What happens next when nothing comes from outside: an issue, else an event of the device, else a cycle passes. -/
def State.advanceSelf (s : State) : Out :=
  match firstIssue s s.issuers with
  | some r => r
  | none => (firstChange s s.ownEvents).getD (.next s.tick)

/-- An event of the agenda. One that has to wait goes to the end of the agenda, and the device takes a step of its own (log 12). -/
def runEvent (e : Instr) (rest : List Instr) (s : State) : Out :=
  match exec e { s with agenda := rest } with
  | .next t => if t.wants.isEmpty then .next t else ({ s.after t with agenda := rest ++ [e] } : State).advanceSelf
  | r => r

/-- One step: what is due; else the next entry of the agenda, where an instruction of the table that is no event stands for a step of the
device's own; else the device's own step. -/
def runStep (s : State) : Out :=
  match firstChange s s.dueEvents with
  | some r => r
  | none =>
    match s.agenda with
    | [] => s.advanceSelf
    | e :: rest =>
      if e.isEvent then runEvent e rest s else ({ s with agenda := rest } : State).advanceSelf

/-! ### The word that the host places (log 1) -/

/-- The address that withFetchWord runs from when nothing issues. -/
def loadAddr : Nat := 0x10000000

/-- A line whose slot `n` holds the word and whose other slots hold NOPs, with its parity and its TGT bits. -/
def wordLine (n w : Nat) : List (BitVec 96) × BitVec 32 :=
  let nop : BitVec 96 := packWord { stall := 0, yld := false, setf := 15, wait := 0 } Pred.none 0 1 0
  let slots := (List.range 5).map fun i => if i == n then BitVec.ofNat 96 w else nop
  (slots, mkLineWord slots 0x1F 0)

def lineBytes (l : List (BitVec 96) × BitVec 32) : List Byte := (l.1.flatMap fun w => leBytes 12 w.toNat) ++ leBytes 4 l.2.toNat

/-- Page tables that map the first 16 GiB onto themselves, readable, writable and executable (R344, Table 20.1). -/
def idTables (m : List Host.Cell) : List Host.Cell :=
  memWriteN (memWriteN m 0x50000000 (leBytes 8 0x50001001)) 0x50001000 (leBytes 8 0x1F)

/-- A machine that is ready, with one gang of context 0 that is about to issue the word. -/
def State.bootWith (s : State) (w : Nat) : State :=
  let l := wordLine 0 w
  let p : Place := {
    queue := 0, ctx := 0, inst := 0, run := 0, next := 0
    tr := { entry := BitVec.ofNat 64 loadAddr, ngang := 1, vblk := 8, stashp := 1, cohsz := 0, queue := 0, nin := 0, nout := 0, argp := 0, fhrec := 0, ins := [], outs := [] } }
  let boot : Boot := { s.boot with stage := 4, ready := true, ncore := 0x01010101, nchan := 0x40404040 }
  let (uid, s) := s.fresh
  let s : State := { s with boot := boot, agenda := [], mem := memWriteN (idTables s.mem) loadAddr (lineBytes l), devid := some 0 }
  let s := s.setCtx { s.ctx 0 with cfg := 0x100, ptroot := 0x50000000, killed := false }
  let s := s.setTenant { s.tenant 0 with fwin := [(0, 0x2000000000)] }
  let g := newGang s uid { die := 0, core := 0, slot := 0 } p 0 none
  let top : Split := {
    kind := .live, sid := 0, pc := BitVec.ofNat 64 loadAddr, exec := 0xFFFFFFFF, fmt := 0, rpc := 0, depth := 0, fast := true, atBar := false
    latch := some { va := BitVec.ofNat 64 loadAddr, slots := l.1, word := l.2 }, chk := 0 }
  { s with gangs := { g with status := .active, table := [top] } :: s.gangs, freeCtr := s.freeCtr + 8 }

/-- A gang is about to issue: its next word becomes the given one, alone in its line. -/
def State.patchWord (s : State) (g : Gang) (sp : Split) (w : Nat) : State :=
  let l := wordLine ((slotOf sp.pc).getD 0) w
  let s := s.onGang g.uid fun g => g.onSplit sp.sid fun x => { x with latch := some { va := lineOf sp.pc, slots := l.1, word := l.2 } }
  { s with agenda := [] }

/-- Places a word; an instruction has 96 bits, and the words of the table are no longer. -/
def loadWord (s : State) (_nbits w : Nat) : State :=
  match s.issuer with
  | some (g, sp) => s.patchWord g sp w
  | none => s.bootWith w

end Sys2Proof.Machine
end

