-- ==== Sys2Proof/Machine/Step.lean ====
section
/-! DEFINITION. One step of the machine, and the placing of a word where the next step fetches it (log 1). -/

namespace Sys2Proof.Machine

/-- One step (R41, log 2). -/
def step (s : State) : Host.Outcome State Fault Refusal := runStep s

/-- The state with a word where the next step fetches it: in the line of the gang that is about to issue, else in the line of a gang that
stands for a launched program (log 1). -/
def State.withFetchWord (s : State) (nbits w : Nat) : State := loadWord s nbits w

end Sys2Proof.Machine
end

