-- ==== Sys2Proof/Safety.lean ====
section
/-! DEFINITION. What counts as a safe run, in the terms the statements use: a step that answers a next state, the canonical form of
every byte memory, and the parts of the state that bring-up alone fixes. -/

namespace Sys2Proof.Machine

/-- The step answers a next state: neither a fault nor a refusal. -/
def Goes (s : State) : Prop := ∃ t, step s = .next t

/-- Every byte memory of the machine is in canonical form (log 3): device memory, the two matrix stores of every core, and the stash
pages of every gang (R55, R230). -/
def State.memOk (s : State) : Prop :=
  Memory.wf s.mem = true ∧
  (∀ k ∈ s.cores, Memory.wf k.momMem = true ∧ Memory.wf k.acmMem = true) ∧
  ∀ g ∈ s.gangs, ∀ p ∈ g.stash, Memory.wf p.data = true

/-- `k` steps from `s` without a stop, each keeping the canonical form. -/
def SafeFor : Nat → State → Prop
  | 0, s => s.memOk
  | k + 1, s => s.memOk ∧ ∃ t, step s = .next t ∧ SafeFor k t

/-! ### Issue, in the words of the statements (R17, R39 to R42, R135, R160) -/

/-- The instruction `i` with control `c`, in focus, issues: its gang is active, has raised no trap and waits for nothing, the conditions
of R41 hold, no failed item is waited for (R135), the use is legal (R166), nothing makes it wait at issue (R59), a barrier
meets an undivided gang (R16), and what it reads has met no uncorrectable soft error (R317). The second slot of a pair was asked with the first (R155, R156). -/
structure Issues (i : Instr) (c : Ctl) (s : State) (f : Focus) (g : Gang) (sp : Split) : Prop where
  focus  : s.focus = some f
  gang   : s.gang? f.uid = some g
  split  : g.split? f.sid = some sp
  stays  : f.moved = false
  active : g.status = .active
  noTrap : g.trap = none
  awaits : f.second = true ∨ (g.unwaiting = true ∧ g.ready s.clock c = true)
  room   : c.setf.toNat < 12 → g.counter c.setf.toNat < 63
  noFab  : g.fabTrap c = false
  legal  : illegalUse s g sp f.pc i = false
  noWait : f.second = true ∨ waitsAtIssue s g sp f.pc i = false
  whole  : isBarrier i = true → g.diverged = false
  sound  : s.flawOf g.uid i = none

/-- The gang once an instruction has issued: the cycle of its last issue, no wait but one that the first slot of its pair has begun, the turn
of its splits (R17, R41, R42, R156). -/
def Gang.issued (g : Gang) (clock : Nat) (c : Ctl) (f : Focus) : Gang :=
  { g with last := some clock, wait := if f.second then g.wait else none, waitC := none, yielded := g.yielded || c.yld, fab := g.fab &&& ~~~c.wait
           turn := (g.turn.filter (· != f.sid)) ++ [f.sid] }

/-- The split at the successor (R150), with its line kept while it stays in it (R149). One that arrives at its own reconvergence PC gives up its
line and owes the transfer-target check at a fetch (R18, R154). A handler runs as an undivided split, and arrives at none (R314). -/
def Split.stepped (sp : Split) (tl : Nat) (pc : W64) : Split :=
  if tl = 0 ∧ sp.depth ≠ 0 ∧ succPc pc = sp.rpc then { sp with pc := succPc pc, latch := none, chk := 1 }
  else { sp with pc := succPc pc, latch := if lineOf (succPc pc) == lineOf pc then sp.latch else none }

/-- The state after an instruction with writes of fixed latency `lat` (R39, R160): the flag of SETF is one higher, the writes fall
due `lat` cycles later, the split stands at the successor; no register, no other gang and no memory has changed. -/
def State.afterFixed (s : State) (f : Focus) (g : Gang) (lat : Nat) (c : Ctl) (ws : List Wr) : State :=
  let g1 := (g.issued s.clock c f).incFlag c.setf
  let p : Pend := { due := s.clock + lat, setf := c.setf, wrs := ws, opb := g.region.isSome }
  s.setGang (({ g1 with pend := g.pend ++ [p] } : Gang).onSplit f.sid fun x => x.stepped g.tl f.pc)

/-- The operation that an accepted instruction leaves (R40). -/
def State.opOf (s : State) (f : Focus) (g : Gang) (c : Ctl) (kind : OpKind) : Op :=
  { id := s.nextId, uid := g.uid, die := g.loc.die, core := g.loc.core, sid := f.sid, setf := c.setf, ip := f.pc, kind := kind
    ctx := g.ctx, inst := g.inst, run := g.run, name := s.nameOf g, dead := false, opb := g.region.isSome, lost := false }

/-- The state after a long-latency instruction is accepted (R40): the flag of SETF is one higher, one operation stands, the split
is at the successor; nothing else has changed. -/
def State.afterAccept (s : State) (f : Focus) (g : Gang) (c : Ctl) (kind : OpKind) : State :=
  let g1 := ((g.issued s.clock c f).incFlag c.setf).onSplit f.sid fun x => x.stepped g.tl f.pc
  { s.setGang g1 with ops := s.ops ++ [s.opOf f g c kind], nextId := s.nextId + 1 }

/-! ### Values in fixed-width arithmetic (R65, R66, R178, R183) -/

/-- The binary integer functions of Tables 08.1 and 08.3 on `n`-bit words; `u` chooses unsigned saturation. -/
def intOf {n : Nat} (f : VFn) (u : Bool) (a b : BitVec n) : BitVec n :=
  match f with
  | .add => a + b
  | .sub => a - b
  | .mul => a * b
  | .mulhi => (a.signExtend (2 * n) * b.signExtend (2 * n)).extractLsb' n n
  | .mulhu => (a.setWidth (2 * n) * b.setWidth (2 * n)).extractLsb' n n
  | .div => if b = 0 then BitVec.allOnes n else a.sdiv b
  | .divu => if b = 0 then BitVec.allOnes n else a / b
  | .rem => if b = 0 then a else a.srem b
  | .remu => if b = 0 then a else a % b
  | .and => a &&& b
  | .or => a ||| b
  | .xor => a ^^^ b
  | .andn => a &&& ~~~b
  | .shl => a <<< (b.toNat % n)
  | .shr => a >>> (b.toNat % n)
  | .sar => a.sshiftRight (b.toNat % n)
  | .min => if a.slt b then a else b
  | .max => if a.slt b then b else a
  | .minu => if a < b then a else b
  | .maxu => if a < b then b else a
  | .adds => if u then BitVec.ofNat n (min (a.toNat + b.toNat) (2 ^ n - 1))
             else BitVec.ofInt n (max (-2 ^ (n - 1)) (min (2 ^ (n - 1) - 1) (a.toInt + b.toInt)))
  | .subs => if u then BitVec.ofNat n (a.toNat - b.toNat)
             else BitVec.ofInt n (max (-2 ^ (n - 1)) (min (2 ^ (n - 1) - 1) (a.toInt - b.toInt)))

/-- The scalar functions are those of the same names (Table 08.1). -/
def SFn.vfn : SFn → VFn
  | .add => .add
  | .sub => .sub
  | .mul => .mul
  | .mulhi => .mulhi
  | .mulhu => .mulhu
  | .div => .div
  | .divu => .divu
  | .rem => .rem
  | .remu => .remu
  | .and => .and
  | .or => .or
  | .xor => .xor
  | .andn => .andn
  | .shl => .shl
  | .shr => .shr
  | .sar => .sar
  | .min => .min
  | .max => .max
  | .minu => .minu
  | .maxu => .maxu

/-- The SALU instruction of each function (Table 08.1). -/
def saluInstr (f : SFn) (c : Ctl) (d a b : SR) : Instr :=
  match f with
  | .add => .sadd c d a b
  | .sub => .ssub c d a b
  | .mul => .smul c d a b
  | .mulhi => .smulhi c d a b
  | .mulhu => .smulhu c d a b
  | .div => .sdiv c d a b
  | .divu => .sdivu c d a b
  | .rem => .srem c d a b
  | .remu => .sremu c d a b
  | .and => .sand c d a b
  | .or => .sor c d a b
  | .xor => .sxor c d a b
  | .andn => .sandn c d a b
  | .shl => .sshl c d a b
  | .shr => .sshr c d a b
  | .sar => .ssar c d a b
  | .min => .smin c d a b
  | .max => .smax c d a b
  | .minu => .sminu c d a b
  | .maxu => .smaxu c d a b

/-- The VALU instruction of each function (Table 08.3). -/
def valuInstr (f : VFn) (c : Ctl) (p : Pred) (u : Bool) (w : BitVec 2) (d a b : VR) : Instr :=
  match f with
  | .add => .vadd c p w d a b
  | .sub => .vsub c p w d a b
  | .mul => .vmul c p w d a b
  | .mulhi => .vmulhi c p w d a b
  | .mulhu => .vmulhu c p w d a b
  | .div => .vdiv c p w d a b
  | .divu => .vdivu c p w d a b
  | .rem => .vrem c p w d a b
  | .remu => .vremu c p w d a b
  | .and => .vand c p w d a b
  | .or => .vor c p w d a b
  | .xor => .vxor c p w d a b
  | .andn => .vandn c p w d a b
  | .shl => .vshl c p w d a b
  | .shr => .vshr c p w d a b
  | .sar => .vsar c p w d a b
  | .min => .vmin c p w d a b
  | .max => .vmax c p w d a b
  | .minu => .vminu c p w d a b
  | .maxu => .vmaxu c p w d a b
  | .adds => .vadds c p u w d a b
  | .subs => .vsubs c p u w d a b

/-- The bits that are set in a word, the zeros above its highest set bit, and those below its lowest. -/
def onesOf {n : Nat} (a : BitVec n) : Nat := ((List.range n).filter fun i => a.getLsbD i).length
def leadingZeros {n : Nat} (a : BitVec n) : Nat := ((List.range n).takeWhile fun i => !a.getMsbD i).length
def trailingZeros {n : Nat} (a : BitVec n) : Nat := ((List.range n).takeWhile fun i => !a.getLsbD i).length

/-- The integer conditions on `n`-bit words (R180). -/
def condOf {n : Nat} (c : ICond) (a b : BitVec n) : Bool :=
  match c with
  | .eq => a == b
  | .ne => a != b
  | .lt => a.slt b
  | .le => a.sle b
  | .gt => b.slt a
  | .ge => b.sle a
  | .ltu => a.ult b
  | .leu => a.ule b
  | .gtu => b.ult a
  | .geu => b.ule a

/-- Element `e` of lane `l` of an operand of width code `w`, as a word of that width (R182). -/
def Gang.elem (g : Gang) (w : BitVec 2) (r : VR) (l e : Nat) : BitVec (vWidth w) :=
  BitVec.ofNat (vWidth w) (g.lane64 (wide w) r l / 2 ^ (vWidth w * e))

/-- The writes of a vector result of width code `w`, given element by element in the taking-part lanes (R11, R173, R182). -/
def vResult (w : BitVec 2) (d : VR) (lanes : W32) (f : Nat → Nat → BitVec (vWidth w)) : List Wr :=
  vWrites (wide w) d lanes fun l => onElems (vWidth w) (vCount w) fun e => (f l e).toNat

/-- The sticky FPSTAT bits that a list of results raises, as writes (R70, R175). -/
def flagsOf (rs : List FRes) : List Wr :=
  let b := rs.foldl (fun b r => b ||| r.flags) 0
  if b = 0 then [] else [.fpOr b]

/-- The writes of a floating-point result of format code `w`: the value of every element of the taking-part lanes, and the flags that
those elements raise (R71, R189). -/
def fpResult (w : BitVec 2) (d : VR) (lanes : W32) (r : Nat → Nat → FRes) : List Wr :=
  vWrites (wide w) d lanes (fun l => onElems (fpFmt w).width (fpCount w) fun e => (r l e).bits) ++
    flagsOf ((lanesOf lanes).flatMap fun l => (List.range (fpCount w)).map fun e => r l e)

/-- Element `e` of lane `l` of an operand of format code `w` (R188). -/
def Gang.felem (g : Gang) (w : BitVec 2) (r : VR) (l e : Nat) : Nat := g.lane64 (wide w) r l / 2 ^ ((fpFmt w).width * e) % 2 ^ (fpFmt w).width

/-! ### Rounding (R69) -/

/-- m × 2^e is less than m' × 2^e'. -/
def dyLt (m : Nat) (e : Int) (m' : Nat) (e' : Int) : Prop := m * 2 ^ (e - min e e').toNat < m' * 2 ^ (e' - min e e').toNat

/-- The mode rounds a magnitude of this sign toward zero. -/
def Truncates (rm : BitVec 2) (neg : Bool) : Prop := rm = 1 ∨ (rm = 2 ∧ neg = false) ∨ (rm = 3 ∧ neg = true)

/-- `r` is RNE(x, f, rm) with the flags of R69 and R70, for a non-zero x of sign `neg` whose magnitude is known by its comparisons: `lo m e`
holds where m × 2^e lies below it, and `hi m e` where m × 2^e lies above. Beside the finite values `z` of the format, the thresholds
of overflow and of tininess are those of rounding with an unbounded exponent. -/
structure RoundedTo (f : FFmt) (rm : BitVec 2) (neg : Bool) (lo hi : Nat → Int → Prop) (r : FRes) : Prop where
  bits : r.bits < 2 ^ f.width
  num  : ∀ q, FVal.ofBits f r.bits ≠ .nan q
  low  : r.flags &&& 3 = 0
  inf  : ∀ n, FVal.ofBits f r.bits = .inf n → n = neg ∧ r.flags = flOF ||| flNX ∧
           (rm = 0 → ¬ hi (2 ^ (f.fb + 2) - 1) ((f.bias : Int) - f.fb - 1)) ∧
           (rm ≠ 0 → ¬ Truncates rm neg ∧ lo (2 ^ (f.fb + 1) - 1) ((f.bias : Int) - f.fb))
  fin  : ∀ n m e, FVal.ofBits f r.bits = .fin n m e → n = neg ∧
           (r.flags.getLsbD 4 = false ↔ ¬ lo m e ∧ ¬ hi m e) ∧
           (r.flags.getLsbD 2 = true ↔ ¬ hi 1 ((f.bias : Int) + 1)) ∧
           (rm = 0 → hi (2 ^ (f.fb + 2) - 1) ((f.bias : Int) - f.fb - 1)) ∧
           (r.flags.getLsbD 3 = true ↔ r.flags.getLsbD 4 = true ∧
             ((rm = 0 ∧ hi (2 ^ (f.fb + 2) - 1) (f.qmin - 2)) ∨ (Truncates rm neg ∧ hi (2 ^ f.fb) f.qmin) ∨
              (rm ≠ 0 ∧ ¬ Truncates rm neg ∧ ¬ lo (2 ^ (f.fb + 1) - 1) (f.qmin - 1)))) ∧
           ∀ b n' m' e', b < 2 ^ f.width → FVal.ofBits f b = .fin n' m' e' →
             let half := min e e' - 1
             let mid := m * 2 ^ (e - min e e').toNat + m' * 2 ^ (e' - min e e').toNat
             (rm = 0 → (dyLt m e m' e' → ¬ lo mid half) ∧ (dyLt m' e' m e → ¬ hi mid half) ∧
               (dyLt m e m' e' ∨ dyLt m' e' m e → ¬ lo mid half → ¬ hi mid half → r.bits % 2 = 0)) ∧
             (Truncates rm neg → ¬ hi m e ∧ (¬ hi m' e' → ¬ dyLt m e m' e')) ∧
             (rm ≠ 0 → ¬ Truncates rm neg → ¬ lo m e ∧ (¬ lo m' e' → ¬ dyLt m' e' m e))

/-! ### Transfers and traps -/

/-- The state after a taken transfer to `x` (R150, R218): as after an instruction with these writes, with the split at `x`, its line
given up and the transfer-target check owed at the next fetch (R154). -/
def State.afterJump (s : State) (f : Focus) (g : Gang) (lat : Nat) (c : Ctl) (ws : List Wr) (x : W64) : State :=
  let g1 := (g.issued s.clock c f).incFlag c.setf
  let p : Pend := { due := s.clock + lat, setf := c.setf, wrs := ws, opb := g.region.isSome }
  { s.setGang (({ g1 with pend := g.pend ++ [p] } : Gang).onSplit f.sid fun y => { y with pc := x, latch := none, chk := 1 }) with
    focus := some { f with moved := true } }

/-- An instruction address below LWIN (R150). -/
def instrAddr (x : W64) : Prop := (slotOf x).isSome = true ∧ x.toNat < lwin

/-- The state after the instruction in focus raises a cause (R317, R240, R30): the gang's MLOOPs are told to stop, an open region gives up its
store buffer and its buffered results, those still under way too, and the cause stands to be taken; the split has not moved. -/
def State.afterTrap (s : State) (f : Focus) (g : Gang) (c : Ctl) (q : TrapReq) : State :=
  ((s.stopLoops g.uid).loseOpb g.uid).setGang { (g.issued s.clock c f).beginAbort with trap := some { q with reg := g.region.isSome } }

/-- The state after TRAP or BRK (R225, R317): as above, the flag of SETF one higher, to fall one cycle later (R160). -/
def State.afterSoftTrap (s : State) (f : Focus) (g : Gang) (c : Ctl) (q : TrapReq) : State :=
  let g1 := (g.issued s.clock c f).incFlag c.setf
  let p : Pend := { due := s.clock + 1, setf := c.setf, wrs := [], opb := g.region.isSome }
  ((s.stopLoops g.uid).loseOpb g.uid).setGang { ({ g1 with pend := g.pend ++ [p] } : Gang).beginAbort with trap := some { q with reg := g.region.isSome } }

/-- The cause record of a trap at the instruction in focus (R317, Table 17.2). -/
def trapReq (f : Focus) (cause sub : BitVec 8) (code : BitVec 16) (lane : BitVec 5) (ret va : W64) : TrapReq :=
  { cause := cause, sub := sub, code := code, lane := lane, ip := f.pc, ret := ret, va := va, sid := f.sid, reg := false }

/-- Apart from gangs, operations, the next id and what is in focus, nothing has changed: no memory, core, die, context, queue, instance, item,
packet, port or output. -/
def State.onlyGangs (s t : State) : Prop := { t with gangs := s.gangs, ops := s.ops, nextId := s.nextId, focus := s.focus } = s

/-! ### Accesses to memory (R117, R134, R203, R204) -/

/-- The lanes of an access and their addresses, as its operand gives them (R164, R211). -/
def lanesAt (m : MemOp) (g : Gang) (sp : Split) (p : Pred) : List (Nat × Nat) := memLanes m g (takes g sp p)
def scopedAt (m : ScopedOp) (g : Gang) (sp : Split) (p : Pred) : List (Nat × Nat) := scopedLanes m g (takes g sp p)

/-- Every lane of `lanes` passes the checks of R203, each in the state that the checks before it leave; the places are `ps`, and `s'` is the state
after them, in which only cached translations differ. -/
def State.allPass (s : State) (f : Focus) (g : Gang) (c : Ctl) (need : Need) (lanes : List (Nat × Nat)) (s' : State) (ps : List (Nat × Place1)) : Prop :=
  (s.setGang (g.issued s.clock c f)).checkLanes (g.issued s.clock c f) need lanes = (s', .ok ps)

/-- The first lane of `lanes` that fails a check of R203 fails with `e`. -/
def State.someFails (s : State) (f : Focus) (g : Gang) (c : Ctl) (need : Need) (lanes : List (Nat × Nat)) (s' : State) (e : AccFail) : Prop :=
  (s.setGang (g.issued s.clock c f)).checkLanes (g.issued s.clock c f) need lanes = (s', .error e)

/-- No write is in progress and no stash line is DIRTY: a walk of the tables then changes no byte of memory (R349). -/
def State.still (s : State) : Prop := s.txns = [] ∧ ∀ g ∈ s.gangs, g.hasDirty = false

/-- An accepted access, from the state `s` after its checks: `t` differs from `s` by one operation of kind `kind`, whose items name exactly the lanes of `ps`, each at its place with its
datum and comparand; no memory, no register and no item of another instruction has changed. -/
structure State.Asked (s t : State) (g : Gang) (c : Ctl) (kind : OpKind) (q : ItemAsk) (n : Nat) (ps : List (Nat × Place1)) (val cmp : Nat → Nat) : Prop where
  mem   : t.mem = s.mem
  gang  : ∃ g', t.gang? g.uid = some g' ∧ g'.s = g.s ∧ g'.k = g.k ∧ g'.v = g.v ∧ g'.fpstat = g.fpstat ∧ g'.region = g.region ∧
            ∀ k, g'.counter k = g.counter k + (if c.setf.toNat = k ∧ k < 12 then 1 else 0)
  op    : ∃ o, t.ops = s.ops ++ [o] ∧ o.kind = kind ∧ o.uid = g.uid ∧ o.setf = c.setf ∧
            ∃ new, t.items = s.items ++ new ∧
              (∀ x ∈ new, x.op = o.id ∧ x.uid = g.uid ∧ x.kind = q.kind ∧ x.scope = q.scope ∧ x.rel = q.rel ∧ x.acq = q.acq ∧ x.comm = q.comm) ∧
              (∀ p ∈ ps, ∃ x ∈ new, ∃ a ∈ x.accs, x.dst = p.2.dst ∧ x.line = p.2.line ∧ a.lane = p.1 ∧ a.off = p.2.off ∧ a.n = n ∧
                a.val = val p.1 ∧ a.cmp = cmp p.1) ∧
              ∀ x ∈ new, ∀ a ∈ x.accs, ∃ p ∈ ps, x.dst = p.2.dst ∧ x.line = p.2.line ∧ a.lane = p.1 ∧ a.off = p.2.off

/-- At DIE scope or wider an access to a mapped stash line goes to the order point (R120). -/
def pointed (yes : Bool) (ps : List (Nat × Place1)) : List (Nat × Place1) := ps.map fun p => (p.1, toPoint yes p.2)

/-- An instruction is accepted as the operation `o`: it stands last, the flag of SETF is one higher, and no register of the gang and no byte of
device memory has changed. -/
structure State.Began (s t : State) (g : Gang) (c : Ctl) (o : Op) : Prop where
  mem  : t.mem = s.mem
  gang : ∃ g', t.gang? g.uid = some g' ∧ g'.s = g.s ∧ g'.k = g.k ∧ g'.v = g.v ∧ g'.fpstat = g.fpstat ∧ g'.region = g.region ∧
           ∀ k, g'.counter k = g.counter k + (if c.setf.toNat = k ∧ k < 12 then 1 else 0)
  op   : t.ops = s.ops ++ [o] ∧ o.uid = g.uid ∧ o.setf = c.setf

/-- The run may send what leaves the device: its egress grade, of which the host holds no modified line, is final (R103, R368). -/
def State.ungated (s : State) (ctx inst run : Nat) : Prop := s.gradeLines ctx inst = [] ∧ s.gated ctx inst run = false

/-- The core of a gang, and its tiles and slots by number. -/
def State.home (s : State) (g : Gang) : Core := s.core g.loc.die g.loc.core

end Sys2Proof.Machine
end

