-- ==== Sys2Proof/Certificates/Slice0/Obligations.lean ====
section
/-! DEFINITION. The statements for the provers, each over every state and every operand that meets its hypotheses. `Issues` says
when an instruction issues; `State.afterFixed` and `State.afterAccept` are the states after it, written out in Safety.lean. -/

open Sys2Proof Sys2Proof.Machine
/-! ### Scalar arithmetic -/

/-- SADD, SSUB, SMUL, SMULHI, SMULHU, SAND, SOR, SXOR, SANDN, SSHL, SSHR, SSAR, SMIN, SMAX, SMINU, SMAXU and their SALUI forms
(R65, R178, R177): the instruction answers a next state in which nothing has changed but the issue of its gang, and the function's
value of S[SA] and S[SB], or of S[SA] and the sign-extended immediate, falls due in S[DST] two cycles later.
The one-operand functions of SALU, SSEL, and SMOVI, SMOVIZ, SMOVHI (R178, R181): counts of bits, moves, a selection by a K register,
and immediates; each falls due in S[DST] two cycles later and changes nothing else.
SCMP and SCMPI (R180): the K register receives all ones where the condition holds of the 64-bit operands, and zero where not. -/
def Obligations.ScalarInstructions : Prop :=
  (∀ (fn : SFn) (c : Ctl) (d a b : SR) (imm : BitVec 18) (s : State) (f : Focus) (g : Gang) (sp : Split), SFn.isDiv fn = false →
    (Issues (saluInstr fn c d a b) c s f g sp →
      exec (saluInstr fn c d a b) s = .next (s.afterFixed f g 2 c [.sreg d (intOf (SFn.vfn fn) false (g.sr a) (g.sr b))])) ∧
    (Issues (.salui c fn d a imm) c s f g sp →
      exec (.salui c fn d a imm) s = .next (s.afterFixed f g 2 c [.sreg d (intOf (SFn.vfn fn) false (g.sr a) (imm.signExtend 64))]))) ∧
  (
  (∀ (c : Ctl) (d a b : SR) (k : KR) (imm : BitVec 32) (s : State) (f : Focus) (g : Gang) (sp : Split),
    (Issues (.spopc c d a) c s f g sp → exec (.spopc c d a) s = .next (s.afterFixed f g 2 c [.sreg d (BitVec.ofNat 64 (onesOf (g.sr a)))])) ∧
    (Issues (.sclz c d a) c s f g sp → exec (.sclz c d a) s = .next (s.afterFixed f g 2 c [.sreg d (BitVec.ofNat 64 (leadingZeros (g.sr a)))])) ∧
    (Issues (.sctz c d a) c s f g sp → exec (.sctz c d a) s = .next (s.afterFixed f g 2 c [.sreg d (BitVec.ofNat 64 (trailingZeros (g.sr a)))])) ∧
    (Issues (.smov c d a) c s f g sp → exec (.smov c d a) s = .next (s.afterFixed f g 2 c [.sreg d (g.sr a)])) ∧
    (Issues (.ssel c d a b k) c s f g sp →
      exec (.ssel c d a b k) s = .next (s.afterFixed f g 2 c [.sreg d (if g.kr k ≠ 0 then g.sr a else g.sr b)])) ∧
    (Issues (.smovi c d imm) c s f g sp → exec (.smovi c d imm) s = .next (s.afterFixed f g 2 c [.sreg d (imm.signExtend 64)])) ∧
    (Issues (.smoviz c d imm) c s f g sp → exec (.smoviz c d imm) s = .next (s.afterFixed f g 2 c [.sreg d (imm.setWidth 64)])) ∧
    (Issues (.smovhi c d imm) c s f g sp →
      exec (.smovhi c d imm) s = .next (s.afterFixed f g 2 c [.sreg d ((imm.setWidth 64 <<< 32) ||| (g.sr d &&& 0xFFFFFFFF))]))) ∧
  (∀ (cond : ICond) (c : Ctl) (k : KR) (a b : SR) (imm : BitVec 18) (s : State) (f : Focus) (g : Gang) (sp : Split),
    (Issues (.scmp c cond k a b) c s f g sp →
      exec (.scmp c cond k a b) s = .next (s.afterFixed f g 2 c [.kreg k (if condOf cond (g.sr a) (g.sr b) then 0xFFFFFFFF else 0)])) ∧
    (Issues (.scmpi c cond k a imm) c s f g sp →
      exec (.scmpi c cond k a imm) s =
        .next (s.afterFixed f g 2 c [.kreg k (if condOf cond (g.sr a) (imm.signExtend 64) then 0xFFFFFFFF else 0)]))))

/-- KAND, KOR, KXOR, KANDN, KNOT, KMOV, KFROMS, KPOPC, KFFS and KTOS (R200): the mask functions, the count, the lowest set bit, and the moves
between K and S registers, written two cycles later. -/
def Obligations.MaskOperations : Prop :=
  ∀ (c : Ctl) (d a b : KR) (sd sa : SR) (s : State) (f : Focus) (g : Gang) (sp : Split),
    (Issues (.kand c d a b) c s f g sp → exec (.kand c d a b) s = .next (s.afterFixed f g 2 c [.kreg d (g.kr a &&& g.kr b)])) ∧
    (Issues (.kor c d a b) c s f g sp → exec (.kor c d a b) s = .next (s.afterFixed f g 2 c [.kreg d (g.kr a ||| g.kr b)])) ∧
    (Issues (.kxor c d a b) c s f g sp → exec (.kxor c d a b) s = .next (s.afterFixed f g 2 c [.kreg d (g.kr a ^^^ g.kr b)])) ∧
    (Issues (.kandn c d a b) c s f g sp → exec (.kandn c d a b) s = .next (s.afterFixed f g 2 c [.kreg d (g.kr a &&& ~~~(g.kr b))])) ∧
    (Issues (.knot c d a) c s f g sp → exec (.knot c d a) s = .next (s.afterFixed f g 2 c [.kreg d (~~~(g.kr a))])) ∧
    (Issues (.kmov c d a) c s f g sp → exec (.kmov c d a) s = .next (s.afterFixed f g 2 c [.kreg d (g.kr a)])) ∧
    (Issues (.kfroms c d sa) c s f g sp → exec (.kfroms c d sa) s = .next (s.afterFixed f g 2 c [.kreg d ((g.sr sa).extractLsb' 0 32)])) ∧
    (Issues (.kpopc c sd a) c s f g sp → exec (.kpopc c sd a) s = .next (s.afterFixed f g 2 c [.sreg sd (BitVec.ofNat 64 (onesOf (g.kr a)))])) ∧
    (Issues (.kffs c sd a) c s f g sp →
      exec (.kffs c sd a) s = .next (s.afterFixed f g 2 c [.sreg sd (BitVec.ofNat 64 (trailingZeros (g.kr a)))])) ∧
    (Issues (.ktos c sd a) c s f g sp → exec (.ktos c sd a) s = .next (s.afterFixed f g 2 c [.sreg sd ((g.kr a).setWidth 64)]))

/-! ### Vector integer arithmetic -/

/-- VADD, VSUB, VMUL, VMULHI, VMULHU, VAND, VOR, VXOR, VANDN, VSHL, VSHR, VSAR, VMIN, VMAX, VMINU, VMAXU, VADDS, VSUBS and their VALUI forms
(R65, R182, R183, R186): each element of each lane that takes part falls due with the function's value of the elements of the two
sources, or of the source and the low bits of the sign-extended immediate; no other lane is written, and nothing else changes. -/
def Obligations.VectorArithmetic : Prop :=
  ∀ (fn : VFn) (u : Bool) (c : Ctl) (p : Pred) (w : BitVec 2) (d a b : VR) (imm : BitVec 18) (s : State) (f : Focus) (g : Gang) (sp : Split),
    VFn.isDiv fn = false →
    (Issues (valuInstr fn c p u w d a b) c s f g sp →
      exec (valuInstr fn c p u w d a b) s = .next (s.afterFixed f g (latVint g) c
        (vResult w d (takes g sp p) fun l e => intOf fn u (g.elem w a l e) (g.elem w b l e)))) ∧
    (Issues (.valui c p fn u w d a imm) c s f g sp →
      exec (.valui c p fn u w d a imm) s = .next (s.afterFixed f g (latVint g) c
        (vResult w d (takes g sp p) fun l e => intOf fn u (g.elem w a l e) ((imm.signExtend 64).setWidth (vWidth w)))))

/-- VMAD, VABS, VNEG, VPOPC, VCLZ, VSEL, VMOV, VFROMS and SFROMV (R183, R185): multiply-add modulo the width, absolute value and negation
with the signed minimum mapped to itself, counts, a selection and a move of whole lanes or pairs, the spread of a scalar, and the read of
one lane, which writes S[DST] only when that lane takes part.
VCMP and VCMPI (R187): the K register is written whole, with a bit set exactly in the lanes that take part and whose element meets the
condition. -/
def Obligations.VectorUnaryAndCompare : Prop :=
  (∀ (c : Ctl) (p : Pred) (w : BitVec 2) (d a b e3 : VR) (k : KR) (sd sa : SR) (s : State) (f : Focus) (g : Gang) (sp : Split),
    (Issues (.vmad c p w d a b e3) c s f g sp →
      exec (.vmad c p w d a b e3) s = .next (s.afterFixed f g (latVint g) c
        (vResult w d (takes g sp p) fun l e => g.elem w a l e * g.elem w b l e + g.elem w e3 l e))) ∧
    (Issues (.vabs c p w d a) c s f g sp →
      exec (.vabs c p w d a) s = .next (s.afterFixed f g (latVint g) c
        (vResult w d (takes g sp p) fun l e => if (g.elem w a l e).slt 0 then -(g.elem w a l e) else g.elem w a l e))) ∧
    (Issues (.vneg c p w d a) c s f g sp →
      exec (.vneg c p w d a) s = .next (s.afterFixed f g (latVint g) c (vResult w d (takes g sp p) fun l e => -(g.elem w a l e)))) ∧
    (Issues (.vpopc c p w d a) c s f g sp →
      exec (.vpopc c p w d a) s = .next (s.afterFixed f g (latVint g) c
        (vResult w d (takes g sp p) fun l e => BitVec.ofNat _ (onesOf (g.elem w a l e))))) ∧
    (Issues (.vclz c p w d a) c s f g sp →
      exec (.vclz c p w d a) s = .next (s.afterFixed f g (latVint g) c
        (vResult w d (takes g sp p) fun l e => BitVec.ofNat _ (leadingZeros (g.elem w a l e))))) ∧
    (Issues (.vsel c p w d a b k) c s f g sp →
      exec (.vsel c p w d a b k) s = .next (s.afterFixed f g (latVint g) c
        (vWrites (wide w) d (takes g sp p) fun l => g.lane64 (wide w) (if (g.kr k).getLsbD l then a else b) l))) ∧
    (Issues (.vmov c p w d a) c s f g sp →
      exec (.vmov c p w d a) s = .next (s.afterFixed f g (latVint g) c (vWrites (wide w) d (takes g sp p) fun l => g.lane64 (wide w) a l))) ∧
    (Issues (.vfroms c p w d sa) c s f g sp →
      exec (.vfroms c p w d sa) s = .next (s.afterFixed f g (latVint g) c
        (vResult w d (takes g sp p) fun _ _ => (g.sr sa).setWidth (vWidth w)))) ∧
    (Issues (.sfromv c p w sd a sa) c s f g sp →
      exec (.sfromv c p w sd a sa) s = .next (s.afterFixed f g (latVint g) c
        (if (takes g sp p).getLsbD ((g.sr sa).toNat % 32) then [.sreg sd (BitVec.ofNat 64 (g.lane64 (wide w) a ((g.sr sa).toNat % 32)))]
         else [])))) ∧
  (∀ (cond : ICond) (c : Ctl) (p : Pred) (w : BitVec 2) (k : KR) (a b : VR) (imm : BitVec 18) (s : State) (f : Focus) (g : Gang) (sp : Split),
    (Issues (.vcmp c p cond w k a b) c s f g sp → ∃ m : W32,
      exec (.vcmp c p cond w k a b) s = .next (s.afterFixed f g (latVint g) c [.kreg k m]) ∧
      ∀ l < 32, m.getLsbD l = ((takes g sp p).getLsbD l && condOf cond (g.elem w a l 0) (g.elem w b l 0))) ∧
    (Issues (.vcmpi c p cond w k a imm) c s f g sp → ∃ m : W32,
      exec (.vcmpi c p cond w k a imm) s = .next (s.afterFixed f g (latVint g) c [.kreg k m]) ∧
      ∀ l < 32, m.getLsbD l =
        ((takes g sp p).getLsbD l && condOf cond (g.elem w a l 0) ((imm.signExtend 64).setWidth (vWidth w)))))

/-! ### Integer division -/

/-- The values of a division (R66), at every width: a zero divisor gives all ones and the dividend; the signed minimum over −1 gives the signed
minimum and 0; every other division truncates toward zero, and the remainder is what is left over.
SDIV, SDIVU, SREM, SREMU and their SALUI forms (R66, R178, R179): with a divisor that is not zero, or with TRAPEN.IDZ clear, the
instruction is accepted as one long-latency operation that will write the quotient or remainder; a zero divisor then gives all ones
or the dividend.
VDIV, VDIVU, VREM, VREMU and their VALUI forms (R66, R183, R184, R186): accepted as one long-latency operation, with the elementwise quotient or
remainder, when TRAPEN.IDZ is clear or no element of a lane that takes part has a zero divisor.
A division by zero with TRAPEN.IDZ set (R66, R179, R184): the cause IDZ stands to be taken at the division, with LANE the lowest lane
that takes part and holds a zero divisor; no result is ever written. -/
def Obligations.IntegerDivision : Prop :=
  (∀ (n : Nat) (u : Bool) (a b : BitVec n),
    (b = 0 → intOf .div u a b = BitVec.allOnes n ∧ intOf .divu u a b = BitVec.allOnes n ∧ intOf .rem u a b = a ∧ intOf .remu u a b = a) ∧
    (0 < n → a = BitVec.intMin n → b = BitVec.allOnes n → intOf .div u a b = BitVec.intMin n ∧ intOf .rem u a b = 0) ∧
    (b ≠ 0 → ¬ (a = BitVec.intMin n ∧ b = BitVec.allOnes n) → (intOf .div u a b).toInt = a.toInt.tdiv b.toInt ∧
      (intOf .rem u a b).toInt = a.toInt - b.toInt * a.toInt.tdiv b.toInt) ∧
    (b ≠ 0 → (intOf .divu u a b).toNat = a.toNat / b.toNat ∧ (intOf .remu u a b).toNat = a.toNat - b.toNat * (a.toNat / b.toNat))) ∧
  (
  (
  (∀ (fn : SFn) (c : Ctl) (d a b : SR) (imm : BitVec 18) (s : State) (f : Focus) (g : Gang) (sp : Split), SFn.isDiv fn = true →
    (Issues (saluInstr fn c d a b) c s f g sp → (g.sr b ≠ 0 ∨ g.trapen.getLsbD 0 = false) →
      exec (saluInstr fn c d a b) s = .next (s.afterAccept f g c (.calc [.sreg d (intOf (SFn.vfn fn) false (g.sr a) (g.sr b))]))) ∧
    (Issues (.salui c fn d a imm) c s f g sp → (imm ≠ 0 ∨ g.trapen.getLsbD 0 = false) →
      exec (.salui c fn d a imm) s = .next (s.afterAccept f g c (.calc [.sreg d (intOf (SFn.vfn fn) false (g.sr a) (imm.signExtend 64))])))) ∧
  (∀ (fn : VFn) (u : Bool) (c : Ctl) (p : Pred) (w : BitVec 2) (d a b : VR) (imm : BitVec 18) (s : State) (f : Focus) (g : Gang) (sp : Split),
    VFn.isDiv fn = true →
    (Issues (valuInstr fn c p u w d a b) c s f g sp →
      (g.trapen.getLsbD 0 = false ∨ ∀ l < 32, (takes g sp p).getLsbD l = true → ∀ e < vCount w, g.elem w b l e ≠ 0) →
      exec (valuInstr fn c p u w d a b) s = .next (s.afterAccept f g c (.calc
        (vResult w d (takes g sp p) fun l e => intOf fn u (g.elem w a l e) (g.elem w b l e))))) ∧
    (Issues (.valui c p fn u w d a imm) c s f g sp →
      (g.trapen.getLsbD 0 = false ∨ (imm.signExtend 64).setWidth (vWidth w) ≠ 0) →
      exec (.valui c p fn u w d a imm) s = .next (s.afterAccept f g c (.calc
        (vResult w d (takes g sp p) fun l e => intOf fn u (g.elem w a l e) ((imm.signExtend 64).setWidth (vWidth w)))))))) ∧
  (∀ (c : Ctl) (s : State) (f : Focus) (g : Gang) (sp : Split), g.trapen.getLsbD 0 = true →
    (∀ fn d a b, SFn.isDiv fn = true → Issues (saluInstr fn c d a b) c s f g sp → g.sr b = 0 →
      exec (saluInstr fn c d a b) s = .next (s.afterTrap f g c (trapReq f causeIDZ 0 0 0 f.pc 0))) ∧
    (∀ fn p u w d a b l, VFn.isDiv fn = true → Issues (valuInstr fn c p u w d a b) c s f g sp → l < 32 →
      (takes g sp p).getLsbD l = true → (∃ e < vCount w, g.elem w b l e = 0) →
      (∀ m < l, (takes g sp p).getLsbD m = true → ∀ e < vCount w, g.elem w b m e ≠ 0) →
      exec (valuInstr fn c p u w d a b) s = .next (s.afterTrap f g c (trapReq f causeIDZ 0 0 (BitVec.ofNat 5 l) f.pc 0))) ∧
    (∀ fn d a imm, SFn.isDiv fn = true → Issues (.salui c fn d a imm) c s f g sp → imm = 0 →
      exec (.salui c fn d a imm) s = .next (s.afterTrap f g c (trapReq f causeIDZ 0 0 0 f.pc 0))) ∧
    (∀ fn p u w d a imm l, VFn.isDiv fn = true → Issues (.valui c p fn u w d a imm) c s f g sp → l < 32 → (takes g sp p).getLsbD l = true →
      (imm.signExtend 64).setWidth (vWidth w) = 0 → (∀ m < l, (takes g sp p).getLsbD m = false) →
      exec (.valui c p fn u w d a imm) s = .next (s.afterTrap f g c (trapReq f causeIDZ 0 0 (BitVec.ofNat 5 l) f.pc 0)))))

/-! ### Floating point -/

/-- VFADD, VFSUB, VFMUL, VFMA, VFMS, VFNMA, VFMIN, VFMAX, VFABS, VFNEG, VFCLASS, VFSCALE and VFRINT (R71, R73, R188 to R191): each
element of each lane that takes part falls due with the once-rounded value, with the FPSTAT bits of those elements, at the latency
of the format; nothing else changes.
VFDIV, VFSQRT, VFRCP, VFRSQ, VFEXP2 and VFLOG2 (R71, R72, R189): accepted as one long-latency operation that will write the
values of fDiv to fLog2 and their flags.
What those values are: the sum, difference, product, fused product, quotient, reciprocal, root, reciprocal root and scaled value of finite operands are
RNE (R69, written out in RoundedTo) of their exact values, infinity on an overflow that does not truncate, with UF, OF and NX; VFEXP2 of an integer and
VFLOG2 of a power of two are RNE of the exact value, and +0 at 1, and of an infinity what R72 lists, as is every operand of zero or infinity here; VFCLASS gives
the one bit of the class (R190), and VFRINT the integral value that the mode chooses, with NX where it is another (R191). -/
def Obligations.FloatArithmetic : Prop :=
  (∀ (c : Ctl) (p : Pred) (r w : BitVec 2) (d a b e3 : VR) (s : State) (f : Focus) (g : Gang) (sp : Split),
    let fixed := fun (i : Instr) (v : Nat → Nat → FRes) =>
      Issues i c s f g sp → exec i s = .next (s.afterFixed f g (latFmt g w) c (fpResult w d (takes g sp p) v))
    let x := g.felem w a
    let y := g.felem w b
    let z := g.felem w e3
    fixed (.vfadd c p r w d a b) (fun l e => fAdd (fpFmt w) r (x l e) (y l e)) ∧
    fixed (.vfsub c p r w d a b) (fun l e => fSub (fpFmt w) r (x l e) (y l e)) ∧
    fixed (.vfmul c p r w d a b) (fun l e => fMul (fpFmt w) r (x l e) (y l e)) ∧
    fixed (.vfma c p r w d a b e3) (fun l e => fFma (fpFmt w) r false false (x l e) (y l e) (z l e)) ∧
    fixed (.vfms c p r w d a b e3) (fun l e => fFma (fpFmt w) r false true (x l e) (y l e) (z l e)) ∧
    fixed (.vfnma c p r w d a b e3) (fun l e => fFma (fpFmt w) r true false (x l e) (y l e) (z l e)) ∧
    fixed (.vfmin c p w d a b) (fun l e => fMinMax (fpFmt w) false (x l e) (y l e)) ∧
    fixed (.vfmax c p w d a b) (fun l e => fMinMax (fpFmt w) true (x l e) (y l e)) ∧
    fixed (.vfabs c p w d a) (fun l e => fAbs (fpFmt w) (x l e)) ∧
    fixed (.vfneg c p w d a) (fun l e => fNeg (fpFmt w) (x l e)) ∧
    fixed (.vfclass c p w d a) (fun l e => fClass (fpFmt w) (x l e)) ∧
    fixed (.vfscale c p r w d a b) (fun l e => fScale (fpFmt w) r (x l e) (BitVec.ofNat (fpFmt w).width (y l e)).toInt) ∧
    fixed (.vfrint c p r w d a) (fun l e => fRint (fpFmt w) r (x l e))) ∧
  (∀ (c : Ctl) (p : Pred) (r w : BitVec 2) (d a b : VR) (s : State) (f : Focus) (g : Gang) (sp : Split),
    let long := fun (i : Instr) (v : Nat → Nat → FRes) =>
      Issues i c s f g sp → exec i s = .next (s.afterAccept f g c (.calc (fpResult w d (takes g sp p) v)))
    let x := g.felem w a
    let y := g.felem w b
    long (.vfdiv c p r w d a b) (fun l e => fDiv (fpFmt w) r (x l e) (y l e)) ∧
    long (.vfsqrt c p r w d a) (fun l e => fSqrt (fpFmt w) r (x l e)) ∧
    long (.vfrcp c p r w d a) (fun l e => fRcp (fpFmt w) r (x l e)) ∧
    long (.vfrsq c p r w d a) (fun l e => fRsqrt (fpFmt w) r (x l e)) ∧
    long (.vfexp2 c p r w d a) (fun l e => fExp2 (fpFmt w) r (x l e)) ∧
    long (.vflog2 c p r w d a) (fun l e => fLog2 (fpFmt w) r (x l e))) ∧
  (∀ (w rm : BitVec 2) (neg : Bool) (m : Nat) (e : Int), m ≠ 0 →
    RoundedTo (fpFmt w) rm neg (fun a b => dyLt a b m e) (fun a b => dyLt m e a b) (roundMag (fpFmt w) rm neg m e false)) ∧
  (∀ (w rm : BitVec 2) (a b : Nat) (n1 n2 : Bool) (m1 m2 : Nat) (e1 e2 : Int), let f := fpFmt w
    FVal.ofBits f a = .fin n1 m1 e1 → m1 ≠ 0 →
    (FVal.ofBits f b = .fin n2 m2 e2 → m2 ≠ 0 →
      RoundedTo f rm (n1 != n2) (fun m e => dyLt (m * m2) (e + e2) m1 e1) (fun m e => dyLt m1 e1 (m * m2) (e + e2)) (fDiv f rm a b)) ∧
    RoundedTo f rm n1 (fun m e => dyLt (m * m1) (e + e1) 1 0) (fun m e => dyLt 1 0 (m * m1) (e + e1)) (fRcp f rm a) ∧
    (n1 = false →
      RoundedTo f rm false (fun m e => dyLt (m * m) (2 * e) m1 e1) (fun m e => dyLt m1 e1 (m * m) (2 * e)) (fSqrt f rm a) ∧
      RoundedTo f rm false (fun m e => dyLt (m * m * m1) (2 * e + e1) 1 0) (fun m e => dyLt 1 0 (m * m * m1) (2 * e + e1)) (fRsqrt f rm a) ∧
      ∀ p : Int, (∃ k : Nat, (m1 = 2 ^ k ∧ p = k + e1)) → fLog2 f rm a = if p = 0 then ⟨0, 0⟩ else roundMag f rm (decide (p < 0)) p.natAbs 0 false) ∧
    (∀ v : Nat, (v : Int) < 2 ^ 14 → m1 * 2 ^ e1.toNat = v * 2 ^ (-e1).toNat → fExp2 f rm a = roundMag f rm false 1 (if n1 then -(v : Int) else v) false) ∧
    (∀ k : Int, fScale f rm a k = roundMag f rm n1 m1 (e1 + k) false) ∧
    (∃ m e, FVal.ofBits f (fRint f rm a).bits = .fin n1 m e ∧
      let k := min (min e e1) 0
      let x := m1 * 2 ^ (e1 - k).toNat
      let y := m * 2 ^ (e - k).toNat
      let one := 2 ^ (-k).toNat
      y % one = 0 ∧ (fRint f rm a).flags = (if y = x then 0 else flNX) ∧ (Truncates rm n1 → y ≤ x ∧ x < y + one) ∧
      (rm ≠ 0 → ¬ Truncates rm n1 → x ≤ y ∧ y < x + one) ∧
      (rm = 0 → 2 * x ≤ 2 * y + one ∧ 2 * y ≤ 2 * x + one ∧ (2 * x = 2 * y + one ∨ 2 * y = 2 * x + one → y / one % 2 = 0)))) ∧
  (∀ (w rm : BitVec 2) (a : Nat), let f := fpFmt w
    let ex := a / 2 ^ f.fb % 2 ^ f.eb
    let fr := a % 2 ^ f.fb
    let neg := a / 2 ^ (f.eb + f.fb) % 2 = 1
    let cls := fun (n : Nat) => fClass f a = ⟨2 ^ n, 0⟩
    (ex = 2 ^ f.eb - 1 → (fr = 0 → if neg then cls 0 else cls 7) ∧ (fr ≠ 0 → if 2 ^ (f.fb - 1) ≤ fr then cls 9 else cls 8)) ∧
    (ex = 0 → (fr = 0 → if neg then cls 3 else cls 4) ∧ (fr ≠ 0 → if neg then cls 2 else cls 5)) ∧
    (ex ≠ 0 → ex ≠ 2 ^ f.eb - 1 → if neg then cls 1 else cls 6) ∧
    (∀ n, FVal.ofBits f a = .inf n → (∀ k, fScale f rm a k = ⟨f.inf n, 0⟩) ∧ fRint f rm a = ⟨a, 0⟩ ∧ fRcp f rm a = ⟨f.zero n, 0⟩ ∧
      fExp2 f rm a = (if n then ⟨0, 0⟩ else ⟨f.inf false, 0⟩) ∧
      (let bad : FRes := ⟨f.nan, flNV⟩
       fSqrt f rm a = (if n then bad else ⟨f.inf false, 0⟩) ∧ fRsqrt f rm a = (if n then bad else ⟨0, 0⟩) ∧ fLog2 f rm a = if n then bad else ⟨f.inf false, 0⟩)) ∧
    (∀ n e, FVal.ofBits f a = .fin n 0 e → (∀ k, fScale f rm a k = ⟨a, 0⟩) ∧ fRint f rm a = ⟨a, 0⟩ ∧ fRcp f rm a = ⟨f.inf n, flDZ⟩ ∧
      fRsqrt f rm a = ⟨f.inf n, flDZ⟩ ∧ fSqrt f rm a = ⟨f.zero n, 0⟩ ∧ fExp2 f rm a = roundMag f rm false 1 0 false)) ∧
  (∀ (w rm : BitVec 2) (a b c : Nat) (n1 n2 n3 : Bool) (m1 m2 m3 : Nat) (e1 e2 e3 : Int), let f := fpFmt w
    FVal.ofBits f a = .fin n1 m1 e1 → FVal.ofBits f b = .fin n2 m2 e2 → FVal.ofBits f c = .fin n3 m3 e3 →
    let at' := fun (k : Int) (n : Bool) (m : Nat) (e : Int) => (if n then -1 else 1) * ((m * 2 ^ (e - k).toNat : Nat) : Int)
    let rounds := fun (r : FRes) (z k : Int) => z ≠ 0 → r = roundMag f rm (decide (z < 0)) z.natAbs k false
    let sum := fun (n m : Bool) => at' (min e1 e2) n m1 e1 + at' (min e1 e2) m m2 e2
    let dot := fun (n m : Bool) => at' (min (e1 + e2) e3) n (m1 * m2) (e1 + e2) + at' (min (e1 + e2) e3) m m3 e3
    rounds (fAdd f rm a b) (sum n1 n2) (min e1 e2) ∧ rounds (fSub f rm a b) (sum n1 !n2) (min e1 e2) ∧
    rounds (fMul f rm a b) (at' (e1 + e2) (n1 != n2) (m1 * m2) (e1 + e2)) (e1 + e2) ∧
    ∀ p q, rounds (fFma f rm p q a b c) (dot ((n1 != n2) != p) (n3 != q)) (min (e1 + e2) e3))

/-- VFCMP and VCVT (R193 to R197): VFCMP writes every bit of the K register, set in the lanes that take part and meet the condition,
with the flags of those lanes; VCVT writes the converted value of one element per taking-part lane, in the bits of its position where
the destination type is narrow.
The values that R68 to R73 name, in the four formats of R67 and every rounding mode: an operation on a NaN gives the canonical NaN;
0 × ∞, ∞ − ∞, 0 / 0 and the square root of a negative number give it with NV; a finite non-zero number divided by zero gives an infinity
with DZ; minimum and maximum give the other operand when one is a NaN. -/
def Obligations.FloatConversionsAndSpecialValues : Prop :=
  (∀ (cond : FCond) (sat : Bool) (dt st : BitVec 4) (pos : BitVec 3) (c : Ctl) (p : Pred) (r w : BitVec 2) (k : KR) (d a b : VR) (sb : SR)
    (s : State) (f : Focus) (g : Gang) (sp : Split),
    (Issues (.vfcmp c p cond w k a b) c s f g sp → ∃ (m : W32) (ws : List Wr),
      exec (.vfcmp c p cond w k a b) s = .next (s.afterFixed f g (latFmt g w) c (.kreg k m :: ws)) ∧
      (∀ l < 32, m.getLsbD l = ((takes g sp p).getLsbD l && (fCmp (fpFmt w) cond (g.felem w a l 0) (g.felem w b l 0)).1)) ∧
      ws = flagsOf ((lanesOf (takes g sp p)).map fun l => ⟨0, (fCmp (fpFmt w) cond (g.felem w a l 0) (g.felem w b l 0)).2⟩)) ∧
    (Issues (.vcvt c p sat dt st r pos d a sb) c s f g sp →
      let n := (NType.ofCode dt).width
      let v := fun (l : Nat) => convert (NType.ofCode st) (NType.ofCode dt) r sat ((g.sr sb).extractLsb' 0 16).toNat ((g.sr sb).extractLsb' 16 8).toInt
        (cvtElem st pos (g.lane64 (cvtWide st) a l))
      exec (.vcvt c p sat dt st r pos d a sb) s = .next (s.afterFixed f g (if cvtWide dt || cvtWide st then latF64 g else latVfp g) c
        ((if cvtWide dt then vWrites true d (takes g sp p) (fun l => (v l).bits)
          else if takes g sp p = 0 then []
          else [.vreg d (takes g sp p) (cvtBits dt pos) (mkV fun l => BitVec.ofNat 32 ((v l).bits * 2 ^ (if n ≤ 16 then n * pos.toNat else 0)))]) ++
          flagsOf ((lanesOf (takes g sp p)).map v))))) ∧
  (∀ (w r : BitVec 2) (x y z : Nat),
    let f := fpFmt w
    let nan := fun (v : Nat) => (FVal.ofBits f v).isNan = true
    ((nan x ∨ nan y) → (fAdd f r x y).bits = f.nan ∧ (fSub f r x y).bits = f.nan ∧ (fMul f r x y).bits = f.nan ∧ (fDiv f r x y).bits = f.nan) ∧
    ((nan x ∨ nan y ∨ nan z) → ∀ n1 n2, (fFma f r n1 n2 x y z).bits = f.nan) ∧
    (nan x → (fSqrt f r x).bits = f.nan ∧ (fRcp f r x).bits = f.nan ∧ (fRsqrt f r x).bits = f.nan ∧ (fExp2 f r x).bits = f.nan ∧
      (fLog2 f r x).bits = f.nan ∧ (fRint f r x).bits = f.nan ∧ (fAbs f x).bits = f.nan ∧ (fNeg f x).bits = f.nan) ∧
    (nan x → ¬ nan y → ∀ m, (fMinMax f m x y).bits = y ∧ (fMinMax f m y x).bits = y) ∧
    (nan x → nan y → ∀ m, (fMinMax f m x y).bits = f.nan) ∧
    (∀ n1 n2, (FVal.ofBits f x).isZero = true → FVal.ofBits f y = .inf n1 → FVal.ofBits f z = .inf n2 →
      fMul f r x y = ⟨f.nan, flNV⟩ ∧ fAdd f r y (f.inf (!n1)) = ⟨f.nan, flNV⟩ ∧ fDiv f r x x = ⟨f.nan, flNV⟩ ∧
      (fDiv f r x y).flags = 0 ∧ fAdd f r y z = if n1 = n2 then ⟨f.inf n1, 0⟩ else ⟨f.nan, flNV⟩) ∧
    (∀ n m e, FVal.ofBits f x = .fin n m e → m ≠ 0 → (FVal.ofBits f y).isZero = true →
      ((fDiv f r x y).flags = flDZ ∧ ∃ k, (fDiv f r x y).bits = f.inf k) ∧ (n = true → fSqrt f r x = ⟨f.nan, flNV⟩) ∧
      fLog2 f r y = ⟨f.inf true, flDZ⟩))

/-! ### Lane operations -/

/-- VSHUF, VBCAST, VROT, VMATCH, VREDUCE and VSCAN (R84, R198, R199): a lane receives the source lane that its index, the scalar or the
rotation chooses; the mask of the taking-part lanes with its own value; the tree sum of R84 over the taking-part lanes, written only if
some lane takes part; the prefix of R84 in every lane that takes part, which for addition is the sum of those lanes up to it; the flags of the
floating-point combinations made. What a NaN that meets no other operand becomes is the model's reading (log 71). -/
def Obligations.LaneOperations : Prop :=
  ∀ (c : Ctl) (p : Pred) (r w : BitVec 2) (op : BitVec 3) (n : BitVec 5) (d a b : VR) (sd sb : SR) (s : State) (f : Focus) (g : Gang) (sp : Split),
    let lanes := takes g sp p
    let src := g.lane64 (wide w) a
    (Issues (.vshuf c p w d a b) c s f g sp → exec (.vshuf c p w d a b) s = .next (s.afterFixed f g (latVfp g) c
      (vWrites (wide w) d lanes fun l => src ((lane (g.vr b.toNat) l).toNat % 32)))) ∧
    (Issues (.vbcast c p w d a sb) c s f g sp → exec (.vbcast c p w d a sb) s = .next (s.afterFixed f g (latVfp g) c
      (vWrites (wide w) d lanes fun _ => src ((g.sr sb).toNat % 32)))) ∧
    (Issues (.vrot c p w d a n) c s f g sp → exec (.vrot c p w d a n) s = .next (s.afterFixed f g (latVfp g) c
      (vWrites (wide w) d lanes fun l => src ((l + n.toNat) % 32)))) ∧
    (Issues (.vmatch c p w d a) c s f g sp → ∃ v : Nat → W32,
      exec (.vmatch c p w d a) s = .next (s.afterFixed f g (latVfp g) c (vWrites false d lanes fun l => (v l).toNat)) ∧
      ∀ l < 32, ∀ m < 32, (v l).getLsbD m = (lanes.getLsbD m && src m == src l)) ∧
    (Issues (.vreduce c p r op w sd a) c s f g sp → lanes = 0 → exec (.vreduce c p r op w sd a) s = .next (s.afterFixed f g (latVfp g) c [])) ∧
    (Issues (.vreduce c p r op w sd a) c s f g sp → lanes ≠ 0 → ∃ v : Nat,
      exec (.vreduce c p r op w sd a) s = .next (s.afterFixed f g (latVfp g) c (.sreg sd (BitVec.ofNat 64 v) ::
        fpFlags ((List.range (redCount op w)).flatMap fun e => (tree (redOp r op w) (redLeaf op w a g lanes e) 5 0).2))) ∧
      (let x := onElems (redWidth op w) (redCount op w) fun e => ((tree (redOp r op w) (redLeaf op w a g lanes e) 5 0).1).getD 0
       v = if (op = 1 ∨ op = 2) ∧ w = 0 then ((BitVec.ofNat 32 x).signExtend 64).toNat else x) ∧
      (op = 0 → v = ((lanesOf lanes).map src).sum % 2 ^ vWidth w)) ∧
    (Issues (.vscan c p r op w d a) c s f g sp →
      let pre := fun (e l : Nat) => prefixTree (redOp r op w) (redLeaf op w a g lanes e) l 5 0 (none, [])
      ∃ (v : Nat → Nat) (ws : List Wr),
      exec (.vscan c p r op w d a) s = .next (s.afterFixed f g (latVfp g) c (vWrites (wide w) d lanes v ++ ws)) ∧
      v = (fun l => onElems (redWidth op w) (redCount op w) fun e => (pre e l).1.getD 0) ∧
      ws = fpFlags ((lanesOf lanes).flatMap fun l => (List.range (redCount op w)).flatMap fun e => (pre e l).2) ∧
      (op.toNat < 5 → ws = []) ∧
      (op = 0 → ∀ l < 32, lanes.getLsbD l = true → v l = (((lanesOf lanes).filter (· ≤ l)).map src).sum % 2 ^ vWidth w))

/-! ### Gang control -/

/-- NOP, PAUSE, WAITF, SGET, SETFMT, GETFMT, SETEXEC, GETEXEC and SSET (R225 to R228): no effect; the gang is the youngest for n
cycles, or, with n = 0, nothing; the gang waits until every flag of the mask is at most T; the items of Table 09.7, each with its value (a name as R34, a TASKID as R97,
CLOCK within 4 cycles); FMT, the mask of active lanes (a diverged split at TL0 only turns lanes off) and the gang's status registers.
EXIT outside a region (R15, R225): the gang's only split, or any split at TL1 and TL2, ends the gang, whose slot is then free; a split of a gang with others leaves
the split table, and the gang goes on. -/
def Obligations.GangControlAndExit : Prop :=
  (∀ (c : Ctl) (n : BitVec 18) (mask : BitVec 12) (t : BitVec 6) (v : BitVec 16) (num : BitVec 4) (vd : VR) (d : SR) (k : KR) (s : State)
    (f : Focus) (g : Gang) (sp : Split),
    (Issues (.nop c) c s f g sp → exec (.nop c) s = .next (s.afterFixed f g 1 c [])) ∧
    (Issues (.pause c n) c s f g sp →
      exec (.pause c n) s = .next (if n = 0 then s.afterFixed f g 1 c []
        else (s.afterFixed f g 1 c []).onGang g.uid fun g => { g with pauseTo := s.clock + n.toNat })) ∧
    (Issues (.waitf c mask t) c s f g sp →
      exec (.waitf c mask t) s = .next ((s.afterFixed f g 1 c []).onGang g.uid fun g => { g with wait := some (.waitf mask t.toNat) })) ∧
    (Issues (.sget c num vd) c s f g sp →
      exec (.sget c num vd) s = .next (s.afterFixed f g 2 c
        [if num = 0 then .vreg vd 0xFFFFFFFF 0xFFFFFFFF (mkV fun l => BitVec.ofNat 32 l) else .sreg (vd.setWidth 6) (s.sgetValue g num)])) ∧
    (Issues (.setfmt c v) c s f g sp → exec (.setfmt c v) s = .next (s.afterFixed f g 2 c [.fmt f.sid v])) ∧
    (Issues (.getfmt c d) c s f g sp → exec (.getfmt c d) s = .next (s.afterFixed f g 2 c [.sreg d (sp.fmt.setWidth 64)])) ∧
    (Issues (.setexec c k) c s f g sp →
      exec (.setexec c k) s = .next (s.afterFixed f g 2 c [.exec f.sid (if g.diverged = true ∧ g.tl = 0 then sp.exec &&& g.kr k else g.kr k)])) ∧
    (Issues (.getexec c k) c s f g sp → exec (.getexec c k) s = .next (s.afterFixed f g 2 c [.kreg k sp.exec])) ∧
    (Issues (.sset c num d) c s f g sp →
      (num = 9 → exec (.sset c num d) s = .next (s.afterFixed f g 2 c [.fpSet ((g.sr d).extractLsb' 0 5)])) ∧
      (num = 10 → exec (.sset c num d) s = .next (s.afterFixed f g 2 c [.gsClear ((g.sr d).extractLsb' 0 4)])) ∧
      (num = 11 → exec (.sset c num d) s = .next (s.afterFixed f g 2 c [.trapen ((g.sr d).extractLsb' 0 3)])))) ∧
  (∀ (s : State) (g : Gang), let v := s.sgetValue g
    let name := v 3
    let task := v 4
    v 1 = BitVec.ofNat 64 g.gidx ∧ v 2 = BitVec.ofNat 64 g.ngangs ∧
    (name.extractLsb' 52 12 = BitVec.ofNat 12 s.dev ∧ name.extractLsb' 50 2 = BitVec.ofNat 2 g.loc.die ∧ name.extractLsb' 43 7 = BitVec.ofNat 7 g.loc.core ∧
      name.extractLsb' 37 6 = BitVec.ofNat 6 g.loc.slot ∧ name.extractLsb' 33 4 = BitVec.ofNat 4 (s.ctx g.ctx).ten ∧ name.extractLsb' 17 16 = s.genOf g.loc ∧
      name.extractLsb' 0 17 = 0) ∧
    (task.extractLsb' 0 32 = BitVec.ofNat 32 g.inst ∧ task.extractLsb' 32 16 = BitVec.ofNat 16 g.run ∧ task.extractLsb' 48 16 = 0) ∧
    v 5 = BitVec.ofNat 64 g.loc.core ∧ v 6 = BitVec.ofNat 64 g.loc.die ∧ v 7 = BitVec.ofNat 64 s.dev ∧ (∃ k < 4, v 8 = BitVec.ofNat 64 (s.clock - k)) ∧
    v 9 = g.fpstat.setWidth 64 ∧ v 10 = g.gstat.setWidth 64 ∧ v 11 = g.trapen.setWidth 64 ∧ v 12 = (s.genOf g.loc).setWidth 64) ∧
  (∀ (c : Ctl) (s : State) (f : Focus) (g : Gang) (sp : Split), Issues (.exit c) c s f g sp → g.region = none →
    ((g.table = [sp] ∨ g.tl > 0) → ∃ t, exec (.exit c) s = .next t ∧ t.gang? g.uid = none) ∧
    (g.tl = 0 → (g.table.map (·.sid)).Nodup → endEntry 65 g.table (splitIdx g.table f.sid) ≠ [] → ∃ t g', exec (.exit c) s = .next t ∧
      t.gang? g.uid = some g' ∧ g'.table = endEntry 65 g.table (splitIdx g.table f.sid) ∧ g'.exited = true ∧
      g'.s = g.s ∧ g'.k = g.k ∧ g'.v = g.v ∧ s.onlyGangs t))

/-- TRAP and BRK (R225, R317): the cause stands to be taken, with CODE as encoded and TIP at the instruction; TRET will hold the
successor of a TRAP and the BRK itself. The flag of the control field rises (R160). That it falls again one cycle later is the model's reading
(log 46), since Table 09.6 gives these two no latency. -/
def Obligations.SoftwareTraps : Prop :=
  ∀ (c : Ctl) (code : BitVec 16) (s : State) (f : Focus) (g : Gang) (sp : Split),
    (Issues (.trap c code) c s f g sp →
      exec (.trap c code) s = .next (s.afterSoftTrap f g c (trapReq f causeTRAPI 0 code 0 (succPc f.pc) 0))) ∧
    (Issues (.brk c code) c s f g sp → exec (.brk c code) s = .next (s.afterSoftTrap f g c (trapReq f causeBRK 0 code 0 f.pc 0)))

/-! ### Branches -/

/-- BRA, JMP, CALL and RET (R150, R217, R218): a branch not taken goes on at the successor; a taken transfer, direct or through an S register,
puts the split at its target, and CALL writes the successor to S63; nothing else changes. A target that is no instruction address kills
the gang, with IBT in CTXERR, for BRA, JMP, CALL and RET of every form, and for either address of a BRX, taken or not.
BRX (R13, R219): with no active lane the split goes to the reconvergence PC; with all lanes taken it branches; with none it goes
on; else a join of two children takes its place in the split table, the taken lanes at the target and the others at the successor (past
the instruction that issues with it, R156), and the two masks divide the split's lanes; at depth 64 the cause SPLITOVF stands to be taken. Where a BRX
is the first of a pair the children's place is the model's reading (log 39). -/
def Obligations.Branches : Prop :=
  (∀ (c : Ctl) (mode : BitVec 2) (k : KR) (b : BTgt) (a : SR) (s : State) (f : Focus) (g : Gang) (sp : Split),
    let x := target f.pc b
    let away := ∀ r, g.region = some r → x ≠ r.head
    let y := g.kr k &&& sp.exec
    let taken := (mode = 0 ∧ y ≠ 0) ∨ (mode = 1 ∧ y = sp.exec) ∨ (mode = 2 ∧ y = 0) ∨ mode = 3
    (Issues (.bra c mode k b) c s f g sp → ¬ taken → exec (.bra c mode k b) s = .next (s.afterFixed f g 1 c [])) ∧
    (Issues (.bra c mode k b) c s f g sp → taken → away → instrAddr x → exec (.bra c mode k b) s = .next (s.afterJump f g 1 c [] x)) ∧
    (Issues (.jmp c (.direct b)) c s f g sp → away → instrAddr x → exec (.jmp c (.direct b)) s = .next (s.afterJump f g 1 c [] x)) ∧
    (Issues (.jmp c (.indirect a)) c s f g sp → instrAddr (g.sr a) → exec (.jmp c (.indirect a)) s = .next (s.afterJump f g 1 c [] (g.sr a))) ∧
    (Issues (.call c (.direct b)) c s f g sp → instrAddr x →
      exec (.call c (.direct b)) s = .next (s.afterJump f g 2 c [.sreg 63 (succPc f.pc)] x)) ∧
    (Issues (.call c (.indirect a)) c s f g sp → instrAddr (g.sr a) →
      exec (.call c (.indirect a)) s = .next (s.afterJump f g 2 c [.sreg 63 (succPc f.pc)] (g.sr a))) ∧
    (Issues (.ret c a) c s f g sp → instrAddr (g.sr a) → exec (.ret c a) s = .next (s.afterJump f g 1 c [] (g.sr a))) ∧
    (g.ctx ∈ s.ctxs.map (·.num) →
      let dies := fun (i : Instr) => ∃ t, exec i s = .next t ∧ t.gang? g.uid = none ∧ (t.ctx g.ctx).err = (s.ctx g.ctx).err ||| 4
      (Issues (.bra c mode k b) c s f g sp → taken → away → ¬ instrAddr x → dies (.bra c mode k b)) ∧
      (Issues (.jmp c (.direct b)) c s f g sp → away → ¬ instrAddr x → dies (.jmp c (.direct b))) ∧
      (Issues (.jmp c (.indirect a)) c s f g sp → ¬ instrAddr (g.sr a) → dies (.jmp c (.indirect a))) ∧
      (Issues (.call c (.direct b)) c s f g sp → ¬ instrAddr x → dies (.call c (.direct b))) ∧
      (Issues (.call c (.indirect a)) c s f g sp → ¬ instrAddr (g.sr a) → dies (.call c (.indirect a))) ∧
      (Issues (.ret c a) c s f g sp → ¬ instrAddr (g.sr a) → dies (.ret c a)))) ∧
  (∀ (c : Ctl) (clear : Bool) (k : KR) (b r : BTgt) (s : State) (f : Focus) (g : Gang) (sp : Split),
    let i := Instr.brx c clear k b r
    let tgt := target f.pc b
    let rpc := target f.pc r
    let on := sp.exec &&& (if clear then ~~~(g.kr k) else g.kr k)
    let off := sp.exec &&& ~~~on
    Issues i c s f g sp →
    (g.ctx ∈ s.ctxs.map (·.num) → ¬ (instrAddr tgt ∧ instrAddr rpc) → ∃ t, exec i s = .next t ∧ t.gang? g.uid = none ∧
      (t.ctx g.ctx).err = (s.ctx g.ctx).err ||| 4) ∧
    (instrAddr tgt → instrAddr rpc →
    (sp.exec = 0 → exec i s = .next (s.afterJump f g 1 c [] rpc)) ∧
    (sp.exec ≠ 0 → on = sp.exec → exec i s = .next (s.afterJump f g 1 c [] tgt)) ∧
    (sp.exec ≠ 0 → on = 0 → exec i s = .next (s.afterFixed f g 1 c [])) ∧
    (on ≠ 0 → on ≠ sp.exec → sp.depth.toNat ≥ 64 → exec i s = .next (s.afterTrap f g c (trapReq f causeSPLITOVF 0 0 0 f.pc 0))) ∧
    (on ≠ 0 → on ≠ sp.exec → sp.depth.toNat < 64 → ∃ t g' j x y, exec i s = .next t ∧ t.gang? g.uid = some g' ∧
      (g.fastFree ≥ 2 ∨ g.spill = true → s.onlyGangs t) ∧ g'.table = g.table.flatMap (fun e => if e.sid = f.sid then [j, x, y] else [e]) ∧
      j.kind = .join ∧ j.pc = rpc ∧ j.exec = 2 ∧ j.depth = sp.depth ∧ j.rpc = sp.rpc ∧
      x.kind = sp.kind ∧ x.sid = f.sid ∧ x.pc = tgt ∧ x.exec = on ∧ x.rpc = rpc ∧ x.depth = sp.depth + 1 ∧ x.fmt = sp.fmt ∧
      y.pc = (if f.first then succPc (f.pc + 12) else succPc f.pc) ∧ y.exec = off ∧ y.rpc = rpc ∧ y.depth = sp.depth + 1 ∧ y.fmt = sp.fmt ∧
      (g.fastFree ≥ 2 → y.kind = .live) ∧ (g.fastFree < 2 → y.kind = .deferred) ∧
      x.chk = 1 ∧ y.chk = (if y.pc = rpc then 1 else 0) ∧ g'.s = g.s ∧ g'.k = g.k ∧ g'.v = g.v)))

/-! ### Regions -/

/-- REGION, RCOMMIT and RABORT (R24, R25, R28 to R30, R222): the head opens a region with its register set copied to the OPB and the S
registers, K registers, active lanes and FMT saved; the commit of a region without buffered items writes the set back from the OPB and
closes it; the abort closes it, with the saved registers back and the split at the head again. Whatever is buffered, a commit writes the set back, and
then the region has closed or the gang waits for its release; a taken branch to the head (R29) is a commit that leaves the split at the head, and EXIT one that
ends the split. -/
def Obligations.Regions : Prop :=
  ∀ (c : Ctl) (vb : VR) (a : SR) (s : State) (f : Focus) (g : Gang) (sp : Split),
    (Issues (.region c vb a) c s f g sp → ∃ t g' r, exec (.region c vb a) s = .next t ∧ t.gang? g.uid = some g' ∧ s.onlyGangs t ∧
      g'.region = some r ∧ r.head = f.pc ∧ r.vb = vb ∧ r.mask = g.sr a ∧ r.snapS = g.s ∧ r.snapK = g.k ∧ r.snapE = sp.exec ∧ r.snapF = sp.fmt ∧
      r.buf = [] ∧ r.count = 0 ∧ r.stage = .opened ∧ g'.s = g.s ∧ g'.k = g.k ∧ g'.v = g.v ∧ ∀ n, g'.vr n = g.mainV n) ∧
    (∀ r, g.region = some r → r.buf = [] → (s.core g.loc.die g.loc.core).arbQ.all (·.op != s.nextId) → (s.core g.loc.die g.loc.core).grant.all (·.op != s.nextId) →
      Issues (.rcommit c) c s f g sp → ∃ t g', exec (.rcommit c) s = .next t ∧
      t.gang? g.uid = some g' ∧ g'.region = none ∧ g'.wait = none ∧ g'.s = g.s ∧ g'.k = g.k ∧ g'.fpstat = g.fpstat ∧
      g'.v = r.opb.foldl (fun v x => insertAt v x.1 x.2) g.v ∧ t.mem = s.mem ∧ t.items = s.items) ∧
    (∀ r, g.region = some r → Issues (.rabort c) c s f g sp → ∃ t g', exec (.rabort c) s = .next t ∧ t.gang? g.uid = some g' ∧ s.onlyGangs t ∧
      g'.region = none ∧ g'.s = r.snapS ∧ g'.k = r.snapK ∧ g'.v = g.v ∧
      g'.table = g.table.map (fun x => if x.sid = f.sid then { x with exec := r.snapE, fmt := r.snapF, pc := r.head, latch := none, chk := 1 } else x)) ∧
    (∀ r, g.region = some r →
      let kept := fun (g' : Gang) => g'.s = g.s ∧ g'.k = g.k ∧ g'.v = r.opb.foldl (fun v x => insertAt v x.1 x.2) g.v
      let waits := fun (g' : Gang) (w : AfterRegion) => ∃ r', g'.region = some r' ∧ r'.stage = .step3 ∧ r'.after = w ∧ r'.op = s.nextId ∧
        g'.wait = some (.op s.nextId)
      let commits := fun (i : Instr) => ∃ t g', exec i s = .next t ∧ t.gang? g.uid = some g' ∧ kept g' ∧
        ((g'.region = none ∧ g'.wait = none) ∨ waits g' .head) ∧
        g'.table = g.table.map (fun x => if x.sid = f.sid then { x with pc := r.head, latch := none, chk := 1 } else x)
      (Issues (.rcommit c) c s f g sp → ∃ t g', exec (.rcommit c) s = .next t ∧ t.gang? g.uid = some g' ∧ kept g' ∧
        ((g'.region = none ∧ g'.wait = none) ∨ waits g' .succ)) ∧
      (∀ m k b, Issues (.bra c m k b) c s f g sp → target f.pc b = r.head →
        ((m = 0 ∧ g.kr k &&& sp.exec ≠ 0) ∨ (m = 1 ∧ g.kr k &&& sp.exec = sp.exec) ∨ (m = 2 ∧ g.kr k &&& sp.exec = 0) ∨ m = 3) → commits (.bra c m k b)) ∧
      (∀ b, Issues (.jmp c (.direct b)) c s f g sp → target f.pc b = r.head → commits (.jmp c (.direct b))) ∧
      (Issues (.exit c) c s f g sp → r.buf = [] → (s.core g.loc.die g.loc.core).arbQ.all (·.op != s.nextId) →
        (s.core g.loc.die g.loc.core).grant.all (·.op != s.nextId) → (∀ o ∈ s.ops, o.id ≠ s.nextId) → g.table = [sp] →
        ∃ t, exec (.exit c) s = .next t ∧ t.gang? g.uid = none) ∧
      (Issues (.exit c) c s f g sp → r.buf ≠ [] → ∃ t, exec (.exit c) s = .next t ∧
        (t.gang? g.uid = none ∨ ∃ g', t.gang? g.uid = some g' ∧ kept g' ∧ (g'.region = none ∨ waits g' .exit))))

/-! ### Cohorts -/

/-- JOIN and LEAVE (R21, R22, R223): a gang of a cohort gets status 2; a cohort of another context gives status 1; else the gang is a member, of a new
cohort if there was none, and status 0 falls to S[DST]; LEAVE ends the membership, and the last leaver dissolves the cohort. -/
def Obligations.CohortMembership : Prop :=
  ∀ (c : Ctl) (d : SR) (n : BitVec 4) (s : State) (f : Focus) (g : Gang) (sp : Split),
    let k := s.cohort? g.loc.die g.loc.core n.toNat
    let i := Instr.join c d n
    (Issues i c s f g sp → g.cohort ≠ none → exec i s = .next (s.afterAccept f g c (.calc [.sreg d 2]))) ∧
    (Issues i c s f g sp → g.cohort = none → (∃ x, k = some x ∧ x.ctx ≠ g.ctx) → exec i s = .next (s.afterAccept f g c (.calc [.sreg d 1]))) ∧
    (Issues i c s f g sp → g.cohort = none → (∀ x, k = some x → x.ctx = g.ctx) → ∃ t g' x o, exec i s = .next t ∧ t.gang? g.uid = some g' ∧
      g'.cohort = some n.toNat ∧ g'.s = g.s ∧ t.mem = s.mem ∧
      t.cohort? g.loc.die g.loc.core n.toNat = some x ∧ x.ctx = g.ctx ∧ x.members = (k.map (·.members)).getD [] ++ [g.uid] ∧
      t.ops = s.ops ++ [o] ∧ o.kind = .calc [.sreg d 0] ∧ o.uid = g.uid) ∧
    (Issues (.leave c) c s f g sp → g.cohort = none → exec (.leave c) s = .next (s.afterFixed f g 1 c [])) ∧
    (Issues (.leave c) c s f g sp → ∀ m, g.cohort = some m → ∃ t g', exec (.leave c) s = .next t ∧ t.gang? g.uid = some g' ∧
      g'.cohort = none ∧ g'.s = g.s ∧ t.mem = s.mem ∧
      ((s.cohort? g.loc.die g.loc.core m).map (·.members) = some [g.uid] → t.cohort? g.loc.die g.loc.core m = none))

/-- BAR, BARA and BARW (R22, R224): outside a cohort none has an effect; in one, BAR and BARA of a gang that has not arrived in the present phase
make it arrive, with an operation that the end of the phase completes, and BARW of a gang that has arrived waits for that phase; after
BAR and BARW the gang waits. BARW of a gang that has not arrived goes on at once. BAR and BARA of a gang that has arrived arrive no second time in the
phase: the gang waits for its end, and the operation is one of the next phase, in which it then arrives. -/
def Obligations.Barriers : Prop :=
  ∀ (c : Ctl) (s : State) (f : Focus) (g : Gang) (sp : Split),
    let noTie := fun (n : Nat) => s.waitingClaims g.loc.die g.loc.core = [] ∧ s.waitingQuotas g.loc.die g.loc.core n = []
    (g.cohort = none → (Issues (.bar c) c s f g sp → exec (.bar c) s = .next (s.afterFixed f g 1 c [])) ∧
      (Issues (.bara c) c s f g sp → exec (.bara c) s = .next (s.afterFixed f g 1 c [])) ∧
      (Issues (.barw c) c s f g sp → exec (.barw c) s = .next (s.afterFixed f g 1 c []))) ∧
    (∀ n k, g.cohort = some n → s.cohort? g.loc.die g.loc.core n = some k →
      (Issues (.bara c) c s f g sp → g.uid ∉ k.arrived → ∃ t g' k' o, exec (.bara c) s = .next t ∧ t.gang? g.uid = some g' ∧ (f.second = false → g'.wait = none) ∧
        g'.lastArr = some k.phase ∧ t.cohort? g.loc.die g.loc.core n = some k' ∧ k'.arrived = k.arrived ++ [g.uid] ∧ k'.phase = k.phase ∧
        t.ops = s.ops ++ [o] ∧ o.kind = .bar k.phase g.loc.core g.loc.die n ∧ t.mem = s.mem) ∧
      (Issues (.bar c) c s f g sp → g.uid ∉ k.arrived → ∃ t g' k', exec (.bar c) s = .next t ∧ t.gang? g.uid = some g' ∧ g'.lastArr = some k.phase ∧
        t.cohort? g.loc.die g.loc.core n = some k' ∧ k'.arrived = k.arrived ++ [g.uid] ∧ k'.phase = k.phase ∧ t.mem = s.mem ∧
        (noTie n → g'.wait = some (.op s.nextId) ∧ ∃ o ∈ t.ops, o.id = s.nextId ∧ o.kind = .bar k.phase g.loc.core g.loc.die n)) ∧
      (Issues (.barw c) c s f g sp → g.uid ∈ k.arrived → g.lastArr = some k.phase → noTie n → ∃ t g', exec (.barw c) s = .next t ∧
        t.gang? g.uid = some g' ∧ g'.wait = some (.op s.nextId) ∧ t.mem = s.mem) ∧
      (Issues (.barw c) c s f g sp → g.uid ∉ k.arrived → exec (.barw c) s = .next (s.afterFixed f g 1 c [])) ∧
      (∀ waits : Bool, let i := if waits then Instr.bar c else Instr.bara c
        Issues i c s f g sp → g.uid ∈ k.arrived → noTie n → ∃ t g' o, exec i s = .next t ∧ t.gang? g.uid = some g' ∧
          g'.wait = some (.bar k.phase waits) ∧ g'.lastArr = g.lastArr ∧ t.cohort? g.loc.die g.loc.core n = some k ∧ t.ops = s.ops ++ [o] ∧
          o.uid = g.uid ∧ o.kind = .bar (k.phase + 1) g.loc.core g.loc.die n ∧ t.mem = s.mem))

/-- RQUOTA (R49, R224): the present allocation gives status 0; a smaller one frees the top blocks to the cohort's pool with status 0; a larger one is
status 2 outside a cohort, and status 0 with the blocks taken from a pool that has them; else the gang waits, or, where every other member waits
at REGROUP and no other RQUOTA waits, the instruction completes with status 1 (R50). -/
def Obligations.RegisterQuota : Prop :=
  ∀ (c : Ctl) (d : SR) (n : BitVec 18) (s : State) (f : Focus) (g : Gang) (sp : Split), Issues (.rquota c d n) c s f g sp →
    let i := Instr.rquota c d n
    let want := n.toNat / 32
    let pool := fun (t : State) (m : Nat) => ((t.cohort? g.loc.die g.loc.core m).map (·.pool)).getD 0
    let done := fun (t : State) (g' : Gang) => exec i s = .next t ∧ t.gang? g.uid = some g' ∧ g'.vblocks = want ∧ g'.s = g.s ∧ t.mem = s.mem ∧
      (∃ o, t.ops = s.ops ++ [o] ∧ o.kind = .calc [.sreg d 0]) ∧ ∀ r < 32 * min want g.vblocks, g'.mainV r = g.mainV r
    (want = g.vblocks → exec i s = .next (s.afterAccept f g c (.calc [.sreg d 0]))) ∧
    (want < g.vblocks → g.cohort = none → g.vblocks ≤ g.vseeds.length → ∃ t g', done t g') ∧
    (want < g.vblocks → g.vblocks ≤ g.vseeds.length → ∀ m, g.cohort = some m → (s.cohort? g.loc.die g.loc.core m).isSome = true →
      ∃ t g', done t g' ∧ pool t m = pool s m + (g.vblocks - want)) ∧
    (want > g.vblocks → g.cohort = none → exec i s = .next (s.afterAccept f g c (.calc [.sreg d 2]))) ∧
    (want > g.vblocks → g.vblocks ≤ g.vseeds.length → ∀ m, g.cohort = some m → pool s m ≥ want - g.vblocks →
      ∃ t g', done t g' ∧ pool t m = pool s m - (want - g.vblocks)) ∧
    (want > g.vblocks → ∀ m, g.cohort = some m → pool s m < want - g.vblocks → s.waitingClaims g.loc.die g.loc.core = [] →
      s.waitingQuotas g.loc.die g.loc.core m = [] → (∃ k u g', s.cohort? g.loc.die g.loc.core m = some k ∧ u ∈ k.members ∧ u ≠ g.uid ∧
        s.gang? u = some g' ∧ g'.wait = none) →
      ∃ t g', exec i s = .next t ∧ t.gang? g.uid = some g' ∧ g'.wait = some (.rquota s.nextId) ∧ g'.vblocks = g.vblocks ∧ t.mem = s.mem) ∧
    (want > g.vblocks → ∀ m k, g.cohort = some m → s.cohort? g.loc.die g.loc.core m = some k → k.pool < want - g.vblocks →
      s.waitingClaims g.loc.die g.loc.core = [] → s.waitingQuotas g.loc.die g.loc.core m = [] → (∀ o ∈ s.ops, o.id < s.nextId) →
      (∀ u ∈ k.members, u ≠ g.uid → ∀ x, s.gang? u = some x → x.wait = some .regroup) →
      ∃ t g' o, exec i s = .next t ∧ t.gang? g.uid = some g' ∧ g'.wait = none ∧ g'.vblocks = g.vblocks ∧ g'.s = g.s ∧ t.ops = s.ops ++ [o] ∧ o.uid = g.uid ∧
        o.kind = .calc [.sreg d 1] ∧ t.cohort? g.loc.die g.loc.core m = some k ∧ t.mem = s.mem)

/-! ### Illegal uses -/

/-- What the issuing state makes illegal (R10, R24, R31, R166, R167, R215, R220, R278, R314): an ill-formed instruction, a V register at or above the gang's allocation; at
TL1 and TL2 BRX, REGION, the COH group, REGROUP, HOLD, TSPAWN, the MTX group but MSTATE, QBIND and QPUSH; in a region BRX, CALL, RET,
an indirect JMP, and a BRA or direct JMP back to another place than the head, taken or not, the COH group, REGROUP, HOLD, the atomics, LDACQ and STREL, the STASH forms,
QBIND, QPUSH, QPOP and QTRY, the GRD group, the MTX group but MACCRD and MSTATE, REGION, COLL.GET, RSTV with a status, CONFX with EMIT, a COLL of another communicator than an
earlier one's, and a V register outside the set; outside a region RCOMMIT and RABORT; REGION of a diverged gang, or with more than 32 registers in its mask,
or with one at or above the allocation. The gang ends, with ILL in CTXERR; of a gang of no cohort, every other gang continues. -/
def Obligations.IllegalUses : Prop :=
  ∀ (c : Ctl) (i : Instr) (s : State) (f : Focus) (g : Gang) (sp : Split), i.ctl? = some c →
    s.focus = some f → s.gang? f.uid = some g → g.split? f.sid = some sp → g.status = .active → g.trap = none → g.unwaiting = true →
    g.ready s.clock c = true → g.fabTrap c = false → g.ctx ∈ s.ctxs.map (·.num) →
    let dies := ∃ t, exec i s = .next t ∧ t.gang? g.uid = none ∧ (t.ctx g.ctx).err = (s.ctx g.ctx).err ||| 2 ∧
      (g.cohort = none → ∀ u, u ≠ g.uid → (s.gang? u).isSome = true → (t.gang? u).isSome = true)
    let barred : Instr → Prop := fun i => match i with
      | .brx _ _ _ _ _ | .region _ _ _ | .join _ _ _ | .leave _ | .bar _ | .bara _ | .barw _ | .rquota _ _ _ | .regroup _ _ _ _ _ _ | .hold _ _ _ _ _
      | .tspawn _ _ _ _ _ _ _ | .mclaim _ _ _ | .mtry _ _ _ | .mrel _ _ | .mload _ _ _ _ _ | .mzero _ _ | .mmac _ _ | .mloop _ _ _
      | .maccrd _ _ _ _ _ _ | .maccwr _ _ _ _ _ _ | .mstore _ _ _ _ _ _ _ _ | .mdrain _ _ _ _ _ _ | .qbind _ _ _ _ | .qpush _ _ _ _ _ => True
      | _ => False
    let unfit : Instr → Prop := fun i => match i with
      | .region _ _ _ | .join _ _ _ | .leave _ | .bar _ | .bara _ | .barw _ | .rquota _ _ _ | .regroup _ _ _ _ _ _ | .hold _ _ _ _ _ | .vatom _ _ _ _ _ _
      | .satom _ _ _ _ _ | .ldacq _ _ _ _ _ | .strel _ _ _ _ | .stashMap _ _ _ _ _ | .stashUnmap _ _ _ | .stashFlush _ _ _ | .stashInval _ _ _
      | .qbind _ _ _ _ | .qpush _ _ _ _ _ | .qpop _ _ _ | .qtry _ _ _ | .gnew _ _ _ _ | .gfree _ _ _ | .gpub _ _ _ _ _ _ | .gprom _ _ _ _ _ | .gqry _ _ _
      | .tspawn _ _ _ _ _ _ _ | .mclaim _ _ _ | .mtry _ _ _ | .mrel _ _ | .mload _ _ _ _ _ | .mzero _ _ | .mmac _ _ | .mloop _ _ _
      | .maccwr _ _ _ _ _ _ | .mstore _ _ _ _ _ _ _ _ | .mdrain _ _ _ _ _ _ | .collGet _ _ _ _ _ _ _ _ => True
      | .rstv _ _ _ sts _ _ _ _ _ => sts = true
      | .confx _ _ emit _ _ _ _ _ => emit = true
      | _ => False
    let names : Instr → SR → Prop := fun i x => match i with
      | .collPut _ _ _ a _ _ _ _ | .collRaddF32 _ _ _ a _ _ _ _ | .collRaddBf16 _ _ _ a _ _ _ _ | .collRmaxF32 _ _ _ a _ _ _ _
      | .collRaddI32 _ _ _ a _ _ _ _ => x = a
      | _ => False
    (i.wf = false → dies) ∧ (∀ n ∈ vregs i, 32 * g.vblocks ≤ n → dies) ∧ (0 < g.tl → barred i → dies) ∧
    (∀ r, g.region = some r →
      ((∃ cl m k t, i = .brx c cl m k t) ∨ (∃ t, i = .call c t) ∨ (∃ a, i = .ret c a) ∨ (∃ a, i = .jmp c (.indirect a)) ∨
        (∃ t, ((∃ m k, i = .bra c m k t) ∨ i = .jmp c (.direct t)) ∧ (target f.pc t).toNat ≤ f.pc.toNat ∧ target f.pc t ≠ r.head) ∨ unfit i ∨
        (∃ n ∈ vregs i, ¬ (r.vb.toNat ≤ n ∧ n < r.vb.toNat + 64 ∧ r.mask.getLsbD (n - r.vb.toNat) = true)) ∨
        ∃ a m, names i a ∧ r.comm = some m ∧ m ≠ (g.sr a).toNat % 256) → dies) ∧
    (g.region = none → (i = .rcommit c ∨ i = .rabort c) → dies) ∧
    ∀ vb a, i = .region c vb a → (g.table.any (fun x => x.kind == .join) = true ∨ sp.depth ≠ 0 → dies) ∧
      (g.pend = [] → (∀ k < 12, g.counter k = 0) →
        (32 < ((List.range 64).filter fun j => (g.sr a).getLsbD j).length ∨ ∃ j < 64, (g.sr a).getLsbD j = true ∧ 32 * g.vblocks ≤ vb.toNat + j) → dies)

/-! ### System instructions and traps -/

/-- SYSGET, SYSSET, TLBINV, PGPOOL and KILL (R315, R321 to R325): accepted as one long-latency operation that will write the register as it stands at
issue, or all 32 lanes of TIDX; that will make the write, with S[SA] or V[SA] as read at issue; that waits for a sweep of S[SA]'s line or of
the whole context; that will map S[SA]; and KILL kills the context, with KILLI and CODE in CTXERR unless it was killed before; that its instances and waiting faults go with it is the model's reading (log 26).
SYSGET reads each register of Table 17.1 from the state that holds it, a split entry as Table 17.3 packs it.
IDLE (R327): S[SA] off a 4 KiB boundary raises ALIGN; else, where every line of the area passes the checks of a store, the operation is accepted
and the gang waits in it. -/
def Obligations.SystemInstructions : Prop :=
  (∀ (c : Ctl) (num : BitVec 12) (v : VR) (d a b : SR) (code : BitVec 16) (s : State) (f : Focus) (g : Gang) (sp : Split),
    (Issues (.sysget c num v) c s f g sp → exec (.sysget c num v) s = .next (s.afterAccept f g c (.calc
      [if num = 0x60 then .vreg v 0xFFFFFFFF 0xFFFFFFFF g.tidx else .sreg (v.setWidth 6) (s.sysRead g sp num.toNat)]))) ∧
    (Issues (.sysset c num v) c s f g sp → exec (.sysset c num v) s = .next (s.afterAccept f g c
      (if num = 0x60 then .calc [.tidx (g.vr v.toNat)] else .sysset num (g.sr (v.setWidth 6))))) ∧
    (Issues (.pgpool c d a) c s f g sp → exec (.pgpool c d a) s = .next (s.afterAccept f g c (.pgpool d (g.sr a)))) ∧
    (Issues (.tlbinv c a b) c s f g sp → ∃ t g' o w, exec (.tlbinv c a b) s = .next t ∧ t.gang? g.uid = some g' ∧ g'.s = g.s ∧
      t.ops = s.ops ++ [o] ∧ o.kind = .tlbinv w.id ∧ t.sweeps = s.sweeps ++ [w] ∧ w.ctx = g.ctx ∧ w.all = decide (g.sr b = 1) ∧
      w.va = (g.sr a).toNat % 2 ^ 52 ∧ w.op = some o.id ∧ w.uid = g.uid ∧ w.began = false ∧ t.mem = s.mem) ∧
    (Issues (.kill c code) c s f g sp → (s.ctx g.ctx).killed = false → g.ctx ∈ s.ctxs.map (·.num) →
      ∃ t, exec (.kill c code) s = .next t ∧ (t.ctx g.ctx).killed = true ∧ t.gang? g.uid = none ∧
        (t.ctx g.ctx).err = (s.ctx g.ctx).err ||| 0x80 ||| (code.setWidth 64 <<< 24) ∧ (t.ctx g.ctx).faults = [] ∧
        ∀ x ∈ t.insts, x.ctx ≠ g.ctx)) ∧
  (∀ (s : State) (g : Gang) (sp : Split), let v := s.sysRead g sp
    let cx := s.ctx g.ctx
    let level := fun (b : Nat) (vec : W64) (t : TrapRegs) => v b = vec ∧ v (b + 1) = t.cause ∧ v (b + 2) = t.ret ∧ v (b + 3) = t.va ∧ v (b + 4) = t.save ∧
      v (b + 5) = t.stat ∧ v (b + 6) = t.scr ∧ v (b + 7) = t.ip
    v 0 = BitVec.ofNat 64 g.tl ∧ v 1 = cx.err ∧ v 2 = BitVec.ofNat 64 (cx.num + 2 ^ 8 * cx.ten) ∧ v 3 = (if cx.priv then 1 else 0) ∧ v 8 = cx.tsb1 ∧ v 9 = cx.tsb2 ∧
    level 0x10 cx.tvec1 g.t1 ∧ level 0x20 cx.tvec2 g.t2 ∧ (∀ k < 12, v (0x30 + k) = BitVec.ofNat 64 (g.counter k)) ∧
    (∀ k < 12, let h := g.hold.getD k HoldEnt.blank
      v (0x40 + k) = BitVec.ofNat 64 (h.reg.toNat + 2 ^ 8 * h.regm.toNat + 2 ^ 9 * h.rem + 2 ^ 15 * h.armed.toNat)) ∧
    v 0x50 = BitVec.ofNat 64 g.vblocks ∧
    (g.rst = [] → g.tl = 0 → v 0x51 = BitVec.ofNat 64 g.table.length ∧ ∀ i < 72,
      (g.table.length ≤ i → ∀ w < 3, v (0x100 + 4 * i + w) = 0) ∧
      ∀ x, g.table[i]? = some x →
        (v (0x100 + 4 * i)).extractLsb' 0 52 = (if x.kind = .join then x.rpc else x.pc).extractLsb' 0 52 ∧ (v (0x100 + 4 * i)).extractLsb' 52 7 = x.depth ∧
        (v (0x100 + 4 * i)).extractLsb' 59 2 = (match x.kind with | .live => 1 | .deferred => 2 | .join => 3) ∧ (v (0x100 + 4 * i)).extractLsb' 61 3 = 0 ∧
        (v (0x100 + 4 * i + 1)).extractLsb' 0 32 = x.exec ∧ (v (0x100 + 4 * i + 1)).extractLsb' 32 16 = x.fmt ∧
        v (0x100 + 4 * i + 2) = (if x.kind = .join then 0 else (x.rpc.extractLsb' 0 52).setWidth 64)) ∧
    (∀ p < 256, ∀ x, g.stash[p]? = some x → v (0x300 + p) = (x.va &&& 0x000FFFFFFFFFF000) ||| (if x.wr then 2 else 0) ||| (if x.mapped then 1 else 0)) ∧
    ∀ q < 16, lookup g.q q = none → v (0x400 + q) = 0) ∧
  (∀ (c : Ctl) (a : SR) (s s' : State) (ps : List (Nat × Place1)) (f : Focus) (g : Gang) (sp : Split), Issues (.idle c a) c s f g sp →
    let base := (g.sr a).toNat
    let g1 := g.issued s.clock c f
    (base % 4096 ≠ 0 → exec (.idle c a) s = .next (s.afterTrap f g c (trapReq f causeALIGN 1 0 0 f.pc (g.sr a)))) ∧
    (base % 4096 = 0 → (s.setGang g1).checkLanes g1 { plainNeed .store 128 with window := false } ((List.range 320).map fun i => (32, base + 128 * i)) = (s', .ok ps) →
      ∃ t g' o, exec (.idle c a) s = .next t ∧ t.gang? g.uid = some g' ∧ g'.wait = some (.idle o.id) ∧ t.ops = s'.ops ++ [o] ∧
        o.id = s'.nextId ∧ o.kind = .idle (g.sr a) false ∧ g'.s = g.s ∧ t.mem = s'.mem))

/-- The entry of a trap (R319, R30): nothing of the gang issues; once the counters have settled, and not before, the gang goes up one level; TCAUSE, TIP, TRET, TVA and TSTAT hold the cause and the
place, S63 and TSAVE are exchanged into TSCR, the split that trapped stands at TVEC with all lanes active and FMT zero, and no other
register, split or part of the device has changed. Out of a region its snapshot comes back first, TRET is its head, and TSTAT says so.
What does not enter a handler (R318, R319, R30): a translation fault at TL0 parks the gang in PARKED-FAULT, in open code at its instruction, and in a region
at its head with the snapshot back; a cause at TL2 kills the context with TL2F, and so does a vector that is zero or no instruction address, with HVEC.
What a gang does that resumes, before its save area is read, is in PreemptionAndKill. -/
def Obligations.TrapEntry : Prop :=
  (∀ (s : State) (g : Gang) (sp : Split) (q : TrapReq), s.gangAt g.loc = some g → s.gang? g.uid = some g → g.trap = some q → g.split? q.sid = some sp →
    g.tl < 2 → ¬ (g.tl = 0 ∧ q.cause = causeXLATE) → g.move ≠ .toRead →
    let vec := if g.tl = 0 then (s.ctx g.ctx).tvec1 else (s.ctx g.ctx).tvec2
    let old := g.tregs (g.tl + 1)
    let word := 0#27 ++ q.lane ++ q.code ++ q.sub ++ q.cause
    let enters := fun (t : State) (g' : Gang) => t.gang? g.uid = some g' ∧ s.onlyGangs t ∧ t.ops = s.ops ∧ g'.tl = g.tl + 1 ∧ g'.trap = none ∧
      g'.sr 63 = old.save ∧ g'.v = g.v ∧ g'.fc = g.fc ∧ g'.fpstat = g.fpstat ∧ g'.gstat = g.gstat ∧
      g'.trapen = g.trapen ∧ g'.tregs g.tl = g.tregs g.tl
    g.mayIssue = false ∧ (g.region = none → g.settled = false → exec (.trapEntry g.loc) s = .next s) ∧
    (g.region ≠ none → g.quiet = false → exec (.trapEntry g.loc) s = .next s) ∧
    (vec ≠ 0 → instrAddr vec →
    (g.region = none → q.reg = false → g.settled = true → ∃ t g', exec (.trapEntry g.loc) s = .next t ∧ enters t g' ∧
      (∀ r : SR, r ≠ 63 → g'.sr r = g.sr r) ∧ g'.k = g.k ∧
      g'.tregs (g.tl + 1) = { cause := word, ret := q.ret, va := q.va, save := old.save, stat := 0#16 ++ sp.fmt ++ sp.exec, scr := g.sr 63, ip := q.ip } ∧
      g'.table = g.table.map (fun x => if x.sid = q.sid then { x with exec := 0xFFFFFFFF, fmt := 0, pc := vec, latch := none, chk := 2 } else x)) ∧
    ∀ r, g.region = some r → q.reg = true → g.quiet = true → ∃ t g', exec (.trapEntry g.loc) s = .next t ∧ enters t g' ∧ g'.region = none ∧
      (∀ x : SR, x ≠ 63 → g'.sr x = r.snapS.getD x.toNat 0) ∧ g'.k = r.snapK ∧
      g'.tregs (g.tl + 1) = { cause := word, ret := r.head, va := q.va, save := old.save, stat := 0#15 ++ 1#1 ++ r.snapF ++ r.snapE,
                              scr := r.snapS.getD 63 0, ip := q.ip } ∧
      g'.table = g.table.map (fun x => if x.sid = q.sid then { x with exec := 0xFFFFFFFF, fmt := 0, pc := vec, latch := none, chk := 2 } else x))) ∧
  (∀ (s : State) (g : Gang) (sp : Split) (q : TrapReq), s.gangAt g.loc = some g → s.gang? g.uid = some g → g.trap = some q → g.split? q.sid = some sp →
    g.move ≠ .toRead → (g.region = none → g.settled = true) → (g.region ≠ none → g.quiet = true) →
    (g.tl = 0 → q.cause = causeXLATE → ∃ t g', exec (.trapEntry g.loc) s = .next t ∧ t.gang? g.uid = some g' ∧ g'.status = .parkedFault ∧
      g'.trap = none ∧ g'.tl = 0 ∧ g'.region = none ∧ t.mem = s.mem ∧ (g.region = none → g'.table = g.table ∧ g'.s = g.s) ∧
      ∀ r, g.region = some r → g'.s = r.snapS ∧ g'.k = r.snapK ∧ g'.v = g.v ∧
        g'.table = g.table.map (fun x => if x.sid = q.sid then { x with exec := r.snapE, fmt := r.snapF, pc := r.head, latch := none, chk := 1 } else x)) ∧
    (g.ctx ∈ s.ctxs.map (·.num) → (s.ctx g.ctx).killed = false →
      (g.tl = 2 → ∃ t, exec (.trapEntry g.loc) s = .next t ∧ (t.ctx g.ctx).killed = true ∧ t.gang? g.uid = none ∧
        (t.ctx g.ctx).err = (s.ctx g.ctx).err ||| 0x10 ||| (q.cause.setWidth 64 <<< 16)) ∧
      (g.tl < 2 → ¬ (g.tl = 0 ∧ q.cause = causeXLATE) →
        (let vec := if g.tl = 0 then (s.ctx g.ctx).tvec1 else (s.ctx g.ctx).tvec2; vec = 0 ∨ ¬ instrAddr vec) →
        ∃ t, exec (.trapEntry g.loc) s = .next t ∧ (t.ctx g.ctx).killed = true ∧ t.gang? g.uid = none ∧
          (t.ctx g.ctx).err = (s.ctx g.ctx).err ||| 0x20)))

/-- ERET (R320): with a return address that is an instruction address, the gang goes down one level; S63 comes back from TSCR, and the split's active
lanes, FMT and PC from TSTAT and TRET; the trap registers, every other register and memory are unchanged. That a transfer-target check which the split
owed when it took the trap is owed again where it comes back to that place is the model's reading (log 93): R154 and R320 exempt only ERET itself. -/
def Obligations.TrapReturn : Prop :=
  ∀ (c : Ctl) (s : State) (f : Focus) (g : Gang) (sp : Split), Issues (.eret c) c s f g sp → g.rst = [] →
    let t0 := g.tregs g.tl
    (instrAddr t0.ret → ∃ t g', exec (.eret c) s = .next t ∧ t.gang? g.uid = some g' ∧ s.onlyGangs t ∧ t.ops = s.ops ∧
      g'.tl = g.tl - 1 ∧ g'.sr 63 = t0.scr ∧ (∀ r : SR, r ≠ 63 → g'.sr r = g.sr r) ∧ g'.k = g.k ∧ g'.v = g.v ∧ g'.fc = g.fc ∧ g'.t1 = g.t1 ∧ g'.t2 = g.t2 ∧
      g'.table = g.table.map (fun x => if x.sid = f.sid then
        { x with exec := t0.stat.extractLsb' 0 32, fmt := t0.stat.extractLsb' 32 16, pc := t0.ret, latch := none, chk := g.owedAt g.tl t0.ret } else x)) ∧
    (¬ instrAddr t0.ret → ∃ t, exec (.eret c) s = .next t ∧ t.gang? g.uid = none ∧
      (g.ctx ∈ s.ctxs.map (·.num) → (t.ctx g.ctx).err = (s.ctx g.ctx).err ||| 4))

/-- A system instruction outside a handler (R321, Table 17.1): with PRIV clear, ERET, SYSGET, SYSSET, TLBINV, KILL, IDLE and PGPOOL at TL0 are illegal
and end the gang with ILL in CTXERR; ERET at TL0 is illegal with PRIV set as well. -/
def Obligations.SystemPrivilege : Prop :=
  ∀ (c : Ctl) (i : Instr) (s : State) (f : Focus) (g : Gang) (sp : Split),
    ((∃ num d, i = .sysget c num d) ∨ (∃ num a, i = .sysset c num a) ∨ (∃ a b, i = .tlbinv c a b) ∨ (∃ code, i = .kill c code) ∨
      (∃ a, i = .idle c a) ∨ (∃ d a, i = .pgpool c d a) ∨ i = .eret c) →
    s.focus = some f → s.gang? f.uid = some g → g.split? f.sid = some sp → g.status = .active → g.trap = none → g.unwaiting = true →
    g.ready s.clock c = true → g.fabTrap c = false → g.tl = 0 → ((s.ctx g.ctx).priv = false ∨ i = .eret c) → g.ctx ∈ s.ctxs.map (·.num) →
    ∃ t, exec i s = .next t ∧ t.gang? g.uid = none ∧ (t.ctx g.ctx).err = (s.ctx g.ctx).err ||| 2

/-! ### Memory instructions -/

/-- VLD, VLDC, LDACQ and SLD (R116, R121, R203, R207, R211): where every lane that takes part passes its checks, one operation is accepted, with one
load access for each of those lanes at the place of its address; nothing is read or written yet. Which accesses to a mapped stash line go to the
order point is the model's reading (log 34). -/
def Obligations.Loads : Prop :=
  ∀ (c : Ctl) (p : Pred) (d : VR) (sd ver : SR) (sx : Bool) (m : MemOp) (q : ScopedOp) (s s' : State) (ps : List (Nat × Place1)) (f : Focus) (g : Gang)
    (sp : Split),
    (Issues (.vld c p d m) c s f g sp → s.allPass f g c (plainNeed .load (widBytes m.wid)) (lanesAt m g sp p) s' ps →
      ∃ t, exec (.vld c p d m) s = .next t ∧
        s'.Asked t g c (.loadV d m.wid m.sx) (plainAsk .load m.pol) (widBytes m.wid) ps (fun _ => 0) (fun _ => 0)) ∧
    (Issues (.vldc c p d ver m) c s f g sp → s.allPass f g c (guardedNeed .load (widBytes m.wid)) (lanesAt m g sp p) s' ps →
      ∃ t, exec (.vldc c p d ver m) s = .next t ∧
        s'.Asked t g c (.loadV d m.wid m.sx) (plainAsk (.loadG ((g.sr ver).extractLsb' 0 16)) 0) (widBytes m.wid) (pointed true ps) (fun _ => 0) (fun _ => 0)) ∧
    (Issues (.ldacq c p d sx q) c s f g sp → s.allPass f g c (orderedNeed .load (widBytes q.wid)) (scopedAt q g sp p) s' ps →
      ∃ t, exec (.ldacq c p d sx q) s = .next t ∧
        s'.Asked t g c (.loadV d q.wid sx) { kind := .load, scope := q.scope, pol := 0, rel := false, acq := true, comm := none } (widBytes q.wid)
          (pointed (decide (q.scope.toNat ≥ 2)) ps) (fun _ => 0) (fun _ => 0)) ∧
    (Issues (.sld c sd m) c s f g sp → s.allPass f g c (plainNeed .load (widBytes m.wid)) [(32, ((g.sr m.base) + m.disp.signExtend 64).toNat)] s' ps →
      ∃ t, exec (.sld c sd m) s = .next t ∧
        s'.Asked t g c (.loadS sd m.wid m.sx) (plainAsk .load m.pol) (widBytes m.wid) ps (fun _ => 0) (fun _ => 0))

/-- VST, VSTC, STREL and SST outside a region (R115, R122, R203, R208, R211): where every lane that takes part passes its checks, one operation is
accepted, with one store access for each of those lanes, at the place of its address, carrying the low bytes of its register; no byte of
memory has changed. That a STREL to a mapped stash line acts in the page is the model's reading (log 34).
VST, VSTC and SST in a region (R26, R27): the store enters the region store buffer with its lanes and data, and counts a line-write for each line that
no earlier store of the region holds; nothing leaves the core; beyond 64 line-writes the cause REGOVF stands to be taken, at the head. -/
def Obligations.Stores : Prop :=
  (∀ (c : Ctl) (p : Pred) (d : VR) (sd ver : SR) (m : MemOp) (q : ScopedOp) (s s' : State) (ps : List (Nat × Place1)) (f : Focus) (g : Gang) (sp : Split),
    g.region = none →
    (Issues (.vst c p d m) c s f g sp → s.allPass f g c (plainNeed .store (widBytes m.wid)) (lanesAt m g sp p) s' ps →
      ∃ t, exec (.vst c p d m) s = .next t ∧ s'.Asked t g c .store (plainAsk .store m.pol) (widBytes m.wid) ps (g.datum m.wid d) (fun _ => 0)) ∧
    (Issues (.vstc c p d ver m) c s f g sp → s.allPass f g c (guardedNeed .store (widBytes m.wid)) (lanesAt m g sp p) s' ps →
      ∃ t, exec (.vstc c p d ver m) s = .next t ∧
        s'.Asked t g c .store (plainAsk (.storeG ((g.sr ver).extractLsb' 0 16)) 0) (widBytes m.wid) ps (g.datum m.wid d) (fun _ => 0)) ∧
    (Issues (.strel c p d q) c s f g sp → s.allPass f g c (orderedNeed .store (widBytes q.wid)) (scopedAt q g sp p) s' ps →
      ∃ t, exec (.strel c p d q) s = .next t ∧
        s'.Asked t g c .store { kind := .store, scope := q.scope, pol := 0, rel := true, acq := false, comm := none } (widBytes q.wid) ps
          (g.datum q.wid d) (fun _ => 0)) ∧
    (Issues (.sst c sd m) c s f g sp → s.allPass f g c (plainNeed .store (widBytes m.wid)) [(32, ((g.sr m.base) + m.disp.signExtend 64).toNat)] s' ps →
      ∃ t, exec (.sst c sd m) s = .next t ∧
        s'.Asked t g c .store (plainAsk .store m.pol) (widBytes m.wid) ps (fun _ => (g.sr sd).toNat % 2 ^ (8 * widBytes m.wid)) (fun _ => 0))) ∧
  (∀ (c : Ctl) (p : Pred) (d : VR) (sd ver : SR) (m : MemOp) (s s' : State) (ps : List (Nat × Place1)) (f : Focus) (g : Gang) (sp : Split) (r : Region),
    g.region = some r →
    let cost := (((ps.map fun x => lineKey x.2).eraseDups).filter fun l => !r.lines.contains l).length
    let held := fun (i : Instr) (need : Need) (lanes : List (Nat × Nat)) (kind : ItemKind) (datum : Nat → Nat) =>
      Issues i c s f g sp → s.allPass f g c need lanes s' ps →
      (r.count + cost ≤ 64 → ∃ t g' r' b, exec i s = .next t ∧ t.gang? g.uid = some g' ∧ g'.region = some r' ∧
        r'.buf = r.buf ++ [b] ∧ b.setf = c.setf ∧
        b.body = .store (ps.map fun x => (x.2, mkAcc x.1 x.2.off (widBytes m.wid) (datum x.1) 0)) kind ∧
        r'.count = r.count + cost ∧ g'.s = g.s ∧ g'.v = g.v ∧ r'.opb = r.opb ∧ t.mem = s'.mem ∧ t.items = s'.items ∧ t.ops = s'.ops) ∧
      (r.count + cost > 64 → ∃ t g' q, exec i s = .next t ∧ t.gang? g.uid = some g' ∧ g'.trap = some q ∧ q.cause = causeREGOVF ∧
        q.ip = f.pc ∧ q.ret = r.head ∧ q.reg = true ∧ t.mem = s'.mem ∧ t.items = s'.items)
    held (.vst c p d m) (plainNeed .store (widBytes m.wid)) (lanesAt m g sp p) .store (g.datum m.wid d) ∧
    held (.vstc c p d ver m) (guardedNeed .store (widBytes m.wid)) (lanesAt m g sp p) (.storeG ((g.sr ver).extractLsb' 0 16)) (g.datum m.wid d) ∧
    held (.sst c sd m) (plainNeed .store (widBytes m.wid)) [(32, ((g.sr m.base) + m.disp.signExtend 64).toNat)] .store
      (fun _ => (g.sr sd).toNat % 2 ^ (8 * widBytes m.wid)))

/-- A failing check of VLD or VST (R203, R318): nothing is accepted and no byte or register changes; ALIGN and PROT, and XLATE in a handler, stand to be taken
with the lowest failing lane and its address, and XLATE in open code parks the gang for the driver.
The checks of one lane (R202, R203, R347): a datum that crosses a 128-byte boundary, or a 16-byte one off its own, raises ALIGN; an
address of 2^52 or above raises PROT; else, below the window and off the stash, a leaf without the permission the access needs raises PROT.
The checks change no register, no operation and no region, and, where no write is in progress and no stash line is DIRTY, no memory and no item. -/
def Obligations.AccessChecks : Prop :=
  (∀ (c : Ctl) (p : Pred) (d : VR) (m : MemOp) (s s' : State) (e : AccFail) (f : Focus) (g : Gang) (sp : Split),
    let fails := fun (i : Instr) (need : Need) => Issues i c s f g sp → s.someFails f g c need (lanesAt m g sp p) s' e →
      ((e.cause ≠ causeXLATE ∨ g.tl ≠ 0 ∨ g.region ≠ none) → ∃ t g' q, exec i s = .next t ∧ t.gang? g.uid = some g' ∧ g'.trap = some q ∧
        q.cause = e.cause ∧ q.sub = need.kind.code ∧ q.ip = f.pc ∧ q.ret = f.pc ∧ q.va = BitVec.ofNat 64 e.ea ∧
        q.lane = BitVec.ofNat 5 (if e.lane < 32 then e.lane else 0) ∧ g'.s = g.s ∧ t.mem = s'.mem ∧ t.items = s'.items ∧ t.ops.length = s'.ops.length) ∧
      (e.cause = causeXLATE → g.tl = 0 → g.region = none → ∃ t g', exec i s = .next t ∧ t.gang? g.uid = some g' ∧ g'.status = .parkedFault ∧
        g'.trap = none ∧ g'.table = g.table ∧ g'.s = g.s ∧ t.mem = s'.mem ∧ t.items = s'.items ∧ t.ops = s'.ops)
    fails (.vld c p d m) (plainNeed .load (widBytes m.wid)) ∧ fails (.vst c p d m) (plainNeed .store (widBytes m.wid))) ∧
  (∀ (s : State) (g : Gang) (k : AccKind) (wid : BitVec 3) (l ea : Nat), let n := widBytes wid
    (ea < lwin → ((n = 16 ∧ ea % 16 ≠ 0) ∨ ea % 128 + n > 128) → (s.checkLane g (plainNeed k n) l ea).2 = .bad causeALIGN) ∧
    (2 ^ 52 ≤ ea → n ≠ 16 → ea % 128 + n ≤ 128 → (s.checkLane g (plainNeed k n) l ea).2 = .bad causePROT) ∧
    (ea < lwin → n ≠ 16 → ea % 128 + n ≤ 128 → s.gang? g.uid = some g → g.stashOver ea = none → g.lanePg = [] →
      (s.core g.loc.die g.loc.core).tlb = [] →
      (s.core g.loc.die g.loc.core).walkc = [] → s.still →
      (s.walk g.ctx ea = none → (s.checkLane g (plainNeed k n) l ea).2 = .bad causeXLATE) ∧
      (∀ lvl e, s.walk g.ctx ea = some (lvl, e) → (k = .load ∧ pteR e = false ∨ k = .store ∧ pteW e = false ∧ ptePend e = false) →
        (s.checkLane g (plainNeed k n) l ea).2 = .bad causePROT) ∧
      (∀ lvl e, s.walk g.ctx ea = some (lvl, e) → pteR e = true → pteW e = true → ptePeer e = false → pteHost e = false → k ≠ .fetch →
        s.inFwin (s.ctx g.ctx).ten (pteFrame e) = true →
        let pa := pteFrame e + ea % 2 ^ lvlBits lvl
        (s.checkLane g (plainNeed k n) l ea).2 =
          .ok { dst := .dev, line := pa / 128 * 128, off := pa % 128, vline := BitVec.ofNat 64 (ea / 128 * 128), nc := pteNC e, hold := false }))) ∧
  (∀ (s s' : State) (g : Gang) (q : Need) (lanes : List (Nat × Nat)) (r : Except AccFail (List (Nat × Place1))), s.checkLanes g q lanes = (s', r) →
    s'.ops = s.ops ∧ (s.still → s'.mem = s.mem ∧ s'.items = s.items) ∧ ∀ u x, s.gang? u = some x → ∃ y, s'.gang? u = some y ∧ y.s = x.s ∧ y.k = x.k ∧
      y.v = x.v ∧ y.table = x.table ∧ y.status = x.status ∧ y.region = x.region)

/-- VATOM and SATOM (R212, R213): where every lane that takes part passes its checks, and no lane leaves the device from a gated run, one operation is
accepted with one atomic access for each of those lanes, carrying its operand and comparand. Which accesses to a mapped stash line go to the order point
is the model's reading (log 34). -/
def Obligations.Atomics : Prop :=
  ∀ (c : Ctl) (p : Pred) (fn : AFn) (d cmp : VR) (sd scmp : SR) (q : ScopedOp) (s s' : State) (ps : List (Nat × Place1)) (f : Focus) (g : Gang) (sp : Split),
    let need := atomNeed (widBytes q.wid) (hostAtomOk fn)
    let ask : ItemAsk := { kind := .atomic fn q.wid, scope := q.scope, pol := 0, rel := false, acq := false, comm := none }
    let cut := fun (v : W64) => v.toNat % 2 ^ (8 * widBytes q.wid)
    ((∀ x ∈ ps, outward x.2 = false) ∨ s'.ungated g.ctx g.inst g.run) →
    (Issues (.vatom c p fn d cmp q) c s f g sp → s.allPass f g c need (scopedAt q g sp p) s' ps → ∃ t, exec (.vatom c p fn d cmp q) s = .next t ∧
      s'.Asked t g c (.atomV d q.wid) ask (widBytes q.wid) (pointed (decide (q.scope.toNat ≥ 2)) ps) (g.datum q.wid d) (g.datum q.wid cmp)) ∧
    (Issues (.satom c fn sd scmp q) c s f g sp → s.allPass f g c need [(32, ((g.sr q.base) + q.disp.signExtend 64).toNat)] s' ps →
      ∃ t, exec (.satom c fn sd scmp q) s = .next t ∧
      s'.Asked t g c (.atomS sd q.wid) ask (widBytes q.wid) (pointed (decide (q.scope.toNat ≥ 2)) ps) (fun _ => cut (g.sr sd)) (fun _ => cut (g.sr scmp)))

/-- FENCE.ACQ, FENCE.REL, FENCE.ACQREL and FENCE.SC (R123, R124, R214): accepted as one operation with its scope; in a region it also takes its place in the
region store buffer.
PREFETCH and CFLUSH (R209, R210): PREFETCH never faults and is accepted whatever its addresses; CFLUSH outside a region, where every lane passes, is accepted
with the device and stash lines of its lanes, once each. -/
def Obligations.FencesAndCacheControl : Prop :=
  (∀ (c : Ctl) (scope : BitVec 3) (s : State) (f : Focus) (g : Gang) (sp : Split),
    let fence := fun (i : Instr) (k : BitVec 2) => Issues i c s f g sp →
      (g.region = none → exec i s = .next (s.afterAccept f g c (.fence k scope))) ∧
      (∀ r, g.region = some r → ∃ t g' r' b, exec i s = .next t ∧ t.gang? g.uid = some g' ∧ g'.region = some r' ∧ r'.buf = r.buf ++ [b] ∧
        b.body = .fence k scope ∧ t.ops = s.ops ++ [s.opOf f g c (.fence k scope)] ∧ s.onlyGangs t)
    fence (.fenceAcq c scope) 0 ∧ fence (.fenceRel c scope) 1 ∧ fence (.fenceAcqrel c scope) 2 ∧ fence (.fenceSc c scope) 3) ∧
  (∀ (c : Ctl) (p : Pred) (m : MemOp) (s s' : State) (ps : List (Nat × Place1)) (f : Focus) (g : Gang) (sp : Split),
    (Issues (.prefetch c p m) c s f g sp → ∃ t g' o lines, exec (.prefetch c p m) s = .next t ∧ t.gang? g.uid = some g' ∧ g'.trap = none ∧ g'.status = .active ∧
      g'.s = g.s ∧ t.ops = s.ops ++ [o] ∧ o.kind = .prefetch lines ∧ (s.still → t.mem = s.mem ∧ t.items = s.items)) ∧
    (Issues (.cflush c p m) c s f g sp → g.region = none → s.allPass f g c (plainNeed .load 1) (lanesAt m g sp p) s' ps →
      ∃ t g' o lines, exec (.cflush c p m) s = .next t ∧ t.gang? g.uid = some g' ∧ g'.s = g.s ∧ t.ops = s'.ops ++ [o] ∧ o.kind = .cflush lines ∧ lines.Nodup ∧
        (∀ l, l ∈ lines ↔ ∃ x ∈ ps, x.2.line = l ∧ (x.2.dst = .dev ∨ ∃ n, x.2.dst = .stash n)) ∧ t.mem = s'.mem ∧ t.items = s'.items))

/-- STASH.MAP, STASH.UNMAP, STASH.FLUSH and STASH.INVAL (R52, R215, R216): a page the gang does not have, or ALL where it is not allowed, gives status 2; an unmapped page
gives status 4; else the function is accepted, to act on the page or on all mapped pages; MAP off a 4 KiB boundary raises ALIGN. The order of MAP's trap and of the statuses
is the model's choice (log 84), and so is that a status found at issue stands whatever the page becomes (log 94). -/
def Obligations.StashFunctions : Prop :=
  ∀ (c : Ctl) (d a sel : SR) (disp : BitVec 18) (s : State) (f : Focus) (g : Gang) (sp : Split),
    let w := g.sr sel
    let n := (w.extractLsb' 0 8).toNat
    let all := w.getLsbD 8
    let mapped := ∃ x, g.stash[n]? = some x ∧ x.mapped = true
    let unmapped := ∃ x, g.stash[n]? = some x ∧ x.mapped = false
    let ends := fun (i : Instr) (st : W64) => exec i s = .next (s.afterAccept f g c (.calc [.sreg d st]))
    (Issues (.stashUnmap c d sel) c s f g sp →
      ((all = true ∨ g.stash.length ≤ n) → ends (.stashUnmap c d sel) 2) ∧ (all = false → unmapped → ends (.stashUnmap c d sel) 4) ∧
      (all = false → mapped → exec (.stashUnmap c d sel) s = .next (s.afterAccept f g c (.stash 1 d (some n) 0 0 0)))) ∧
    (Issues (.stashFlush c d sel) c s f g sp →
      (all = false → g.stash.length ≤ n → ends (.stashFlush c d sel) 2) ∧ (all = false → unmapped → ends (.stashFlush c d sel) 4) ∧
      (all = false → mapped → exec (.stashFlush c d sel) s = .next (s.afterAccept f g c (.stash 2 d (some n) 0 0 0))) ∧
      (all = true → exec (.stashFlush c d sel) s = .next (s.afterAccept f g c (.stash 2 d none 0 0 0)))) ∧
    (Issues (.stashInval c d sel) c s f g sp →
      (all = false → g.stash.length ≤ n → ends (.stashInval c d sel) 2) ∧ (all = false → unmapped → ends (.stashInval c d sel) 4) ∧
      (all = false → mapped → exec (.stashInval c d sel) s = .next (s.afterAccept f g c (.stash 3 d (some n) 0 0 0))) ∧
      (all = true → exec (.stashInval c d sel) s = .next (s.afterAccept f g c (.stash 3 d none 0 0 0)))) ∧
    (Issues (.stashMap c d a sel disp) c s f g sp → let va := g.sr a + disp.signExtend 64
      (va.toNat % 4096 ≠ 0 → exec (.stashMap c d a sel disp) s = .next (s.afterTrap f g c (trapReq f causeALIGN 0 0 0 f.pc va))) ∧
      (va.toNat % 4096 = 0 → va.toNat < lwin → (s.core g.loc.die g.loc.core).tlb = [] → (s.core g.loc.die g.loc.core).walkc = [] → s.still → ∀ lvl e, s.walk g.ctx va.toNat = some (lvl, e) →
        pteR e = true → ptePeer e = false → pteHost e = false → pteNC e = false → s.inFwin (s.ctx g.ctx).ten (pteFrame e) = true →
        (s.tenant (s.ctx g.ctx).ten).cpart = 0 → all = false → unmapped → (∀ x ∈ g.stash, x.mapped = true → x.va ≠ va) →
        ∃ t g' o, exec (.stashMap c d a sel disp) s = .next t ∧ t.gang? g.uid = some g' ∧ g'.stash = g.stash ∧ g'.s = g.s ∧ t.ops = s.ops ++ [o] ∧
          o.kind = .stash 0 d (some n) (BitVec.ofNat 64 (pteFrame e + va.toNat % 2 ^ lvlBits lvl)) va e ∧ t.mem = s.mem))

/-! ### Claims and the matrix unit -/

/-- MCLAIM and MTRY (R57, R58, R231): with no claim waiting on the core, a claim that fits is granted whole: the lowest run of free slots and of free
tiles joins the tile table, EMPTY, under the owner, and the grant word will be written; an MTRY that does not fit has status 1; an
MCLAIM that does not fit waits where its owner holds nothing, and ends with DEADLOCK where a gang alone holds all that is held.
MREL (R57, R59, R232): accepted; the owner no longer holds any slot or tile that the grant word names; an idle one is free at once. -/
def Obligations.ClaimsAndReleases : Prop :=
  (∀ (c : Ctl) (d a : SR) (s : State) (f : Focus) (g : Gang) (sp : Split),
    let w := g.sr a
    let m := (w.extractLsb' 0 8).toNat
    let n := (w.extractLsb' 8 7).toNat
    let af := w.getLsbD 15
    let k := s.home g
    let fits := fun (i : Instr) => Issues i c s f g sp → ∀ m0 a0, k.findMom m = some m0 → k.findAcm n af = some a0 → ∃ t o, exec i s = .next t ∧
      s.Began t g c o ∧ o.kind = .calc [.sreg d (grantWord 0 a0 m0 af n m)] ∧
      (t.home g).mom = k.mom ++ ((List.range m).map fun j => Tile.new (m0 + j) false g.owner) ∧
      (t.home g).acm = k.acm ++ ((List.range n).map fun j => Tile.new (a0 + (if af then 5 else 2) * j) af g.owner)
    let short := k.findMom m = none ∨ k.findAcm n af = none
    s.waitingClaims g.loc.die g.loc.core = [] → fits (.mclaim c d a) ∧ fits (.mtry c d a) ∧
    (Issues (.mtry c d a) c s f g sp → short → exec (.mtry c d a) s = .next (s.afterAccept f g c (.calc [.sreg d (grantWord 1 0 0 af n m)]))) ∧
    (Issues (.mclaim c d a) c s f g sp → short → (∀ j, g.cohort = some j → s.waitingQuotas g.loc.die g.loc.core j = []) → g.owner ∉ k.holders →
      ∃ t o g', exec (.mclaim c d a) s = .next t ∧ s.Began t g c o ∧ o.id = s.nextId ∧ o.kind = .mclaim d m n af ∧ (t.home g).mom = k.mom ∧
        (t.home g).acm = k.acm ∧ t.gang? g.uid = some g' ∧ g'.wait = some (.op o.id)) ∧
    (Issues (.mclaim c d a) c s f g sp → short → g.cohort = none → k.holders = [g.owner] → (∀ o ∈ s.ops, o.id < s.nextId) →
      ∃ t o g', exec (.mclaim c d a) s = .next t ∧ s.Began t g c o ∧ o.kind = .calc [.sreg d (grantWord 2 0 0 af n m)] ∧
        (t.home g).mom = k.mom ∧ (t.home g).acm = k.acm ∧ t.gang? g.uid = some g' ∧ g'.wait = none)) ∧
  (∀ (c : Ctl) (a : SR) (s : State) (f : Focus) (g : Gang) (sp : Split), Issues (.mrel c a) c s f g sp →
    let r := grantRuns (g.sr a)
    ∃ t g' o, exec (.mrel c a) s = .next t ∧ t.mem = s.mem ∧ t.gang? g.uid = some g' ∧ g'.s = g.s ∧ g'.k = g.k ∧ g'.v = g.v ∧
      o ∈ t.ops ∧ o.uid = g.uid ∧ o.setf = c.setf ∧
      o.kind = .mrel (((g.sr a).extractLsb' 16 8).toNat) r.1.length (((g.sr a).extractLsb' 24 8).toNat) r.2.length ((g.sr a).getLsbD 15) ∧
      (∀ n ∈ r.1, (t.home g).slotBy g.owner n = none) ∧ (∀ u ∈ r.2, (t.home g).tileBy g.owner u = none) ∧
      (∀ n ∈ r.1, (∀ x ∈ (s.home g).mom, x.idx = n → x.idle = true ∧ x.owner = g.owner) → (t.home g).slotFree n = true) ∧
      (∀ n, n ∉ r.1 → (∀ x ∈ (s.home g).mom, x.idx = n → x.going = false) → (t.home g).slot? n = (s.home g).slot? n))

/-- MZERO, MACCRD, MACCWR, MDRAIN and MSTATE (R59, R234, R235, R243, R245): accepted; MZERO and MACCWR put the tile into FILLING, MACCRD adds a user,
MDRAIN puts it into DRAINING and sends its elements to the name of S[SB]; MSTATE will write the word of Table 10.3. -/
def Obligations.TileInstructions : Prop :=
  ∀ (c : Ctl) (ef : BitVec 2) (row0 nrow : BitVec 5) (v : VR) (d a b t3 : SR) (ord : Bool) (s : State) (f : Focus) (g : Gang) (sp : Split),
    let u := twC (g.sr a)
    let tile := fun (t : State) (h : Tile → Tile) => ∀ x, (s.home g).tile? u = some x → (t.home g).tile? u = some (h x)
    (Issues (.mzero c a) c s f g sp → ∃ t o, exec (.mzero c a) s = .next t ∧ s.Began t g c o ∧ o.kind = .mzero u ∧ tile t fun x => x.fill o.id) ∧
    (Issues (.maccrd c ef row0 nrow v a) c s f g sp → ∃ t o, exec (.maccrd c ef row0 nrow v a) s = .next t ∧ s.Began t g c o ∧
      o.kind = .maccrd v u row0.toNat (nrow.toNat + 1) ef (sp.fmt.extractLsb' 12 2) ∧ tile t Tile.use) ∧
    (Issues (.maccwr c ef row0 nrow v a) c s f g sp → ∃ t o, exec (.maccwr c ef row0 nrow v a) s = .next t ∧ s.Began t g c o ∧
      o.kind = .maccwr u row0.toNat (nrow.toNat + 1) ((List.range (nrow.toNat + 1)).map fun i => g.vr (v.toNat + i)) ef ∧ tile t fun x => x.fill o.id) ∧
    (Issues (.mdrain c ord d a b t3) c s f g sp → (nameDev (g.sr b) = s.dev ∨ s.ungated g.ctx g.inst g.run) →
      ∃ t o x, exec (.mdrain c ord d a b t3) s = .next t ∧ s.Began t g c o ∧ o.kind = .mdrain d none ∧ tile t (fun x => x.drain o.id) ∧
        t.drains = s.drains ++ [x] ∧ x.name = g.sr b ∧ x.unit = twTC (g.sr a) ∧ x.op = o.id ∧ x.ten = (s.ctx g.ctx).ten ∧
        x.rank = (if ord then some ((g.sr t3).toNat % 65536) else none) ∧
        ∀ y, (s.home g).tile? u = some y → x.acc80 = y.acc80 ∧ x.vals = (s.home g).elems u y.acc80) ∧
    (Issues (.mstate c d a) c s f g sp →
      let acm := (g.sr a).getLsbD 24
      let x := if acm then (s.home g).acm.find? fun t => t.idx ≤ u && u < t.idx + t.span else (s.home g).slot? (twA (g.sr a))
      let held := fun (y : Tile) => if acm then ((s.home g).held.filter fun h => h.unit == y.idx).length else 0
      exec (.mstate c d a) s = .next (s.afterAccept f g c (.calc [.sreg d (match x with
        | none => 0
        | some y => 0#24 ++ BitVec.ofNat 8 (held y) ++ y.arriv ++ BitVec.ofNat 8 y.users ++ 0#4 ++
            BitVec.ofBool (decide (y.owner = g.owner)) ++ 1#1 ++ BitVec.ofNat 2 y.st.code)])))

/-- MLOAD and MSTORE (R233, R242): a row address or a stride off its boundary raises ALIGN, with the first row address that is off it; else, where the lines pass the checks, MLOAD is accepted with a load of
each row (and of the side band), its slot FILLING; MSTORE with a store of each 64 bytes of the converted rows, its tile DRAINING; with TOM the
tile drains into the slot, and nothing leaves the core.
MMAC and MLOOP (R59, R237, R239, R241): accepted, with one user more on each slot read and on the tile; an MLOOP reserves its four slots and its tile, takes its
addresses, steps and strides from S[SA] to S[SA + 3], and asks for power leave, as does an MMAC of half-step operands. -/
def Obligations.TileMemoryAndMultiply : Prop :=
  (∀ (c : Ctl) (side hi tr : Bool) (of : BitVec 2) (a b e : SR) (s s' : State) (ps : List (Nat × Place1)) (f : Focus) (g : Gang) (sp : Split),
    let load := Instr.mload c side a b e
    let store := Instr.mstore c hi tr false of a b e
    let tom := Instr.mstore c hi tr true of a b e
    let u := twC (g.sr a)
    let slot := fun (t : State) (n : Nat) (h : Tile → Tile) => ∀ x, (s.home g).slot? n = some x → (t.home g).slot? n = some (h x)
    let tile := fun (t : State) (h : Tile → Tile) => ∀ x, (s.home g).tile? u = some x → (t.home g).tile? u = some (h x)
    let brings := fun (t : State) (o : Op) (kind : ItemKind) (n : Nat) => ∃ new, t.items = s'.items ++ new ∧
      (∀ x ∈ new, x.op = o.id ∧ x.uid = g.uid ∧ x.kind = kind) ∧ new.map (fun x => (x.dst, x.line)) = ps.map (fun p => (p.2.dst, p.2.line)) ∧
      new.map (fun x => x.accs.map fun y => (y.off, y.n)) = ps.map fun p => [(p.2.off, n)]
    (Issues load c s f g sp → (g.sr a).toNat % 128 ≠ 0 → exec load s = .next (s.afterTrap f g c (trapReq f causeALIGN 0 0 0 f.pc (g.sr a)))) ∧
    (Issues load c s f g sp → (g.sr a).toNat % 128 = 0 → (g.sr b).toNat % 128 ≠ 0 →
      exec load s = .next (s.afterTrap f g c (trapReq f causeALIGN 0 0 0 f.pc (g.sr a + g.sr b)))) ∧
    (Issues load c s f g sp → (g.sr a).toNat % 128 = 0 → (g.sr b).toNat % 128 = 0 →
      s.allPass f g c rowNeed (tileLanes (g.sr a) (g.sr b) side) s' ps → ∃ t o, exec load s = .next t ∧ s'.Began t g c o ∧
        o.kind = .mload (twA (g.sr e)) ∧ brings t o .load 128 ∧ slot t (twA (g.sr e)) fun x => x.fill o.id) ∧
    (Issues store c s f g sp → (g.sr b).toNat % 64 ≠ 0 → exec store s = .next (s.afterTrap f g c (trapReq f causeALIGN 1 0 0 f.pc (g.sr b)))) ∧
    (Issues store c s f g sp → (g.sr b).toNat % 64 = 0 → (g.sr e).toNat % 64 ≠ 0 →
      exec store s = .next (s.afterTrap f g c (trapReq f causeALIGN 1 0 0 f.pc (g.sr b + g.sr e)))) ∧
    (Issues store c s f g sp → (g.sr b).toNat % 64 = 0 → (g.sr e).toNat % 64 = 0 →
      let rows := (List.range 32).flatMap fun i => (List.range (ofBytes of / 64)).map fun q => (i, q)
      s.allPass f g c (plainNeed .store 64) (rows.map fun x => (32, (g.sr b + g.sr e * BitVec.ofNat 64 x.1 + BitVec.ofNat 64 (64 * x.2)).toNat)) s' ps →
      ∃ t o, exec store s = .next t ∧ s'.Began t g c o ∧ o.kind = .mstore u ∧ brings t o .store 64 ∧ (tile t fun x => x.drain o.id) ∧
        ∀ y, (s.home g).tile? u = some y → ∃ new, t.items = s'.items ++ new ∧ new.map (fun x => x.accs.map (·.val)) =
          rows.map fun x => [(s.home g).packRow u y.acc80 of (sp.fmt.extractLsb' 12 2) x.1 / 2 ^ (512 * x.2) % 2 ^ 512]) ∧
    (Issues tom c s f g sp → ∃ t o, exec tom s = .next t ∧ s.Began t g c o ∧ o.kind = .mstoreTom u (twA (g.sr a)) hi tr of (sp.fmt.extractLsb' 12 2) ∧
      t.items = s.items ∧ (tile t fun x => x.drain o.id) ∧ slot t (twA (g.sr a)) fun x => x.fill o.id)) ∧
  (∀ (c : Ctl) (d a : SR) (s : State) (f : Focus) (g : Gang) (sp : Split),
    let w := g.sr a
    let u := twC w
    let asks := fun (t : State) (o : Op) => g.loc.die ∈ s.dies.map (·.die) → ∃ l, (t.die g.loc.die).leaves = (s.die g.loc.die).leaves ++ [l] ∧
      l.id = o.id ∧ l.coll = false ∧ l.held = false
    (Issues (.mmac c a) c s f g sp → ∃ t o, exec (.mmac c a) s = .next t ∧ s.Began t g c o ∧ o.kind = .mmac (twA w) (twB w) u sp.fmt false ∧
      (∀ n, n = twA w ∨ n = twB w → ∀ x, (s.home g).slot? n = some x → (t.home g).slot? n = some x.use) ∧
      (∀ x, (s.home g).tile? u = some x → (t.home g).tile? u = some x.use) ∧ (isHs sp.fmt = true → asks t o)) ∧
    (Issues (.mloop c d a) c s f g sp →
      let x := g.sr (a + 3)
      ∃ t o, exec (.mloop c d a) s = .next t ∧ s.Began t g c o ∧ asks t o ∧
        o.kind = .mloop d (twA w) (twB w) u sp.fmt ((w.extractLsb' 32 16).toNat + 1) (w.getLsbD 48) (g.sr (a + 1)) (g.sr (a + 2))
          ((x.extractLsb' 32 16).signExtend 64 * 128) ((x.extractLsb' 48 16).signExtend 64 * 128)
          ((x.extractLsb' 0 16).setWidth 64 * 128) ((x.extractLsb' 16 16).setWidth 64 * 128) 0 0 none ∧
        (∀ n, n = twA w ∨ n = twA w + 1 ∨ n = twB w ∨ n = twB w + 1 → ∀ y, (s.home g).slot? n = some y →
          (t.home g).slot? n = some { y with resv := some o.id }) ∧
        ∀ y, (s.home g).tile? u = some y → (t.home g).tile? u = some { y.use with resv := some o.id }))

/-! ### Queue registers -/

/-- QBIND of an unbound queue register (R246, R247): kind 0 binds the copy engine, which its owner then holds, reset if it was free, with result 1 if
another owner holds it; kind 1 takes the lowest free BFE configuration of the die, with result 1 if there is none; kind 2 names a
Halyard; kind 3 has result 2.
That QBIND of a free context waits for the commands of its last owner is the model's reading (log 25), and so is that a push waits, with room in the queue,
while the context passes to another owner or behind a push that waits.
QPUSH, QPOP, QTRY, TLWAIT and TLREAD (R248 to R250): a push with room enters the command under the next number, which will be written, and waits
for room without; a push to the BFE or a Halyard hands over its words; QTRY takes the oldest event, or gives all ones; TLWAIT makes the
gang wait; TLREAD will write the timeline. -/
def Obligations.Queues : Prop :=
  (∀ (c : Ctl) (d b : SR) (q : QR) (s : State) (f : Focus) (g : Gang) (sp : Split),
    let i := Instr.qbind c d q b
    let w := g.sr b
    let n := (w.extractLsb' 2 2).toNat
    let die := (w.extractLsb' 4 2).toNat
    let e := (s.home g).engine n
    let ends := fun (t : State) (r : W64) (x : Option QBind) => exec i s = .next t ∧ (∃ o, s.Began t g c o ∧ o.kind = .calc [.sreg d r]) ∧
      ∃ g', t.gang? g.uid = some g' ∧ lookup g'.q q.toNat = x
    Issues i c s f g sp → lookup g.q q.toNat = none →
    (w.extractLsb' 0 2 = 0 → e.owner = none → n ∈ (s.home g).engines.map (·.num) → ∃ t, ends t 0 (some (.copy n w)) ∧
      (t.home g).engine n = { e with owner := some g.owner, ctx := g.ctx, next := 1, cmds := [], events := [], restart := false }) ∧
    (w.extractLsb' 0 2 = 0 → e.owner = some g.owner → ∃ t, ends t 0 (some (.copy n w)) ∧ (t.home g).engine n = e) ∧
    (w.extractLsb' 0 2 = 0 → (∃ o, e.owner = some o ∧ o ≠ g.owner) → ∃ t, ends t 1 none) ∧
    (w.extractLsb' 0 2 = 1 → ∀ j, ((List.range 16).find? fun i => (s.bfe? die i).isNone) = some j → die ∈ s.dies.map (·.die) →
      ∃ t y, ends t 0 (some (.bfe die j w)) ∧ t.bfe? die j = some y ∧ y.owner = g.owner ∧ y.ctx = g.ctx ∧ y.set = false ∧ y.batches = []) ∧
    (w.extractLsb' 0 2 = 1 → (∀ j < 16, (s.bfe? die j).isSome = true) → ∃ t, ends t 1 none) ∧
    (w.extractLsb' 0 2 = 2 → ∃ t, ends t 0 (some (.halyard die w))) ∧
    (w.extractLsb' 0 2 = 3 → ∃ t, ends t 2 none)) ∧
  (∀ (c : Ctl) (d b : SR) (q : QR) (n : BitVec 3) (s : State) (f : Focus) (g : Gang) (sp : Split),
    let words := (List.range (n.toNat + 1)).map fun i => g.sr (b + BitVec.ofNat 6 i)
    let push := Instr.qpush c d q b n
    (Issues push c s f g sp →
      (∀ k x, g.qbind? q = some (.copy k x) → let e := (s.home g).engine k
        (e.cmds.length < 64 → s.pushWaits g.loc.die g.loc.core k = false → k ∈ (s.home g).engines.map (·.num) → ∃ t o y, exec push s = .next t ∧
          s.Began t g c o ∧ o.kind = .calc [.sreg d (BitVec.ofNat 64 e.next)] ∧
          (t.home g).engine k = { e with next := e.next + 1, cmds := e.cmds ++ [y] } ∧ y.num = e.next ∧ y.words = words ∧ y.st = .queued ∧ y.ctx = g.ctx) ∧
        ((e.cmds.length ≥ 64 ∨ s.pushWaits g.loc.die g.loc.core k = true) →
          exec push s = .next (s.afterAccept f g c (.qpush d (BitVec.ofNat 4 k) words)))) ∧
      (∀ die k x, g.qbind? q = some (.bfe die k x) → exec push s = .next (s.afterAccept f g c (.engine die (some k) d words))) ∧
      ∀ die x, g.qbind? q = some (.halyard die x) → exec push s = .next (s.afterAccept f g c (.engine die none d words))) ∧
    (Issues (.qpop c d q) c s f g sp → exec (.qpop c d q) s = .next (s.afterAccept f g c (.qpop d (g.engRef q)))) ∧
    (Issues (.qtry c d q) c s f g sp →
      ((s.engine (g.engRef q)).events = [] → exec (.qtry c d q) s = .next (s.afterAccept f g c (.calc [.sreg d 0xFFFFFFFFFFFFFFFF]))) ∧
      ∀ w ws, (s.engine (g.engRef q)).events = w :: ws → ∃ t o, exec (.qtry c d q) s = .next t ∧ s.Began t g c o ∧
        o.kind = .calc [.sreg d w] ∧ (t.engine (g.engRef q)).events = ws) ∧
    (Issues (.tlwait c q b) c s f g sp → exec (.tlwait c q b) s = .next
      ((s.afterAccept f g c (.tlwait (g.engRef q) (g.sr b))).onGang g.uid fun g => { g with wait := some (.op s.nextId) })) ∧
    (Issues (.tlread c d q) c s f g sp → exec (.tlread c d q) s =
      .next (s.afterAccept f g c (.calc [.sreg d (BitVec.ofNat 64 (s.engine (g.engRef q)).timeline)]))))

/-! ### The grade board -/

/-- GNEW, GFREE, GPUB, GPROM, GQRY and TSPAWN (R261 to R268): accepted as one operation that carries the value, base, version and grade as read at
issue; TSPAWN without a lane gives 0; else, where its record passes the check of a load, it carries one argument for each lane, or for
the lowest alone with ONE.
What a GRD operation does when it completes (R93, R94, R263 to R267, Table 11.2): its result word holds the code, the value and the entry reported;
the first publication of a live value writes version 1 and a grade no lower than before; a publication at version v, below final and with
amendments left, of a value that no instance of the tenant has consumed through a REFIRE input, writes version v + 1, one amendment more
and a grade no lower than before; a final value gives FINAL and one whose amendments are used up AMEND, with a fault record for the run's
handler and the entry unchanged; GPUB with NB of a bad base gives code 18, and of a good one the first publication takes the base; GPROM of another version gives
code 16, and of the current one, in a tenant without instances, raises the grade alone; GNEW of a live value gives code 17, and else makes it live, with version, grade
and amendments 0; GFREE of a live value that no instance names ends it. -/
def Obligations.Graded : Prop :=
  (∀ (c : Ctl) (d a b : SR) (v : VR) (p : Pred) (nb one keep : Bool) (gr : BitVec 2) (s s' : State) (ps : List (Nat × Place1)) (f : Focus) (g : Gang)
    (sp : Split),
    let id := valueId (g.sr a)
    let spawn := Instr.tspawn c p one keep d a v
    (Issues (.gnew c d a b) c s f g sp → exec (.gnew c d a b) s = .next (s.afterAccept f g c (.gnew d (g.sr a) (g.sr b)))) ∧
    (Issues (.gfree c d a) c s f g sp → exec (.gfree c d a) s = .next (s.afterAccept f g c (.gfree d id))) ∧
    (Issues (.gpub c nb gr d a b) c s f g sp → exec (.gpub c nb gr d a b) s = .next (s.afterAccept f g c (.gpub d id nb (g.sr b) gr.toNat))) ∧
    (Issues (.gprom c gr d a b) c s f g sp →
      exec (.gprom c gr d a b) s = .next (s.afterAccept f g c (.gprom d id ((g.sr b).toNat % 65536) gr.toNat))) ∧
    (Issues (.gqry c d a) c s f g sp → exec (.gqry c d a) s = .next (s.afterAccept f g c (.gqry d id))) ∧
    (Issues spawn c s f g sp → takes g sp p = 0 → exec spawn s = .next (s.afterAccept f g c (.calc [.sreg d 0]))) ∧
    (Issues spawn c s f g sp → takes g sp p ≠ 0 → (g.sr a).toNat % 128 = 0 →
      s.allPass f g c { plainNeed .load 1 with window := false } [(32, (g.sr a).toNat)] s' ps → ∃ t o, exec spawn s = .next t ∧ s'.Began t g c o ∧
      o.kind = .tspawn d (g.sr a).toNat ((if one then (lanesOf (takes g sp p)).take 1 else lanesOf (takes g sp p)).map fun l =>
        if keep then none else some (g.pair v.toNat l).toNat) false 0 [])) ∧
  (∀ (s s1 : State) (o : Op) (g : Gang) (d : SR) (id e : Nat), s.op? o.id = some o → (s.core o.die o.core).gated = false → s.gang? o.uid = some g →
    s.readValue o.ctx id = (s1, some e) →
    let word := fun (code e : Nat) => 0#6 ++ BitVec.ofNat 4 (veAmcnt e) ++ BitVec.ofNat 2 (veGrade e) ++ BitVec.ofNat 16 (veVersion e) ++
      BitVec.ofNat 20 id ++ BitVec.ofNat 16 code
    let ends := fun (w : W64) (m : List Host.Cell) => ∃ t g', exec (.longLatencyComplete o.id) s = .next t ∧ t.op? o.id = none ∧
      t.gang? o.uid = some g' ∧ g'.sr d = w ∧ (∀ r : SR, r ≠ d → g'.sr r = g.sr r) ∧ t.mem = m
    let faults := fun (code gr : Nat) => ∀ i, s.inst? o.ctx o.inst = some i → i.tr.fhrec ≠ 0 → (s.ctx o.ctx).killed = false →
      (s.ctx o.ctx).faults.length < 64 → o.ctx ∈ s.ctxs.map (·.num) →
      ends (word code e) s1.mem ∧ ∃ t x, exec (.longLatencyComplete o.id) s = .next t ∧ (t.ctx o.ctx).faults = (s.ctx o.ctx).faults ++ [x] ∧
        x.fhrec = i.tr.fhrec ∧ x.w = faultWords code id (veVersion e) (veGrade e) gr o.name (taskId o.inst o.run) o.ip
    (o.kind = .gqry d id → veLive e = true → ends (word 0 e) s1.mem) ∧
    (o.kind = .gqry d id → veLive e = false → faults 3 0) ∧
    (∀ base gr, o.kind = .gpub d id false base gr → s.releaseMet o.uid o.id (((s.peekValue o.ctx id).map veScope).getD 3) = true → veLive e = true →
      (veVersion e = 0 → let x := veSet e 1 (max gr (veGrade e)) (veAmcnt e)
        ∀ s2, s1.writeValue o.ctx id x = some s2 → ends (word 0 x) s2.mem ∧ veVersion x = 1 ∧ veGrade x = max gr (veGrade e) % 4 ∧ veAmcnt x = veAmcnt e ∧
          veLive x = true ∧ veBase x = veBase e ∧ veLen x = veLen e) ∧
      (veVersion e ≠ 0 → veGrade e ≠ 3 → veAmcnt e < (s.ctx o.ctx).amendLimit →
        (∀ i ∈ s.insts, (s.ctx i.ctx).ten = (s.ctx o.ctx).ten → ∀ n < i.tr.ins.length, (i.tr.ins.getD n (0, 0, false)).2.2 = true →
          ∀ x, i.cons[n]? = some x → x.val ≠ id) →
        let x := veSet e (veVersion e + 1) (max gr (veGrade e)) (veAmcnt e + 1)
        ∀ s2, s1.writeValue o.ctx id x = some s2 → ends (word 0 x) s2.mem ∧ veVersion x = (veVersion e + 1) % 65536 ∧ veAmcnt x = (veAmcnt e + 1) % 16 ∧
          veLive x = true ∧ veBase x = veBase e ∧ veLen x = veLen e) ∧
      (veVersion e ≠ 0 → veGrade e = 3 → faults 1 gr) ∧
      (veVersion e ≠ 0 → veGrade e ≠ 3 → (s.ctx o.ctx).amendLimit ≤ veAmcnt e → faults 2 gr)) ∧
    (∀ ver gr, o.kind = .gprom d id ver gr → veLive e = true → veVersion e ≠ 0 → ver ≠ veVersion e → ends (word 16 e) s1.mem) ∧
    (∀ a b, o.kind = .gnew d a b → (b.extractLsb' 32 20).toNat = id → a.toNat % 4 = 0 → b.toNat % 4 = 0 → a.extractLsb' 54 10 = 0 →
      b.extractLsb' 52 12 = 0 → (veLive e = true → ends (word 17 e) s1.mem) ∧
      (veLive e = false → let x := (a.extractLsb' 0 52).toNat + 2 ^ 64 * (b.extractLsb' 0 32).toNat + 2 ^ 98 * (a.getLsbD 52).toNat + 2 ^ 99 * (a.getLsbD 53).toNat + 2 ^ 120
        ∀ s2, s1.writeValue o.ctx id x = some s2 → ends (word 0 x) s2.mem ∧ veLive x = true ∧ veVersion x = 0 ∧ veGrade x = 0 ∧ veAmcnt x = 0 ∧
          veBase x = a.toNat % 2 ^ 52 ∧ veLen x = b.toNat % 2 ^ 32)) ∧
    (o.kind = .gfree d id → veLive e = true → (∀ i ∈ s.insts, (s.ctx i.ctx).ten = (s.ctx o.ctx).ten → ∀ p ∈ i.tr.ins, p.1 ≠ id) →
      let x := setBits e 120 1 0
      ∀ s2, s1.writeValue o.ctx id x = some s2 → ends (word 0 x) s2.mem ∧ veLive x = false ∧ veVersion x = veVersion e ∧ veGrade x = veGrade e) ∧
    (∀ gr, o.kind = .gprom d id (veVersion e) gr → veLive e = true → veVersion e ≠ 0 → (∀ i ∈ s.insts, (s.ctx i.ctx).ten ≠ (s.ctx o.ctx).ten) →
      let x := setBits e 96 2 (max gr (veGrade e))
      (gr ≤ veGrade e → ends (word 0 e) s1.mem) ∧
      (veGrade e < gr → gr < 4 → ∀ s2, s1.writeValue o.ctx id x = some s2 → ends (word 0 x) s2.mem ∧ veGrade x = gr ∧ veVersion x = veVersion e ∧
        veAmcnt x = veAmcnt e ∧ veLive x = true)) ∧
    (∀ base gr, o.kind = .gpub d id true base gr → s.releaseMet o.uid o.id (((s.peekValue o.ctx id).map veScope).getD 3) = true →
      ((base.toNat % 4 ≠ 0 ∨ base.extractLsb' 52 12 ≠ 0) → ends (word 18 ((s.peekValue o.ctx id).getD 0)) s.mem) ∧
      (base.toNat % 4 = 0 → base.extractLsb' 52 12 = 0 → veLive e = true → veVersion e = 0 → let x := setBits (veSet e 1 (max gr (veGrade e)) (veAmcnt e)) 0 52 base.toNat
        ∀ s2, s1.writeValue o.ctx id x = some s2 → ends (word 0 x) s2.mem ∧ veBase x = base.toNat ∧ veVersion x = 1 ∧ veLen x = veLen e ∧ veLive x = true)))

/-! ### Named gangs -/

/-- RSTV and HOLD outside a region (R126, R269 to R271): without a lane RSTV ends with 255; else it is accepted, and the lanes of its source as they
stand at issue are on their way to the name of S[SA]; in a region (R26, R27) they enter the region store buffer and count one line-write, and beyond
64 REGOVF stands to be taken, at the head. HOLD arms its entry for N deliveries more, and the counter of the flag rises by N.
REGROUP (R37, R38, R272): the gang waits at the instruction with its lanes; alone, once settled, its lanes are packed in ascending order of their keys,
its registers follow their lanes, S62 holds the lowest key, and it goes on at the successor. -/
def Obligations.NamedGangs : Prop :=
  (∀ (c : Ctl) (p : Pred) (rel sts regm : Bool) (scope : BitVec 3) (d b : VR) (a st : SR) (k : BitVec 4) (n : BitVec 6) (s : State) (f : Focus) (g : Gang)
    (sp : Split),
    let i := Instr.rstv c p rel sts scope d a b st
    let dest := if sts then some st else none
    (Issues i c s f g sp → takes g sp p = 0 → exec i s = .next (s.afterAccept f g c (.rstv dest (some 255)))) ∧
    (Issues i c s f g sp → takes g sp p ≠ 0 → g.region = none → (nameDev (g.sr a) = s.dev ∨ s.ungated g.ctx g.inst g.run) →
      ∃ t o r, exec i s = .next t ∧ s.Began t g c o ∧ o.kind = .rstv dest none ∧ t.rstvs = s.rstvs ++ [r] ∧ r.name = g.sr a ∧ r.reg = d ∧
        r.lanes = takes g sp p ∧ r.v = g.vr b.toNat ∧ r.op = o.id ∧ r.rel = rel ∧ r.scope = scope ∧ r.ten = (s.ctx g.ctx).ten ∧ r.tag = none) ∧
    (Issues i c s f g sp → takes g sp p ≠ 0 → (nameDev (g.sr a) = s.dev ∨ s.ungated g.ctx g.inst g.run) → ∀ r, g.region = some r →
      (r.count < 64 → ∃ t g' r' x, exec i s = .next t ∧ t.gang? g.uid = some g' ∧ g'.region = some r' ∧ r'.buf = r.buf ++ [x] ∧ x.setf = c.setf ∧
        x.body = .rstv (g.sr a) d (takes g sp p) (g.vr b.toNat) rel scope ∧ r'.count = r.count + 1 ∧ g'.s = g.s ∧ g'.v = g.v ∧ t.rstvs = s.rstvs ∧
        t.ops = s.ops ∧ t.items = s.items ∧ t.mem = s.mem) ∧
      (r.count ≥ 64 → ∃ t g' q, exec i s = .next t ∧ t.gang? g.uid = some g' ∧ g'.trap = some q ∧ q.cause = causeREGOVF ∧ q.ip = f.pc ∧ q.ret = r.head ∧
        q.reg = true ∧ t.rstvs = s.rstvs ∧ t.mem = s.mem)) ∧
    (Issues (.hold c regm d k n) c s f g sp →
      let h : HoldEnt := { armed := true, regm := regm, reg := d, rem := (g.hold.getD k.toNat HoldEnt.blank).rem + n.toNat }
      exec (.hold c regm d k n) s = .next ((s.afterFixed f g 1 c []).onGang g.uid fun x =>
        { x.incFlag k n.toNat with hold := x.hold.setIfInBounds k.toNat h }))) ∧
  (∀ (c : Ctl) (p : Pred) (vt key vl : VR) (n : BitVec 6) (s : State) (f : Focus) (g : Gang) (sp : Split),
    (Issues (.regroup c p vt key vl n) c s f g sp → ∃ t g', exec (.regroup c p vt key vl n) s = .next t ∧ t.gang? g.uid = some g' ∧
      g'.wait = some .regroup ∧ g'.rgPred = takes g sp p ∧ g'.rgArg = some (vt, key, vl, n.toNat + 1) ∧ g'.s = g.s ∧ g'.v = g.v ∧
      g'.table = g.table ∧ t.mem = s.mem) ∧
    (s.gangAt g.loc = some g → s.gang? g.uid = some g → (∀ x ∈ s.gangs, x.uid = g.uid → x = g) → g.loc.slot < 64 → g.cohort = none → g.status ≠ .saved →
      g.wait = some .regroup → g.rgArg = some (vt, key, vl, n.toNat + 1) → g.rgPred ≠ 0 → g.settled = true → g.pend = [] → g.table = [sp] →
      let order := rgSort ((lanesOf g.rgPred).map fun l => { pos := 0, key := (lane (g.mainV key.toNat) l).toNat, uid := g.uid, lane := l })
      ∃ t g' x, exec (.regroupStep g.loc.die g.loc.core (g.loc.slot + 16)) s = .next t ∧ t.gang? g.uid = some g' ∧ g'.wait = none ∧
        g'.table = [x] ∧ x.pc = succPc sp.pc ∧ x.exec = BitVec.ofNat 32 (2 ^ (lanesOf g.rgPred).length - 1) ∧ x.fmt = sp.fmt ∧
        (∀ r : SR, r ≠ 62 → g'.sr r = g.sr r) ∧ (∀ y, order[0]? = some y → g'.sr 62 = BitVec.ofNat 64 y.key) ∧
        (∀ l y, order[l]? = some y → lane g'.tidx l = lane g.tidx y.lane ∧ (∀ j ≤ n.toNat, vl.toNat + j ≠ vt.toNat →
          lane (g'.mainV (vl.toNat + j)) l = lane (g.mainV (vl.toNat + j)) y.lane) ∧ lane (g'.mainV vt.toNat) l = lane g.tidx y.lane) ∧
        (∀ (i j : Nat) (x y : RgLane), i ≤ j → order[i]? = some x → order[j]? = some y → x.key ≤ y.key) ∧ (order.map (·.lane)).Perm (lanesOf g.rgPred) ∧ t.mem = s.mem))

/-! ### Collectives -/

/-- COLL.PUT, COLL.GET, COLL.RADD and COLL.RMAX outside a region (R140, R141, R143, R274, R275): without a lane nothing is sent; where the communicator's entry
is live, not aborted and the core in the tenant's partition, and every lane names a rank and an aligned offset within the window, one
operation is accepted with one access for each lane, at the rank's window, and asks for the core's grant; an entry that is not live or is aborted
raises PROT. That the table of communicators is read where it lies is the model's reading (log 15).
In a region (R26, R27) the forms that write enter the region store buffer with their lanes' places and data, and count a line-write for each destination
line; no item and no request leaves; beyond 64 REGOVF stands to be taken, at the head. -/
def Obligations.Collectives : Prop :=
  ∀ (c : Ctl) (p : Pred) (d off rank : VR) (a : SR) (scl : BitVec 2) (disp : BitVec 15) (s s1 s2 : State) (cm : CommAt) (ps : List (Nat × Place1)) (f : Focus)
    (g : Gang) (sp : Split),
    let e := cm.ent
    let comm := ((g.sr a).extractLsb' 0 8).toNat
    let ls := lanesOf (takes g sp p)
    let at' := fun (l : Nat) => g.ea 0 off scl (disp15 disp) l
    let known := fun (t : State) => (t.noteComm g.ctx comm cm).abortCleared (t.ctx g.ctx).ten comm
    let coll := fun (i : Instr) (kind : OpKind) (k : ItemKind) (sub : BitVec 8) => Issues i c s f g sp → g.region = none →
      (takes g sp p = 0 → exec i s = .next (s.afterAccept f g c (.calc []))) ∧
      (takes g sp p ≠ 0 → (s.setGang (g.issued s.clock c f)).readComm (g.issued s.clock c f) comm = (s1, some cm) →
        (ceLive e = true → ceAbt e = false → s1.inPartition g = true →
          s1.collLanes g.ctx e (fun l => (lane (g.vr rank.toNat) l).toNat) at' ls = (s2, .ok ps) → ∀ s3, known s2 = s3 → s3.ungated g.ctx g.inst g.run →
          ∃ t o new, exec i s = .next t ∧ t.ops = s3.ops ++ [o] ∧ o.kind = kind ∧ o.uid = g.uid ∧ t.items = s3.items ++ new ∧ t.mem = s3.mem ∧
            (∀ x ∈ new, x.op = o.id ∧ x.kind = k ∧ x.comm = some comm ∧ x.scope = 4) ∧
            (∀ q ∈ ps, ∃ x ∈ new, ∃ y ∈ x.accs, x.dst = q.2.dst ∧ x.line = q.2.line ∧ y.lane = q.1 ∧ y.off = q.2.off ∧ y.n = 4 ∧
              y.val = (lane (g.vr d.toNat) q.1).toNat) ∧
            ∃ r, (t.home g).arbQ = (s3.home g).arbQ ++ [r] ∧ r.op = o.id ∧ r.uid = g.uid ∧ r.comm = comm) ∧
        ((ceLive e = false ∨ ceAbt e = true) → ∃ t g' q, exec i s = .next t ∧ t.gang? g.uid = some g' ∧ g'.trap = some q ∧ q.cause = causePROT ∧
          q.sub = sub ∧ q.ip = f.pc ∧ q.ret = f.pc ∧ t.items = s1.items))
    let buffers := fun (i : Instr) (k : ItemKind) => ∀ r, Issues i c s f g sp → g.region = some r → takes g sp p ≠ 0 →
      let g1 : Gang := { g.issued s.clock c f with region := some { r with comm := some comm } }
      let cost := ((ps.map fun q => (q.2.dst, q.2.line)).eraseDups).length
      (s.setGang g1).readComm g1 comm = (s1, some cm) → ceLive e = true → ceAbt e = false → s1.inPartition g = true →
      s1.collLanes g.ctx e (fun l => (lane (g.vr rank.toNat) l).toNat) at' ls = (s2, .ok ps) →
      ∀ s3, known s2 = s3 → s3.ungated g.ctx g.inst g.run → (s3.gang? g.uid).isSome = true →
      (r.count + cost ≤ 64 → ∃ t g' r' b, exec i s = .next t ∧ t.gang? g.uid = some g' ∧ g'.region = some r' ∧ r'.buf = r.buf ++ [b] ∧ b.setf = c.setf ∧
        b.body = .coll comm k (ps.map fun q => (q.2, mkAcc q.1 q.2.off 4 (lane (g.vr d.toNat) q.1).toNat 0)) ∧ r'.count = r.count + cost ∧
        r'.comm = some comm ∧ t.items = s3.items ∧ t.ops = s3.ops ∧ (t.home g).arbQ = (s3.home g).arbQ ∧ t.mem = s3.mem) ∧
      (r.count + cost > 64 → ∃ t g' q, exec i s = .next t ∧ t.gang? g.uid = some g' ∧ g'.trap = some q ∧ q.cause = causeREGOVF ∧ q.ip = f.pc ∧ q.ret = r.head ∧
        q.reg = true ∧ t.items = s3.items ∧ t.mem = s3.mem)
    buffers (.collPut c p d a scl off rank disp) .store ∧ buffers (.collRaddF32 c p d a scl off rank disp) (.reduce .faddF32) ∧
    buffers (.collRaddBf16 c p d a scl off rank disp) (.reduce .faddBf16x2) ∧ buffers (.collRmaxF32 c p d a scl off rank disp) (.reduce .fmaxF32) ∧
    buffers (.collRaddI32 c p d a scl off rank disp) (.reduce .add) ∧
    coll (.collPut c p d a scl off rank disp) .coll .store 1 ∧ coll (.collGet c p d a scl off rank disp) (.loadV d 2 false) .load 0 ∧
    coll (.collRaddF32 c p d a scl off rank disp) .coll (.reduce .faddF32) 3 ∧ coll (.collRaddBf16 c p d a scl off rank disp) .coll (.reduce .faddBf16x2) 3 ∧
    coll (.collRmaxF32 c p d a scl off rank disp) .coll (.reduce .fmaxF32) 3 ∧ coll (.collRaddI32 c p d a scl off rank disp) .coll (.reduce .add) 3

/-! ### Inference -/

/-- CONFX and ACCEPT (R277 to R280): CONFX will write the lanes whose confidence is at least the threshold, with EMIT after it has reported each of them
to the BFE; ACCEPT the lanes of which every lane since the start of their segment passes with its token in range, and where one is out of range it
sets DRAFTOOR with the same write; with one out of range and the trap enabled, OOR stands to be taken and GSTAT says so.
APPORT and VRAND (R86, R281, R282): APPORT will write the counts of its lanes, which together make the total: each the floor of its exact share T × w / W,
or of T / n where W is 0, or one more, and one more only on the lanes of the largest fractions, ties to the lower lane; a NaN, negative or zero weight
counts 0, and beside a +∞ only infinities count, 1 each. VRAND will write the hash of the counter and the seed of R86, as it stands or as the F32 of its upper
24 bits times 2^−24. -/
def Obligations.ConfidenceAndApportionment : Prop :=
  (∀ (c : Ctl) (p : Pred) (prob : Bool) (k seg : KR) (a ver : VR) (b : SR) (q : QR) (s : State) (f : Focus) (g : Gang) (sp : Split),
    let t0 := takes g sp p
    let m := maskOf t0 fun l => confident (lane (g.vr a.toNat) l).toNat ((g.sr b).extractLsb' 0 32).toNat
    let rows := (lanesOf m).map fun l => (l, (lane (g.vr (a.toNat + 1)) l).toNat, (lane (g.vr ver.toNat) l).toNat % 65536)
    let col := fun (n l : Nat) => (lane (g.vr (a.toNat + n)) l).toNat
    let lo := ((g.sr (b + 1)).extractLsb' 0 32).toNat
    let hi := ((g.sr (b + 1)).extractLsb' 32 32).toNat
    let outside := fun (l : Nat) => t0.getLsbD l = true ∧ (((g.sr b).extractLsb' 0 32).toNat ≤ col 0 l ∨ (lo ≤ col 0 l ∧ col 0 l < hi))
    let ends := fun (i : Instr) (r : W32) (ws : List Wr) => exec i s = .next (s.afterAccept f g c (.calc ([.kreg k r] ++ ws)))
    let pass := fun (l : Nat) => t0.getLsbD l = true ∧ ¬ outside l ∧ (if prob then probPass (col 1 l) (col 2 l) (col 3 l) else col 0 l == col 1 l) = true
    (Issues (.confx c p false k a b ver q) c s f g sp → exec (.confx c p false k a b ver q) s = .next (s.afterAccept f g c (.calc [.kreg k m]))) ∧
    (Issues (.confx c p true k a b ver q) c s f g sp → ∀ die cfg, g.qbfe? q = some (die, cfg) → exec (.confx c p true k a b ver q) s =
      .next (s.afterAccept f g c (.confx [.kreg k m] die cfg ((g.sr b).extractLsb' 32 8).toNat rows rows.length))) ∧
    (Issues (.accept c p prob k a b seg) c s f g sp → (g.oorTrap = false ∨ ∀ l < 32, ¬ outside l) → ∃ r : W32,
      ((∀ l < 32, ¬ outside l) → ends (.accept c p prob k a b seg) r []) ∧ (∀ l < 32, outside l → ends (.accept c p prob k a b seg) r [.gsSet gsDRAFTOOR]) ∧
      ∀ l < 32, r.getLsbD l = true ↔ ∃ j ≤ l, (j = 0 ∨ (g.kr seg).getLsbD j = true) ∧ ∀ i, j ≤ i → i ≤ l → pass i) ∧
    (Issues (.accept c p prob k a b seg) c s f g sp → g.oorTrap = true → ∀ l < 32, outside l → (∀ i < l, ¬ outside i) →
      ∃ t g' x, exec (.accept c p prob k a b seg) s = .next t ∧ t.gang? g.uid = some g' ∧ g'.trap = some x ∧ x.cause = causeOOR ∧
        x.lane = BitVec.ofNat 5 l ∧ x.ip = f.pc ∧ g'.gstat = g.gstat ||| gsDRAFTOOR ∧ g'.s = g.s ∧ g'.k = g.k ∧ t.ops.length = s.ops.length)) ∧
  (∀ (c : Ctl) (p : Pred) (d a : VR) (b : SR) (s : State) (f : Focus) (g : Gang) (sp : Split),
    let ls := lanesOf (takes g sp p)
    let total := ((g.sr b).extractLsb' 0 32).toNat
    let val := fun (l : Nat) => f32 (lane (g.vr a.toNat) l).toNat
    let infs := ls.any fun l => val l == .inf false
    let w := fun (l : Nat) => if infs then (if val l = .inf false then 1 else 0) else match val l with
      | .fin false m e => m * 2 ^ (e + 149).toNat
      | _ => 0
    let whole := (ls.map w).sum
    let floor := fun (l : Nat) => if whole = 0 then total / ls.length else total * w l / whole
    let frac := fun (l : Nat) => if whole = 0 then 0 else total * w l % whole
    let hash := fun (x : W32) =>
      let x := (x ^^^ (x >>> 16)) * 0x7FEB352D#32
      let x := (x ^^^ (x >>> 15)) * 0x846CA68B#32
      x ^^^ (x >>> 16)
    let raw := fun (l : Nat) => hash (hash (lane (g.vr a.toNat) l ^^^ (g.sr b).extractLsb' 0 32) ^^^ (g.sr b).extractLsb' 32 32)
    (Issues (.apport c p d a b) c s f g sp → ∃ v : VReg, exec (.apport c p d a b) s = .next (s.afterAccept f g c (.calc [.vreg d (takes g sp p) 0xFFFFFFFF v])) ∧
      (ls ≠ [] → (ls.map fun l => (lane v l).toNat).sum = total) ∧ (∀ l ∈ ls, (lane v l).toNat = floor l ∨ (lane v l).toNat = floor l + 1) ∧
      ∀ l ∈ ls, ∀ j ∈ ls, (lane v l).toNat = floor l + 1 → (lane v j).toNat = floor j → frac j ≤ frac l ∧ (frac j = frac l → l < j)) ∧
    (Issues (.vrand c p true d a b) c s f g sp → exec (.vrand c p true d a b) s =
      .next (s.afterAccept f g c (.calc [.vreg d (takes g sp p) 0xFFFFFFFF (mkV raw)]))) ∧
    (Issues (.vrand c p false d a b) c s f g sp → exec (.vrand c p false d a b) s =
      .next (s.afterAccept f g c (.calc [.vreg d (takes g sp p) 0xFFFFFFFF
        (mkV fun l => BitVec.ofNat 32 (roundF fF32 0 (.fin false ((raw l).toNat / 256) (-24))).bits)]))))

/-! ### Events of the schedulers -/

/-- FIXED_RESULT_WRITE, LONG_LATENCY_COMPLETE and PAUSE_END (R9, R39, R40, R42, R204): a result that is due is written and its flag falls, and results
of later cycles stay; a completed operation's writes land, its flag falls and it is gone, a scalar load with the extended datum, while
one whose items are outstanding stays; a pause that is over ends; K0 reads all ones whatever lands.
ACTIVE_SET_EXCHANGE, PARKED_RETRY, CORE_GATE, CORE_WAKE, POWER_LEAVE_GRANT and POWER_LEAVE_RELEASE (R42, R43, R318, R341, R343, R365): a pending gang enters a
set with a free place, or takes that of a gang that has waited 64 cycles or yielded, or whose taker's promise falls due (log 2); a parked gang that may retry goes on unless its translation
faults again; an idle core is gated, and wakes with its L1 empty; at a multiple of 32 cycles a leave asked for before is
granted within the budget, and one that is over is dropped. What wakes a gated core, and that a result waits for its wake, are the model's reading (log 88), and where the late result of a region
lands that has no flag is its choice (log 67). -/
def Obligations.ResultAndCoreEvents : Prop :=
  (∀ (s : State) (r : GRef) (g : Gang), s.gangAt r = some g → s.gang? g.uid = some g →
    (∀ p rest, g.pend = p :: rest → p.due ≤ s.clock → (∀ q ∈ rest, s.clock < q.due) → exec (.fixedResultWrite r) s =
      .next (s.setGang ((({ g with pend := rest } : Gang).landAll p.opb p.wrs).decFlag p.setf))) ∧
    (∃ t g', exec (.fixedResultWrite r) s = .next t ∧ t.gang? g.uid = some g' ∧ g'.pend = g.pend.filter (fun p => s.clock < p.due) ∧ t.mem = s.mem) ∧
    (∀ o ws, s.op? o.id = some o → (s.core o.die o.core).gated = false → o.uid = g.uid → o.kind = .calc ws → ∃ t, exec (.longLatencyComplete o.id) s = .next t ∧ t.op? o.id = none ∧
      t.mem = s.mem ∧ (o.lost = false → t.gang? g.uid = some ((g.landAll o.opb ws).decFlag o.setf)) ∧
      (o.opb = true → o.lost = true → ∃ g', t.gang? g.uid = some g' ∧ g'.v = g.v ∧ g'.region = g.region ∧
        ∀ k, g'.counter k = g.counter k - (if o.setf.toNat = k ∧ k < 12 then 1 else 0))) ∧
    (∀ o d wid sx i a, s.op? o.id = some o → (s.core o.die o.core).gated = false → o.uid = g.uid → o.kind = .loadS d wid sx → s.items.filter (fun x => x.op == o.id) = [i] → i.accs = [a] →
      a.ov = 0 → (i.st = .done → ∃ t g', exec (.longLatencyComplete o.id) s = .next t ∧ t.gang? g.uid = some g' ∧ t.op? o.id = none ∧ t.mem = s.mem ∧
        g'.sr d = BitVec.ofNat 64 (extendTo 64 wid sx a.val) ∧ ∀ x : SR, x ≠ d → g'.sr x = g.sr x) ∧
      (i.st = .queued → exec (.longLatencyComplete o.id) s = .next s)) ∧
    (g.pauseTo ≤ s.clock → exec (.pauseEnd r) s = .next (s.onGang g.uid fun x => { x with pauseTo := 0 })) ∧
    ∀ opb v, g.land opb (.kreg 0 v) = g ∧ g.kr 0 = 0xFFFFFFFF) ∧
  (∀ (s : State) (r q : GRef) (g h : Gang) (d c id : Nat), s.gangAt r = some g → s.gang? g.uid = some g →
    (g.status = .pending → (s.activeSet r.die r.core (schedOf r)).length < 8 → ∃ t g', exec (.activeSetExchange r r) s = .next t ∧
      t.gang? g.uid = some g' ∧ g'.status = .active ∧ g'.age = s.nextId ∧ g'.s = g.s ∧ g'.table = g.table) ∧
    (s.gangAt q = some h → s.gang? h.uid = some h → g.uid ≠ h.uid → r ≠ q → r.die = q.die → r.core = q.core → schedOf r = schedOf q → g.status = .active →
      h.status = .pending → (s.wantsExchange g = true ∨ s.mustEnter h = true) → s.eligible h = true → ∃ t g' h', exec (.activeSetExchange r q) s = .next t ∧
      t.gang? g.uid = some g' ∧ t.gang? h.uid = some h' ∧ g'.status = .pending ∧ h'.status = .active) ∧
    (∀ va acc, g.status = .parkedFault → g.retry = true → g.pfAcc = some (va, acc) →
      let x := (s.onGang g.uid fun g => { g with retry := false }).xlateCore r.die r.core g.ctx va.toNat (accOfCode acc)
      ∃ t g', exec (.parkedRetry r) s = .next t ∧ t.gang? g.uid = some g' ∧ g'.retry = false ∧ g'.table = g.table ∧
        (x.2 = .xlate → g'.status = .parkedFault) ∧ (x.2 ≠ .xlate → g'.status = .pending ∧ g'.pfAcc = none)) ∧
    ((s.core d c).gated = false → s.coreIdle d c = true → ∃ t, exec (.coreGate d c) s = .next t ∧ (t.core d c).gated = true) ∧
    ((s.core d c).gated = true → s.wakes d c = true → ∃ t, exec (.coreWake d c) s = .next t ∧ (t.core d c).gated = false ∧ (t.core d c).l1 = [] ∧ t.mem = s.mem) ∧
    (∀ l, d ∈ s.dies.map (·.die) → (s.die d).leaves = [l] → l.held = false → l.asked < s.clock → (s.die d).bound / 16 ≠ s.clock / 32 →
      (s.clock % 32 ≠ 0 → exec (.powerLeaveGrant d) s = .next s) ∧
      (s.clock % 32 = 0 → 0 < (if l.coll then plCbud (s.die d).plb else plMbud (s.die d).plb) →
        ∃ t, exec (.powerLeaveGrant d) s = .next t ∧ (t.die d).leaves = [{ l with held := true }])) ∧
    (d ∈ s.dies.map (·.die) → ∃ t, exec (.powerLeaveRelease d id) s = .next t ∧ (t.die d).leaves = (s.die d).leaves.filter fun l => !(l.id == id && l.freed)))

/-- LINE_FETCH (R149, R150, R152, R154, R168, R169, R366): the 64 bytes of the line, from a copy of the core's that no unexposed write has reached, or else from
the order point once no write is in progress on the line and the host has given up what it may have modified, become the split's latch if their parity
holds and a transfer stands at a target; a transfer elsewhere kills the gang with CTXERR.IBT, and a trap vector without its target bit kills the context
with CTXERR.HVEC; the gang counts the failures of parity of a line in succession, and the fourth kills the context with CTXERR.MCHK. A core that may keep no copy
of the frame reads the order point. That a copy which an unexposed write has reached is not read is the model's reading (log 32). -/
def Obligations.LineFetches : Prop :=
  ∀ (s s1 : State) (r : GRef) (sid pa : Nat) (e : W64) (g : Gang) (sp : Split), s.gangAt r = some g → s.gang? g.uid = some g → r = g.loc →
    g.split? sid = some sp → g.mayIssue = true → g.fetches sp = true → sp.next = .fetch → (s.core r.die r.core).gated = false → (slotOf sp.pc).isSome = true → (lineOf sp.pc).toNat < lwin →
    s.xlateCore r.die r.core g.ctx (lineOf sp.pc).toNat .fetch = (s1, .ok pa e) → ptePeer e = false → pteHost e = false → s1.present pa = true →
    g.ctx ∈ s.ctxs.map (·.num) →
    let line := lineBase pa
    let n := (lookup g.parity (lineOf sp.pc).toNat).getD 0
    let fill := s1.mayFill r.die r.core g.ctx line
    let takes := fun (bytes : List Byte) =>
      let slots := (List.range 5).map fun i => lineSlot bytes i
      let word := lineWord bytes
      let target := sp.chk = 0 ∨ (slotOf sp.pc).any (fun i => tgtBit word i) = true
      (parityOk slots word = true → target → ∃ t g', exec (.lineFetch r sid) s = .next t ∧ t.gang? g.uid = some g' ∧ g'.s = g.s ∧
        g'.table = g.table.map fun x => if x.sid = sid then { x with latch := some { va := lineOf sp.pc, slots := slots, word := word }, chk := 0 } else x) ∧
      (parityOk slots word = true → ¬ target → sp.chk = 1 → ∃ t, exec (.lineFetch r sid) s = .next t ∧ t.gang? g.uid = none ∧
        (t.ctx g.ctx).err = (s.ctx g.ctx).err ||| 4) ∧
      (parityOk slots word = true → ¬ target → sp.chk = 2 → (s.ctx g.ctx).killed = false → ∃ t, exec (.lineFetch r sid) s = .next t ∧
        (t.ctx g.ctx).killed = true ∧ (t.ctx g.ctx).err = (s.ctx g.ctx).err ||| 0x20) ∧
      (parityOk slots word = false → n < 3 → ∃ t g', exec (.lineFetch r sid) s = .next t ∧ t.gang? g.uid = some g' ∧
        g'.table = g.table ∧ g'.parity = insertAt g.parity (lineOf sp.pc).toNat (n + 1)) ∧
      (parityOk slots word = false → 3 ≤ n → (s.ctx g.ctx).killed = false → ∃ t, exec (.lineFetch r sid) s = .next t ∧ (t.ctx g.ctx).killed = true ∧
        (t.ctx g.ctx).err = (s.ctx g.ctx).err ||| 8)
    (∀ x, fill = true → ((s1.core r.die r.core).l1.find? fun x => x.line == line) = some x → (x.nc = true ∨ (s1.early line (.l1 r.die r.core) = false ∧ s1.snoopFirst line = none)) →
      takes ((x.data.drop (pa % 128)).take 64)) ∧
    ((fill = false ∨ ((s1.core r.die r.core).l1.find? fun x => x.line == line) = none) → s1.txn? line = none →
      (if fill && !pteNC e then s1.fillFirst r.die line else s1.snoopFirst line) = none →
      takes (memReadN (s1.recall line).mem pa 64))

/-- SPLIT_MERGE, DEFERRED_SPLIT_RESUME and BARRIER_RECONVERGE of a split and its sibling (R13, R14, R16): both at the reconvergence PC, checked (R154) and with no
SETEXEC or SETFMT in flight, become one split there with the lanes of both and the FMT of the one that holds the lowest lane; a deferred sibling of one that
has stopped becomes live in the fast entry that the stopped one gives up, which moves to the spill stack, or else in a free one; both at one barrier, none
having executed EXIT, become one split there, and at different ones, or after an EXIT, the gang raises BARDIV.
At any depth of divergence: of nested joins the innermost merges, and the rest of the table stays; the outer join does not merge before the inner one has; and
splits of a nested join that all stand at one barrier become one undivided split, with no join left. -/
def Obligations.SplitEvents : Prop :=
  (∀ (s : State) (r : GRef) (g : Gang) (j x y : Split) (pre post : List Split), s.gangAt r = some g → s.gang? g.uid = some g → g.running = true →
    g.table = pre ++ [j, x, y] ++ post → j.kind = .join → x.kind = .live → y.kind = .live → x.depth.toNat = j.depth.toNat + 1 →
    y.depth.toNat = j.depth.toNat + 1 → (∀ z ∈ post, z.kind ≠ .join) → (∀ z, post.head? = some z → z.depth.toNat ≤ j.depth.toNat) →
    x.pc = x.rpc → y.pc = y.rpc → x.chk = 0 → y.chk = 0 → g.writing x.sid = false → g.writing y.sid = false →
    ∃ t g' m, exec (.splitMerge r) s = .next t ∧ t.gang? g.uid = some g' ∧ g'.table = pre ++ [m] ++ post ∧ m.kind = .live ∧ m.exec = x.exec ||| y.exec ∧
      m.pc = x.rpc ∧ m.rpc = j.rpc ∧ m.depth = j.depth ∧ m.fmt = (if lowLane y.exec < lowLane x.exec then y else x).fmt ∧ g'.s = g.s ∧ t.mem = s.mem) ∧
  (∀ (s : State) (r : GRef) (g : Gang) (o z j x y : Split), s.gangAt r = some g → s.gang? g.uid = some g → g.running = true → g.table = [o, z, j, x, y] →
    o.kind = .join → z.kind = .live → j.kind = .join → x.kind = .live → y.kind = .live → z.depth.toNat = o.depth.toNat + 1 → j.depth = z.depth →
    x.depth.toNat = j.depth.toNat + 1 → y.depth = x.depth →
    (y.pc ≠ y.rpc → exec (.splitMerge r) s = .next s) ∧
    ((∀ w ∈ [z, x, y], w.atBar = true ∧ w.pc ≠ w.rpc ∧ g.writing w.sid = false ∧ w.pc = z.pc) → g.exited = false →
      ∃ t g' m low, exec (.barrierReconverge r) s = .next t ∧ t.gang? g.uid = some g' ∧ g'.table = [m] ∧ m.exec = z.exec ||| x.exec ||| y.exec ∧ m.pc = z.pc ∧
        m.depth = 0 ∧ m.atBar = false ∧ low ∈ [z, x, y] ∧ (∀ w ∈ [z, x, y], lowLane low.exec ≤ lowLane w.exec) ∧ m.fmt = low.fmt ∧ g'.trap = none ∧
        t.mem = s.mem)) ∧
  ∀ (s : State) (r : GRef) (g : Gang) (j x y : Split), s.gangAt r = some g → s.gang? g.uid = some g → g.running = true → g.table = [j, x, y] →
    j.kind = .join → x.kind = .live → x.depth.toNat = j.depth.toNat + 1 → y.depth.toNat = j.depth.toNat + 1 → x.sid ≠ y.sid →
    let low := if lowLane y.exec < lowLane x.exec then y else x
    let idle := g.writing x.sid = false ∧ g.writing y.sid = false
    (y.kind = .live → x.pc = x.rpc → y.pc = y.rpc → x.chk = 0 → y.chk = 0 → idle → ∃ t g' m, exec (.splitMerge r) s = .next t ∧ t.gang? g.uid = some g' ∧ g'.table = [m] ∧
      m.kind = .live ∧ m.exec = x.exec ||| y.exec ∧ m.pc = x.rpc ∧ m.chk = 0 ∧ m.rpc = j.rpc ∧ m.depth = j.depth ∧ m.fmt = low.fmt ∧ g'.s = g.s ∧ t.mem = s.mem) ∧
    (y.kind = .deferred → j.sid ≠ x.sid → ((x.pc = x.rpc ∧ x.chk = 0) ∨ x.atBar = true) →
      (x.fast = true → ∃ t g', exec (.deferredSplitResume r) s = .next t ∧ t.gang? g.uid = some g' ∧
        g'.table = [j, { x with fast := false }, { y with kind := .live, fast := true }] ∧ g'.spill = true ∧ g'.s = g.s ∧ (g.spill = true → t.mem = s.mem)) ∧
      (x.fast = false → g.fastFree ≥ 1 → ∃ t g', exec (.deferredSplitResume r) s = .next t ∧ t.gang? g.uid = some g' ∧
        g'.table = [j, x, { y with kind := .live, fast := true }] ∧ g'.s = g.s ∧ t.mem = s.mem)) ∧
    (y.kind = .live → x.atBar = true → y.atBar = true → x.pc ≠ x.rpc → y.pc ≠ y.rpc → idle →
      (g.exited = false → x.pc = y.pc → ∃ t g' m, exec (.barrierReconverge r) s = .next t ∧ t.gang? g.uid = some g' ∧ g'.table = [m] ∧
        m.exec = x.exec ||| y.exec ∧ m.pc = x.pc ∧ m.depth = 0 ∧ m.fmt = low.fmt ∧ m.atBar = false ∧ g'.trap = none ∧ t.mem = s.mem) ∧
      ((x.pc ≠ y.pc ∨ g.exited = true) → ∃ t g' q, exec (.barrierReconverge r) s = .next t ∧ t.gang? g.uid = some g' ∧ g'.trap = some q ∧ q.cause = causeBARDIV ∧
        q.ip = low.pc ∧ q.ret = low.pc ∧ t.mem = s.mem))

/-- BARRIER_PHASE_COMPLETE, RQUOTA_GRANT and CLAIM_GRANT (R22, R49, R57): once every member has arrived and none is pre-empted the phase ends, with every BAR
of it over and no member waiting for one; a waiting RQUOTA that the pool can supply gets its blocks and status 0; a waiting claim that
fits gets its grant word, and its gang goes on. -/
def Obligations.GrantEvents : Prop :=
  ∀ (s : State) (d c n : Nat) (k : Cohort) (o : Op) (g : Gang), (s.gang? g.uid = some g) →
    (s.cohort? d c n = some k → (s.core d c).gated = false → k.members ≠ [] → (∀ u ∈ k.members, u ∈ k.arrived ∧ ∃ x, s.gang? u = some x ∧ x.status ≠ .saved ∧ x.moving = false) →
      (∀ u ∈ k.members, ∀ x, s.gang? u = some x → ∀ p w, x.wait ≠ some (.bar p w)) → ∃ t k', exec (.barrierPhaseComplete d c n) s = .next t ∧
      t.cohort? d c n = some k' ∧ k'.phase = k.phase + 1 ∧ k'.arrived = [] ∧ k'.members = k.members ∧ t.mem = s.mem ∧
      (∀ x ∈ s.ops, x.kind = .bar k.phase c d n → { x with kind := .calc [] } ∈ t.ops) ∧
      ∀ x ∈ s.ops, x.kind = .bar k.phase c d n → g.wait = some (.op x.id) → (∃ g', t.gang? g.uid = some g' ∧ g'.wait = none ∧ g'.s = g.s)) ∧
    (s.cohort? d c n = some k → (s.core d c).gated = false → k.members = [g.uid] → k.arrived = [g.uid] → g.status ≠ .saved → g.moving = false →
      g.wait = some (.bar k.phase false) → ∃ t g' k', exec (.barrierPhaseComplete d c n) s = .next t ∧ t.cohort? d c n = some k' ∧
        k'.phase = k.phase + 1 ∧ k'.arrived = [g.uid] ∧ t.gang? g.uid = some g' ∧ g'.lastArr = some (k.phase + 1) ∧ g'.wait = none ∧ g'.s = g.s ∧ t.mem = s.mem) ∧
    (s.gangAt g.loc = some g → g.cohort = some n → s.cohort? g.loc.die g.loc.core n = some k → s.waitingQuotas g.loc.die g.loc.core n = [o] → o.uid = g.uid →
      s.op? o.id = some o → ∀ dst want, o.kind = .rquota dst want → want - g.vblocks ≤ k.pool → g.wait = some (.rquota o.id) →
      ∃ t g' k', exec (.rquotaGrant g.loc) s = .next t ∧ t.gang? g.uid = some g' ∧ g'.vblocks = want ∧ g'.wait = none ∧ g'.s = g.s ∧ t.mem = s.mem ∧
        t.cohort? g.loc.die g.loc.core n = some k' ∧ k'.pool = k.pool - (want - g.vblocks) ∧ t.op? o.id = some { o with kind := .calc [.sreg dst 0] }) ∧
    (s.waitingClaims g.loc.die g.loc.core = [o] → o.uid = g.uid → s.op? o.id = some o → (∀ x ∈ (s.home g).mom ++ (s.home g).acm, x.going = false) →
      g.wait = some (.op o.id) → ∀ dst m a af m0 a0, o.kind = .mclaim dst m a af → (s.home g).findMom m = some m0 → (s.home g).findAcm a af = some a0 →
      ∃ t g', exec (.claimGrant g.loc.die g.loc.core) s = .next t ∧ t.gang? g.uid = some g' ∧ g'.wait = none ∧ g'.s = g.s ∧ t.mem = s.mem ∧
        t.op? o.id = some { o with kind := .calc [.sreg dst (grantWord 0 a0 m0 af a m)] } ∧
        (t.home g).mom = (s.home g).mom ++ (List.range m).map fun j => Tile.new (m0 + j) false g.owner)

/-! ### Events of the tiles -/

/-- TILE_FILL_DONE, TILE_DRAIN_DONE, MLOOP_STEP, MDRAIN_ARRIVAL, HELD_ADDITION_APPLY and the completion of an MMAC (R59, R60, R81, R82, R147, R148, R234, R236,
R237, R239, R240, R243, R244): the fill of an MLOAD writes the rows fetched and makes the slot READY; MZERO makes every element zero
and the arrival count 0; a drained tile is READY; an MMAC and a step of an MLOOP of BF16 or F16 operands accumulate sixteen times
four products into every element; an MLOOP ends after its last step with the step count, and at a stop with cause 5; an addition that
arrives at a READY tile in its turn adds every element, with one rounding, and raises the arrival count. That an MMAC accumulates in one step when it
completes is the model's reading (log 30), and so is it that an arriving addition of ARRIVAL mode does not wait for older held ones (log 69). -/
def Obligations.TileEvents : Prop :=
  ∀ (s : State) (d c u : Nat) (o : Op) (x : Tile), (s.op? o.id = some o) → o.die = d → o.core = c →
    Memory.wf (s.core d c).momMem = true → Memory.wf (s.core d c).acmMem = true →
    let k := s.core d c
    let fills := x.st = .filling ∧ x.by' = some o.id ∧ x.resv = none ∧ x.going = false
    let ends := fun (t : State) => t.op? o.id = some { o with kind := .calc [] } ∧ t.mem = s.mem
    (u < 128 → k.slot? u = some x → fills → o.kind = .mload u → (∀ i ∈ s.items, i.op = o.id → i.st = .done) → ∃ t x', exec (.tileFillDone d c false u) s = .next t ∧
      ends t ∧ (t.core d c).slot? u = some x' ∧ x'.st = .ready ∧ x'.users = x.users ∧ ∀ i < 32, ∀ v, fetched (s.items.filter fun y => y.op == o.id) i = some v →
        memNat (t.core d c).momMem (rowAddr u i) 128 = v % 2 ^ 1024) ∧
    (k.tile? u = some x → fills → o.kind = .mzero u → ∃ t x', exec (.tileFillDone d c true u) s = .next t ∧ ends t ∧ (t.core d c).tile? u = some x' ∧
      x'.st = .ready ∧ x'.arriv = 0 ∧ ∀ i < 32, ∀ j < 32, (t.core d c).elemC u x.acc80 i j = 0) ∧
    (k.tile? u = some x → x.st = .draining → x.by' = some o.id → x.going = false → o.kind = .mstore u → ∃ t x', exec (.tileDrainDone d c true u) s = .next t ∧
      (t.core d c).tile? u = some x' ∧ x'.st = .ready ∧ t.mem = s.mem ∧ (t.core d c).acmMem = k.acmMem) ∧
    (∀ a b fmt began, o.kind = .mmac a b u fmt began → k.gated = false → k.tile? u = some x → x.going = false → (∀ y ∈ k.mom, y.going = false) → isHs fmt = false →
      x.acc80 = (fmt.extractLsb' 10 2 == 1) → (∀ l ∈ (s.die d).leaves, l.id = o.id → l.held = true) →
      let fa := if fmt.extractLsb' 0 4 = 0 then fBF16 else fF16
      let fb := if fmt.extractLsb' 4 4 = 0 then fBF16 else fF16
      ∃ t x', exec (.longLatencyComplete o.id) s = .next t ∧ t.op? o.id = none ∧ t.mem = s.mem ∧ (t.core d c).tile? u = some x' ∧ x'.users = x.users - 1 ∧
        ∀ i < 32, ∀ j < 32, (t.core d c).elemC u x.acc80 i j =
          mac16 (accFmt x.acc80) (k.elemC u x.acc80 i j) (k.rowVals a i fa) (k.rowVals b j fb) % 2 ^ (if x.acc80 then 80 else 32)) ∧
    (∀ dst a b fmt n side pa pb ia ib sa sb fe st, o.kind = .mloop dst a b u fmt n side pa pb ia ib sa sb fe st none →
      (∀ i ∈ s.items, i.op ≠ o.id) → (∀ l ∈ (s.die d).leaves, l.id = o.id → l.held = true) → st < fe → fe = n →
      ∃ t, exec (.mloopStep o.id) s = .next t ∧ t.mem = s.mem ∧ (t.core d c).acmMem = (k.mac fmt (a + st % 2) (b + st % 2) u).acmMem ∧
        (st + 1 = n → t.op? o.id = some { o with kind := .calc [.sreg dst (BitVec.ofNat 64 n)] }) ∧
        (st + 1 < n → t.op? o.id = some { o with kind := .mloop dst a b u fmt n side pa pb ia ib sa sb fe (st + 1) none })) ∧
    (∀ dst a b fmt n side pa pb ia ib sa sb fe st, o.kind = .mloop dst a b u fmt n side pa pb ia ib sa sb fe st (some 5) →
      ∃ t, exec (.mloopStep o.id) s = .next t ∧ t.op? o.id = some { o with kind := .calc [.sreg dst (BitVec.ofNat 64 (st + 2 ^ 32 * 5))] } ∧
        t.mem = s.mem ∧ (t.core d c).acmMem = k.acmMem) ∧
    (∀ y g, s.drains.find? (fun z => z.k == y.k) = some y → y.op = o.id → y.pkt = none → y.tag = none → y.acc80 = x.acc80 → y.vals.length = 1024 →
      nameDev y.name = s.dev → nameDie y.name = d → nameCore y.name = c → k.gated = false → nameTen y.name = y.ten →
      (∀ dst code, o.kind = .mdrain dst code →
        (s.gangAt (nameLoc y.name) = none → ∃ t, exec (.mdrainArrival y.k) s = .next t ∧ t.op? o.id = some { o with kind := .mdrain dst (some 1) } ∧ t.mem = s.mem) ∧
        (s.gangAt (nameLoc y.name) = some g → (s.ctx g.ctx).ten = y.ten → c < s.ncore d → s.genOf (nameLoc y.name) = nameGen y.name → g.moving = false →
          k.tileBy g.owner y.unit = some x → x.idx = u → k.tile? u = some x → x.st = .ready → s.accumulating d c u = false →
          (y.rank = none ∨ y.rank = some x.arriv.toNat) → ∃ t x', exec (.mdrainArrival y.k) s = .next t ∧
          t.op? o.id = some { o with kind := .mdrain dst (some 0) } ∧ t.mem = s.mem ∧ (∀ z ∈ t.drains, z.k ≠ y.k) ∧ (t.core d c).tile? u = some x' ∧
          x'.arriv = x.arriv + 1 ∧ ∀ i < 32, ∀ j < 32, (t.core d c).elemC u x.acc80 i j =
            (finish (accFmt x.acc80) 0 (addV 0 (.ofBits (accFmt x.acc80) (k.elemC u x.acc80 i j)) (.ofBits (accFmt y.acc80) (y.vals.getD (32 * i + j) 0)))).bits %
              2 ^ (if x.acc80 then 80 else 32)))) ∧
    (∀ h rest, k.held = h :: rest → h.unit = u → h.rank = none → h.pkt = none → k.tile? u = some x → x.st = .ready → s.accumulating d c u = false →
      ∃ t x', exec (.heldAdditionApply d c u) s = .next t ∧ (t.core d c).held = rest ∧ (t.core d c).tile? u = some x' ∧ x'.arriv = x.arriv + 1 ∧ t.mem = s.mem)

/-! ### Events of the engines -/

/-- The commands of a copy engine (R248, R249, R251 to R257): a queued command starts, or ends with BADCMD; FILL writes its pattern and COPY the bytes of its
source, and no other byte; a running COPY2D, CONVERT, CHISEL or CHMERGE whose source can be read and whose destination can be written
writes what its rows, its conversion or its records give, with status 0; the pages of a command are translated through the core's TLB first; a command
whose writes are performed goes, or with EV posts an event of its number and status. That a command reads and writes in one step is the model's choice (log 12); the commands here do not overlap their
own source (log 62), the alignment of ACC80 elements is the model's reading (log 18), a NaN in a record of CHMERGE gives free values (log 85), and which of -0 and +0
is the maximum of two records is the model's choice (log 73). -/
def Obligations.EngineCommands : Prop :=
  ∀ (s : State) (e : EngRef) (n : Nat) (k : Cmd), s.cmd? e n = some k → k.num = n →
    let w := fun (i : Nat) => k.words.getD i 0
    let runs := fun (ecmd : BitVec 8) => k.st = .running ∧ (w 0).extractLsb' 0 8 = ecmd
    let isNow := fun (t : State) (st : CmdSt) => t.cmd? e n = some { k with st := st }
    let quiet := fun (x : State) (pa : Nat) => x.txn? (lineBase pa) = none ∧ x.stashHolders (lineBase pa) = [] ∧ lineBase pa ∉ x.snoops ∧
      (∀ p ∈ x.hostFilter, p.1 ≠ lineBase pa) ∧ Memory.wf x.mem = true
    let lies := fun (x : State) (wr : Bool) (va pa len : Nat) => pa % 128 = va % 128 ∧ ∀ p ∈ cutRange va len, x.engLoc e k p.1 wr = .dev (pa + (p.1 - va)) ∧
      ((x.core e.die e.core).tlb.any fun t => t.covers k.ctx p.1) = true ∧ quiet x (pa + (p.1 - va))
    let moves := fun (ecmd : BitVec 8) (i : Instr) (src dst : List (Nat × Nat)) (bytes : List Byte → List Byte) =>
      let s0 := (s.engWarm e k false src).engWarm e k true dst
      runs ecmd → s0.engRoom e k dst = true → s0.engOverlap e k src dst = false → ∀ s1 bs s2, s0.engRead e k src = (s1, .got bs 0) → s1.engWrite e k dst (bytes bs) = (s2, 0) →
      ∃ t, exec i s = .next t ∧ t.mem = s2.mem ∧ isNow t (.moved 0)
    (k.st = .queued → (s.engine e).cmds.find? (fun x => x.st == .queued) = some k → (∀ x ∈ (s.engine e).cmds, x.st = .queued) →
      ∃ t, exec (.engineCommandStart e) s = .next t ∧ isNow t (if cmdBad k.words then .moved 1 else .running) ∧ t.mem = s.mem) ∧
    (∀ pa len, runs 3 → ((w 2).extractLsb' 0 48).toNat = len → 0 < len → len % 8 = 0 → (w 1).toNat % 8 = 0 →
      let s0 := s.engWarm e k true (cutRange (w 1).toNat len)
      lies s0 true (w 1).toNat pa len → ∃ t, exec (.fill e n) s = .next t ∧ isNow t (.moved 0) ∧
      t.wants = s0.wants ∧ (∀ i < len, memRead t.mem (pa + i) = BitVec.ofNat 8 ((w 3).toNat / 256 ^ (i % 8))) ∧
      ∀ a, (a < pa ∨ pa + len ≤ a) → memRead t.mem a = memRead s0.mem a) ∧
    (∀ pa pb len, runs 1 → ((w 3).extractLsb' 0 48).toNat = len → 0 < len →
      ((w 1).toNat + len ≤ (w 2).toNat ∨ (w 2).toNat + len ≤ (w 1).toNat) →
      let s0 := (s.engWarm e k false (cutRange (w 1).toNat len)).engWarm e k true (cutRange (w 2).toNat len)
      lies s0 false (w 1).toNat pa len → lies s0 true (w 2).toNat pb len → (pa + len ≤ pb ∨ pb + len ≤ pa) →
      ∃ t, exec (.copy e n) s = .next t ∧ isNow t (.moved 0) ∧ t.wants = s0.wants ∧
      (∀ i < len, memRead t.mem (pb + i) = memRead s0.mem (pa + i)) ∧ ∀ a, (a < pb ∨ pb + len ≤ a) → memRead t.mem a = memRead s0.mem a) ∧
    (let rows := ((w 3).extractLsb' 32 32).toNat
     let len := ((w 3).extractLsb' 0 32).toNat
     let ds := ((w 4).extractLsb' 32 32).toNat
     let ss := ((w 4).extractLsb' 0 32).toNat
     moves 2 (.copy2d e n) ((List.range rows).flatMap fun r => cutRange ((w 1).toNat + r * ss) len)
      ((List.range rows).flatMap fun r => cutRange ((w 2).toNat + r * ds) len) id) ∧
    (let cnt := ((w 3).extractLsb' 0 32).toNat
     let st := ((w 3).extractLsb' 32 4).toNat
     let dt := ((w 3).extractLsb' 36 4).toNat
     let one := fun (x : Nat) => (convert (NType.ofCode (BitVec.ofNat 4 st)) (NType.ofCode (BitVec.ofNat 4 dt)) ((w 3).extractLsb' 40 2) ((w 3).getLsbD 42)
       ((w 4).extractLsb' 0 16).toNat (readInt true 8 ((w 4).extractLsb' 16 8).toNat) x).bits
     cvOk ((w 3).getLsbD 42) dt st = true → ¬ ((st = 13 ∨ dt = 13) ∧ cnt % 2 ≠ 0) → (w 1).toNat % cvAlign st = 0 → (w 2).toNat % cvAlign dt = 0 →
     moves 4 (.convert e n) (cutRange (w 1).toNat (cnt * cvBits st / 8)) (cutRange (w 2).toNat (cnt * cvBits dt / 8)) fun bs =>
      let m := min cnt (8 * bs.length / cvBits st)
      leBytes (m * cvBits dt / 8) ((List.range m).foldl (fun r i =>
        r + one (leNat bs / 2 ^ (cvBits st * i) % 2 ^ cvBits st) % 2 ^ cvBits dt * 2 ^ (cvBits dt * i)) 0)) ∧
    (let rows := ((w 3).extractLsb' 16 16).toNat + 1
     let len := ((w 3).extractLsb' 0 16).toNat + 1
     let src := (List.range rows).flatMap fun r => cutRange ((w 1).toNat + r * (w 5).toNat) (4 * len)
     (w 1).toNat % 4 = 0 → (w 5).toNat % 4 = 0 → (w 2).toNat % 128 = 0 → s.meetsAcc80 e k src = false →
     moves 5 (.chisel e n) src ((List.range rows).flatMap fun r => cutRange ((w 2).toNat + 512 * r) 512) fun bs =>
      (List.range (bs.length / (4 * len))).flatMap fun r =>
        let start : ChAcc := { m := negInf32, s := 0, nan := 0, top := [] }
        chRecord (((w 3).extractLsb' 32 5).toNat + 1) (((w 4).extractLsb' 32 32).toNat + r)
          ((List.range len).foldl (fun a i => chStep ((w 4).extractLsb' 0 32).toNat (((w 3).extractLsb' 32 5).toNat + 1) a i
            (leNat ((((bs.drop (4 * len * r)).take (4 * len)).drop (4 * i)).take 4))) start)) ∧
    (let per := ((w 3).extractLsb' 0 16).toNat + 1
     let groups := ((w 3).extractLsb' 16 16).toNat + 1
     let top := ((w 3).extractLsb' 32 5).toNat + 1
     (w 1).toNat % 128 = 0 →
     moves 6 (.chmerge e n) (cutRange (w 1).toNat (512 * per * groups)) (cutRange (w 2).toNat (512 * groups)) fun bs =>
      (List.range (bs.length / (512 * per))).flatMap fun g =>
        let recs := (List.range per).map fun i => chParse ((bs.drop (512 * (g * per + i))).take 512)
        match recs with
        | [] => []
        | r :: rs =>
          let start : ChAcc := { r.1 with top := chTop top r.1.top [] }
          chRecord top r.2 (rs.foldl (fun (a : ChAcc) x => chMerge2 top a x.1) start)) ∧
    (∀ st, k.st = .moved st → (∀ i ∈ s.items, i.op = k.tag → i.st = .done) →
      ((st = 0 ∧ (w 0).getLsbD 8 = false) → ∃ t, exec (.engineCommandComplete e n) s = .next t ∧ t.cmd? e n = none ∧ (t.engine e).events = (s.engine e).events) ∧
      ((st ≠ 0 ∨ (w 0).getLsbD 8 = true) → ∃ t, exec (.engineCommandComplete e n) s = .next t ∧ isNow t (.posting st))) ∧
    (∀ st, k.st = .posting st → (s.engine e).orphan k = false → (s.engine e).events.length < 16 → ∃ t, exec (.eventPost e n) s = .next t ∧ t.cmd? e n = none ∧
      (t.engine e).events = (s.engine e).events ++ [(w 0).extractLsb' 0 8 ++ BitVec.ofNat 8 st ++ 0#8 ++ BitVec.ofNat 40 n])

/-- BFCFG, ARM, DISARM, BFE_BATCH_TIMEOUT and HALYARD_EVALUATE (R106, R110, R258 to R260): a well-formed BFCFG of a record of the context's tenant sets its
configuration with result 0, one with a field amiss has result 1, and one whose record launches into another tenant's queue result 2, both changing nothing; ARM of an aligned word of the die takes the lowest free entry, which its result names, and DISARM
frees an entry of its context; a compare that holds at arming launches its record at once; a batch that is full, or whose first entry came 4096 cycles ago, or of a
released configuration, is launched from a free buffer; a write performed after the ARM for which the compare holds launches its record once, and an earlier write nothing. What a record that cannot be read does to ARM and BFCFG is the model's reading (log 24). -/
def Obligations.BackfillAndHalyard : Prop :=
  ∀ (s : State) (die cfg : Nat), die ∈ s.dies.map (·.die) → (∀ (o : Op) (d : SR) (ws : List W64), s.op? o.id = some o →
    let w := fun (i : Nat) => ws.getD i 0
    let ends := fun (t : State) (r : Nat) => t.op? o.id = some { o with kind := .calc [.sreg d (BitVec.ofNat 64 r)] }
    (o.kind = .engine die (some cfg) d ws → ∀ b, s.bfe? die cfg = some b → b.batches = [] → ws.length = 6 → (w 0).extractLsb' 0 8 = 0x10 →
      (w 0).extractLsb' 9 55 = 0 → (w 3).extractLsb' 8 56 = 0 → (w 3).extractLsb' 0 8 ≠ 0 → (w 1).toNat % 128 = 0 → (w 4).toNat % 128 = 0 → (w 5).toNat % 128 = 0 →
      ((w 2).extractLsb' 32 32).toNat % 128 = 0 → ((w 2).extractLsb' 0 32).toNat % 128 = 0 →
      ((s.recTenant b.ctx (w 4).toNat).2.all fun t => t == (s.ctx b.ctx).ten) = true → ∃ t b', exec (.bfcfg o.id) s = .next t ∧ ends t 0 ∧ t.bfe? die cfg = some b' ∧
      b'.set = true ∧ b'.kv = w 1 ∧ b'.ss = ((w 2).extractLsb' 32 32).toNat ∧ b'.ls = ((w 2).extractLsb' 0 32).toNat ∧ b'.nl = ((w 3).extractLsb' 0 8).toNat ∧
      b'.recA = w 4 ∧ b'.area = w 5) ∧
    (o.kind = .engine die (some cfg) d ws → ∀ b q, s.bfe? die cfg = some b → b.batches = [] → ws.length = 6 → (w 0).extractLsb' 0 8 = 0x10 →
      (w 0).extractLsb' 9 55 = 0 → (w 3).extractLsb' 8 56 = 0 → (w 3).extractLsb' 0 8 ≠ 0 → (w 1).toNat % 128 = 0 → (w 4).toNat % 128 = 0 → (w 5).toNat % 128 = 0 →
      ((w 2).extractLsb' 32 32).toNat % 128 = 0 → ((w 2).extractLsb' 0 32).toNat % 128 = 0 → (s.recTenant b.ctx (w 4).toNat).2 = some q → q ≠ (s.ctx b.ctx).ten →
      ∃ t, exec (.bfcfg o.id) s = .next t ∧ ends t 2 ∧ t.bfe? die cfg = some b) ∧
    (o.kind = .engine die (some cfg) d ws → (s.bfe? die cfg = none ∨ ∃ b, s.bfe? die cfg = some b ∧ b.batches = [] ∧ (ws.length ≠ 6 ∨ (w 0).extractLsb' 0 8 ≠ 0x10 ∨
      (w 0).extractLsb' 9 55 ≠ 0 ∨ (w 3).extractLsb' 8 56 ≠ 0 ∨ (w 3).extractLsb' 0 8 = 0 ∨ (w 1).toNat % 128 ≠ 0 ∨ (w 4).toNat % 128 ≠ 0 ∨ (w 5).toNat % 128 ≠ 0 ∨
      ((w 2).extractLsb' 32 32).toNat % 128 ≠ 0 ∨ ((w 2).extractLsb' 0 32).toNat % 128 ≠ 0)) →
      ∃ t, exec (.bfcfg o.id) s = .next t ∧ ends t 1 ∧ t.dies = s.dies) ∧
    (let s0 := s.tablesReady o.ctx (w 1).toNat 8
     o.kind = .engine die none d ws → ∀ pa e i s1 tn, s0.wants = [] → ws.length = 4 → (w 0).extractLsb' 0 8 = 0x20 → (w 0).extractLsb' 9 7 = 0 →
      (w 0).extractLsb' 19 45 = 0 → (w 1).toNat % 8 = 0 → s0.translate o.ctx (w 1).toNat .load = .ok pa e → s0.recTenant o.ctx (w 3).toNat = (s1, tn) →
      (tn.all fun t => t == (s.ctx o.ctx).ten) = true → ptePeer e = false → pteHost e = false → homeDie pa = die → s1.txn? (lineBase pa) = none →
      ((List.range 64).find? fun i => !((s1.die die).watch.any fun x => x.idx == i)) = some i →
      let holds := watchHolds ((w 0).extractLsb' 16 2) (BitVec.ofNat 64 (s1.devReadNat pa 8).2) (w 2)
      (holds = true → (w 0).getLsbD 18 = false → ∃ t l, exec (.arm o.id) s = .next t ∧ ends t (256 * i) ∧ (t.die die).watch = (s1.die die).watch ∧
        t.launches = s1.launches ++ [l] ∧ l.ctx = o.ctx ∧ l.recA = w 3 ∧ l.argp = none) ∧
      (holds = false → ∃ t x, exec (.arm o.id) s = .next t ∧ ends t (256 * i) ∧ (t.die die).watch = (s1.die die).watch ++ [x] ∧ x.idx = i ∧ x.ctx = o.ctx ∧ x.addr = pa ∧
        x.cmp = (w 0).extractLsb' 16 2 ∧ x.val = w 2 ∧ x.recA = w 3 ∧ x.persist = (w 0).getLsbD 18)) ∧
    (o.kind = .engine die none d ws → ws.length = 2 → (w 0).extractLsb' 0 8 = 0x21 → (w 0).extractLsb' 9 55 = 0 →
      (w 1).extractLsb' 6 58 = 0 → ((∃ x ∈ (s.die die).watch, x.idx = (w 1).toNat ∧ x.ctx = o.ctx) → ∃ t, exec (.disarm o.id) s = .next t ∧ ends t 0 ∧
        (t.die die).watch = (s.die die).watch.filter fun x => x.idx != (w 1).toNat) ∧
      ((∀ x ∈ (s.die die).watch, x.idx = (w 1).toNat → x.ctx ≠ o.ctx) → ∃ t, exec (.disarm o.id) s = .next t ∧ ends t 4 ∧ t.dies = s.dies))) ∧
    (∀ b bt p ps, s.bfe? die cfg = some b → b.batches = [bt] → bt.pairs = p :: ps → bt.pairs.length ≤ 64 →
      (bt.pairs.length = 64 ∨ b.released = true ∨ p.2.2 + 4096 ≤ s.clock) →
      let buf := (b.area + BitVec.ofNat 64 (4 * bt.layer * 1024)).toNat
      (b.ctx, buf) ∉ (s.die die).bufs → ∃ t l, exec (.bfeBatchTimeout die cfg bt.layer) s = .next t ∧
      t.launches = s.launches ++ [l] ∧ l.ctx = b.ctx ∧ l.recA = b.recA ∧ l.by' = .bfe die cfg bt.layer (if l.bad then none else some buf) ∧
      l.argp = (if l.bad then none else some (BitVec.ofNat 64 buf)) ∧
      (t.die die).bufs = (s.die die).bufs ++ (if l.bad then [] else [(b.ctx, buf)])) ∧
    (∀ x a v n rest, (s.die die).evals = (a, v, n) :: rest → (s.die die).watch = [x] → x.addr = a →
      (n ≤ x.id → ∃ t, exec (.halyardEvaluate die) s = .next t ∧ t.launches = s.launches ∧ (t.die die).watch = [x] ∧ (t.die die).evals = rest) ∧
      (x.id < n → watchHolds x.cmp v x.val = true → x.persist = false → ∃ t l, exec (.halyardEvaluate die) s = .next t ∧ t.launches = s.launches ++ [l] ∧ l.ctx = x.ctx ∧
        l.recA = x.recA ∧ l.argp = none ∧ (t.die die).watch = [] ∧ (t.die die).evals = rest ∧ t.mem = s.mem) ∧
      (watchHolds x.cmp v x.val = false → ∃ t, exec (.halyardEvaluate die) s = .next t ∧ t.launches = s.launches ∧ (t.die die).watch = [x] ∧
        (t.die die).evals = rest))

/-! ### Events of the ordering machine -/

/-- OUTBOUND_SEND, LOAD_PERFORM, ORDER_POINT_APPLY, UPDATE and WRITE_EXPOSE (R115 to R117, R121, R133, R357, R382): a store that nothing holds back arrives
at its order point, or goes to the host as a request, and fails where no route leads to its peer; a load takes its bytes at the order point
once no write is in progress on the line and its copy finds room, or from the core's copy when that holds no unexposed write, the host has not modified the line and the core may keep one; the write takes its
position, changes the order point's bytes and begins its fan-out to every copy; each copy applies it and acknowledges; with every
acknowledgement in, it is exposed and its item is done. That a copy which an unexposed write has reached is not read is the model's reading (log 32). -/
def Obligations.WriteSteps : Prop :=
  ∀ (s : State) (i : Item) (lanes : W32), s.item? i.id = some i →
    let free := s.txn? i.line = none ∧ i.line ∉ s.snoops ∧ (i.line, true) ∉ s.hostFilter
    let mayGo := i.st = .queued ∧ s.behindLine i = false
    let took := fun (t : State) (val : Acc → Nat) => ∃ i', t.item? i.id = some i' ∧ i'.accs = i.accs.map fun a =>
      if pickAcc lanes a then { a with val := val a, done := true } else a
    (mayGo → s.behindOp i = false → i.kind = .store → i.rel = false → i.comm = none → i.nc = false → (i.leavesDev = true → s.gradeLines i.ctx i.inst = []) →
      (i.dst = .dev → s.present i.line = true → exec (.outboundSend i.id) s = .next (s.setItem { i with st := .arrived })) ∧
      (i.dst = .host → s.itemGated i = false → s.hlUp = true → ∃ t, exec (.outboundSend i.id) s = .next t ∧
        t.item? i.id = some { i with st := .sent } ∧ t.out = s.out ++ [.request i.id (s.hostFn i.ctx) true] ∧ t.mem = s.mem) ∧
      (∀ dev, i.dst = .peer dev → s.itemGated i = false → s.route? dev = none → ∃ t, exec (.outboundSend i.id) s = .next t ∧
        t.item? i.id = some { i with st := .failed, tag := none } ∧ t.mem = s.mem)) ∧
    (∀ o, s.op? i.op = some o → mayGo → i.kind = .load → i.acq = false → i.nc = false → i.comm = none → i.dst = .dev → s.present i.line = true → free →
      s.fillNeed o.die i.line = none → ∃ t, exec (.loadPerform i.id .orderPoint lanes) s = .next t ∧ t.mem = (s.recall i.line).mem ∧
        took t fun a => memNat (s.recall i.line).mem (i.line + a.off) a.n) ∧
    (∀ o, s.op? i.op = some o → mayGo → i.kind = .load → i.acq = false → i.comm = none → i.pol ≠ 2 → i.dst = .dev →
      s.mayFill o.die o.core i.ctx i.line = true → ∀ x, ((s.core o.die o.core).l1.find? fun x => x.line == i.line) = some x →
      (x.nc = true ∨ (s.early i.line (.l1 o.die o.core) = false ∧ s.snoopFirst i.line = none)) → ∃ t, exec (.loadPerform i.id .l1 lanes) s = .next t ∧ t.mem = s.mem ∧
        took t fun a => readData x.data a.off a.n) ∧
    (s.items.find? (fun x => x.st == .arrived && x.line == i.line) = some i → i.kind = .store → s.present i.line = true → s.txn? i.line = none →
      i.line ∉ s.snoops → ∃ t x, exec (.orderPointApply i.line) s = .next t ∧ t.item? i.id = some { i with st := .applied } ∧
      t.mem = (storeBytes i.accs).foldl (fun m b => memWrite m (i.line + b.1) b.2) (s.recall i.line).mem ∧
      t.txn? i.line = some x ∧ x.bytes = storeBytes i.accs ∧ x.wait = (s.recall i.line).copies i.line ∧ x.item = some i.id ∧ x.inval = false) ∧
    (∀ f r, s.items.find? (fun x => x.st == .arrived && x.line == i.line) = some i → i.kind = .atomic f r → i.nc = false → s.present i.line = true → free →
      ∃ t, exec (.orderPointApply i.line) s = .next t ∧
        t.item? i.id = some { i with accs := (atomicAccs f i.line i.accs (s.recall i.line).mem).2, st := .applied }) ∧
    (∀ x c, s.txn? i.line = some x → x.inval = false → c ≠ .host → c ∈ x.wait → ∃ t x', exec (.update i.line c) s = .next t ∧ t.mem = s.mem ∧
      t.txn? i.line = some x' ∧ x'.wait = x.wait.filter (· != c) ∧ ∀ d n, c = .l1 d n → (s.core d n).gated = false → ∀ y ∈ (s.core d n).l1,
        y.line = i.line → y.nc = false → { y with data := setBytes y.data x.bytes } ∈ (t.core d n).l1) ∧
    (∀ x, s.txn? i.line = some x → x.wait = [] → x.inval = false → x.item = some i.id → ∃ t, exec (.writeExpose i.line) s = .next t ∧
      t.txn? i.line = none ∧ t.item? i.id = some { i with st := .done, accs := i.accs.map fun a => { a with done := true } } ∧ t.mem = s.mem)

/-- INVALIDATION, DIRTY_HOLDER_NOTICE, WRITE_BACK, EVICTION_NOTICE, SLICE_DIRECTORY_OVERFLOW, SNOOP_FILTER_VICTIM and BIRSP (R53, R54, R358 to R363, R368): a die
that is told to gives up the coherent copies of its L1s and its L2 and acknowledges; the notice of a stash store tells every other die that holds a copy, and
the host where it does, after the line has been recalled; a DIRTY line of a gang that releases is written to its order point and is CLEAN; the victim
of a full set of a directory goes; the host's answer gives its data to memory, and acknowledges in its place. -/
def Obligations.CopiesGiveUp : Prop :=
  ∀ (s : State) (line die : Nat),
    let bare := fun (t : State) (d : Nat) => (∀ k ∈ t.cores, k.die = d → ∀ x ∈ k.l1, x.line = line → x.nc = true) ∧
      ∀ y ∈ (t.die d).l2, y.line = line → y.nc = true
    (∀ x, s.txn? line = some x → x.inval = true → .l2 die ∈ x.wait → ∃ t x', exec (.invalidation line die) s = .next t ∧ t.txn? line = some x' ∧
      x'.wait = x.wait.filter (· != .l2 die) ∧ bare t die) ∧
    (∀ i g n p, s.item? i.id = some i → i.line = line → i.st = .notice → i.dst = .stash n → s.gang? i.uid = some g → g.stash[n]? = some p →
      p.covers line = true → s.txn? line = none → s.present line = true → line ∉ s.snoops → s.fillNeed g.loc.die line = none →
      let s1 := if p.lineState (p.lnOf line) ≠ .invalid then s.recall line else (s.recall line).fillStash i.uid n line
      ∃ t x, exec (.dirtyHolderNotice i.id) s = .next t ∧ t.txn? line = some x ∧ x.inval = true ∧ x.item = some i.id ∧ x.bytes = [] ∧
        t.mem = (s.recall line).mem ∧ (∀ d < 4, .l2 d ∈ x.wait ↔ d ≠ g.loc.die ∧ d ≠ homeDie line ∧ s1.dieHolds d line = true) ∧
        (.host ∈ x.wait ↔ ∃ q ∈ s1.hostFilter, q.1 = line)) ∧
    (∀ u n ln g p fr, s.txn? line = none → s.stashHolders line = [(u, n, ln, .dirty)] → s.wantsClean u = true → s.gang? u = some g → g.loc.die = die →
      g.stash[n]? = some p → p.frame = some fr → p.lineState ln = .dirty → ∃ t g' p', exec (.writeBack line die) s = .next t ∧
        t.mem = (p.dirtyBytes ln).foldl (fun m b => memWrite m (fr + 128 * ln + b.1) b.2) s.mem ∧ t.gang? u = some g' ∧ g'.stash[n]? = some p' ∧
        p'.lineState ln = .clean) ∧
    (s.txn? line = none → homeDie line ≠ die → s.sliceDH die line = none → ∃ t, exec (.evictionNotice line die) s = .next t ∧ bare t die ∧
      ∀ k ∈ t.cores, k.die = die → ∀ x ∈ k.l1, x.line ≠ line) ∧
    (s.victim ((s.die die).dir.filter fun l => sliceSet l == sliceSet line && s.dieHolds die l) = some line → ∃ t, exec (.sliceDirectoryOverflow die line) s = .next t ∧ bare t die) ∧
    (s.farHeld line = true → 15 ≤ (s.sfWays line).length → s.txn? line = none → line ∉ s.snoops → ∃ t, exec (.snoopFilterVictim line) s = .next t ∧ ∀ d < 4, d ≠ homeDie line → bare t d) ∧
    (∀ data, s.txn? line = none → line ∈ s.snoops → data.length = 128 → Memory.wf s.mem = true → ∃ t, exec (.birsp line data) s = .next t ∧
      line ∉ t.snoops ∧ (line, true) ∉ t.hostFilter ∧ (∀ o < 128, memRead t.mem (line + o) = data.getD o 0) ∧ ∀ a, (a < line ∨ line + 128 ≤ a) → memRead t.mem a = memRead s.mem a) ∧
    (∀ data x, s.txn? line = some x → .host ∈ x.wait → ∃ t x', exec (.birsp line data) s = .next t ∧ t.txn? line = some x' ∧
      x'.wait = x.wait.filter (· != .host))

/-- PEND_STORE_RETRY, TLB_SWEEP_DONE and TRANSLATION_DIRECTORY_OVERFLOW (R318, R322, R349, R350): a held store whose page has come goes to the place of its
translation; a sweep drops what it covers from the TLB and the walk cache of every core, waits for the accesses that used it, and then ends, its TLBINV
with it; the victim of a full set of the translation directory takes with it what the named cores derived from it. -/
def Obligations.TranslationEvents : Prop :=
  ∀ (s : State) (i : Item) (w : Sweep), (s.item? i.id = some i → i.st = .held → i.retry = true →
      let r := (s.setItem { i with retry := false }).xlateItem i i.vline.toNat i.need.kind
      let s1 := r.1
      (∀ pa e p, (∀ g, s1.gang? i.uid = some g → g.stashOver i.vline.toNat = none) → r.2 = .ok pa e → placeOf s1 i.need i.vline.toNat pa e = .ok p →
        exec (.pendStoreRetry i.id) s = .next (s1.setItem { i with dst := p.dst, line := p.line, nc := p.nc, st := .queued, retry := false })) ∧
      (s.txns = [] → r.2 = .xlate → ∃ t, exec (.pendStoreRetry i.id) s = .next t ∧
        t.item? i.id = some { i with retry := false } ∧ t.mem = s1.mem)) ∧
    (s.sweeps.find? (fun x => x.id == w.id) = some w → w.began = false → (w.op = none ∨ s.releaseMet w.uid w.after 3 = true) →
      (∀ k ∈ s.cores, k.gated = false) → ∃ t w', exec (.tlbSweepDone w.id) s = .next t ∧ t.sweeps.find? (fun x => x.id == w.id) = some w' ∧ w'.began = true ∧
        (∀ k ∈ t.cores, (∀ e ∈ k.tlb, sweptEnt w.ctx w.all w.va e = false) ∧ ∀ e ∈ k.walkc, sweptWalk w.ctx w.all w.va e = false)) ∧
    (s.sweeps.find? (fun x => x.id == w.id) = some w → w.began = true → w.op = none → w.ctx ∈ s.ctxs.map (·.num) → (∀ x ∈ s.items, x.id ∉ w.waits) →
      ∃ t, exec (.tlbSweepDone w.id) s = .next t ∧ t.sweeps.find? (fun x => x.id == w.id) = none ∧ (t.ctx w.ctx).tinv = false ∧ t.mem = s.mem) ∧
    (∀ o, s.sweeps.find? (fun x => x.id == w.id) = some w → w.began = true → w.op = some o.id → s.op? o.id = some o → (∀ x ∈ s.items, x.id ∉ w.waits) →
      ∃ t, exec (.tlbSweepDone w.id) s = .next t ∧ t.sweeps.find? (fun x => x.id == w.id) = none ∧ t.op? o.id = some { o with kind := .calc [] } ∧
        (∀ k ∈ t.cores, ∀ e ∈ k.tlb, sweptEnt w.ctx w.all w.va e = false) ∧ t.mem = s.mem) ∧
    ∀ die idx v, die ∈ s.dies.map (·.die) → (s.die die).tdir[idx]? = some v →
      16 ≤ ((s.die die).tdir.filter fun t => tdSet t.lvl t.va == tdSet v.lvl v.va).length → ∃ t, exec (.translationDirectoryOverflow die idx) s = .next t ∧
      (t.die die).tdir = (s.die die).tdir.eraseIdx idx ∧ t.mem = s.mem ∧ ∀ k ∈ t.cores, k.die = die → k.core ∈ v.cores → ∀ e ∈ k.tlb,
        ¬ (e.ctx = v.ctx ∧ e.lvl ≤ v.lvl ∧ tdKey v.lvl e.page = v.va)

/-! ### Events of the Armature -/

/-- TASK_LAUNCH, FIRE, GANG_PLACEMENT, RUN_COMPLETE, GRADED_FAULT_DELIVERY and EGRESS_HOLD_RELEASE (R8, R9, R94, R96 to R102, R104, R325, R336, R337): a
launch of a good record with live inputs and room joins with the context's next number, as a waiting instance or, without inputs, as a running one; one of a
bad record is refused with BADREC for the record's handler, and one to a killed context is dropped; an instance fires once
every input has reached its minimum grade, and not before; the head of an enabled queue is placed in a free slot of the chosen
core with the registers of a launch; a run that is over publishes what it has not, and fires again or leaves the consumer lists; the
oldest waiting fault is written to its handler's argument and the handler launched; of the stores whose run may go those whose turn it is go back to be sent. The
order of launches and the moment when the gangs of a run join their queue are the model's readings (logs 35, 36), and which scheduler's slot a placement takes
where one has no free slot, or a marker stands, is its choice (log 66). -/
def Obligations.TaskEvents : Prop :=
  (∀ (s s0 : State) (l : Launch) (tr : TaskRec) (n : Nat),
    let c := s.ctx l.ctx
    s.launches.find? (fun y => y.id == l.id) = some l → (∀ y ∈ s.launches, y.id < l.id → sameSource y l = false) → l.by' = .tspawn →
    (c.killed = true → ∃ t, exec (.taskLaunch l.id) s = .next t ∧ t.insts = s.insts ∧ t.launches = s.launches.filter fun x => x.id != l.id) ∧
    (c.killed = false → l.ctx ∈ s.ctxs.map (·.num) → l.num = none → l.argp = none →
      ((l.tr = some tr ∧ s0 = s) ∨ (l.tr = none ∧ s.readRec l.ctx l.recA.toNat = (s0, some n) ∧ l.bad = false ∧ s0.recBad l.ctx l.recA.toNat n = false ∧
        tr = TaskRec.ofNat n)) →
      ∀ s1, s0.deadInput l.ctx tr.ins = (s1, none) → (tr.ins = [] ∨ s1.linksUsed c.ten + tr.ins.length ≤ (s1.tenant c.ten).clsize.toNat) →
      s.inst? l.ctx c.instN.toNat = none → ∃ t x, exec (.taskLaunch l.id) s = .next t ∧ t.insts = s.insts ++ [x] ∧ x.ctx = l.ctx ∧ x.num = c.instN.toNat ∧
        x.tr = tr ∧ (t.ctx l.ctx).instN = c.instN + 1 ∧ (∀ y ∈ t.launches, y.id ≠ l.id) ∧ (tr.ins ≠ [] → x.st = .waiting ∧ t.places = s.places) ∧
        (tr.ins = [] → x.st = .running ∧ x.run = 0 ∧ t.places = s.places ++ [{ queue := tr.queue, ctx := l.ctx, inst := x.num, run := 0, next := 0, tr := tr }])) ∧
    (c.killed = false → l.ctx ∈ s.ctxs.map (·.num) → l.tr = none → s.readRec l.ctx l.recA.toNat = (s0, some n) →
      (l.bad = true ∨ s0.recBad l.ctx l.recA.toNat n = true) → (TaskRec.ofNat n).fhrec ≠ 0 → c.faults.length < 64 →
      ∃ t x, exec (.taskLaunch l.id) s = .next t ∧ t.insts = s.insts ∧ (∀ y ∈ t.launches, y.id ≠ l.id) ∧ (t.ctx l.ctx).faults = c.faults ++ [x] ∧
        x.fhrec = (TaskRec.ofNat n).fhrec ∧ x.w = faultWords 6 0 0 0 0 0 0 0)) ∧
  (∀ (s : State) (n : Nat) (p : Place) (d c k : Nat), let q := s.queue n
    q.num = n → q.en = true → s.qhead n = some (.place p) → s.places = [p] → p.tr.cohsz = 0 → s.chooseCore q (.place p) = some (d, c) →
      (s.core d c).gated = false → s.chooseSlot d c = some k → (∀ x ∈ (s.core d c).l1, x.nc = true → x.dirty = []) →
      ∃ t g, exec (.gangPlacement n) s = .next t ∧
      t.gangAt { die := d, core := c, slot := k } = some g ∧ g.status = .pending ∧ g.ctx = p.ctx ∧ g.gidx = p.next ∧ g.ngangs = p.tr.ngang ∧
      g.vblocks = p.tr.vblk ∧ g.stash.length = p.tr.stashp ∧ g.sr 0 = p.tr.argp ∧ g.sr 1 = BitVec.allOnes 64 ∧ (∀ r : SR, r ≠ 0 → r ≠ 1 → g.sr r = 0) ∧
      (∀ k : KR, k ≠ 0 → g.kr k = 0) ∧ g.table.map (fun x => (x.pc, x.exec, x.fmt)) = [(p.tr.entry, BitVec.allOnes 32, 0)] ∧ (∀ k, g.counter k = 0) ∧ g.tl = 0 ∧
      (∀ k < 32, lane g.tidx k = BitVec.ofNat 32 (p.next * 32 + k)) ∧ t.genOf g.loc = s.genOf g.loc + 1 ∧ t.mem = s.mem ∧
      t.places = if p.next + 1 ≥ p.tr.ngang then [] else [{ p with next := p.next + 1 }]) ∧
  (∀ (s : State) (ctx num : Nat) (i : Inst), s.inst? ctx num = some i →
    let placed := fun (t : State) (run : Nat) => t.places = s.places ++ [{ queue := i.tr.queue, ctx := ctx, inst := num, run := run, next := 0, tr := i.tr }]
    (i.st = .waiting → i.cons = [] → (∀ d ∈ i.tr.ins, s.peekLines ctx d.1 = []) →
      let ready := ∀ d ∈ i.tr.ins, ∃ e, s.peekValue ctx d.1 = some e ∧ veLive e = true ∧ 0 < veVersion e ∧ d.2.1 ≤ veGrade e
      (ready → ∃ t i', exec (.fire ctx num) s = .next t ∧ t.inst? ctx num = some i' ∧ i'.st = .running ∧ i'.run = 0 ∧ i'.tr = i.tr ∧
        i'.cons.map (·.val) = i.tr.ins.map (·.1) ∧ placed t 0) ∧
      (¬ ready → exec (.fire ctx num) s = .next s)) ∧
    (i.st = .running → s.runOver i = true → i.by' = .tspawn →
      (i.tr.nout = 0 → i.again = true → ∃ t i', exec (.runComplete ctx num) s = .next t ∧ t.inst? ctx num = some i' ∧ i'.st = .running ∧ i'.again = false ∧
        i'.run = (i.run + 1) % 65536 ∧ i'.pubs = [] ∧ i'.past = i.past ++ [{ cons := i.cons, pubs := i.pubs }] ∧ placed t ((i.run + 1) % 65536)) ∧
      (i.tr.nout = 0 → i.again = false → (∀ d ∈ i.tr.ins, d.2.2 = false) → s.hasHeld ctx num = false → ∃ t, exec (.runComplete ctx num) s = .next t ∧
        t.inst? ctx num = none) ∧
      (∀ v s1 r, i.tr.outIds = [(0, v)] → i.pubs = [] → i.again = true → s.publish ctx v i.grade none = (s1, r) → r.code = 0 → s1.insts = s.insts →
        ∃ t i', exec (.runComplete ctx num) s = .next t ∧ t.inst? ctx num = some i' ∧
          i'.past = i.past ++ [{ cons := i.cons, pubs := [{ idx := 0, ver := veVersion r.ent, implicit := true }] }])) ∧
    (s.hasHeld ctx num = true → s.ungated ctx num i.run → i.st ≠ .retired →
      let ids := (s.items.filter fun x => x.ctx == ctx && x.inst == num && x.st == .egress && s.nextHeld x).map (·.id)
      ∃ t, exec (.egressHoldRelease ctx num) s = .next t ∧ t.items = (s.items.map fun x => if ids.contains x.id then { x with st := .queued } else x) ∧
        (∀ d ∈ t.dies, ∀ h ∈ d.eghold, h.item.id ∉ ids) ∧ t.insts = s.insts ∧ t.mem = s.mem)) ∧
  (∀ (s : State) (ctx : Nat) (f : GFault), let c := s.ctx ctx
    c.faults.find? (fun f => !(c.handlers.any fun h => h.1 == f.fhrec)) = some f → ctx ∈ s.ctxs.map (·.num) →
    (∀ s1, s.readRec ctx f.fhrec = (s1, none) → c.killed = false → ∃ t, exec (.gradedFaultDelivery ctx) s = .next t ∧ (t.ctx ctx).killed = true ∧
      (t.ctx ctx).err = c.err ||| errGRADED) ∧
    (∀ s1 n s2, s.readRec ctx f.fhrec = (s1, some n) → s1.recBad ctx f.fhrec n = false →
      s1.ctxWrite ctx (TaskRec.ofNat n).argp.toNat (f.w.flatMap fun w => leBytes 8 w.toNat) = some s2 → ∃ t x, exec (.gradedFaultDelivery ctx) s = .next t ∧
      t.launches = s.launches ++ [x] ∧ x.ctx = ctx ∧ x.recA = BitVec.ofNat 64 f.fhrec ∧ x.by' = .armature f.fhrec ∧ t.mem = s2.mem ∧
      (t.ctx ctx).faults = c.faults.erase f))

/-- PREEMPT_REQUEST, PREEMPT_ENTRY, RESUME and CONTEXT_KILL (R319, R325, R326, R328, R338): a queue that has waited 4096 cycles with no eligible core
marks the fewest gangs of lower priority that make room, and no others, and claims the core; a marked gang at TL0 that waits for nothing raises PREEMPT, a
PARKED-FAULT one at the split that met its fault; a parked gang at the head of its queue takes a slot with the V blocks that VALLOC of its area names, its old name
forwarded, and then its counters and hold table from the area, and enters PREEMPT with SUB 1 once they have settled; a context is killed once, its gangs
ended. Whom a request marks, when a marked gang raises PREEMPT, what ends with a context, that CONTEXT_KILL stands for an uncorrectable error, and that a
resumption takes two steps are the model's readings (logs 26, 27, 28, 38, 91). -/
def Obligations.PreemptionAndKill : Prop :=
  (∀ (s : State) (n : Nat) (h : QHead), let q := s.queue n
    s.qhead n = some h →
    (q.num = n → n ∈ s.queues.map (·.num) → q.en = true → q.preempt = true → q.head = h.key → s.eligibleCores q h = [] → ∀ t0 vs x, q.since = some t0 → t0 + 4096 ≤ s.clock →
      (s.allCores.filterMap fun x => (s.victimsFor q h x.1 x.2).map fun v => (x, v)) = [(x, vs)] → s.promised n x = false → ∃ t, exec (.preemptRequest n) s = .next t ∧ t.mem = s.mem ∧
      (t.queue n).claim = some x ∧ (∀ v ∈ vs, ∃ v', t.gang? v.uid = some v' ∧ v'.preempt = true) ∧ ∀ u, u ∉ vs.map (·.uid) → t.gang? u = s.gang? u) ∧
    (s.eligibleCores q h ≠ [] → exec (.preemptRequest n) s = .next s)) ∧
  (∀ (s : State) (g : Gang), s.gang? g.uid = some g → s.gangAt g.loc = some g →
    (∀ sp, g.table.find? (fun x => x.kind == .live && (!(g.status == .parkedFault) || x.sid == g.pfSid)) = some sp → g.preempt = true → g.tl = 0 →
      g.trap = none → g.status ≠ .saved → (g.status = .parkedFault ∨ ∀ x ∈ g.table, x.kind = .live → x.chk = 0) →
      g.unwaiting = true → g.region = none → ∃ t g' r, exec (.preemptEntry g.loc) s = .next t ∧ t.gang? g.uid = some g' ∧ g'.preempt = false ∧
      g'.trap = some r ∧ r.cause = causePREEMPT ∧ r.sub = 0 ∧ r.ret = sp.pc ∧ g'.s = g.s ∧ t.mem = s.mem) ∧
    (g.tl > 0 → exec (.preemptEntry g.loc) s = .next s) ∧ (g.move = .toRead → exec (.trapEntry g.loc) s = .next s) ∧
    (∀ d c s1 area, let q := s.queue g.queue
      g.status = .saved → g.move ≠ .toRead → s.qhead g.queue = some (.parked g) → q.en = true → s.chooseCore q (.parked g) = some (d, c) → (s.core d c).gated = false →
      s.saveBusy g = false → s.ctxRead g.ctx (g.saveA.toNat + 0x240) 8 = (s1, some area) → s1.gang? g.uid = some g →
      (1 ≤ leNat area → leNat area ≤ 8 → leNat area ≠ g.vblocks → ∃ t, exec (.resume g.uid) s = .next t ∧
        t.gang? g.uid = some { g with vblocks := leNat area } ∧ t.mem = s1.mem) ∧
      ∀ k, leNat area = g.vblocks → ({ s1 with gangs := s1.gangs.filter fun x => x.uid != g.uid } : State).chooseSlot d c = some k →
      ∃ t g' r x, exec (.resume g.uid) s = .next t ∧ t.gang? g.uid = some g' ∧ g'.loc = { die := d, core := c, slot := k } ∧ g'.status = .pending ∧
        g'.vblocks = g.vblocks ∧ g'.gstat = g.gstat ∧ g'.tl = 0 ∧ g'.move = .toRead ∧ g'.region = none ∧ g'.trap = some r ∧ r.cause = causePREEMPT ∧ r.sub = 1 ∧ r.ret = 0 ∧ r.reg = false ∧
        g'.t1.save = g.saveA ∧ g'.sr 63 = 0 ∧ g'.table = [x] ∧ x.sid = r.sid ∧ x.exec = 0 ∧ x.fmt = 0 ∧
        ∃ y ∈ (t.core g.loc.die g.loc.core).fwd, y.old = s.nameOf g ∧ y.new = t.nameOf g') ∧
    (∀ s1 area r x, g.move = .toRead → s.ctxRead g.ctx (g.saveA.toNat + 0x200) 64 = (s1, some area) → s1.gang? g.uid = some g → area.length = 64 →
      g.trap = some r → r.cause = causePREEMPT → r.sub = 1 → r.reg = false → r.lane = 0 → r.code = 0 → g.tl = 0 → g.region = none → g.table = [x] → x.sid = r.sid →
      let count := fun (k : Nat) => (area.getD k 0).toNat % 64
      let ent := fun (k : Nat) => leNat ((area.drop (16 + 4 * k)).take 4)
      let left := fun (k : Nat) => if (ent k).testBit 15 then ent k / 512 % 64 else 0
      ∃ t g', exec (.resume g.uid) s = .next t ∧ t.gang? g.uid = some g' ∧ g'.loc = g.loc ∧ (∀ k < 12, g'.counter k = count k) ∧
        (∀ k < 12, g'.hold.getD k HoldEnt.blank = { armed := (ent k).testBit 15, regm := (ent k).testBit 8, reg := BitVec.ofNat 8 (ent k), rem := ent k / 512 % 64 }) ∧
        ((∃ k < 12, left k < count k) → g'.tl = 0 ∧ g'.trap = some r) ∧
        ((∀ k < 12, count k ≤ left k) → (s.ctx g.ctx).tvec1 ≠ 0 → instrAddr (s.ctx g.ctx).tvec1 → g'.tl = 1 ∧ g'.trap = none ∧
          g'.t1.cause = 0#56 ++ causePREEMPT ||| (1#64 <<< 8) ∧ g'.sr 63 = g.t1.save ∧ g'.t1.save = g.t1.save ∧ g'.t1.ret = r.ret ∧ g'.t1.scr = g.sr 63 ∧
          g'.t1.stat = 0#16 ++ x.fmt ++ x.exec ∧ g'.table.map (·.pc) = [(s.ctx g.ctx).tvec1]))) ∧
  (∀ (s : State) (c : Nat),
    (c ∈ s.ctxs.map (·.num) → (s.ctx c).killed = false → ∃ t, exec (.contextKill c) s = .next t ∧ (t.ctx c).killed = true ∧
      (t.ctx c).err = (s.ctx c).err ||| errECCK ∧ (∀ x ∈ t.gangs, x.ctx ≠ c) ∧ (∀ x ∈ t.insts, x.ctx ≠ c) ∧ ∀ x ∈ t.launches, x.ctx ≠ c) ∧
    ((s.ctx c).killed = true → exec (.contextKill c) s = .next s))

/-! ### Events of the pod -/

/-- RSTV_ARRIVAL, FORWARD_ENTRY_EXPIRY, INJECTION_GRANT and COMMUNICATOR_ABORT (R126, R136, R137, R138, R143, R145, R271, R376): at its target's core an RSTV
writes its lanes of the register and takes one from every hold entry that it meets, or ends with the code of Table 06.2, or follows a forwarding
entry, or waits while its target is saved or restored; for another device it leaves as a packet, or ends with code 5 where no hop leads there; a forwarding entry
lasts 65,536 cycles; the grant goes to the earliest request of the highest priority; an abort first discards what has not left, and the COLLs in the buffer of a
region that commits, which fail with FABRIC, and with nothing outstanding it ends, sets ABT in an entry of device memory, and raises vector 0. The entry is the one that the model finds for it (log 15), the two steps of an abort are the
model's reading (log 81), and so are the fields of an RSTV's packet (log 20). -/
def Obligations.PodEvents : Prop :=
  (∀ (s : State) (r : Rstv) (o : Op) (st : Option SR), s.rstvs.find? (fun x => x.k == r.k) = some r → s.op? r.op = some o → o.kind = .rstv st none →
    r.tag = none → s.rstvBehind r = false → s.rstvReleased r = true → r.pkt = none →
    let loc := nameLoc r.name
    let code := fun (t : State) (n : Nat) => t.op? r.op = some { o with kind := .rstv st (some n) } ∧ ∀ x ∈ t.rstvs, x.k ≠ r.k
    (nameDev r.name = s.dev → (s.core loc.die loc.core).gated = false →
      (s.gangAt loc = none → (s.core loc.die loc.core).fwd = [] → nameTen r.name = r.ten → ∃ t, exec (.rstvArrival r.k) s = .next t ∧ code t 1 ∧ t.gangs = s.gangs) ∧
      (nameTen r.name ≠ r.ten → ∃ t, exec (.rstvArrival r.k) s = .next t ∧ code t 3 ∧ t.gangs = s.gangs) ∧
      (∀ f, s.gangAt loc = none → nameTen r.name = r.ten → (s.core loc.die loc.core).fwd = [f] → f.old = r.name → r.hops < 4 →
        ∃ t, exec (.rstvArrival r.k) s = .next t ∧ t.rstvs.find? (fun x => x.k == r.k) = some { r with name := f.new, hops := r.hops + 1 } ∧ t.gangs = s.gangs) ∧
      (∀ g, s.gangAt loc = some g → s.gang? g.uid = some g → (s.ctx g.ctx).ten = nameTen r.name → nameTen r.name = r.ten → loc.core < s.ncore loc.die →
        s.genOf loc = nameGen r.name → g.status ≠ .saved →
        (g.moving = true → exec (.rstvArrival r.k) s = .next s) ∧
        (g.moving = false → r.reg.toNat ≥ 32 * g.vblocks → ∃ t, exec (.rstvArrival r.k) s = .next t ∧ code t 2 ∧ t.gangs = s.gangs) ∧
        (g.moving = false → r.reg.toNat < 32 * g.vblocks → g.region = none → ∃ t g', exec (.rstvArrival r.k) s = .next t ∧ code t 0 ∧
          t.gang? g.uid = some g' ∧ g'.s = g.s ∧ g'.k = g.k ∧ t.mem = s.mem ∧
          (∀ l < 32, lane (g'.mainV r.reg.toNat) l = if r.lanes.getLsbD l then lane r.v l else lane (g.mainV r.reg.toNat) l) ∧
          (∀ n, n ≠ r.reg.toNat → g'.mainV n = g.mainV n) ∧
          ∀ k < 12, g'.counter k = g.counter k - (if (g.hold.getD k HoldEnt.blank).hit r.reg then 1 else 0)))) ∧
    (nameDev r.name ≠ s.dev →
      (s.route? (nameDev r.name) = none → ∃ t, exec (.rstvArrival r.k) s = .next t ∧ code t 5) ∧
      (∀ e n, s.route? (nameDev r.name) = some e → s.primaryHop e = .port n → ∃ t x, exec (.rstvArrival r.k) s = .next t ∧ t.pkts = s.pkts ++ [x] ∧
        x.h.kind = 6 ∧ x.h.cls = 4 ∧ x.h.ddev.toNat = nameDev r.name ∧ x.h.addr = r.name ∧ x.h.aux = r.reg.setWidth 32 ∧ x.h.mask = laneMask r.lanes ∧
        x.h.nflit = 2 ∧ x.data.length = 2))) ∧
  (∀ (s : State) (d c : Nat),
    (∃ t, exec (.forwardEntryExpiry d c) s = .next t ∧ (t.core d c).fwd = (s.core d c).fwd.filter fun f => s.clock < f.since + 65536) ∧
    (∀ q, (s.core d c).grant = none → bestReq (s.core d c).arbQ = some q → (∃ i ∈ s.items, s.underGrant q i = true ∧ i.st = .queued) →
      (∀ g, s.gang? q.uid = some g → g.region = none) → ∃ t, exec (.injectionGrant d c) s = .next t ∧ (t.core d c).grant = some q ∧
      (t.core d c).arbQ = (s.core d c).arbQ.erase q)) ∧
  (∀ (s : State) (ten comm : Nat), s.aborting ten comm = true → s.abtCleared ten comm = false → (∀ k ∈ s.cores, k.grant = none) →
    (∀ g r, s.gang? g.uid = some g → s.committing ten comm g = true → g.region = some r → ∃ t, exec (.communicatorAbort ten comm) s = .next t ∧
      ∀ g', t.gang? g.uid = some g' → (∀ r', g'.region = some r' → ∀ b ∈ r'.buf, ∀ x y z, b.body ≠ .coll x y z) ∧
        ((∃ b ∈ r.buf, ∃ x y z, b.body = .coll x y z) → g'.gstat &&& gsFABERR = gsFABERR)) ∧
    ((∀ g ∈ s.gangs, s.committing ten comm g = false) →
    ((ten, comm) ∉ s.told → ∃ t, exec (.communicatorAbort ten comm) s = .next t ∧ (ten, comm) ∈ t.told ∧ (ten, comm) ∈ t.aborts ∧
      ∀ i ∈ t.items, t.itemOf ten comm i = true → i.st ≠ .queued ∧ i.st ≠ .held) ∧
    ((ten, comm) ∈ s.told → (∀ i ∈ s.items, s.itemOf ten comm i = true → i.st = .done ∨ i.st = .failed) → (∀ p ∈ s.pkts, p.loc ≠ .here) →
      ∃ t, exec (.communicatorAbort ten comm) s = .next t ∧ (ten, comm) ∉ t.aborts ∧ (ten, comm) ∉ t.told ∧ .msix (128 * ten) ∈ t.out ∧
        ∀ x cm, s.commHome ten comm = some (x, cm) → x ∈ s.ctxs.map (·.num) → comm ∈ (t.ctx x).aborted ∧
          (cm.far = false → Memory.wf s.mem = true → (memRead t.mem (cm.pa + 20)).getLsbD 1 = true))))

/-- FLIT_RECEIVE, FLIT_ACKNOWLEDGEMENT, FLIT_REPLAY, LINK_RETRAIN, PORT_TRAINING_END and CREDIT_RETURN (R370, R371, R375, R376): the flit next in sequence is taken and
acknowledged, one whose CRC fails is asked for again; an acknowledgement frees its flit and every earlier one; a replay sends the buffer in
order and counts its flits, and the replay before it, when nothing has been acknowledged since, counts as failed; after 16 failed replays the port retrains;
training ends UP, or, the fourth time it fails, DEAD; credits give the depths of the neighbour's queues.
CUSTODY_TAKE, CUSTODY_ACK, PACKET_FORWARD and PACKET_HOLD_TIMEOUT (R372, R375, R377): a whole, well-formed packet is acknowledged and kept, its HOP
raised; a malformed one is not kept, counted and its source told; an acknowledgement frees the copy; a held packet goes out, header first, with the next
sequence numbers, on the virtual channel of its class and HOP; one held for 2^18 cycles is given up, and its own item fails; one in transit that has made its six hops, or has no way on, or is held so long, goes, and
its source is sent an error notice. That an acknowledgement frees the first copy of its TAG and source is the model's reading (log 92), and that every failed training counts toward
DEAD (log 53), and the number of a virtual channel is its choice (log 20). -/
def Obligations.LinkAndCustodyEvents : Prop :=
  (∀ (s : State) (port seq flit : Nat) (p : Port), s.port? port = some p →
    (s.portUp? port = some p →
      (BitVec.ofNat 12 seq = p.rxSeq → ∃ t, exec (.flitReceive port seq true flit) s = .next t ∧
        t.port? port = some { p with rxSeq := p.rxSeq + 1, rx := p.rx ++ [flit % 2 ^ 512] } ∧ t.out = s.out ++ [.flitAck port p.rxSeq]) ∧
      (exec (.flitReceive port seq false flit) s = .next (s.say (.replayAsk port p.rxSeq))) ∧
      (p.replay ≠ [] → let n := if p.replayed then p.fails + 1 else p.fails
        (n < 16 → ∃ t, exec (.flitReplay port) s = .next t ∧ t.out = s.out ++ p.replay.map (fun x => .flit port x.1 x.2.1 x.2.2) ∧
          t.port? port = some { p with retry := p.retry + BitVec.ofNat 64 p.replay.length, replayed := true, fails := n }) ∧
        (16 ≤ n → ∃ t, exec (.flitReplay port) s = .next t ∧ t.out = s.out ∧ t.port? port = some { p with fails := n })) ∧
      (16 ≤ p.fails → ∃ t, exec (.linkRetrain port) s = .next t ∧ t.port? port = some { p with st := .retrain, replayed := false, fails := 0 }) ∧
      (p.fails < 16 → exec (.linkRetrain port) s = .next s) ∧
      ∀ a b c d, ∃ t, exec (.creditReturn port a b c d) s = .next t ∧ t.port? port = some { p with q1 := (a, min 255 b), q2 := (c, min 255 d) }) ∧
    (∀ a x b, p.replay = a ++ x :: b → x.1 = BitVec.ofNat 12 seq → (∀ y ∈ a, y.1 ≠ x.1) → ∃ t, exec (.flitAcknowledgement port seq) s = .next t ∧
      t.port? port = some { p with replay := b, replayed := false, fails := 0 }) ∧
    ((p.st = .training ∨ p.st = .retrain) → ∀ lanes peer,
      ((lanes = 4 ∨ lanes = 8) → ∃ t p', exec (.portTrainingEnd port true lanes peer) s = .next t ∧ t.port? port = some p' ∧ p'.st = .up ∧
        p'.lanes = BitVec.ofNat 4 lanes ∧ p'.peer = BitVec.ofNat 12 peer ∧ p'.retrains = 0 ∧ (p.st = .training → p'.txSeq = 0 ∧ p'.rxSeq = 0)) ∧
      (p.retrains < 3 → ∃ t, exec (.portTrainingEnd port false lanes peer) s = .next t ∧ t.port? port = some { p with retrains := p.retrains + 1 }) ∧
      (3 ≤ p.retrains → ∃ t p', exec (.portTrainingEnd port false lanes peer) s = .next t ∧ t.port? port = some p' ∧ p'.st = .dead ∧
        ∀ x ∈ t.pkts, x.loc ≠ .link port))) ∧
  (∀ (s : State) (port : Nat) (p : Port) (f : Nat) (fs : List Nat), s.portUp? port = some p → p.rx = f :: fs → let h := Hdr.ofNat f
    h.flits ≤ fs.length → ∃ t q, exec (.custodyTake port) s = .next t ∧ t.out = s.out ++ [.custAck port h.tag.toNat h.sdev.toNat] ∧
      (h.malformed f = false → t.pkts = s.pkts ++ [q] ∧ q.h = { h with hop := h.hop + 1 } ∧ q.data = fs.take h.flits ∧ q.inPort = some port ∧
        q.loc = (if h.ddev.toNat = s.dev then .here else .held) ∧ t.port? port = some { p with rx := fs.drop h.flits }) ∧
      (h.malformed f = true → (∀ y ∈ s.pkts, y.k < s.nextId) → t.pkts = s.pkts ++ [q] ∧ q.h.kind = 0x10 ∧ q.h.ddev = h.sdev ∧ q.h.tag = h.tag ∧
        t.port? port = some { p with rx := fs.drop h.flits, errn := p.errn + 1 })) ∧
  (∀ (s : State) (port : Nat) (x : Pkt), s.pkt? x.k = some x →
    (∀ tag sdev, s.pkts.find? (fun y => y.loc == .link port && y.h.tag.toNat == tag && y.h.sdev.toNat == sdev) = some x →
      exec (.custodyAck port tag sdev) s = .next (s.dropPkt x.k)) ∧
    (∀ p, s.port? port = some p → x.loc = .held → s.devid ≠ none → s.ordBehind x = false → s.nextHop x = .port port →
      ∃ t, exec (.packetForward x.k) s = .next (s.handedOver t x) ∧ t.pkt? x.k = some { x with loc := .link port } ∧
      ((∀ i ∈ s.items, i.comm = none ∨ s.ownPkt i x = false) → exec (.packetForward x.k) s = .next t) ∧ t.out = s.out ++ (x.h.toNat :: x.data).mapIdx (fun i f => .flit port (p.txSeq + BitVec.ofNat 12 i) f (6 * x.h.cls.toNat + x.h.hop.toNat))) ∧
    (x.loc = .held → x.since + 2 ^ 18 ≤ s.clock → x.inPort = none → x.h.resp = false → x.h.kind.toNat < 8 → ∀ i,
      s.items.find? (fun y => y.tag == some x.h.tag.toNat && y.st == .sent) = some i → s.item? i.id = some i →
      ∃ t, exec (.packetHoldTimeout x.k) s = .next (s.handedOver t x) ∧ ((∀ j ∈ s.items, j.comm = none ∨ s.ownPkt j x = false) →
        exec (.packetHoldTimeout x.k) s = .next t) ∧ t.item? i.id = some { i with st := .failed, tag := none } ∧ t.pkts = s.pkts.filter fun y => y.k != x.k) ∧
    (∀ n, x.inPort = some n → x.loc = .held →
      let told := fun (i : Instr) => ∃ t q, exec i s = .next (s.handedOver t x) ∧ ((∀ j ∈ s.items, j.comm = none ∨ s.ownPkt j x = false) → exec i s = .next t) ∧
        t.pkts = (s.pkts.filter fun y => y.k != x.k) ++ [q] ∧ q.h.kind = 0x10 ∧ q.h.ddev = x.h.sdev ∧ q.h.tag = x.h.tag
      (s.devid ≠ none → s.ordBehind x = false → (x.h.hop = 6 ∨ s.route? x.h.ddev.toNat = none ∨ ∃ e, s.route? x.h.ddev.toNat = some e ∧ s.primaryHop e = .dead) →
        told (.packetForward x.k)) ∧
      (x.since + 2 ^ 18 ≤ s.clock → told (.packetHoldTimeout x.k))) ∧
    (x.loc = .held → s.clock < x.since + 2 ^ 18 → exec (.packetHoldTimeout x.k) s = .next s))

/-- REMOTE_REQUEST, REMOTE_RESPONSE, ERROR_NOTICE, IN_DOUBT_NOTICE, PROBE, PROBE_RESPONSE, ABORT_NOTICE and REFUSAL_EXPIRY (R105, R129, R133, R135, R145, R368, R378,
R379): a load or store from a peer is performed at the order point of a line in the tenant's windows, and answered; outside them it is refused with FABRIC
and changes no byte; a response gives a load its bytes, and a response with an error, an error notice or a probe that was not seen
fails the item; an in-doubt item, and one whose probe was lost, is probed, and a probed tag is not used again for 2^21 cycles; a response given up on its way
is sent again; a probe of an item performed brings its response, and one of an item not seen refuses later copies. That a lost probe is sent again, and a lost
response, is the model's reading (log 52). The packing of fields that the spec leaves
open is the model's (log 20), and so is the one step in which a peer's access is performed (log 12). -/
def Obligations.FabricItems : Prop :=
  (∀ (s : State) (x : Pkt), s.pkt? x.k = some x → x.k < s.nextId → x.loc = .here →
    let line := lineBase (x.h.addr.toNat % 2 ^ 52)
    let key := fun (r : Nat × Nat) => r.1 = x.h.sdev.toNat ∧ r.2 = x.h.tag.toNat
    let answers := fun (t : State) (err : Bool) (aux : W32) (data : List Nat) => ∃ y ∈ t.pkts, y.h.resp = true ∧ y.h.err = err ∧ y.h.aux = aux ∧ y.data = data ∧
      y.h.ddev = x.h.sdev ∧ y.h.sdev = x.h.ddev ∧ y.h.tag = x.h.tag ∧ y.h.kind = x.h.kind
    let gone := fun (t : State) => ∀ y ∈ t.pkts, y.k ≠ x.k
    let asks := x.h.resp = false ∧ s.atWork x.k = false ∧ ∀ r ∈ s.refused, ¬ key (r.1, r.2.1)
    let free := s.txn? line = none ∧ line ∉ s.snoops
    let idle := ∀ y ∈ s.pkts, y.h.tag = x.h.tag → y.h.sdev = x.h.sdev → y.loc = .here → y.h.resp = false → 8 ≤ y.h.kind.toNat
    (asks → x.h.kind = 1 → s.inFwin x.h.ten.toNat (line / 65536 * 65536) = true → s.present line = true → free → (line, true) ∉ s.hostFilter →
      ∃ t, exec (.remoteRequest x.k) s = .next t ∧ gone t ∧ answers t false 0 (halves x.h.mask (memNat (s.recall line).mem line 128)) ∧
        t.mem = (s.recall line).mem) ∧
    (asks → x.h.kind = 2 → s.inFwin x.h.ten.toNat (line / 65536 * 65536) = true → s.present line = true → free → (∀ p ∈ s.hostFilter, p.1 ≠ line) →
      (s.recall line).outdated x.h = false → ∃ t, exec (.remoteRequest x.k) s = .next t ∧ gone t ∧ answers t false 0 [] ∧ t.mem =
        (maskedBytes x.h.mask (unhalves x.h.mask x.data)).foldl (fun m b => memWrite m (line + b.1) b.2) (s.recall line).mem) ∧
    (asks → (x.h.kind = 1 ∨ x.h.kind = 2) → s.inFwin x.h.ten.toNat (line / 65536 * 65536) = false → ∃ t, exec (.remoteRequest x.k) s = .next t ∧ gone t ∧
      answers t true 5 [] ∧ t.mem = s.mem ∧ t.peerBad = s.peerBad + 1) ∧
    (x.h.kind = 0x12 → x.h.resp = false → idle → (∀ r ∈ s.performed, ¬ key (r.1, r.2.1)) →
      ∃ t, exec (.probe x.k) s = .next t ∧ answers t x.h.err x.h.aux [] ∧ t.refused = s.refused ++ [(x.h.sdev.toNat, x.h.tag.toNat, s.clock + 2 ^ 21)]) ∧
    (∀ r, x.h.kind = 0x12 → x.h.resp = false → idle → s.performed.filter (fun r => r.1 == x.h.sdev.toNat && r.2.1 == x.h.tag.toNat) = [r] →
      ∃ t, exec (.probe x.k) s = .next t ∧ answers t r.2.2.h.err (r.2.2.h.aux ||| 0x80000000) r.2.2.data ∧
        t.refused = s.refused) ∧
    (∀ r, x.h.kind = 0x10 → x.h.aux.getLsbD 0 = true → x.h.aux.getLsbD 15 = false → x.h.aux.getLsbD 16 = false →
      s.performed.find? (fun r => r.1 == (x.h.aux.extractLsb' 1 12).toNat && r.2.1 == x.h.tag.toNat) = some r →
      ∃ t, exec (.errorNotice x.k) s = .next t ∧ gone t ∧ t.mem = s.mem ∧ ∃ y ∈ t.pkts, y.h = r.2.2.h ∧ y.data = r.2.2.data) ∧
    (x.h.kind = 8 → (∀ c ∈ s.ctxs, c.ten = x.h.ten.toNat → (x.h.aux.extractLsb' 0 8).toNat ∉ c.aborted) → ∃ t, exec (.abortNotice x.k) s = .next t ∧
      (x.h.ten.toNat, (x.h.aux.extractLsb' 0 8).toNat) ∈ t.aborts ∧ gone t) ∧
    (∀ i, s.items.find? (fun y => y.tag == some x.h.tag.toNat && y.st == .sent) = some i → s.item? i.id = some i →
      let failed := fun (t : State) => t.item? i.id = some { i with st := .failed, tag := none } ∧ t.mem = s.mem
      let probed := fun (t : State) (dev : Nat) => ∃ y ∈ t.pkts, y.h.kind = 0x12 ∧ y.h.tag = x.h.tag ∧ y.h.ddev.toNat = dev ∧ y.h.resp = false
      (x.h.resp = true → x.h.kind.toNat < 8 →
        (x.h.err = false → i.kind = .load → ∃ t, exec (.remoteResponse x.k) s = .next t ∧ t.mem = s.mem ∧ t.item? i.id = some { i with
          accs := i.accs.map fun a => { a with val := bitsOf (unhalves x.h.mask x.data) (8 * a.off) (8 * a.n), done := true }, st := .done, tag := none }) ∧
        (x.h.err = true → ∃ t, exec (.remoteResponse x.k) s = .next t ∧ failed t)) ∧
      (x.h.kind = 0x10 → x.h.aux.getLsbD 0 = false → x.h.aux.getLsbD 13 = false → ∃ t, exec (.errorNotice x.k) s = .next t ∧ failed t ∧ gone t) ∧
      (∀ dev, x.h.kind = 0x10 → x.h.aux.getLsbD 0 = false → x.h.aux.getLsbD 13 = true → i.dst = .peer dev → dev < 4096 →
        ∃ t, exec (.errorNotice x.k) s = .next t ∧ probed t dev ∧ t.items = s.items ∧ (x.h.tag.toNat, s.clock + 2 ^ 21) ∈ t.quarantine) ∧
      (∀ dev, x.h.kind = 0x11 → x.h.aux.getLsbD 15 = false → x.h.aux.getLsbD 16 = false → i.dst = .peer dev → dev < 4096 → ∃ t, exec (.inDoubtNotice x.k) s = .next t ∧
        (x.h.tag.toNat, s.clock + 2 ^ 21) ∈ t.quarantine ∧ probed t dev) ∧
      (x.h.kind = 0x12 → x.h.resp = true → x.h.aux.getLsbD 31 = false → ∃ t, exec (.probeResponse x.k) s = .next t ∧ failed t ∧ gone t ∧
        (x.h.tag.toNat, s.clock + 2 ^ 21) ∈ t.quarantine))) ∧
  ∀ (s : State) (n : Nat) (r : Nat × Nat × Nat), s.refused[n]? = some r →
    (r.2.2 ≤ s.clock → exec (.refusalExpiry n) s = .next { s with refused := s.refused.eraseIdx n }) ∧
    (s.clock < r.2.2 → exec (.refusalExpiry n) s = .next s)

/-! ### Events of the host -/

/-- HOST_WRITE, HOST_READ, HOST_ATOMICOP, HOST_COMPLETION, HOST_LINK_TRAIN and HOST_LINK_DOWN (R131, R135, R339, R368, R369, R380 to R383): within one line that the
function reaches, and on which nothing is in progress, a host write changes its bytes and no other, one without Relaxed Ordering that has to wait stands
behind those that do, a read answers with them (and under
CXL the filter records the line), FetchAdd, Swap and CAS of 32 or 64 aligned bits answer with the old value and write the new one, and another AtomicOp is
unsupported; outside the windows all three are refused and change no byte; a completion gives a load its bytes and
ends a store, or fails the item; a failed link fails every request on it and, in the model's reading, empties the filter (log 55); the link trains from the third
stage of a good boot on. That a completion brings the 128 bytes of its line is the model's choice (log 56). -/
def Obligations.HostEvents : Prop :=
  (∀ (s : State) (f : HostFn) (pa id : Nat) (data : List Byte) (ro own : Bool), s.hlUp = true → data ≠ [] → pa % 128 + data.length ≤ 128 →
    let s1 := s.recall (lineBase pa)
    let n := data.length
    let reach := s.hostReaches f pa n = true ∧ s.hostWaits pa n = false
    (s.hostReaches f pa n = true → s.hostBusy pa n = false → ro = true ∨ s.hostOrd = [] → Memory.wf s.mem = true →
      ∃ t, exec (.hostWrite f pa data ro) s = .next t ∧ (∀ j < n, memRead t.mem (pa + j) = data.getD j 0) ∧
      ∀ a, (a < pa ∨ pa + n ≤ a) → memRead t.mem a = memRead s1.mem a) ∧
    (s.hostReaches f pa n = true → ro = false → s.hostBusy pa n = true ∨ s.hostOrd ≠ [] →
      exec (.hostWrite f pa data ro) s = .next { s with hostOrd := s.hostOrd ++ [{ pa := pa, data := data }] }) ∧
    (reach → s.hlMode ≠ 4 → exec (.hostRead f pa n id own) s = .next (s1.say (.readData id (memReadN s1.mem pa n)))) ∧
    (reach → s.hlMode = 4 → s.filterRoom (lineBase pa) = true → ∃ t, exec (.hostRead f pa n id own) s = .next t ∧ t.mem = s1.mem ∧
      t.out = s1.out ++ [.readData id (memReadN s1.mem pa n)] ∧ (lineBase pa, own || s1.hostFilter.contains (lineBase pa, true)) ∈ t.hostFilter) ∧
    (s.hostReaches f pa n = false →
      (∃ t, exec (.hostWrite f pa data ro) s = .next t ∧ t.mem = s.mem ∧ t.peerBad = s.peerBad + 1 ∧ t.out = s.out ++ [.writeFail]) ∧
      ∃ t, exec (.hostRead f pa n id own) s = .next t ∧ t.mem = s.mem ∧ t.peerBad = s.peerBad + 1 ∧ t.out = s.out ++ [.readFail id])) ∧
  (∀ (s : State) (f : HostFn) (k : HostAtomic) (pa id n m : Nat) (v cmp : W64), s.hlUp = true →
    (k ≠ .other → (n = 4 ∨ n = 8) → pa % n = 0 → let s1 := s.recall (lineBase pa)
      let old := memNat s1.mem pa n
      let size := 2 ^ (8 * n)
      let new := if k = .fetchAdd then (old + v.toNat) % size else if k = .swap then v.toNat % size else if old = cmp.toNat % size then v.toNat % size else old
      (s.hostReaches f pa n = true → s.hostWaits pa n = false → Memory.wf s.mem = true → (∀ p ∈ s.hostFilter, p.1 ≠ lineBase pa) →
        ∃ t, exec (.hostAtomicop f k pa n v cmp id) s = .next t ∧ .atomicOld id (BitVec.ofNat 64 old) ∈ t.out ∧ memNat t.mem pa n = new ∧
          ∀ a, (a < pa ∨ pa + n ≤ a) → memRead t.mem a = memRead s1.mem a) ∧
      (s.hostReaches f pa n = false → ∃ t, exec (.hostAtomicop f k pa n v cmp id) s = .next t ∧ t.mem = s.mem ∧ t.peerBad = s.peerBad + 1 ∧
        t.out = s.out ++ [.readFail id])) ∧
    ((n ≠ 4 ∧ n ≠ 8) ∨ pa % n ≠ 0 → exec (.hostAtomicop f k pa n v cmp id) s = .next (s.say (.atomicUnsup id))) ∧
    exec (.hostAtomicop f .other pa m v cmp id) s = .next (s.say (.atomicUnsup id))) ∧
  (∀ (s : State) (i : Item) (data : List Byte), s.item? i.id = some i → i.st = .sent → i.dst = .host →
    (i.kind = .load → data.length = 128 → ∃ t, exec (.hostCompletion i.id true data) s = .next t ∧ t.mem = s.mem ∧
      t.item? i.id = some { i with st := .done, accs := i.accs.map fun a => { a with val := readData data a.off a.n, done := true } }) ∧
    (i.kind = .store → ∃ t, exec (.hostCompletion i.id true data) s = .next t ∧
      t.item? i.id = some { i with st := .done, accs := i.accs.map fun a => { a with done := true } }) ∧
    ((i.kind = .load ∨ i.kind = .store) → ∃ t, exec (.hostCompletion i.id false data) s = .next t ∧ t.hlerr = s.hlerr + 1 ∧
      t.item? i.id = some { i with st := .failed, tag := none })) ∧
  (∀ (s : State), s.hlUp = true → ∃ t, exec .hostLinkDown s = .next t ∧ t.hlUp = false ∧ t.hostFilter = [] ∧
    ((s.items.map (·.id)).Nodup → ∀ i ∈ s.items, i.st = .sent → i.dst = .host → t.item? i.id = some { i with st := .failed, tag := none })) ∧
  ∀ (s : State) (m w : Nat), s.boot.stage.toNat ≥ 3 → s.boot.result = 0 → ((m ≤ 2 ∧ (w = 2 ∨ w = 3 ∨ w = 4)) ∨ ((m = 3 ∨ m = 4) ∧ w = 4)) →
    exec (.hostLinkTrain m w) { s with hlUp := false } = .next { s with hlUp := true, hlMode := BitVec.ofNat 3 m, hlWidth := BitVec.ofNat 3 w }

/-! ### Events of the driver -/

/-- CTXCMD_KILL, CTXCMD_RESET, CTXCFG, TINV, PFVA, PFREL, HWCMD_ARM, HWCMD_DISARM, PORTCTL_EN, PORTCTL_REENABLE, DEVID, PLBUDGET and CONFIG_WRITE (R5, R325, R331 to
R333, R342, R351, R352, R371, R383, R387): a kill sets DRVK, and a reset lets a killed context, and no other, live again; CTXCFG keeps its fields, and a
write that would change TEN while EN is set is ignored; PFVA gives the oldest record once; PFREL lets parked gangs try again; HWCMD arms and disarms, and launches
nothing; a port trains that is enabled, fused and DOWN, on a device with a number; a budget above the firmware's is ignored; PTROOT, TVEC1 and VTBASE hold the bits
that they have, and a virtual function's write is ignored. That HWCMD acts at once is the model's choice (log 57), and what a write of EN makes of a DEAD port
is its reading (log 53). -/
def Obligations.DriverRegisters : Prop :=
  (∀ (s : State) (ctx : Nat) (v : W64), s.boot.ready = true → ctx ∈ s.ctxs.map (·.num) →
    let c := s.ctx ctx
    ((c.killed = false → ∃ t, exec (.ctxcmdKill ctx) s = .next t ∧ (t.ctx ctx).killed = true ∧ (t.ctx ctx).err = c.err ||| errDRVK ∧ ∀ g ∈ t.gangs, g.ctx ≠ ctx) ∧
      (c.killed = true → ∃ t, exec (.ctxcmdReset ctx) s = .next t ∧ (t.ctx ctx).killed = false ∧ (t.ctx ctx).err = 0) ∧
      (c.killed = false → exec (.ctxcmdReset ctx) s = .next s)) ∧
    (((v.extractLsb' 0 4).toNat = c.ten ∨ (c.en = false ∧ s.ctxBusy ctx = false)) → ∃ t, exec (.ctxcfg ctx v) s = .next t ∧ (t.ctx ctx).cfg = v &&& 0x7F1F0F) ∧
    ((v.extractLsb' 0 4).toNat ≠ c.ten → c.en = true → exec (.ctxcfg ctx v) s = .next s) ∧
    (c.tinv = false → (v.extractLsb' 0 2).toNat < 2 → ∃ t w, exec (.tinv ctx v) s = .next t ∧ (t.ctx ctx).tinv = true ∧ t.sweeps = s.sweeps ++ [w] ∧ w.ctx = ctx ∧
      w.all = ((v.extractLsb' 0 2).toNat == 1) ∧ w.va = (v.extractLsb' 16 36).toNat * 65536 ∧ w.began = false ∧ w.op = none) ∧
    (∀ r rest, c.pfq = r :: rest → ∃ t, exec (.pfva ctx) s = .next t ∧ t.out = s.out ++ [.pfvaData (if c.pfOvf then r ||| (1#64 <<< 62) else r)] ∧
      (t.ctx ctx).pfq = rest ∧ (t.ctx ctx).pfOvf = false) ∧
    (c.pfq = [] → exec (.pfva ctx) s = .next (s.say (.pfvaData 0))) ∧
    (∃ t, exec (.pfrel ctx 1) s = .next t ∧ t.mem = s.mem ∧ t.gangs = s.gangs.map fun g => if g.ctx = ctx ∧ g.status = .parkedFault then { g with retry := true } else g) ∧
    (let va := (c.hwaddr.extractLsb' 0 52).toNat
     let s0 := s.tablesReady ctx va 8
     let s1 := match s0.translate ctx va .load with
       | .ok pa e => if ptePeer e || pteHost e then s0 else s0.lineReady (lineBase pa) false
       | _ => s0
     ∀ s2 r, v.extractLsb' 0 2 = 1 → s1.armWatch ctx (v.extractLsb' 8 2).toNat va (v.extractLsb' 2 2) c.hwval c.hwrec (v.getLsbD 4) false = some (s2, r) →
       ∃ t, exec (.hwcmdArm ctx v) s = .next t ∧ (t.ctx ctx).hwres = BitVec.ofNat 64 r ∧ t.dies = s2.dies ∧ t.mem = s2.mem ∧ t.launches = s.launches) ∧
    (v.extractLsb' 0 2 = 2 → let d := (v.extractLsb' 8 2).toNat
      ((∃ x ∈ (s.die d).watch, x.idx = (v.extractLsb' 16 6).toNat ∧ x.ctx = ctx) → d ∈ s.dies.map (·.die) → ∃ t, exec (.hwcmdDisarm ctx v) s = .next t ∧
        (t.ctx ctx).hwres = 0 ∧ (t.die d).watch = (s.die d).watch.filter fun x => x.idx != (v.extractLsb' 16 6).toNat) ∧
      ((∀ x ∈ (s.die d).watch, x.idx = (v.extractLsb' 16 6).toNat → x.ctx ≠ ctx) → ∃ t, exec (.hwcmdDisarm ctx v) s = .next t ∧ (t.ctx ctx).hwres = 4 ∧
        t.dies = s.dies)) ∧
    (ctx < 64 → ∃ t, exec (.configWrite .pf (0x40008 + 0x1000 * ctx) v) s = .next t ∧ (t.ctx ctx).ptroot = v &&& 0xFFFFFFFFFF000) ∧
    (ctx < 64 → ∃ t, exec (.configWrite .pf (0x40180 + 0x1000 * ctx) v) s = .next t ∧ (t.ctx ctx).tvec1 = v &&& 0xFFFFFFFFFFFFF)) ∧
  (∀ (s : State) (port : Nat) (v : W64) (p : Port), s.boot.ready = true → s.port? port = some p →
    let trains := s.devid ≠ none ∧ s.fuses.ports.getLsbD port = true
    (v.getLsbD 0 = true → ∃ t p', exec (.portctlEn port v) s = .next t ∧ t.port? port = some p' ∧ p'.en = true ∧
      p'.st = (if trains ∧ p.st = .down then .training else p.st)) ∧
    (v.getLsbD 0 = false → ∃ t p', exec (.portctlEn port v) s = .next t ∧ t.port? port = some p' ∧ p'.en = false ∧ p'.st = .down ∧ p'.lanes = 0 ∧
      ∀ x ∈ t.pkts, x.loc ≠ .link port) ∧
    (p.st = .dead → ∃ t p', exec (.portctlReenable port) s = .next t ∧ t.port? port = some p' ∧
      p'.st = if trains ∧ p.en = true then .training else .down)) ∧
  (∀ (s : State) (die : Nat) (v : W64), die ∈ s.dies.map (·.die) → let d := s.die die
    (s.boot.stage.toNat ≥ 3 → s.boot.result = 0 → (∃ t, exec (.devid v) s = .next t ∧ t.devid = some (v.extractLsb' 0 12) ∧ t.mem = s.mem) ∧
      ∃ t, exec (.plbudget die true v) s = .next t ∧ (t.die die).plb = v &&& 0xF0FFFF ∧ (t.die die).plbFw = v &&& 0xF0FFFF) ∧
    (s.boot.result ≠ 0 → exec (.devid v) s = .next s ∧ exec (.plbudget die true v) s = .next s) ∧
    ((plRamp d.plbFw < plRamp (v &&& 0xF0FFFF) ∨ plCbud d.plbFw < plCbud v ∨ plMbud d.plbFw < plMbud v) → exec (.plbudget die false v) s = .next s) ∧
    (s.boot.ready = true → plRamp (v &&& 0xF0FFFF) ≤ plRamp d.plbFw → plCbud v ≤ plCbud d.plbFw → plMbud v ≤ plMbud d.plbFw →
      ∃ t, exec (.plbudget die false v) s = .next t ∧ (t.die die).plb = v &&& 0xF0FFFF ∧ (t.die die).plbFw = d.plbFw)) ∧
  ∀ (s : State) (v : W64) (n : Nat), (∀ off, exec (.configWrite (.vf n) off v) s = .next s) ∧
    (s.boot.ready = true → n < 16 → n ∈ s.tenants.map (·.num) → ∃ t, exec (.configWrite .pf (0x20000 + 0x1000 * n) v) s = .next t ∧
      (t.tenant n).vtbase = v &&& 0xFFFFFFFFFFFFF)

/-- PGREQ_SPLIT, SPLINTER_SWAP, SPLINTER_SWEEP, PGREQ_PROMOTE, PROMOTION_COPY, PROMOTION_SWAP and PROMOTION_SWEEP (R350, R353, R354): the engines fail with the results of
Tables 20.3 and 20.4 that are named here, and otherwise go from state to state: a split builds its 512 leaves, puts the table in place of an unchanged
entry and sweeps; a promotion checks, takes W from its leaves, sweeps, copies each page of 64 KiB to its place, puts the large leaf in place of unchanged
entries, and sweeps. A sweep drops what every core holds of the range and ends once the accesses placed before are performed. That a promotion copies in one event,
and which RESULT a malformed request has, are the model's readings (log 58). -/
def Obligations.PageEngines : Prop :=
  ∀ (s : State) (ctx pa : Nat) (v e : W64) (ls : List (Nat × W64)), ctx ∈ s.ctxs.map (·.num) → Memory.wf s.mem = true →
    let c : Context := { s.ctx ctx with pgreq := keepBits v 25 51 ||| keepBits v 0 2, pgres := 0 }
    let s1 := (s.setCtx c).tablesReady ctx c.pgVa 1
    let old := s.ctx ctx
    let still := s.txns = [] ∧ s.snoops = [] ∧ s.hostFilter = [] ∧ ∀ g ∈ s.gangs, g.stash = []
    let frame := (old.pgfrm.extractLsb' 12 40).toNat * 4096
    let ends := fun (t : State) (st : PgState) (n : Nat) => (t.ctx ctx).pgst = st ∧ (t.ctx ctx).pgres = BitVec.ofNat 4 n
    let swept := fun (t : State) (va bits : Nat) => ∀ k ∈ t.cores, ∀ x ∈ k.tlb, x.ctx = ctx → x.page / 2 ^ bits ≠ va / 2 ^ bits
    let begins := fun (i : Instr) (bits : Nat) => old.pgWait = none → (∀ k ∈ s.cores, k.gated = false) → ∃ t ids, exec i s = .next t ∧
      (t.ctx ctx).pgWait = some ids ∧ (t.ctx ctx).pgst = old.pgst ∧ swept t old.pgVa bits ∧ (old.pgst ≠ .abort → ids = s.rangeItems ctx old.pgVa bits)
    let over' := fun (i : Instr) (bits : Nat) (q : State → Prop) => ∀ ids, old.pgWait = some ids → (∀ x ∈ s.items, x.id ∈ ids → x.st = .done ∨ x.st = .failed) →
      ∃ t, exec i s = .next t ∧ (t.ctx ctx).pgWait = none ∧ swept t old.pgVa bits ∧ q t
    (s.pgFree ctx v 1 = true →
      (s1.entryAt ctx c.pgVa c.pgLvl = none → ∃ t, exec (.pgreqSplit ctx v) s = .next t ∧ ends t .failed 1) ∧
      (still → s1.entryAt ctx c.pgVa c.pgLvl = some pa → e = BitVec.ofNat 64 (memNat s.mem pa 8) → pteV e = true → pteL e = true → malformed e c.pgLvl = false →
        c.pgVa % 2 ^ lvlBits c.pgLvl = 0 →
        (pteMig e = false → ∃ t, exec (.pgreqSplit ctx v) s = .next t ∧ ends t .failed 2) ∧
        (pteMig e = true → (s.inFwin c.ten frame = false ∨ s.present frame = false) → ∃ t, exec (.pgreqSplit ctx v) s = .next t ∧ ends t .failed 3) ∧
        (pteMig e = true → s.inFwin c.ten frame = true → s.present frame = true → ∃ t, exec (.pgreqSplit ctx v) s = .next t ∧ ends t .swap 0 ∧
          (t.ctx ctx).pgSave = [(pa, e)] ∧ ∀ i < 512, memNat t.mem (frame + 8 * i) 8 = (e.toNat + i * 2 ^ lvlBits (c.pgLvl - 1)) % 2 ^ 64))) ∧
    (old.pgst = .swap → old.splits = true → old.pgSave = [(pa, e)] → pa % 8 = 0 → ∀ (s2 : State) (now : W64), s.readEnt pa = (s2, now) →
      (now = e → ∃ t, exec (.splinterSwap ctx) s = .next t ∧ (t.ctx ctx).pgst = .sweep ∧ memNat t.mem pa 8 = 1 + frame) ∧
      (now ≠ e → ∃ t, exec (.splinterSwap ctx) s = .next t ∧ ends t .failed 4 ∧ t.mem = s2.mem)) ∧
    (old.pgst = .sweep → old.splits = true → begins (.splinterSweep ctx) (lvlBits old.pgLvl) ∧
      over' (.splinterSweep ctx) (lvlBits old.pgLvl) fun t => ends t .done 0) ∧
    (s.pgFree ctx v 2 = true →
      (s1.entryAt ctx c.pgVa 1 = none → ∃ t, exec (.pgreqPromote ctx v) s = .next t ∧ ends t .failed 5) ∧
      (∀ (s2 s3 : State), s1.entryAt ctx c.pgVa 1 = some pa → s1.readEnt pa = (s2, e) → pteV e = true → pteL e = false → malformed e 1 = false →
        s2.inFwin c.ten (pteFrame e) = true → s2.leaves (pteFrame e) = (s3, ls) → (∀ x ∈ ls, promOk x.2 = true ∧ x.2.extractLsb' 2 3 =
          ((ls.map Prod.snd).headD 0).extractLsb' 2 3) →
        (s3.targetOk c.ten frame = false → ∃ t, exec (.pgreqPromote ctx v) s = .next t ∧ ends t .failed 6) ∧
        (s3.targetOk c.ten frame = true → ∃ t, exec (.pgreqPromote ctx v) s = .next t ∧ ends t .protect 0 ∧ (t.ctx ctx).pgSave = (pa, e) :: ls ∧
          (still → ∀ x ∈ ls, pteW x.2 = true → memNat t.mem x.1 8 = (protectEnt x.2).toNat)))) ∧
    (old.pgst = .protect → begins (.promotionCopy ctx) 25 ∧ over' (.promotionCopy ctx) 25 fun t => (t.ctx ctx).pgst = .copy) ∧
    (still → old.pgst = .copy → old.pgSave = (pa, e) :: ls →
      (∀ i < 512, pteFrame ((ls.map Prod.snd).getD i 0) + 65536 ≤ frame ∨ frame + 2 ^ 25 ≤ pteFrame ((ls.map Prod.snd).getD i 0)) →
      ∃ t, exec (.promotionCopy ctx) s = .next t ∧ (t.ctx ctx).pgst = .swap ∧ ∀ i < 512, ∀ o < 65536,
        memRead t.mem (frame + 65536 * i + o) = memRead s.mem (pteFrame ((ls.map Prod.snd).getD i 0) + o)) ∧
    (old.pgst = .swap → old.splits = false → old.pgSave = (pa, e) :: ls → pa % 8 = 0 → ∀ (s2 s3 : State) (now : List (Nat × W64)) (ent : W64), s.leaves (pteFrame e) = (s2, now) →
      s2.readEnt pa = (s3, ent) →
      (now = ls.map (fun x => (x.1, protectEnt x.2)) → ent = e → ∃ t, exec (.promotionSwap ctx) s = .next t ∧ (t.ctx ctx).pgst = .sweep ∧
        memNat t.mem pa 8 = (0x83#64 ||| (((ls.map Prod.snd).headD 0) &&& 0x1C) ||| BitVec.ofNat 64 frame).toNat) ∧
      ((now ≠ ls.map (fun x => (x.1, protectEnt x.2)) ∨ ent ≠ e) → ∃ t, exec (.promotionSwap ctx) s = .next t ∧ (t.ctx ctx).pgst = .abort ∧ t.mem = s3.mem)) ∧
    (old.splits = false →
      (old.pgst = .sweep → begins (.promotionSweep ctx) 25 ∧ over' (.promotionSweep ctx) 25 fun t => ends t .done 0) ∧
      (old.pgst = .abort → begins (.promotionSweep ctx) 25 ∧ over' (.promotionSweep ctx) 25 fun t => ends t .failed 4))

/-! ### Bring-up -/

/-- DEVICE_RESET, BOOT_ROM_VERIFY, MEMORY_TRAIN, PLATFORM_CONFIG, READY and the SPDM requests (R383 to R388): a reset keeps what the part has fused; the boot ROM takes
slot A if it verifies, else slot B, else stops with result 1; each stage goes on or stops with its number; the platform registers take what firmware writes, with the
fused counts, once the host link is up; the responder answers from the third stage on, in the version of the exchange, and refuses what it does not support. The first
bytes of its messages are PRESUMED, what verifies is a constant without a body, that measurement 2 is taken over the signature and then the image in the model's byte
order is its choice, and that a minimum SVN asked for is fused at a reset is the model's (log 8); that a device
reset keeps the agenda and the counter of free values is the model's choice (log 2). -/
def Obligations.BringUp : Prop :=
  ∀ (s : State) (nonce : BitVec 256) (r : PlatformRegs) (sign : Bool) (code : Byte),
    let answers := fun (i : Instr) (p : List Byte) => ∃ t bs, exec i s = .next t ∧ t.out = s.out ++ [.spdm (p ++ bs)]
    let ver := s.spdm.ver
    let ok := fun (b : Bool) => slotOk s.fuses (Config.slot b) = true
    (∃ t, exec .deviceReset s = .next t ∧ t = { State.reset with agenda := s.agenda, freeCtr := s.freeCtr, fuses := t.fuses } ∧ t.fuses.ncore = s.fuses.ncore ∧
      t.fuses.nchan = s.fuses.nchan ∧ t.fuses.ports = s.fuses.ports ∧ t.fuses.svn.toNat = max s.fuses.svn.toNat s.fuses.svnAsk.toNat) ∧
    (s.atStage 1 = true →
      (ok false → ∃ t, exec .bootRomVerify s = .next t ∧ t.boot.stage = 2 ∧ t.boot.slotB = false ∧
        t.boot.meas2 = Config.sm3 (leBytes 64 (Config.slot false).sig.toNat ++ imageBytes (Config.slot false))) ∧
      (¬ ok false → ok true → ∃ t, exec .bootRomVerify s = .next t ∧ t.boot.stage = 2 ∧ t.boot.slotB = true) ∧
      (¬ ok false → ¬ ok true → ∃ t, exec .bootRomVerify s = .next t ∧ t.boot.stage = 1 ∧ t.boot.slotB = true ∧ t.boot.result = 1)) ∧
    (s.atStage 2 = true → (∃ t, exec (.memoryTrain true) s = .next t ∧ t.boot.stage = 3 ∧ t.boot.result = 0) ∧
      ∃ t, exec (.memoryTrain false) s = .next t ∧ t.boot.stage = 2 ∧ t.boot.result = 2) ∧
    (s.atStage 3 = true → (s.hlUp = true → platformOk r = true → r.ncore = s.fuses.ncore → r.nchan = s.fuses.nchan → r.pkgpwr = pkgPower →
        ∃ t, exec (.platformConfig true r) s = .next t ∧ t.boot.stage = 4 ∧ t.boot.ncore = r.ncore ∧
        t.boot.nchan = r.nchan ∧ t.boot.chloc = r.chloc ∧ ∀ d ∈ t.dies, plMbud d.plb = 96 ∧ plCbud d.plb = 32 ∧ plRamp d.plb = 4) ∧
      (s.hlUp = false → exec (.platformConfig true r) s = .next s) ∧
      ∃ t, exec (.platformConfig false r) s = .next t ∧ t.boot.stage = 3 ∧ t.boot.result = 3) ∧
    (s.atStage 4 = true → s.boot.ready = false → ∃ t, exec .ready s = .next t ∧ t.boot.ready = true ∧ t.boot.stage = 4 ∧ t.mem = s.mem) ∧
    (s.boot.stage.toNat ≥ 3 → s.boot.result = 0 →
      answers .getVersion [0x10, 0x04] ∧ answers .getCapabilities [if s.spdm.ask13 then 0x13 else 0x12, 0x61] ∧ answers .negotiateAlgorithms [ver, 0x63] ∧
      answers .getDigests [ver, 0x01] ∧ answers .getCertificate [ver, 0x02] ∧ answers (.challenge nonce) [ver, 0x03] ∧
      answers (.getMeasurements sign nonce) [ver, 0x60] ∧
      ((∀ x ∈ [0x84, 0xE1, 0xE3, 0x81, 0x82, 0x83, 0xE0], code ≠ x) → answers (.spdmUnsupportedRequest code) [ver, 0x7F, 0x07, code])) ∧
    (s.boot.stage.toNat < 3 → exec .getCapabilities s = .next s)

/-! ### Page tables -/

/-- The tables of a context (R344, R346): what makes an entry malformed; the entry that a level reads is the one that VA[24 + 9n : 16 + 9n] names; an invalid or
malformed entry is a translation fault, a leaf ends the walk, and a table entry leads one level down, inside the tenant's windows (R347); a leaf's page
covers the 16 + 9n low bits. PEND with W = 1 changes no answer, PROM changes none, and no PEER, HOST, NC or MIG leaf counts as promotable. -/
def Obligations.PageTables : Prop :=
  ∀ (s : State) (ctx ten va t n : Nat) (e : W64) (k : AccKind), n ≤ 3 →
    let entry := BitVec.ofNat 64 (memNat s.mem (t + 8 * ((BitVec.ofNat 64 va).extractLsb' (16 + 9 * n) 9).toNat) 8)
    let answer := fun (x : XRes) => match x with
      | .ok pa _ => XRes.ok pa 0
      | y => y
    (malformed e n = true ↔ (pteL e = true ∧ n = 3) ∨ (pteL e = false ∧ n = 0) ∨ (pteL e = true ∧ pteFrame e % 2 ^ (16 + 9 * n) ≠ 0) ∨
      (pteL e = false ∧ (e.extractLsb' 2 9 ≠ 0 ∨ e.extractLsb' 52 12 ≠ 0)) ∨ (ptePeer e = true ∧ (pteHost e = true ∨ pteNC e = true)) ∨
      (e.extractLsb' 52 12 ≠ 0 ∧ ptePeer e = false) ∨ e.getLsbD 11 = true) ∧
    (va < 2 ^ 52 → (pteV entry = false ∨ malformed entry n = true) → s.walkFrom ten va n t = none) ∧
    (va < 2 ^ 52 → pteV entry = true → malformed entry n = false → pteL entry = true → s.walkFrom ten va n t = some (n, entry)) ∧
    (va < 2 ^ 52 → ∀ m, n = m + 1 → pteV entry = true → malformed entry n = false → pteL entry = false → s.inFwin ten (pteFrame entry) = true →
      s.walkFrom ten va n t = s.walkFrom ten va m (pteFrame entry)) ∧
    s.walk ctx va = s.walkFrom (s.ctx ctx).ten va 3 (((s.ctx ctx).ptroot.extractLsb' 12 40).toNat * 4096) ∧
    (va < lwin → s.walk ctx va = none → s.translate ctx va k = .xlate) ∧
    (∀ pa x, s.leafRes ctx va n e k = .ok pa x → pa = pteFrame e + va % 2 ^ (16 + 9 * n) ∧ x = e) ∧
    (pteW e = true → answer (s.leafRes ctx va n (e ^^^ 0x400) k) = answer (s.leafRes ctx va n e k)) ∧
    answer (s.leafRes ctx va n (e ^^^ 0x80) k) = answer (s.leafRes ctx va n e k) ∧
    ((ptePeer e = true ∨ pteHost e = true ∨ pteNC e = true ∨ pteMig e = true) → promOk e = false)

/-! ### The machine -/

/-- The words that the spec writes out decode to the instructions it writes beside them (R158 to R163, and the examples of files 07 to 11 and 17). -/
def Obligations.DecodeWords : Prop :=
  let c : Ctl := { stall := 0, yld := false, setf := 15, wait := 0 }
  let k0 : Pred := { pg := 0, pn := false }
  let st : MemOp := { pol := 0, scl := 2, sx := false, wid := 2, base := 4, off := 1, disp := 640 }
  let dev : ScopedOp := { scl := 0, wid := 2, base := 3, off := 255, scope := 3, disp := 0 }
  decodeWord 0x78001000000190000014000C = .ok (.smovi { c with stall := 1 } 5 100) ∧
  decodeWord 0x7800000000000008040C0010 = .ok (.vadd c k0 0 3 1 2) ∧
  decodeWord 0x1000100A00880004101C00A8 = .ok (.vst { c with stall := 1, setf := 2 } k0 7 st) ∧
  decodeWord 0x780010000000000000000200 = .ok (.exit { c with stall := 1 }) ∧
  decodeWord 0x780000000000000000000080 = .ok (.nop c) ∧
  decodeWord 0x780000000400000008200196 = .ok (.vcvt c k0 false 3 0 0 1 8 2 0) ∧
  decodeWord 0x08000600000803FC0C100228 = .ok (.ldacq { c with setf := 1 } k0 4 false dev) ∧
  decodeWord 0x7800060000000000000000AB = .ok (.fenceRel c 3) ∧
  decodeWord 0x1802000000000000280002C0 = .ok (.mmac { c with setf := 3, wait := 4 } 10) ∧
  decodeWord 0x1000000014000060045000C8 = .ok (.qpush { c with setf := 2 } 20 1 24 5) ∧
  decodeWord 0x000000000C04003008140150 = .ok (.gpub { c with setf := 0 } true 3 5 2 12) ∧
  decodeWord 0x780006000004000424500054 = .ok (.rstv c k0 true false 3 20 9 1 0) ∧
  decodeWord 0x780000004C000000000000D4 = .ok (.hold c false 0 3 1) ∧
  decodeWord 0x780008000088240C08200158 = .ok (.collRaddF32 c k0 8 2 2 3 9 0) ∧
  decodeWord 0x780000000000000000000001 = .ok (.eret c)

/-- No bit of an encoding is dropped: every well-formed instruction that is no event has a word, and its word decodes to that instruction (R158, R166). -/
def Obligations.DecodeOfEncode : Prop :=
  ∀ (i : Instr), i.wf = true → (i.isEvent = false → ∃ w, encode i = some w) ∧ ∀ w, encode i = some w → decodeWord w = .ok i

/-- A word is an instruction in one way only, and a reserved bit that is set makes it none: what decodes is well formed, and is the word of its instruction
(R5, R158, R166). -/
def Obligations.EncodeOfDecode : Prop :=
  ∀ (w : BitVec 96) (i : Instr), decodeWord w = .ok i → i.wf = true ∧ encode i = some w ∧ i.isEvent = false

/-- After reset (R35, R97, R335, R371, R383): boot stage 1 with no result and not READY; no gang, no instance, no operation, nothing in flight; every
queue disabled; every port DOWN, no route and no device number, which the spec implies (log 4); nothing listed in device memory, which is in its canonical form (log 3). The values of the registers whose reset the spec does not give are
the model's (log 4), and are not stated here. -/
def Obligations.ResetState : Prop :=
  let s := State.reset
  s.boot.stage = 1 ∧ s.boot.result = 0 ∧ s.boot.ready = false ∧ s.gangs = [] ∧ s.insts = [] ∧ s.launches = [] ∧ s.places = [] ∧ s.ops = [] ∧ s.items = [] ∧
    s.pkts = [] ∧ s.txns = [] ∧ s.routes = [] ∧ s.devid = none ∧ s.hlUp = false ∧ (∀ q ∈ s.queues, q.en = false) ∧ (∀ p ∈ s.ports, p.st = .down) ∧
    s.dies.length = 4 ∧ s.ctxs.length = 64 ∧ s.tenants.length = 16 ∧ s.queues.length = 64 ∧ s.ports.length = 18 ∧
    Memory.wf s.mem = true ∧ s.mem = []

/-- A step runs the decoded instruction (R41, R149 to R153, R155; log 2): when nothing is due, the agenda is empty and the scheduler's choice is a split whose
line holds a word that decodes to `i` in its slot, the step is `exec i` with that split in focus, and the focus ends with it; a word that
does not decode, or a line that no instruction may issue from, ends the gang with ILL, and so does a mark on two words that are no pair; a marked pair issues both its instructions, the
second after the first (log 39), but the first alone where the second stands at the split's reconvergence PC outside a handler; an event of the agenda is executed, and leaves the agenda. An instruction that has to wait for memory has no effect yet: what it asks for is done
first (log 12). -/
def Obligations.StepRunsDecodedInstruction : Prop :=
  ∀ (s : State) (g : Gang) (sp : Split) (l : Latch) (n : Nat) (i : Instr) (more : List (Gang × Split)), firstChange s s.dueEvents = none →
    let runs := fun (r : Host.Outcome State Fault Refusal) => (∀ t, r = .next t → t.wants = [] → step s = r) ∧ ((∀ t, r ≠ .next t) → step s = r) ∧
      ∀ t, r = .next t → t.wants ≠ [] → s.after t ≠ s → step s = .next (s.after t)
    (s.agenda = [] → s.issuers = (g, sp) :: more → sp.latch = some l → slotOf sp.pc = some n → l.va = lineOf sp.pc →
      (lineIllegal l.word = false → (n < 4 → pairBit l.word n = false) → decodeWord (l.slots.getD n 0) = .ok i →
        runs (unfocus (exec i (s.focusOn g.uid sp.sid sp.pc)))) ∧
      ((lineIllegal l.word = true ∨ ∃ e, decodeWord (l.slots.getD n 0) = .error e) → runs (unfocus (.next (s.killGang g.uid errILL)))) ∧
      (lineIllegal l.word = false → n < 4 → pairBit l.word n = true → decodeWord (l.slots.getD n 0) = .ok i →
        let pairs := fun (j : Instr) => decodeWord (l.slots.getD (n + 1) 0) = .ok j ∧ Sys2Proof.Machine.pairOk (l.slots.getD n 0) (l.slots.getD (n + 1) 0) i j = true
        let arrives := g.tl = 0 ∧ sp.depth ≠ 0 ∧ sp.rpc = sp.pc + 12
        ((¬ ∃ j, pairs j) → runs (unfocus (.next (s.killGang g.uid errILL)))) ∧
        ∀ j, pairs j → (arrives → runs (unfocus (exec i (s.focusOn g.uid sp.sid sp.pc)))) ∧
          (¬ arrives → illegalUse s g sp sp.pc i = false → illegalUse s g sp (sp.pc + 12) j = false →
            runs (unfocus (issueSecond j g.uid sp.sid (exec i (s.focusOn g.uid sp.sid sp.pc).asFirst)))))) ∧
    (∀ rest, s.agenda = i :: rest → i.isEvent = true →
      (∀ t, exec i { s with agenda := rest } = .next t → t.wants = [] → step s = .next t) ∧
      ((∀ t, exec i { s with agenda := rest } ≠ .next t) → step s = exec i { s with agenda := rest }))

/-- Every step keeps device memory in canonical form: addresses strictly rising, and no byte listed that an unlisted one reads as (log 3), so that two memories
with the same bytes are one. -/
def Obligations.StepKeepsMemory : Prop :=
  ∀ (s t : State), Memory.wf s.mem = true → step s = .next t → Memory.wf t.mem = true
end

