-- ==== Sys2Proof/Laws/Door.lean ====
section
/-! SUPPORT. Every instruction goes through one door (R41, R166): its meaning is `issue` of itself, with an effect. -/

namespace Sys2Proof.Machine
set_option Elab.async false

theorem door_nop (c : Ctl) (s : State) : ∃ body, exec (.nop c) s = issue (.nop c) c s body := by
  show ∃ body, execNop c s = _
  unfold execNop
  exact ⟨_, rfl⟩

theorem door_pause (c : Ctl) (n : BitVec 18) (s : State) : ∃ body, exec (.pause c n) s = issue (.pause c n) c s body := by
  show ∃ body, execPause c n s = _
  unfold execPause
  exact ⟨_, rfl⟩

theorem door_waitf (c : Ctl) (mask : BitVec 12) (t : BitVec 6) (s : State) : ∃ body, exec (.waitf c mask t) s = issue (.waitf c mask t) c s body := by
  show ∃ body, execWaitf c mask t s = _
  unfold execWaitf
  exact ⟨_, rfl⟩

theorem door_exit (c : Ctl) (s : State) : ∃ body, exec (.exit c) s = issue (.exit c) c s body := by
  show ∃ body, execExit c s = _
  unfold execExit
  exact ⟨_, rfl⟩

theorem door_trap (c : Ctl) (code : BitVec 16) (s : State) : ∃ body, exec (.trap c code) s = issue (.trap c code) c s body := by
  show ∃ body, execTrap c code s = _
  unfold execTrap
  exact ⟨_, rfl⟩

theorem door_brk (c : Ctl) (code : BitVec 16) (s : State) : ∃ body, exec (.brk c code) s = issue (.brk c code) c s body := by
  show ∃ body, execBrk c code s = _
  unfold execBrk
  exact ⟨_, rfl⟩

theorem door_sget (c : Ctl) (num : BitVec 4) (d : VR) (s : State) : ∃ body, exec (.sget c num d) s = issue (.sget c num d) c s body := by
  show ∃ body, execSget c num d s = _
  unfold execSget
  exact ⟨_, rfl⟩

theorem door_setfmt (c : Ctl) (v : BitVec 16) (s : State) : ∃ body, exec (.setfmt c v) s = issue (.setfmt c v) c s body := by
  show ∃ body, execSetfmt c v s = _
  unfold execSetfmt
  exact ⟨_, rfl⟩

theorem door_getfmt (c : Ctl) (d : SR) (s : State) : ∃ body, exec (.getfmt c d) s = issue (.getfmt c d) c s body := by
  show ∃ body, execGetfmt c d s = _
  unfold execGetfmt
  exact ⟨_, rfl⟩

theorem door_setexec (c : Ctl) (k : KR) (s : State) : ∃ body, exec (.setexec c k) s = issue (.setexec c k) c s body := by
  show ∃ body, execSetexec c k s = _
  unfold execSetexec
  exact ⟨_, rfl⟩

theorem door_getexec (c : Ctl) (k : KR) (s : State) : ∃ body, exec (.getexec c k) s = issue (.getexec c k) c s body := by
  show ∃ body, execGetexec c k s = _
  unfold execGetexec
  exact ⟨_, rfl⟩

theorem door_sset (c : Ctl) (num : BitVec 4) (a : SR) (s : State) : ∃ body, exec (.sset c num a) s = issue (.sset c num a) c s body := by
  show ∃ body, execSset c num a s = _
  unfold execSset
  exact ⟨_, rfl⟩

theorem door_eret (c : Ctl) (s : State) : ∃ body, exec (.eret c) s = issue (.eret c) c s body := by
  show ∃ body, execEret c s = _
  unfold execEret
  exact ⟨_, rfl⟩

theorem door_sysget (c : Ctl) (num : BitVec 12) (d : VR) (s : State) : ∃ body, exec (.sysget c num d) s = issue (.sysget c num d) c s body := by
  show ∃ body, execSysget c num d s = _
  unfold execSysget
  exact ⟨_, rfl⟩

theorem door_sysset (c : Ctl) (num : BitVec 12) (a : VR) (s : State) : ∃ body, exec (.sysset c num a) s = issue (.sysset c num a) c s body := by
  show ∃ body, execSysset c num a s = _
  unfold execSysset
  exact ⟨_, rfl⟩

theorem door_tlbinv (c : Ctl) (a b : SR) (s : State) : ∃ body, exec (.tlbinv c a b) s = issue (.tlbinv c a b) c s body := by
  show ∃ body, execTlbinv c a b s = _
  unfold execTlbinv
  exact ⟨_, rfl⟩

theorem door_kill (c : Ctl) (code : BitVec 16) (s : State) : ∃ body, exec (.kill c code) s = issue (.kill c code) c s body := by
  show ∃ body, execKill c code s = _
  unfold execKill
  exact ⟨_, rfl⟩

theorem door_idle (c : Ctl) (a : SR) (s : State) : ∃ body, exec (.idle c a) s = issue (.idle c a) c s body := by
  show ∃ body, execIdle c a s = _
  unfold execIdle
  exact ⟨_, rfl⟩

theorem door_pgpool (c : Ctl) (d a : SR) (s : State) : ∃ body, exec (.pgpool c d a) s = issue (.pgpool c d a) c s body := by
  show ∃ body, execPgpool c d a s = _
  unfold execPgpool
  exact ⟨_, rfl⟩

theorem door_sadd (c : Ctl) (d a b : SR) (s : State) : ∃ body, exec (.sadd c d a b) s = issue (.sadd c d a b) c s body := by
  show ∃ body, execSadd c d a b s = _
  unfold execSadd
  exact ⟨_, rfl⟩

theorem door_ssub (c : Ctl) (d a b : SR) (s : State) : ∃ body, exec (.ssub c d a b) s = issue (.ssub c d a b) c s body := by
  show ∃ body, execSsub c d a b s = _
  unfold execSsub
  exact ⟨_, rfl⟩

theorem door_smul (c : Ctl) (d a b : SR) (s : State) : ∃ body, exec (.smul c d a b) s = issue (.smul c d a b) c s body := by
  show ∃ body, execSmul c d a b s = _
  unfold execSmul
  exact ⟨_, rfl⟩

theorem door_smulhi (c : Ctl) (d a b : SR) (s : State) : ∃ body, exec (.smulhi c d a b) s = issue (.smulhi c d a b) c s body := by
  show ∃ body, execSmulhi c d a b s = _
  unfold execSmulhi
  exact ⟨_, rfl⟩

theorem door_smulhu (c : Ctl) (d a b : SR) (s : State) : ∃ body, exec (.smulhu c d a b) s = issue (.smulhu c d a b) c s body := by
  show ∃ body, execSmulhu c d a b s = _
  unfold execSmulhu
  exact ⟨_, rfl⟩

theorem door_sdiv (c : Ctl) (d a b : SR) (s : State) : ∃ body, exec (.sdiv c d a b) s = issue (.sdiv c d a b) c s body := by
  show ∃ body, execSdiv c d a b s = _
  unfold execSdiv
  exact ⟨_, rfl⟩

theorem door_sdivu (c : Ctl) (d a b : SR) (s : State) : ∃ body, exec (.sdivu c d a b) s = issue (.sdivu c d a b) c s body := by
  show ∃ body, execSdivu c d a b s = _
  unfold execSdivu
  exact ⟨_, rfl⟩

theorem door_srem (c : Ctl) (d a b : SR) (s : State) : ∃ body, exec (.srem c d a b) s = issue (.srem c d a b) c s body := by
  show ∃ body, execSrem c d a b s = _
  unfold execSrem
  exact ⟨_, rfl⟩

theorem door_sremu (c : Ctl) (d a b : SR) (s : State) : ∃ body, exec (.sremu c d a b) s = issue (.sremu c d a b) c s body := by
  show ∃ body, execSremu c d a b s = _
  unfold execSremu
  exact ⟨_, rfl⟩

theorem door_sand (c : Ctl) (d a b : SR) (s : State) : ∃ body, exec (.sand c d a b) s = issue (.sand c d a b) c s body := by
  show ∃ body, execSand c d a b s = _
  unfold execSand
  exact ⟨_, rfl⟩

theorem door_sor (c : Ctl) (d a b : SR) (s : State) : ∃ body, exec (.sor c d a b) s = issue (.sor c d a b) c s body := by
  show ∃ body, execSor c d a b s = _
  unfold execSor
  exact ⟨_, rfl⟩

theorem door_sxor (c : Ctl) (d a b : SR) (s : State) : ∃ body, exec (.sxor c d a b) s = issue (.sxor c d a b) c s body := by
  show ∃ body, execSxor c d a b s = _
  unfold execSxor
  exact ⟨_, rfl⟩

theorem door_sandn (c : Ctl) (d a b : SR) (s : State) : ∃ body, exec (.sandn c d a b) s = issue (.sandn c d a b) c s body := by
  show ∃ body, execSandn c d a b s = _
  unfold execSandn
  exact ⟨_, rfl⟩

theorem door_sshl (c : Ctl) (d a b : SR) (s : State) : ∃ body, exec (.sshl c d a b) s = issue (.sshl c d a b) c s body := by
  show ∃ body, execSshl c d a b s = _
  unfold execSshl
  exact ⟨_, rfl⟩

theorem door_sshr (c : Ctl) (d a b : SR) (s : State) : ∃ body, exec (.sshr c d a b) s = issue (.sshr c d a b) c s body := by
  show ∃ body, execSshr c d a b s = _
  unfold execSshr
  exact ⟨_, rfl⟩

theorem door_ssar (c : Ctl) (d a b : SR) (s : State) : ∃ body, exec (.ssar c d a b) s = issue (.ssar c d a b) c s body := by
  show ∃ body, execSsar c d a b s = _
  unfold execSsar
  exact ⟨_, rfl⟩

theorem door_smin (c : Ctl) (d a b : SR) (s : State) : ∃ body, exec (.smin c d a b) s = issue (.smin c d a b) c s body := by
  show ∃ body, execSmin c d a b s = _
  unfold execSmin
  exact ⟨_, rfl⟩

theorem door_smax (c : Ctl) (d a b : SR) (s : State) : ∃ body, exec (.smax c d a b) s = issue (.smax c d a b) c s body := by
  show ∃ body, execSmax c d a b s = _
  unfold execSmax
  exact ⟨_, rfl⟩

theorem door_sminu (c : Ctl) (d a b : SR) (s : State) : ∃ body, exec (.sminu c d a b) s = issue (.sminu c d a b) c s body := by
  show ∃ body, execSminu c d a b s = _
  unfold execSminu
  exact ⟨_, rfl⟩

theorem door_smaxu (c : Ctl) (d a b : SR) (s : State) : ∃ body, exec (.smaxu c d a b) s = issue (.smaxu c d a b) c s body := by
  show ∃ body, execSmaxu c d a b s = _
  unfold execSmaxu
  exact ⟨_, rfl⟩

theorem door_spopc (c : Ctl) (d a : SR) (s : State) : ∃ body, exec (.spopc c d a) s = issue (.spopc c d a) c s body := by
  show ∃ body, execSpopc c d a s = _
  unfold execSpopc
  exact ⟨_, rfl⟩

theorem door_sclz (c : Ctl) (d a : SR) (s : State) : ∃ body, exec (.sclz c d a) s = issue (.sclz c d a) c s body := by
  show ∃ body, execSclz c d a s = _
  unfold execSclz
  exact ⟨_, rfl⟩

theorem door_sctz (c : Ctl) (d a : SR) (s : State) : ∃ body, exec (.sctz c d a) s = issue (.sctz c d a) c s body := by
  show ∃ body, execSctz c d a s = _
  unfold execSctz
  exact ⟨_, rfl⟩

theorem door_smov (c : Ctl) (d a : SR) (s : State) : ∃ body, exec (.smov c d a) s = issue (.smov c d a) c s body := by
  show ∃ body, execSmov c d a s = _
  unfold execSmov
  exact ⟨_, rfl⟩

theorem door_ssel (c : Ctl) (d a b : SR) (k : KR) (s : State) : ∃ body, exec (.ssel c d a b k) s = issue (.ssel c d a b k) c s body := by
  show ∃ body, execSsel c d a b k s = _
  unfold execSsel
  exact ⟨_, rfl⟩

theorem door_salui (c : Ctl) (f : SFn) (d a : SR) (imm : BitVec 18) (s : State) : ∃ body, exec (.salui c f d a imm) s = issue (.salui c f d a imm) c s body := by
  show ∃ body, execSalui c f d a imm s = _
  unfold execSalui
  exact ⟨_, rfl⟩

theorem door_scmp (c : Ctl) (cond : ICond) (k : KR) (a b : SR) (s : State) : ∃ body, exec (.scmp c cond k a b) s = issue (.scmp c cond k a b) c s body := by
  show ∃ body, execScmp c cond k a b s = _
  unfold execScmp
  exact ⟨_, rfl⟩

theorem door_scmpi (c : Ctl) (cond : ICond) (k : KR) (a : SR) (imm : BitVec 18) (s : State) : ∃ body, exec (.scmpi c cond k a imm) s = issue (.scmpi c cond k a imm) c s body := by
  show ∃ body, execScmpi c cond k a imm s = _
  unfold execScmpi
  exact ⟨_, rfl⟩

theorem door_smovi (c : Ctl) (d : SR) (imm : BitVec 32) (s : State) : ∃ body, exec (.smovi c d imm) s = issue (.smovi c d imm) c s body := by
  show ∃ body, execSmovi c d imm s = _
  unfold execSmovi
  exact ⟨_, rfl⟩

theorem door_smoviz (c : Ctl) (d : SR) (imm : BitVec 32) (s : State) : ∃ body, exec (.smoviz c d imm) s = issue (.smoviz c d imm) c s body := by
  show ∃ body, execSmoviz c d imm s = _
  unfold execSmoviz
  exact ⟨_, rfl⟩

theorem door_smovhi (c : Ctl) (d : SR) (imm : BitVec 32) (s : State) : ∃ body, exec (.smovhi c d imm) s = issue (.smovhi c d imm) c s body := by
  show ∃ body, execSmovhi c d imm s = _
  unfold execSmovhi
  exact ⟨_, rfl⟩

theorem door_sld (c : Ctl) (d : SR) (m : MemOp) (s : State) : ∃ body, exec (.sld c d m) s = issue (.sld c d m) c s body := by
  show ∃ body, execSld c d m s = _
  unfold execSld
  exact ⟨_, rfl⟩

theorem door_sst (c : Ctl) (d : SR) (m : MemOp) (s : State) : ∃ body, exec (.sst c d m) s = issue (.sst c d m) c s body := by
  show ∃ body, execSst c d m s = _
  unfold execSst
  exact ⟨_, rfl⟩

theorem door_vadd (c : Ctl) (p : Pred) (w : BitVec 2) (d a b : VR) (s : State) : ∃ body, exec (.vadd c p w d a b) s = issue (.vadd c p w d a b) c s body := by
  show ∃ body, execVadd c p w d a b s = _
  unfold execVadd
  exact ⟨_, rfl⟩

theorem door_vsub (c : Ctl) (p : Pred) (w : BitVec 2) (d a b : VR) (s : State) : ∃ body, exec (.vsub c p w d a b) s = issue (.vsub c p w d a b) c s body := by
  show ∃ body, execVsub c p w d a b s = _
  unfold execVsub
  exact ⟨_, rfl⟩

theorem door_vmul (c : Ctl) (p : Pred) (w : BitVec 2) (d a b : VR) (s : State) : ∃ body, exec (.vmul c p w d a b) s = issue (.vmul c p w d a b) c s body := by
  show ∃ body, execVmul c p w d a b s = _
  unfold execVmul
  exact ⟨_, rfl⟩

theorem door_vmulhi (c : Ctl) (p : Pred) (w : BitVec 2) (d a b : VR) (s : State) : ∃ body, exec (.vmulhi c p w d a b) s = issue (.vmulhi c p w d a b) c s body := by
  show ∃ body, execVmulhi c p w d a b s = _
  unfold execVmulhi
  exact ⟨_, rfl⟩

theorem door_vmulhu (c : Ctl) (p : Pred) (w : BitVec 2) (d a b : VR) (s : State) : ∃ body, exec (.vmulhu c p w d a b) s = issue (.vmulhu c p w d a b) c s body := by
  show ∃ body, execVmulhu c p w d a b s = _
  unfold execVmulhu
  exact ⟨_, rfl⟩

theorem door_vmad (c : Ctl) (p : Pred) (w : BitVec 2) (d a b e : VR) (s : State) : ∃ body, exec (.vmad c p w d a b e) s = issue (.vmad c p w d a b e) c s body := by
  show ∃ body, execVmad c p w d a b e s = _
  unfold execVmad
  exact ⟨_, rfl⟩

theorem door_vdiv (c : Ctl) (p : Pred) (w : BitVec 2) (d a b : VR) (s : State) : ∃ body, exec (.vdiv c p w d a b) s = issue (.vdiv c p w d a b) c s body := by
  show ∃ body, execVdiv c p w d a b s = _
  unfold execVdiv
  exact ⟨_, rfl⟩

theorem door_vdivu (c : Ctl) (p : Pred) (w : BitVec 2) (d a b : VR) (s : State) : ∃ body, exec (.vdivu c p w d a b) s = issue (.vdivu c p w d a b) c s body := by
  show ∃ body, execVdivu c p w d a b s = _
  unfold execVdivu
  exact ⟨_, rfl⟩

theorem door_vrem (c : Ctl) (p : Pred) (w : BitVec 2) (d a b : VR) (s : State) : ∃ body, exec (.vrem c p w d a b) s = issue (.vrem c p w d a b) c s body := by
  show ∃ body, execVrem c p w d a b s = _
  unfold execVrem
  exact ⟨_, rfl⟩

theorem door_vremu (c : Ctl) (p : Pred) (w : BitVec 2) (d a b : VR) (s : State) : ∃ body, exec (.vremu c p w d a b) s = issue (.vremu c p w d a b) c s body := by
  show ∃ body, execVremu c p w d a b s = _
  unfold execVremu
  exact ⟨_, rfl⟩

theorem door_vand (c : Ctl) (p : Pred) (w : BitVec 2) (d a b : VR) (s : State) : ∃ body, exec (.vand c p w d a b) s = issue (.vand c p w d a b) c s body := by
  show ∃ body, execVand c p w d a b s = _
  unfold execVand
  exact ⟨_, rfl⟩

theorem door_vor (c : Ctl) (p : Pred) (w : BitVec 2) (d a b : VR) (s : State) : ∃ body, exec (.vor c p w d a b) s = issue (.vor c p w d a b) c s body := by
  show ∃ body, execVor c p w d a b s = _
  unfold execVor
  exact ⟨_, rfl⟩

theorem door_vxor (c : Ctl) (p : Pred) (w : BitVec 2) (d a b : VR) (s : State) : ∃ body, exec (.vxor c p w d a b) s = issue (.vxor c p w d a b) c s body := by
  show ∃ body, execVxor c p w d a b s = _
  unfold execVxor
  exact ⟨_, rfl⟩

theorem door_vandn (c : Ctl) (p : Pred) (w : BitVec 2) (d a b : VR) (s : State) : ∃ body, exec (.vandn c p w d a b) s = issue (.vandn c p w d a b) c s body := by
  show ∃ body, execVandn c p w d a b s = _
  unfold execVandn
  exact ⟨_, rfl⟩

theorem door_vshl (c : Ctl) (p : Pred) (w : BitVec 2) (d a b : VR) (s : State) : ∃ body, exec (.vshl c p w d a b) s = issue (.vshl c p w d a b) c s body := by
  show ∃ body, execVshl c p w d a b s = _
  unfold execVshl
  exact ⟨_, rfl⟩

theorem door_vshr (c : Ctl) (p : Pred) (w : BitVec 2) (d a b : VR) (s : State) : ∃ body, exec (.vshr c p w d a b) s = issue (.vshr c p w d a b) c s body := by
  show ∃ body, execVshr c p w d a b s = _
  unfold execVshr
  exact ⟨_, rfl⟩

theorem door_vsar (c : Ctl) (p : Pred) (w : BitVec 2) (d a b : VR) (s : State) : ∃ body, exec (.vsar c p w d a b) s = issue (.vsar c p w d a b) c s body := by
  show ∃ body, execVsar c p w d a b s = _
  unfold execVsar
  exact ⟨_, rfl⟩

theorem door_vmin (c : Ctl) (p : Pred) (w : BitVec 2) (d a b : VR) (s : State) : ∃ body, exec (.vmin c p w d a b) s = issue (.vmin c p w d a b) c s body := by
  show ∃ body, execVmin c p w d a b s = _
  unfold execVmin
  exact ⟨_, rfl⟩

theorem door_vmax (c : Ctl) (p : Pred) (w : BitVec 2) (d a b : VR) (s : State) : ∃ body, exec (.vmax c p w d a b) s = issue (.vmax c p w d a b) c s body := by
  show ∃ body, execVmax c p w d a b s = _
  unfold execVmax
  exact ⟨_, rfl⟩

theorem door_vminu (c : Ctl) (p : Pred) (w : BitVec 2) (d a b : VR) (s : State) : ∃ body, exec (.vminu c p w d a b) s = issue (.vminu c p w d a b) c s body := by
  show ∃ body, execVminu c p w d a b s = _
  unfold execVminu
  exact ⟨_, rfl⟩

theorem door_vmaxu (c : Ctl) (p : Pred) (w : BitVec 2) (d a b : VR) (s : State) : ∃ body, exec (.vmaxu c p w d a b) s = issue (.vmaxu c p w d a b) c s body := by
  show ∃ body, execVmaxu c p w d a b s = _
  unfold execVmaxu
  exact ⟨_, rfl⟩

theorem door_vabs (c : Ctl) (p : Pred) (w : BitVec 2) (d a : VR) (s : State) : ∃ body, exec (.vabs c p w d a) s = issue (.vabs c p w d a) c s body := by
  show ∃ body, execVabs c p w d a s = _
  unfold execVabs
  exact ⟨_, rfl⟩

theorem door_vneg (c : Ctl) (p : Pred) (w : BitVec 2) (d a : VR) (s : State) : ∃ body, exec (.vneg c p w d a) s = issue (.vneg c p w d a) c s body := by
  show ∃ body, execVneg c p w d a s = _
  unfold execVneg
  exact ⟨_, rfl⟩

theorem door_vpopc (c : Ctl) (p : Pred) (w : BitVec 2) (d a : VR) (s : State) : ∃ body, exec (.vpopc c p w d a) s = issue (.vpopc c p w d a) c s body := by
  show ∃ body, execVpopc c p w d a s = _
  unfold execVpopc
  exact ⟨_, rfl⟩

theorem door_vclz (c : Ctl) (p : Pred) (w : BitVec 2) (d a : VR) (s : State) : ∃ body, exec (.vclz c p w d a) s = issue (.vclz c p w d a) c s body := by
  show ∃ body, execVclz c p w d a s = _
  unfold execVclz
  exact ⟨_, rfl⟩

theorem door_vadds (c : Ctl) (p : Pred) (u : Bool) (w : BitVec 2) (d a b : VR) (s : State) : ∃ body, exec (.vadds c p u w d a b) s = issue (.vadds c p u w d a b) c s body := by
  show ∃ body, execVadds c p u w d a b s = _
  unfold execVadds
  exact ⟨_, rfl⟩

theorem door_vsubs (c : Ctl) (p : Pred) (u : Bool) (w : BitVec 2) (d a b : VR) (s : State) : ∃ body, exec (.vsubs c p u w d a b) s = issue (.vsubs c p u w d a b) c s body := by
  show ∃ body, execVsubs c p u w d a b s = _
  unfold execVsubs
  exact ⟨_, rfl⟩

theorem door_vsel (c : Ctl) (p : Pred) (w : BitVec 2) (d a b : VR) (k : KR) (s : State) : ∃ body, exec (.vsel c p w d a b k) s = issue (.vsel c p w d a b k) c s body := by
  show ∃ body, execVsel c p w d a b k s = _
  unfold execVsel
  exact ⟨_, rfl⟩

theorem door_vmov (c : Ctl) (p : Pred) (w : BitVec 2) (d a : VR) (s : State) : ∃ body, exec (.vmov c p w d a) s = issue (.vmov c p w d a) c s body := by
  show ∃ body, execVmov c p w d a s = _
  unfold execVmov
  exact ⟨_, rfl⟩

theorem door_vfroms (c : Ctl) (p : Pred) (w : BitVec 2) (d : VR) (a : SR) (s : State) : ∃ body, exec (.vfroms c p w d a) s = issue (.vfroms c p w d a) c s body := by
  show ∃ body, execVfroms c p w d a s = _
  unfold execVfroms
  exact ⟨_, rfl⟩

theorem door_sfromv (c : Ctl) (p : Pred) (w : BitVec 2) (d : SR) (a : VR) (b : SR) (s : State) : ∃ body, exec (.sfromv c p w d a b) s = issue (.sfromv c p w d a b) c s body := by
  show ∃ body, execSfromv c p w d a b s = _
  unfold execSfromv
  exact ⟨_, rfl⟩

theorem door_valui (c : Ctl) (p : Pred) (f : VFn) (u : Bool) (w : BitVec 2) (d a : VR) (imm : BitVec 18) (s : State) : ∃ body, exec (.valui c p f u w d a imm) s = issue (.valui c p f u w d a imm) c s body := by
  show ∃ body, execValui c p f u w d a imm s = _
  unfold execValui
  exact ⟨_, rfl⟩

theorem door_vcmp (c : Ctl) (p : Pred) (cond : ICond) (w : BitVec 2) (k : KR) (a b : VR) (s : State) : ∃ body, exec (.vcmp c p cond w k a b) s = issue (.vcmp c p cond w k a b) c s body := by
  show ∃ body, execVcmp c p cond w k a b s = _
  unfold execVcmp
  exact ⟨_, rfl⟩

theorem door_vcmpi (c : Ctl) (p : Pred) (cond : ICond) (w : BitVec 2) (k : KR) (a : VR) (imm : BitVec 18) (s : State) : ∃ body, exec (.vcmpi c p cond w k a imm) s = issue (.vcmpi c p cond w k a imm) c s body := by
  show ∃ body, execVcmpi c p cond w k a imm s = _
  unfold execVcmpi
  exact ⟨_, rfl⟩

theorem door_vfadd (c : Ctl) (p : Pred) (r w : BitVec 2) (d a b : VR) (s : State) : ∃ body, exec (.vfadd c p r w d a b) s = issue (.vfadd c p r w d a b) c s body := by
  show ∃ body, execVfadd c p r w d a b s = _
  unfold execVfadd
  exact ⟨_, rfl⟩

theorem door_vfsub (c : Ctl) (p : Pred) (r w : BitVec 2) (d a b : VR) (s : State) : ∃ body, exec (.vfsub c p r w d a b) s = issue (.vfsub c p r w d a b) c s body := by
  show ∃ body, execVfsub c p r w d a b s = _
  unfold execVfsub
  exact ⟨_, rfl⟩

theorem door_vfmul (c : Ctl) (p : Pred) (r w : BitVec 2) (d a b : VR) (s : State) : ∃ body, exec (.vfmul c p r w d a b) s = issue (.vfmul c p r w d a b) c s body := by
  show ∃ body, execVfmul c p r w d a b s = _
  unfold execVfmul
  exact ⟨_, rfl⟩

theorem door_vfma (c : Ctl) (p : Pred) (r w : BitVec 2) (d a b e : VR) (s : State) : ∃ body, exec (.vfma c p r w d a b e) s = issue (.vfma c p r w d a b e) c s body := by
  show ∃ body, execVfma c p r w d a b e s = _
  unfold execVfma
  exact ⟨_, rfl⟩

theorem door_vfms (c : Ctl) (p : Pred) (r w : BitVec 2) (d a b e : VR) (s : State) : ∃ body, exec (.vfms c p r w d a b e) s = issue (.vfms c p r w d a b e) c s body := by
  show ∃ body, execVfms c p r w d a b e s = _
  unfold execVfms
  exact ⟨_, rfl⟩

theorem door_vfnma (c : Ctl) (p : Pred) (r w : BitVec 2) (d a b e : VR) (s : State) : ∃ body, exec (.vfnma c p r w d a b e) s = issue (.vfnma c p r w d a b e) c s body := by
  show ∃ body, execVfnma c p r w d a b e s = _
  unfold execVfnma
  exact ⟨_, rfl⟩

theorem door_vfmin (c : Ctl) (p : Pred) (w : BitVec 2) (d a b : VR) (s : State) : ∃ body, exec (.vfmin c p w d a b) s = issue (.vfmin c p w d a b) c s body := by
  show ∃ body, execVfmin c p w d a b s = _
  unfold execVfmin
  exact ⟨_, rfl⟩

theorem door_vfmax (c : Ctl) (p : Pred) (w : BitVec 2) (d a b : VR) (s : State) : ∃ body, exec (.vfmax c p w d a b) s = issue (.vfmax c p w d a b) c s body := by
  show ∃ body, execVfmax c p w d a b s = _
  unfold execVfmax
  exact ⟨_, rfl⟩

theorem door_vfdiv (c : Ctl) (p : Pred) (r w : BitVec 2) (d a b : VR) (s : State) : ∃ body, exec (.vfdiv c p r w d a b) s = issue (.vfdiv c p r w d a b) c s body := by
  show ∃ body, execVfdiv c p r w d a b s = _
  unfold execVfdiv
  exact ⟨_, rfl⟩

theorem door_vfsqrt (c : Ctl) (p : Pred) (r w : BitVec 2) (d a : VR) (s : State) : ∃ body, exec (.vfsqrt c p r w d a) s = issue (.vfsqrt c p r w d a) c s body := by
  show ∃ body, execVfsqrt c p r w d a s = _
  unfold execVfsqrt
  exact ⟨_, rfl⟩

theorem door_vfrcp (c : Ctl) (p : Pred) (r w : BitVec 2) (d a : VR) (s : State) : ∃ body, exec (.vfrcp c p r w d a) s = issue (.vfrcp c p r w d a) c s body := by
  show ∃ body, execVfrcp c p r w d a s = _
  unfold execVfrcp
  exact ⟨_, rfl⟩

theorem door_vfrsq (c : Ctl) (p : Pred) (r w : BitVec 2) (d a : VR) (s : State) : ∃ body, exec (.vfrsq c p r w d a) s = issue (.vfrsq c p r w d a) c s body := by
  show ∃ body, execVfrsq c p r w d a s = _
  unfold execVfrsq
  exact ⟨_, rfl⟩

theorem door_vfexp2 (c : Ctl) (p : Pred) (r w : BitVec 2) (d a : VR) (s : State) : ∃ body, exec (.vfexp2 c p r w d a) s = issue (.vfexp2 c p r w d a) c s body := by
  show ∃ body, execVfexp2 c p r w d a s = _
  unfold execVfexp2
  exact ⟨_, rfl⟩

theorem door_vflog2 (c : Ctl) (p : Pred) (r w : BitVec 2) (d a : VR) (s : State) : ∃ body, exec (.vflog2 c p r w d a) s = issue (.vflog2 c p r w d a) c s body := by
  show ∃ body, execVflog2 c p r w d a s = _
  unfold execVflog2
  exact ⟨_, rfl⟩

theorem door_vfabs (c : Ctl) (p : Pred) (w : BitVec 2) (d a : VR) (s : State) : ∃ body, exec (.vfabs c p w d a) s = issue (.vfabs c p w d a) c s body := by
  show ∃ body, execVfabs c p w d a s = _
  unfold execVfabs
  exact ⟨_, rfl⟩

theorem door_vfneg (c : Ctl) (p : Pred) (w : BitVec 2) (d a : VR) (s : State) : ∃ body, exec (.vfneg c p w d a) s = issue (.vfneg c p w d a) c s body := by
  show ∃ body, execVfneg c p w d a s = _
  unfold execVfneg
  exact ⟨_, rfl⟩

theorem door_vfclass (c : Ctl) (p : Pred) (w : BitVec 2) (d a : VR) (s : State) : ∃ body, exec (.vfclass c p w d a) s = issue (.vfclass c p w d a) c s body := by
  show ∃ body, execVfclass c p w d a s = _
  unfold execVfclass
  exact ⟨_, rfl⟩

theorem door_vfscale (c : Ctl) (p : Pred) (r w : BitVec 2) (d a b : VR) (s : State) : ∃ body, exec (.vfscale c p r w d a b) s = issue (.vfscale c p r w d a b) c s body := by
  show ∃ body, execVfscale c p r w d a b s = _
  unfold execVfscale
  exact ⟨_, rfl⟩

theorem door_vfrint (c : Ctl) (p : Pred) (r w : BitVec 2) (d a : VR) (s : State) : ∃ body, exec (.vfrint c p r w d a) s = issue (.vfrint c p r w d a) c s body := by
  show ∃ body, execVfrint c p r w d a s = _
  unfold execVfrint
  exact ⟨_, rfl⟩

theorem door_vfcmp (c : Ctl) (p : Pred) (cond : FCond) (w : BitVec 2) (k : KR) (a b : VR) (s : State) : ∃ body, exec (.vfcmp c p cond w k a b) s = issue (.vfcmp c p cond w k a b) c s body := by
  show ∃ body, execVfcmp c p cond w k a b s = _
  unfold execVfcmp
  exact ⟨_, rfl⟩

theorem door_vcvt (c : Ctl) (p : Pred) (sat : Bool) (dt st : BitVec 4) (r : BitVec 2) (pos : BitVec 3) (d a : VR) (b : SR) (s : State) : ∃ body, exec (.vcvt c p sat dt st r pos d a b) s = issue (.vcvt c p sat dt st r pos d a b) c s body := by
  show ∃ body, execVcvt c p sat dt st r pos d a b s = _
  unfold execVcvt
  exact ⟨_, rfl⟩

theorem door_vshuf (c : Ctl) (p : Pred) (w : BitVec 2) (d a b : VR) (s : State) : ∃ body, exec (.vshuf c p w d a b) s = issue (.vshuf c p w d a b) c s body := by
  show ∃ body, execVshuf c p w d a b s = _
  unfold execVshuf
  exact ⟨_, rfl⟩

theorem door_vbcast (c : Ctl) (p : Pred) (w : BitVec 2) (d a : VR) (b : SR) (s : State) : ∃ body, exec (.vbcast c p w d a b) s = issue (.vbcast c p w d a b) c s body := by
  show ∃ body, execVbcast c p w d a b s = _
  unfold execVbcast
  exact ⟨_, rfl⟩

theorem door_vrot (c : Ctl) (p : Pred) (w : BitVec 2) (d a : VR) (n : BitVec 5) (s : State) : ∃ body, exec (.vrot c p w d a n) s = issue (.vrot c p w d a n) c s body := by
  show ∃ body, execVrot c p w d a n s = _
  unfold execVrot
  exact ⟨_, rfl⟩

theorem door_vreduce (c : Ctl) (p : Pred) (r : BitVec 2) (op : BitVec 3) (w : BitVec 2) (d : SR) (a : VR) (s : State) : ∃ body, exec (.vreduce c p r op w d a) s = issue (.vreduce c p r op w d a) c s body := by
  show ∃ body, execVreduce c p r op w d a s = _
  unfold execVreduce
  exact ⟨_, rfl⟩

theorem door_vscan (c : Ctl) (p : Pred) (r : BitVec 2) (op : BitVec 3) (w : BitVec 2) (d a : VR) (s : State) : ∃ body, exec (.vscan c p r op w d a) s = issue (.vscan c p r op w d a) c s body := by
  show ∃ body, execVscan c p r op w d a s = _
  unfold execVscan
  exact ⟨_, rfl⟩

theorem door_vmatch (c : Ctl) (p : Pred) (w : BitVec 2) (d a : VR) (s : State) : ∃ body, exec (.vmatch c p w d a) s = issue (.vmatch c p w d a) c s body := by
  show ∃ body, execVmatch c p w d a s = _
  unfold execVmatch
  exact ⟨_, rfl⟩

theorem door_kand (c : Ctl) (d a b : KR) (s : State) : ∃ body, exec (.kand c d a b) s = issue (.kand c d a b) c s body := by
  show ∃ body, execKand c d a b s = _
  unfold execKand
  exact ⟨_, rfl⟩

theorem door_kor (c : Ctl) (d a b : KR) (s : State) : ∃ body, exec (.kor c d a b) s = issue (.kor c d a b) c s body := by
  show ∃ body, execKor c d a b s = _
  unfold execKor
  exact ⟨_, rfl⟩

theorem door_kxor (c : Ctl) (d a b : KR) (s : State) : ∃ body, exec (.kxor c d a b) s = issue (.kxor c d a b) c s body := by
  show ∃ body, execKxor c d a b s = _
  unfold execKxor
  exact ⟨_, rfl⟩

theorem door_kandn (c : Ctl) (d a b : KR) (s : State) : ∃ body, exec (.kandn c d a b) s = issue (.kandn c d a b) c s body := by
  show ∃ body, execKandn c d a b s = _
  unfold execKandn
  exact ⟨_, rfl⟩

theorem door_knot (c : Ctl) (d a : KR) (s : State) : ∃ body, exec (.knot c d a) s = issue (.knot c d a) c s body := by
  show ∃ body, execKnot c d a s = _
  unfold execKnot
  exact ⟨_, rfl⟩

theorem door_kmov (c : Ctl) (d a : KR) (s : State) : ∃ body, exec (.kmov c d a) s = issue (.kmov c d a) c s body := by
  show ∃ body, execKmov c d a s = _
  unfold execKmov
  exact ⟨_, rfl⟩

theorem door_kpopc (c : Ctl) (d : SR) (a : KR) (s : State) : ∃ body, exec (.kpopc c d a) s = issue (.kpopc c d a) c s body := by
  show ∃ body, execKpopc c d a s = _
  unfold execKpopc
  exact ⟨_, rfl⟩

theorem door_kffs (c : Ctl) (d : SR) (a : KR) (s : State) : ∃ body, exec (.kffs c d a) s = issue (.kffs c d a) c s body := by
  show ∃ body, execKffs c d a s = _
  unfold execKffs
  exact ⟨_, rfl⟩

theorem door_kfroms (c : Ctl) (d : KR) (a : SR) (s : State) : ∃ body, exec (.kfroms c d a) s = issue (.kfroms c d a) c s body := by
  show ∃ body, execKfroms c d a s = _
  unfold execKfroms
  exact ⟨_, rfl⟩

theorem door_ktos (c : Ctl) (d : SR) (a : KR) (s : State) : ∃ body, exec (.ktos c d a) s = issue (.ktos c d a) c s body := by
  show ∃ body, execKtos c d a s = _
  unfold execKtos
  exact ⟨_, rfl⟩

theorem door_bra (c : Ctl) (mode : BitVec 2) (k : KR) (t : BTgt) (s : State) : ∃ body, exec (.bra c mode k t) s = issue (.bra c mode k t) c s body := by
  show ∃ body, execBra c mode k t s = _
  unfold execBra
  exact ⟨_, rfl⟩

theorem door_brx (c : Ctl) (clear : Bool) (k : KR) (t r : BTgt) (s : State) : ∃ body, exec (.brx c clear k t r) s = issue (.brx c clear k t r) c s body := by
  show ∃ body, execBrx c clear k t r s = _
  unfold execBrx
  exact ⟨_, rfl⟩

theorem door_jmp (c : Ctl) (t : JTgt) (s : State) : ∃ body, exec (.jmp c t) s = issue (.jmp c t) c s body := by
  show ∃ body, execJmp c t s = _
  unfold execJmp
  exact ⟨_, rfl⟩

theorem door_call (c : Ctl) (t : JTgt) (s : State) : ∃ body, exec (.call c t) s = issue (.call c t) c s body := by
  show ∃ body, execCall c t s = _
  unfold execCall
  exact ⟨_, rfl⟩

theorem door_ret (c : Ctl) (a : SR) (s : State) : ∃ body, exec (.ret c a) s = issue (.ret c a) c s body := by
  show ∃ body, execRet c a s = _
  unfold execRet
  exact ⟨_, rfl⟩

theorem door_region (c : Ctl) (vb : VR) (a : SR) (s : State) : ∃ body, exec (.region c vb a) s = issue (.region c vb a) c s body := by
  show ∃ body, execRegion c vb a s = _
  unfold execRegion
  exact ⟨_, rfl⟩

theorem door_rcommit (c : Ctl) (s : State) : ∃ body, exec (.rcommit c) s = issue (.rcommit c) c s body := by
  show ∃ body, execRcommit c s = _
  unfold execRcommit
  exact ⟨_, rfl⟩

theorem door_rabort (c : Ctl) (s : State) : ∃ body, exec (.rabort c) s = issue (.rabort c) c s body := by
  show ∃ body, execRabort c s = _
  unfold execRabort
  exact ⟨_, rfl⟩

theorem door_join (c : Ctl) (d : SR) (n : BitVec 4) (s : State) : ∃ body, exec (.join c d n) s = issue (.join c d n) c s body := by
  show ∃ body, execJoin c d n s = _
  unfold execJoin
  exact ⟨_, rfl⟩

theorem door_leave (c : Ctl) (s : State) : ∃ body, exec (.leave c) s = issue (.leave c) c s body := by
  show ∃ body, execLeave c s = _
  unfold execLeave
  exact ⟨_, rfl⟩

theorem door_bar (c : Ctl) (s : State) : ∃ body, exec (.bar c) s = issue (.bar c) c s body := by
  show ∃ body, execBar c s = _
  unfold execBar
  exact ⟨_, rfl⟩

theorem door_bara (c : Ctl) (s : State) : ∃ body, exec (.bara c) s = issue (.bara c) c s body := by
  show ∃ body, execBara c s = _
  unfold execBara
  exact ⟨_, rfl⟩

theorem door_barw (c : Ctl) (s : State) : ∃ body, exec (.barw c) s = issue (.barw c) c s body := by
  show ∃ body, execBarw c s = _
  unfold execBarw
  exact ⟨_, rfl⟩

theorem door_rquota (c : Ctl) (d : SR) (n : BitVec 18) (s : State) : ∃ body, exec (.rquota c d n) s = issue (.rquota c d n) c s body := by
  show ∃ body, execRquota c d n s = _
  unfold execRquota
  exact ⟨_, rfl⟩

theorem door_vld (c : Ctl) (p : Pred) (d : VR) (m : MemOp) (s : State) : ∃ body, exec (.vld c p d m) s = issue (.vld c p d m) c s body := by
  show ∃ body, execVld c p d m s = _
  unfold execVld
  exact ⟨_, rfl⟩

theorem door_vst (c : Ctl) (p : Pred) (d : VR) (m : MemOp) (s : State) : ∃ body, exec (.vst c p d m) s = issue (.vst c p d m) c s body := by
  show ∃ body, execVst c p d m s = _
  unfold execVst
  exact ⟨_, rfl⟩

theorem door_vldc (c : Ctl) (p : Pred) (d : VR) (ver : SR) (m : MemOp) (s : State) : ∃ body, exec (.vldc c p d ver m) s = issue (.vldc c p d ver m) c s body := by
  show ∃ body, execVldc c p d ver m s = _
  unfold execVldc
  exact ⟨_, rfl⟩

theorem door_vstc (c : Ctl) (p : Pred) (d : VR) (ver : SR) (m : MemOp) (s : State) : ∃ body, exec (.vstc c p d ver m) s = issue (.vstc c p d ver m) c s body := by
  show ∃ body, execVstc c p d ver m s = _
  unfold execVstc
  exact ⟨_, rfl⟩

theorem door_ldacq (c : Ctl) (p : Pred) (d : VR) (sx : Bool) (m : ScopedOp) (s : State) : ∃ body, exec (.ldacq c p d sx m) s = issue (.ldacq c p d sx m) c s body := by
  show ∃ body, execLdacq c p d sx m s = _
  unfold execLdacq
  exact ⟨_, rfl⟩

theorem door_strel (c : Ctl) (p : Pred) (d : VR) (m : ScopedOp) (s : State) : ∃ body, exec (.strel c p d m) s = issue (.strel c p d m) c s body := by
  show ∃ body, execStrel c p d m s = _
  unfold execStrel
  exact ⟨_, rfl⟩

theorem door_prefetch (c : Ctl) (p : Pred) (m : MemOp) (s : State) : ∃ body, exec (.prefetch c p m) s = issue (.prefetch c p m) c s body := by
  show ∃ body, execPrefetch c p m s = _
  unfold execPrefetch
  exact ⟨_, rfl⟩

theorem door_cflush (c : Ctl) (p : Pred) (m : MemOp) (s : State) : ∃ body, exec (.cflush c p m) s = issue (.cflush c p m) c s body := by
  show ∃ body, execCflush c p m s = _
  unfold execCflush
  exact ⟨_, rfl⟩

theorem door_vatom (c : Ctl) (p : Pred) (f : AFn) (d cmp : VR) (m : ScopedOp) (s : State) : ∃ body, exec (.vatom c p f d cmp m) s = issue (.vatom c p f d cmp m) c s body := by
  show ∃ body, execVatom c p f d cmp m s = _
  unfold execVatom
  exact ⟨_, rfl⟩

theorem door_satom (c : Ctl) (f : AFn) (d cmp : SR) (m : ScopedOp) (s : State) : ∃ body, exec (.satom c f d cmp m) s = issue (.satom c f d cmp m) c s body := by
  show ∃ body, execSatom c f d cmp m s = _
  unfold execSatom
  exact ⟨_, rfl⟩

theorem door_fenceAcq (c : Ctl) (scope : BitVec 3) (s : State) : ∃ body, exec (.fenceAcq c scope) s = issue (.fenceAcq c scope) c s body := by
  show ∃ body, execFenceAcq c scope s = _
  unfold execFenceAcq
  exact ⟨_, rfl⟩

theorem door_fenceRel (c : Ctl) (scope : BitVec 3) (s : State) : ∃ body, exec (.fenceRel c scope) s = issue (.fenceRel c scope) c s body := by
  show ∃ body, execFenceRel c scope s = _
  unfold execFenceRel
  exact ⟨_, rfl⟩

theorem door_fenceAcqrel (c : Ctl) (scope : BitVec 3) (s : State) : ∃ body, exec (.fenceAcqrel c scope) s = issue (.fenceAcqrel c scope) c s body := by
  show ∃ body, execFenceAcqrel c scope s = _
  unfold execFenceAcqrel
  exact ⟨_, rfl⟩

theorem door_fenceSc (c : Ctl) (scope : BitVec 3) (s : State) : ∃ body, exec (.fenceSc c scope) s = issue (.fenceSc c scope) c s body := by
  show ∃ body, execFenceSc c scope s = _
  unfold execFenceSc
  exact ⟨_, rfl⟩

theorem door_stashMap (c : Ctl) (d a sel : SR) (disp : BitVec 18) (s : State) : ∃ body, exec (.stashMap c d a sel disp) s = issue (.stashMap c d a sel disp) c s body := by
  show ∃ body, execStashMap c d a sel disp s = _
  unfold execStashMap
  exact ⟨_, rfl⟩

theorem door_stashUnmap (c : Ctl) (d sel : SR) (s : State) : ∃ body, exec (.stashUnmap c d sel) s = issue (.stashUnmap c d sel) c s body := by
  show ∃ body, execStashUnmap c d sel s = _
  unfold execStashUnmap
  exact ⟨_, rfl⟩

theorem door_stashFlush (c : Ctl) (d sel : SR) (s : State) : ∃ body, exec (.stashFlush c d sel) s = issue (.stashFlush c d sel) c s body := by
  show ∃ body, execStashFlush c d sel s = _
  unfold execStashFlush
  exact ⟨_, rfl⟩

theorem door_stashInval (c : Ctl) (d sel : SR) (s : State) : ∃ body, exec (.stashInval c d sel) s = issue (.stashInval c d sel) c s body := by
  show ∃ body, execStashInval c d sel s = _
  unfold execStashInval
  exact ⟨_, rfl⟩

theorem door_mclaim (c : Ctl) (d a : SR) (s : State) : ∃ body, exec (.mclaim c d a) s = issue (.mclaim c d a) c s body := by
  show ∃ body, execMclaim c d a s = _
  unfold execMclaim
  exact ⟨_, rfl⟩

theorem door_mtry (c : Ctl) (d a : SR) (s : State) : ∃ body, exec (.mtry c d a) s = issue (.mtry c d a) c s body := by
  show ∃ body, execMtry c d a s = _
  unfold execMtry
  exact ⟨_, rfl⟩

theorem door_mrel (c : Ctl) (a : SR) (s : State) : ∃ body, exec (.mrel c a) s = issue (.mrel c a) c s body := by
  show ∃ body, execMrel c a s = _
  unfold execMrel
  exact ⟨_, rfl⟩

theorem door_mload (c : Ctl) (side : Bool) (a b t : SR) (s : State) : ∃ body, exec (.mload c side a b t) s = issue (.mload c side a b t) c s body := by
  show ∃ body, execMload c side a b t s = _
  unfold execMload
  exact ⟨_, rfl⟩

theorem door_mzero (c : Ctl) (a : SR) (s : State) : ∃ body, exec (.mzero c a) s = issue (.mzero c a) c s body := by
  show ∃ body, execMzero c a s = _
  unfold execMzero
  exact ⟨_, rfl⟩

theorem door_mmac (c : Ctl) (a : SR) (s : State) : ∃ body, exec (.mmac c a) s = issue (.mmac c a) c s body := by
  show ∃ body, execMmac c a s = _
  unfold execMmac
  exact ⟨_, rfl⟩

theorem door_mloop (c : Ctl) (d a : SR) (s : State) : ∃ body, exec (.mloop c d a) s = issue (.mloop c d a) c s body := by
  show ∃ body, execMloop c d a s = _
  unfold execMloop
  exact ⟨_, rfl⟩

theorem door_maccrd (c : Ctl) (ef : BitVec 2) (row0 nrow : BitVec 5) (d : VR) (a : SR) (s : State) : ∃ body, exec (.maccrd c ef row0 nrow d a) s = issue (.maccrd c ef row0 nrow d a) c s body := by
  show ∃ body, execMaccrd c ef row0 nrow d a s = _
  unfold execMaccrd
  exact ⟨_, rfl⟩

theorem door_maccwr (c : Ctl) (ef : BitVec 2) (row0 nrow : BitVec 5) (d : VR) (a : SR) (s : State) : ∃ body, exec (.maccwr c ef row0 nrow d a) s = issue (.maccwr c ef row0 nrow d a) c s body := by
  show ∃ body, execMaccwr c ef row0 nrow d a s = _
  unfold execMaccwr
  exact ⟨_, rfl⟩

theorem door_mstore (c : Ctl) (hi tr tom : Bool) (f : BitVec 2) (a b t : SR) (s : State) : ∃ body, exec (.mstore c hi tr tom f a b t) s = issue (.mstore c hi tr tom f a b t) c s body := by
  show ∃ body, execMstore c hi tr tom f a b t s = _
  unfold execMstore
  exact ⟨_, rfl⟩

theorem door_mdrain (c : Ctl) (ord : Bool) (d a b t : SR) (s : State) : ∃ body, exec (.mdrain c ord d a b t) s = issue (.mdrain c ord d a b t) c s body := by
  show ∃ body, execMdrain c ord d a b t s = _
  unfold execMdrain
  exact ⟨_, rfl⟩

theorem door_mstate (c : Ctl) (d a : SR) (s : State) : ∃ body, exec (.mstate c d a) s = issue (.mstate c d a) c s body := by
  show ∃ body, execMstate c d a s = _
  unfold execMstate
  exact ⟨_, rfl⟩

theorem door_qbind (c : Ctl) (d : SR) (q : QR) (b : SR) (s : State) : ∃ body, exec (.qbind c d q b) s = issue (.qbind c d q b) c s body := by
  show ∃ body, execQbind c d q b s = _
  unfold execQbind
  exact ⟨_, rfl⟩

theorem door_qpush (c : Ctl) (d : SR) (q : QR) (b : SR) (n : BitVec 3) (s : State) : ∃ body, exec (.qpush c d q b n) s = issue (.qpush c d q b n) c s body := by
  show ∃ body, execQpush c d q b n s = _
  unfold execQpush
  exact ⟨_, rfl⟩

theorem door_qpop (c : Ctl) (d : SR) (q : QR) (s : State) : ∃ body, exec (.qpop c d q) s = issue (.qpop c d q) c s body := by
  show ∃ body, execQpop c d q s = _
  unfold execQpop
  exact ⟨_, rfl⟩

theorem door_qtry (c : Ctl) (d : SR) (q : QR) (s : State) : ∃ body, exec (.qtry c d q) s = issue (.qtry c d q) c s body := by
  show ∃ body, execQtry c d q s = _
  unfold execQtry
  exact ⟨_, rfl⟩

theorem door_tlwait (c : Ctl) (q : QR) (b : SR) (s : State) : ∃ body, exec (.tlwait c q b) s = issue (.tlwait c q b) c s body := by
  show ∃ body, execTlwait c q b s = _
  unfold execTlwait
  exact ⟨_, rfl⟩

theorem door_tlread (c : Ctl) (d : SR) (q : QR) (s : State) : ∃ body, exec (.tlread c d q) s = issue (.tlread c d q) c s body := by
  show ∃ body, execTlread c d q s = _
  unfold execTlread
  exact ⟨_, rfl⟩

theorem door_gnew (c : Ctl) (d a b : SR) (s : State) : ∃ body, exec (.gnew c d a b) s = issue (.gnew c d a b) c s body := by
  show ∃ body, execGnew c d a b s = _
  unfold execGnew
  exact ⟨_, rfl⟩

theorem door_gfree (c : Ctl) (d a : SR) (s : State) : ∃ body, exec (.gfree c d a) s = issue (.gfree c d a) c s body := by
  show ∃ body, execGfree c d a s = _
  unfold execGfree
  exact ⟨_, rfl⟩

theorem door_gpub (c : Ctl) (nb : Bool) (gr : BitVec 2) (d a b : SR) (s : State) : ∃ body, exec (.gpub c nb gr d a b) s = issue (.gpub c nb gr d a b) c s body := by
  show ∃ body, execGpub c nb gr d a b s = _
  unfold execGpub
  exact ⟨_, rfl⟩

theorem door_gprom (c : Ctl) (gr : BitVec 2) (d a b : SR) (s : State) : ∃ body, exec (.gprom c gr d a b) s = issue (.gprom c gr d a b) c s body := by
  show ∃ body, execGprom c gr d a b s = _
  unfold execGprom
  exact ⟨_, rfl⟩

theorem door_gqry (c : Ctl) (d a : SR) (s : State) : ∃ body, exec (.gqry c d a) s = issue (.gqry c d a) c s body := by
  show ∃ body, execGqry c d a s = _
  unfold execGqry
  exact ⟨_, rfl⟩

theorem door_tspawn (c : Ctl) (p : Pred) (one keep : Bool) (d a : SR) (b : VR) (s : State) : ∃ body, exec (.tspawn c p one keep d a b) s = issue (.tspawn c p one keep d a b) c s body := by
  show ∃ body, execTspawn c p one keep d a b s = _
  unfold execTspawn
  exact ⟨_, rfl⟩

theorem door_rstv (c : Ctl) (p : Pred) (rel sts : Bool) (scope : BitVec 3) (d : VR) (a : SR) (b : VR) (st : SR) (s : State) : ∃ body, exec (.rstv c p rel sts scope d a b st) s = issue (.rstv c p rel sts scope d a b st) c s body := by
  show ∃ body, execRstv c p rel sts scope d a b st s = _
  unfold execRstv
  exact ⟨_, rfl⟩

theorem door_hold (c : Ctl) (regm : Bool) (d : VR) (k : BitVec 4) (n : BitVec 6) (s : State) : ∃ body, exec (.hold c regm d k n) s = issue (.hold c regm d k n) c s body := by
  show ∃ body, execHold c regm d k n s = _
  unfold execHold
  exact ⟨_, rfl⟩

theorem door_regroup (c : Ctl) (p : Pred) (vt key vl : VR) (n : BitVec 6) (s : State) : ∃ body, exec (.regroup c p vt key vl n) s = issue (.regroup c p vt key vl n) c s body := by
  show ∃ body, execRegroup c p vt key vl n s = _
  unfold execRegroup
  exact ⟨_, rfl⟩

theorem door_collPut (c : Ctl) (p : Pred) (d : VR) (a : SR) (scl : BitVec 2) (off rank : VR) (disp : BitVec 15) (s : State) : ∃ body, exec (.collPut c p d a scl off rank disp) s = issue (.collPut c p d a scl off rank disp) c s body := by
  show ∃ body, execCollPut c p d a scl off rank disp s = _
  unfold execCollPut
  exact ⟨_, rfl⟩

theorem door_collGet (c : Ctl) (p : Pred) (d : VR) (a : SR) (scl : BitVec 2) (off rank : VR) (disp : BitVec 15) (s : State) : ∃ body, exec (.collGet c p d a scl off rank disp) s = issue (.collGet c p d a scl off rank disp) c s body := by
  show ∃ body, execCollGet c p d a scl off rank disp s = _
  unfold execCollGet
  exact ⟨_, rfl⟩

theorem door_collRaddF32 (c : Ctl) (p : Pred) (d : VR) (a : SR) (scl : BitVec 2) (off rank : VR) (disp : BitVec 15) (s : State) : ∃ body, exec (.collRaddF32 c p d a scl off rank disp) s = issue (.collRaddF32 c p d a scl off rank disp) c s body := by
  show ∃ body, execCollRaddF32 c p d a scl off rank disp s = _
  unfold execCollRaddF32
  exact ⟨_, rfl⟩

theorem door_collRaddBf16 (c : Ctl) (p : Pred) (d : VR) (a : SR) (scl : BitVec 2) (off rank : VR) (disp : BitVec 15) (s : State) : ∃ body, exec (.collRaddBf16 c p d a scl off rank disp) s = issue (.collRaddBf16 c p d a scl off rank disp) c s body := by
  show ∃ body, execCollRaddBf16 c p d a scl off rank disp s = _
  unfold execCollRaddBf16
  exact ⟨_, rfl⟩

theorem door_collRmaxF32 (c : Ctl) (p : Pred) (d : VR) (a : SR) (scl : BitVec 2) (off rank : VR) (disp : BitVec 15) (s : State) : ∃ body, exec (.collRmaxF32 c p d a scl off rank disp) s = issue (.collRmaxF32 c p d a scl off rank disp) c s body := by
  show ∃ body, execCollRmaxF32 c p d a scl off rank disp s = _
  unfold execCollRmaxF32
  exact ⟨_, rfl⟩

theorem door_collRaddI32 (c : Ctl) (p : Pred) (d : VR) (a : SR) (scl : BitVec 2) (off rank : VR) (disp : BitVec 15) (s : State) : ∃ body, exec (.collRaddI32 c p d a scl off rank disp) s = issue (.collRaddI32 c p d a scl off rank disp) c s body := by
  show ∃ body, execCollRaddI32 c p d a scl off rank disp s = _
  unfold execCollRaddI32
  exact ⟨_, rfl⟩

theorem door_confx (c : Ctl) (p : Pred) (emit : Bool) (k : KR) (a : VR) (b : SR) (ver : VR) (q : QR) (s : State) : ∃ body, exec (.confx c p emit k a b ver q) s = issue (.confx c p emit k a b ver q) c s body := by
  show ∃ body, execConfx c p emit k a b ver q s = _
  unfold execConfx
  exact ⟨_, rfl⟩

theorem door_accept (c : Ctl) (p : Pred) (prob : Bool) (k : KR) (a : VR) (b : SR) (seg : KR) (s : State) : ∃ body, exec (.accept c p prob k a b seg) s = issue (.accept c p prob k a b seg) c s body := by
  show ∃ body, execAccept c p prob k a b seg s = _
  unfold execAccept
  exact ⟨_, rfl⟩

theorem door_apport (c : Ctl) (p : Pred) (d a : VR) (b : SR) (s : State) : ∃ body, exec (.apport c p d a b) s = issue (.apport c p d a b) c s body := by
  show ∃ body, execApport c p d a b s = _
  unfold execApport
  exact ⟨_, rfl⟩

theorem door_vrand (c : Ctl) (p : Pred) (raw : Bool) (d a : VR) (b : SR) (s : State) : ∃ body, exec (.vrand c p raw d a b) s = issue (.vrand c p raw d a b) c s body := by
  show ∃ body, execVrand c p raw d a b s = _
  unfold execVrand
  exact ⟨_, rfl⟩

/-- The meaning of every instruction is its issue, with an effect. -/
theorem exec_door (i : Instr) (c : Ctl) (h : i.ctl? = some c) (s : State) : ∃ body, exec i s = issue i c s body := by
  cases i with
  | nop x0 => injection h with h; subst h; exact door_nop _ s
  | pause x0 x1 => injection h with h; subst h; exact door_pause _ _ s
  | waitf x0 x1 x2 => injection h with h; subst h; exact door_waitf _ _ _ s
  | exit x0 => injection h with h; subst h; exact door_exit _ s
  | trap x0 x1 => injection h with h; subst h; exact door_trap _ _ s
  | brk x0 x1 => injection h with h; subst h; exact door_brk _ _ s
  | sget x0 x1 x2 => injection h with h; subst h; exact door_sget _ _ _ s
  | setfmt x0 x1 => injection h with h; subst h; exact door_setfmt _ _ s
  | getfmt x0 x1 => injection h with h; subst h; exact door_getfmt _ _ s
  | setexec x0 x1 => injection h with h; subst h; exact door_setexec _ _ s
  | getexec x0 x1 => injection h with h; subst h; exact door_getexec _ _ s
  | sset x0 x1 x2 => injection h with h; subst h; exact door_sset _ _ _ s
  | eret x0 => injection h with h; subst h; exact door_eret _ s
  | sysget x0 x1 x2 => injection h with h; subst h; exact door_sysget _ _ _ s
  | sysset x0 x1 x2 => injection h with h; subst h; exact door_sysset _ _ _ s
  | tlbinv x0 x1 x2 => injection h with h; subst h; exact door_tlbinv _ _ _ s
  | kill x0 x1 => injection h with h; subst h; exact door_kill _ _ s
  | idle x0 x1 => injection h with h; subst h; exact door_idle _ _ s
  | pgpool x0 x1 x2 => injection h with h; subst h; exact door_pgpool _ _ _ s
  | sadd x0 x1 x2 x3 => injection h with h; subst h; exact door_sadd _ _ _ _ s
  | ssub x0 x1 x2 x3 => injection h with h; subst h; exact door_ssub _ _ _ _ s
  | smul x0 x1 x2 x3 => injection h with h; subst h; exact door_smul _ _ _ _ s
  | smulhi x0 x1 x2 x3 => injection h with h; subst h; exact door_smulhi _ _ _ _ s
  | smulhu x0 x1 x2 x3 => injection h with h; subst h; exact door_smulhu _ _ _ _ s
  | sdiv x0 x1 x2 x3 => injection h with h; subst h; exact door_sdiv _ _ _ _ s
  | sdivu x0 x1 x2 x3 => injection h with h; subst h; exact door_sdivu _ _ _ _ s
  | srem x0 x1 x2 x3 => injection h with h; subst h; exact door_srem _ _ _ _ s
  | sremu x0 x1 x2 x3 => injection h with h; subst h; exact door_sremu _ _ _ _ s
  | sand x0 x1 x2 x3 => injection h with h; subst h; exact door_sand _ _ _ _ s
  | sor x0 x1 x2 x3 => injection h with h; subst h; exact door_sor _ _ _ _ s
  | sxor x0 x1 x2 x3 => injection h with h; subst h; exact door_sxor _ _ _ _ s
  | sandn x0 x1 x2 x3 => injection h with h; subst h; exact door_sandn _ _ _ _ s
  | sshl x0 x1 x2 x3 => injection h with h; subst h; exact door_sshl _ _ _ _ s
  | sshr x0 x1 x2 x3 => injection h with h; subst h; exact door_sshr _ _ _ _ s
  | ssar x0 x1 x2 x3 => injection h with h; subst h; exact door_ssar _ _ _ _ s
  | smin x0 x1 x2 x3 => injection h with h; subst h; exact door_smin _ _ _ _ s
  | smax x0 x1 x2 x3 => injection h with h; subst h; exact door_smax _ _ _ _ s
  | sminu x0 x1 x2 x3 => injection h with h; subst h; exact door_sminu _ _ _ _ s
  | smaxu x0 x1 x2 x3 => injection h with h; subst h; exact door_smaxu _ _ _ _ s
  | spopc x0 x1 x2 => injection h with h; subst h; exact door_spopc _ _ _ s
  | sclz x0 x1 x2 => injection h with h; subst h; exact door_sclz _ _ _ s
  | sctz x0 x1 x2 => injection h with h; subst h; exact door_sctz _ _ _ s
  | smov x0 x1 x2 => injection h with h; subst h; exact door_smov _ _ _ s
  | ssel x0 x1 x2 x3 x4 => injection h with h; subst h; exact door_ssel _ _ _ _ _ s
  | salui x0 x1 x2 x3 x4 => injection h with h; subst h; exact door_salui _ _ _ _ _ s
  | scmp x0 x1 x2 x3 x4 => injection h with h; subst h; exact door_scmp _ _ _ _ _ s
  | scmpi x0 x1 x2 x3 x4 => injection h with h; subst h; exact door_scmpi _ _ _ _ _ s
  | smovi x0 x1 x2 => injection h with h; subst h; exact door_smovi _ _ _ s
  | smoviz x0 x1 x2 => injection h with h; subst h; exact door_smoviz _ _ _ s
  | smovhi x0 x1 x2 => injection h with h; subst h; exact door_smovhi _ _ _ s
  | sld x0 x1 x2 => injection h with h; subst h; exact door_sld _ _ _ s
  | sst x0 x1 x2 => injection h with h; subst h; exact door_sst _ _ _ s
  | vadd x0 x1 x2 x3 x4 x5 => injection h with h; subst h; exact door_vadd _ _ _ _ _ _ s
  | vsub x0 x1 x2 x3 x4 x5 => injection h with h; subst h; exact door_vsub _ _ _ _ _ _ s
  | vmul x0 x1 x2 x3 x4 x5 => injection h with h; subst h; exact door_vmul _ _ _ _ _ _ s
  | vmulhi x0 x1 x2 x3 x4 x5 => injection h with h; subst h; exact door_vmulhi _ _ _ _ _ _ s
  | vmulhu x0 x1 x2 x3 x4 x5 => injection h with h; subst h; exact door_vmulhu _ _ _ _ _ _ s
  | vmad x0 x1 x2 x3 x4 x5 x6 => injection h with h; subst h; exact door_vmad _ _ _ _ _ _ _ s
  | vdiv x0 x1 x2 x3 x4 x5 => injection h with h; subst h; exact door_vdiv _ _ _ _ _ _ s
  | vdivu x0 x1 x2 x3 x4 x5 => injection h with h; subst h; exact door_vdivu _ _ _ _ _ _ s
  | vrem x0 x1 x2 x3 x4 x5 => injection h with h; subst h; exact door_vrem _ _ _ _ _ _ s
  | vremu x0 x1 x2 x3 x4 x5 => injection h with h; subst h; exact door_vremu _ _ _ _ _ _ s
  | vand x0 x1 x2 x3 x4 x5 => injection h with h; subst h; exact door_vand _ _ _ _ _ _ s
  | vor x0 x1 x2 x3 x4 x5 => injection h with h; subst h; exact door_vor _ _ _ _ _ _ s
  | vxor x0 x1 x2 x3 x4 x5 => injection h with h; subst h; exact door_vxor _ _ _ _ _ _ s
  | vandn x0 x1 x2 x3 x4 x5 => injection h with h; subst h; exact door_vandn _ _ _ _ _ _ s
  | vshl x0 x1 x2 x3 x4 x5 => injection h with h; subst h; exact door_vshl _ _ _ _ _ _ s
  | vshr x0 x1 x2 x3 x4 x5 => injection h with h; subst h; exact door_vshr _ _ _ _ _ _ s
  | vsar x0 x1 x2 x3 x4 x5 => injection h with h; subst h; exact door_vsar _ _ _ _ _ _ s
  | vmin x0 x1 x2 x3 x4 x5 => injection h with h; subst h; exact door_vmin _ _ _ _ _ _ s
  | vmax x0 x1 x2 x3 x4 x5 => injection h with h; subst h; exact door_vmax _ _ _ _ _ _ s
  | vminu x0 x1 x2 x3 x4 x5 => injection h with h; subst h; exact door_vminu _ _ _ _ _ _ s
  | vmaxu x0 x1 x2 x3 x4 x5 => injection h with h; subst h; exact door_vmaxu _ _ _ _ _ _ s
  | vabs x0 x1 x2 x3 x4 => injection h with h; subst h; exact door_vabs _ _ _ _ _ s
  | vneg x0 x1 x2 x3 x4 => injection h with h; subst h; exact door_vneg _ _ _ _ _ s
  | vpopc x0 x1 x2 x3 x4 => injection h with h; subst h; exact door_vpopc _ _ _ _ _ s
  | vclz x0 x1 x2 x3 x4 => injection h with h; subst h; exact door_vclz _ _ _ _ _ s
  | vadds x0 x1 x2 x3 x4 x5 x6 => injection h with h; subst h; exact door_vadds _ _ _ _ _ _ _ s
  | vsubs x0 x1 x2 x3 x4 x5 x6 => injection h with h; subst h; exact door_vsubs _ _ _ _ _ _ _ s
  | vsel x0 x1 x2 x3 x4 x5 x6 => injection h with h; subst h; exact door_vsel _ _ _ _ _ _ _ s
  | vmov x0 x1 x2 x3 x4 => injection h with h; subst h; exact door_vmov _ _ _ _ _ s
  | vfroms x0 x1 x2 x3 x4 => injection h with h; subst h; exact door_vfroms _ _ _ _ _ s
  | sfromv x0 x1 x2 x3 x4 x5 => injection h with h; subst h; exact door_sfromv _ _ _ _ _ _ s
  | valui x0 x1 x2 x3 x4 x5 x6 x7 => injection h with h; subst h; exact door_valui _ _ _ _ _ _ _ _ s
  | vcmp x0 x1 x2 x3 x4 x5 x6 => injection h with h; subst h; exact door_vcmp _ _ _ _ _ _ _ s
  | vcmpi x0 x1 x2 x3 x4 x5 x6 => injection h with h; subst h; exact door_vcmpi _ _ _ _ _ _ _ s
  | vfadd x0 x1 x2 x3 x4 x5 x6 => injection h with h; subst h; exact door_vfadd _ _ _ _ _ _ _ s
  | vfsub x0 x1 x2 x3 x4 x5 x6 => injection h with h; subst h; exact door_vfsub _ _ _ _ _ _ _ s
  | vfmul x0 x1 x2 x3 x4 x5 x6 => injection h with h; subst h; exact door_vfmul _ _ _ _ _ _ _ s
  | vfma x0 x1 x2 x3 x4 x5 x6 x7 => injection h with h; subst h; exact door_vfma _ _ _ _ _ _ _ _ s
  | vfms x0 x1 x2 x3 x4 x5 x6 x7 => injection h with h; subst h; exact door_vfms _ _ _ _ _ _ _ _ s
  | vfnma x0 x1 x2 x3 x4 x5 x6 x7 => injection h with h; subst h; exact door_vfnma _ _ _ _ _ _ _ _ s
  | vfmin x0 x1 x2 x3 x4 x5 => injection h with h; subst h; exact door_vfmin _ _ _ _ _ _ s
  | vfmax x0 x1 x2 x3 x4 x5 => injection h with h; subst h; exact door_vfmax _ _ _ _ _ _ s
  | vfdiv x0 x1 x2 x3 x4 x5 x6 => injection h with h; subst h; exact door_vfdiv _ _ _ _ _ _ _ s
  | vfsqrt x0 x1 x2 x3 x4 x5 => injection h with h; subst h; exact door_vfsqrt _ _ _ _ _ _ s
  | vfrcp x0 x1 x2 x3 x4 x5 => injection h with h; subst h; exact door_vfrcp _ _ _ _ _ _ s
  | vfrsq x0 x1 x2 x3 x4 x5 => injection h with h; subst h; exact door_vfrsq _ _ _ _ _ _ s
  | vfexp2 x0 x1 x2 x3 x4 x5 => injection h with h; subst h; exact door_vfexp2 _ _ _ _ _ _ s
  | vflog2 x0 x1 x2 x3 x4 x5 => injection h with h; subst h; exact door_vflog2 _ _ _ _ _ _ s
  | vfabs x0 x1 x2 x3 x4 => injection h with h; subst h; exact door_vfabs _ _ _ _ _ s
  | vfneg x0 x1 x2 x3 x4 => injection h with h; subst h; exact door_vfneg _ _ _ _ _ s
  | vfclass x0 x1 x2 x3 x4 => injection h with h; subst h; exact door_vfclass _ _ _ _ _ s
  | vfscale x0 x1 x2 x3 x4 x5 x6 => injection h with h; subst h; exact door_vfscale _ _ _ _ _ _ _ s
  | vfrint x0 x1 x2 x3 x4 x5 => injection h with h; subst h; exact door_vfrint _ _ _ _ _ _ s
  | vfcmp x0 x1 x2 x3 x4 x5 x6 => injection h with h; subst h; exact door_vfcmp _ _ _ _ _ _ _ s
  | vcvt x0 x1 x2 x3 x4 x5 x6 x7 x8 x9 => injection h with h; subst h; exact door_vcvt _ _ _ _ _ _ _ _ _ _ s
  | vshuf x0 x1 x2 x3 x4 x5 => injection h with h; subst h; exact door_vshuf _ _ _ _ _ _ s
  | vbcast x0 x1 x2 x3 x4 x5 => injection h with h; subst h; exact door_vbcast _ _ _ _ _ _ s
  | vrot x0 x1 x2 x3 x4 x5 => injection h with h; subst h; exact door_vrot _ _ _ _ _ _ s
  | vreduce x0 x1 x2 x3 x4 x5 x6 => injection h with h; subst h; exact door_vreduce _ _ _ _ _ _ _ s
  | vscan x0 x1 x2 x3 x4 x5 x6 => injection h with h; subst h; exact door_vscan _ _ _ _ _ _ _ s
  | vmatch x0 x1 x2 x3 x4 => injection h with h; subst h; exact door_vmatch _ _ _ _ _ s
  | kand x0 x1 x2 x3 => injection h with h; subst h; exact door_kand _ _ _ _ s
  | kor x0 x1 x2 x3 => injection h with h; subst h; exact door_kor _ _ _ _ s
  | kxor x0 x1 x2 x3 => injection h with h; subst h; exact door_kxor _ _ _ _ s
  | kandn x0 x1 x2 x3 => injection h with h; subst h; exact door_kandn _ _ _ _ s
  | knot x0 x1 x2 => injection h with h; subst h; exact door_knot _ _ _ s
  | kmov x0 x1 x2 => injection h with h; subst h; exact door_kmov _ _ _ s
  | kpopc x0 x1 x2 => injection h with h; subst h; exact door_kpopc _ _ _ s
  | kffs x0 x1 x2 => injection h with h; subst h; exact door_kffs _ _ _ s
  | kfroms x0 x1 x2 => injection h with h; subst h; exact door_kfroms _ _ _ s
  | ktos x0 x1 x2 => injection h with h; subst h; exact door_ktos _ _ _ s
  | bra x0 x1 x2 x3 => injection h with h; subst h; exact door_bra _ _ _ _ s
  | brx x0 x1 x2 x3 x4 => injection h with h; subst h; exact door_brx _ _ _ _ _ s
  | jmp x0 x1 => injection h with h; subst h; exact door_jmp _ _ s
  | call x0 x1 => injection h with h; subst h; exact door_call _ _ s
  | ret x0 x1 => injection h with h; subst h; exact door_ret _ _ s
  | region x0 x1 x2 => injection h with h; subst h; exact door_region _ _ _ s
  | rcommit x0 => injection h with h; subst h; exact door_rcommit _ s
  | rabort x0 => injection h with h; subst h; exact door_rabort _ s
  | join x0 x1 x2 => injection h with h; subst h; exact door_join _ _ _ s
  | leave x0 => injection h with h; subst h; exact door_leave _ s
  | bar x0 => injection h with h; subst h; exact door_bar _ s
  | bara x0 => injection h with h; subst h; exact door_bara _ s
  | barw x0 => injection h with h; subst h; exact door_barw _ s
  | rquota x0 x1 x2 => injection h with h; subst h; exact door_rquota _ _ _ s
  | vld x0 x1 x2 x3 => injection h with h; subst h; exact door_vld _ _ _ _ s
  | vst x0 x1 x2 x3 => injection h with h; subst h; exact door_vst _ _ _ _ s
  | vldc x0 x1 x2 x3 x4 => injection h with h; subst h; exact door_vldc _ _ _ _ _ s
  | vstc x0 x1 x2 x3 x4 => injection h with h; subst h; exact door_vstc _ _ _ _ _ s
  | ldacq x0 x1 x2 x3 x4 => injection h with h; subst h; exact door_ldacq _ _ _ _ _ s
  | strel x0 x1 x2 x3 => injection h with h; subst h; exact door_strel _ _ _ _ s
  | prefetch x0 x1 x2 => injection h with h; subst h; exact door_prefetch _ _ _ s
  | cflush x0 x1 x2 => injection h with h; subst h; exact door_cflush _ _ _ s
  | vatom x0 x1 x2 x3 x4 x5 => injection h with h; subst h; exact door_vatom _ _ _ _ _ _ s
  | satom x0 x1 x2 x3 x4 => injection h with h; subst h; exact door_satom _ _ _ _ _ s
  | fenceAcq x0 x1 => injection h with h; subst h; exact door_fenceAcq _ _ s
  | fenceRel x0 x1 => injection h with h; subst h; exact door_fenceRel _ _ s
  | fenceAcqrel x0 x1 => injection h with h; subst h; exact door_fenceAcqrel _ _ s
  | fenceSc x0 x1 => injection h with h; subst h; exact door_fenceSc _ _ s
  | stashMap x0 x1 x2 x3 x4 => injection h with h; subst h; exact door_stashMap _ _ _ _ _ s
  | stashUnmap x0 x1 x2 => injection h with h; subst h; exact door_stashUnmap _ _ _ s
  | stashFlush x0 x1 x2 => injection h with h; subst h; exact door_stashFlush _ _ _ s
  | stashInval x0 x1 x2 => injection h with h; subst h; exact door_stashInval _ _ _ s
  | mclaim x0 x1 x2 => injection h with h; subst h; exact door_mclaim _ _ _ s
  | mtry x0 x1 x2 => injection h with h; subst h; exact door_mtry _ _ _ s
  | mrel x0 x1 => injection h with h; subst h; exact door_mrel _ _ s
  | mload x0 x1 x2 x3 x4 => injection h with h; subst h; exact door_mload _ _ _ _ _ s
  | mzero x0 x1 => injection h with h; subst h; exact door_mzero _ _ s
  | mmac x0 x1 => injection h with h; subst h; exact door_mmac _ _ s
  | mloop x0 x1 x2 => injection h with h; subst h; exact door_mloop _ _ _ s
  | maccrd x0 x1 x2 x3 x4 x5 => injection h with h; subst h; exact door_maccrd _ _ _ _ _ _ s
  | maccwr x0 x1 x2 x3 x4 x5 => injection h with h; subst h; exact door_maccwr _ _ _ _ _ _ s
  | mstore x0 x1 x2 x3 x4 x5 x6 x7 => injection h with h; subst h; exact door_mstore _ _ _ _ _ _ _ _ s
  | mdrain x0 x1 x2 x3 x4 x5 => injection h with h; subst h; exact door_mdrain _ _ _ _ _ _ s
  | mstate x0 x1 x2 => injection h with h; subst h; exact door_mstate _ _ _ s
  | qbind x0 x1 x2 x3 => injection h with h; subst h; exact door_qbind _ _ _ _ s
  | qpush x0 x1 x2 x3 x4 => injection h with h; subst h; exact door_qpush _ _ _ _ _ s
  | qpop x0 x1 x2 => injection h with h; subst h; exact door_qpop _ _ _ s
  | qtry x0 x1 x2 => injection h with h; subst h; exact door_qtry _ _ _ s
  | tlwait x0 x1 x2 => injection h with h; subst h; exact door_tlwait _ _ _ s
  | tlread x0 x1 x2 => injection h with h; subst h; exact door_tlread _ _ _ s
  | gnew x0 x1 x2 x3 => injection h with h; subst h; exact door_gnew _ _ _ _ s
  | gfree x0 x1 x2 => injection h with h; subst h; exact door_gfree _ _ _ s
  | gpub x0 x1 x2 x3 x4 x5 => injection h with h; subst h; exact door_gpub _ _ _ _ _ _ s
  | gprom x0 x1 x2 x3 x4 => injection h with h; subst h; exact door_gprom _ _ _ _ _ s
  | gqry x0 x1 x2 => injection h with h; subst h; exact door_gqry _ _ _ s
  | tspawn x0 x1 x2 x3 x4 x5 x6 => injection h with h; subst h; exact door_tspawn _ _ _ _ _ _ _ s
  | rstv x0 x1 x2 x3 x4 x5 x6 x7 x8 => injection h with h; subst h; exact door_rstv _ _ _ _ _ _ _ _ _ s
  | hold x0 x1 x2 x3 x4 => injection h with h; subst h; exact door_hold _ _ _ _ _ s
  | regroup x0 x1 x2 x3 x4 x5 => injection h with h; subst h; exact door_regroup _ _ _ _ _ _ s
  | collPut x0 x1 x2 x3 x4 x5 x6 x7 => injection h with h; subst h; exact door_collPut _ _ _ _ _ _ _ _ s
  | collGet x0 x1 x2 x3 x4 x5 x6 x7 => injection h with h; subst h; exact door_collGet _ _ _ _ _ _ _ _ s
  | collRaddF32 x0 x1 x2 x3 x4 x5 x6 x7 => injection h with h; subst h; exact door_collRaddF32 _ _ _ _ _ _ _ _ s
  | collRaddBf16 x0 x1 x2 x3 x4 x5 x6 x7 => injection h with h; subst h; exact door_collRaddBf16 _ _ _ _ _ _ _ _ s
  | collRmaxF32 x0 x1 x2 x3 x4 x5 x6 x7 => injection h with h; subst h; exact door_collRmaxF32 _ _ _ _ _ _ _ _ s
  | collRaddI32 x0 x1 x2 x3 x4 x5 x6 x7 => injection h with h; subst h; exact door_collRaddI32 _ _ _ _ _ _ _ _ s
  | confx x0 x1 x2 x3 x4 x5 x6 x7 => injection h with h; subst h; exact door_confx _ _ _ _ _ _ _ _ s
  | accept x0 x1 x2 x3 x4 x5 x6 => injection h with h; subst h; exact door_accept _ _ _ _ _ _ _ s
  | apport x0 x1 x2 x3 x4 => injection h with h; subst h; exact door_apport _ _ _ _ _ s
  | vrand x0 x1 x2 x3 x4 x5 => injection h with h; subst h; exact door_vrand _ _ _ _ _ _ s
  | pauseEnd => cases h
  | fixedResultWrite => cases h
  | longLatencyComplete => cases h
  | activeSetExchange => cases h
  | lineFetch => cases h
  | deferredSplitResume => cases h
  | splitMerge => cases h
  | barrierReconverge => cases h
  | barrierPhaseComplete => cases h
  | rquotaGrant => cases h
  | regroupStep => cases h
  | claimGrant => cases h
  | mloopStep => cases h
  | tileFillDone => cases h
  | tileDrainDone => cases h
  | mdrainArrival => cases h
  | heldAdditionApply => cases h
  | powerLeaveGrant => cases h
  | powerLeaveRelease => cases h
  | trapEntry => cases h
  | parkedRetry => cases h
  | coreGate => cases h
  | coreWake => cases h
  | engineCommandStart => cases h
  | copy => cases h
  | copy2d => cases h
  | fill => cases h
  | convert => cases h
  | chisel => cases h
  | chmerge => cases h
  | engineCommandComplete => cases h
  | eventPost => cases h
  | bfcfg => cases h
  | arm => cases h
  | disarm => cases h
  | bfeBatchTimeout => cases h
  | halyardEvaluate => cases h
  | outboundSend => cases h
  | loadPerform => cases h
  | orderPointApply => cases h
  | writeExpose => cases h
  | update => cases h
  | invalidation => cases h
  | dirtyHolderNotice => cases h
  | writeBack => cases h
  | evictionNotice => cases h
  | sliceDirectoryOverflow => cases h
  | snoopFilterVictim => cases h
  | birsp => cases h
  | pendStoreRetry => cases h
  | tlbSweepDone => cases h
  | translationDirectoryOverflow => cases h
  | taskLaunch => cases h
  | fire => cases h
  | gangPlacement => cases h
  | runComplete => cases h
  | gradedFaultDelivery => cases h
  | egressHoldRelease => cases h
  | preemptRequest => cases h
  | preemptEntry => cases h
  | resume => cases h
  | contextKill => cases h
  | rstvArrival => cases h
  | forwardEntryExpiry => cases h
  | injectionGrant => cases h
  | communicatorAbort => cases h
  | flitReceive => cases h
  | flitAcknowledgement => cases h
  | flitReplay => cases h
  | linkRetrain => cases h
  | portTrainingEnd => cases h
  | creditReturn => cases h
  | custodyTake => cases h
  | custodyAck => cases h
  | packetForward => cases h
  | packetHoldTimeout => cases h
  | remoteRequest => cases h
  | remoteResponse => cases h
  | errorNotice => cases h
  | inDoubtNotice => cases h
  | probe => cases h
  | probeResponse => cases h
  | abortNotice => cases h
  | refusalExpiry => cases h
  | hostWrite => cases h
  | hostRead => cases h
  | hostAtomicop => cases h
  | hostCompletion => cases h
  | hostLinkTrain => cases h
  | hostLinkDown => cases h
  | ctxcmdKill => cases h
  | ctxcmdReset => cases h
  | ctxcfg => cases h
  | tinv => cases h
  | pfva => cases h
  | pfrel => cases h
  | pgreqSplit => cases h
  | pgreqPromote => cases h
  | splinterSwap => cases h
  | splinterSweep => cases h
  | promotionCopy => cases h
  | promotionSwap => cases h
  | promotionSweep => cases h
  | hwcmdArm => cases h
  | hwcmdDisarm => cases h
  | portctlEn => cases h
  | portctlReenable => cases h
  | devid => cases h
  | plbudget => cases h
  | configWrite => cases h
  | deviceReset => cases h
  | bootRomVerify => cases h
  | memoryTrain => cases h
  | platformConfig => cases h
  | ready => cases h
  | getVersion => cases h
  | getCapabilities => cases h
  | negotiateAlgorithms => cases h
  | getDigests => cases h
  | getCertificate => cases h
  | challenge => cases h
  | getMeasurements => cases h
  | spdmUnsupportedRequest => cases h

end Sys2Proof.Machine
end

