-- ==== Sys2Proof/Laws/Encode.lean ====
section
/-! SUPPORT. The fields of an encoded word read back (R158 to R164): the lemmas that every round trip rests on. -/

namespace Sys2Proof
set_option Elab.async false

/-! ### Bits of a concatenation -/

theorem bits_low {a b : Nat} (x : BitVec a) (y : BitVec b) (i n : Nat) (h : i + n ≤ b) : (x ++ y).extractLsb' i n = y.extractLsb' i n := by
  apply BitVec.eq_of_getLsbD_eq
  intro j hj
  simp only [BitVec.getLsbD_extractLsb', BitVec.getLsbD_append, hj]
  rw [if_pos (by omega)]

theorem bits_high {a b : Nat} (x : BitVec a) (y : BitVec b) (i n : Nat) (h : b ≤ i) : (x ++ y).extractLsb' i n = x.extractLsb' (i - b) n := by
  apply BitVec.eq_of_getLsbD_eq
  intro j hj
  simp only [BitVec.getLsbD_extractLsb', BitVec.getLsbD_append, hj]
  rw [if_neg (by omega), show i + j - b = i - b + j by omega]

theorem bits_whole {a : Nat} (x : BitVec a) : x.extractLsb' 0 a = x := by simp

theorem bits_wide {k m : Nat} (x : BitVec k) (h : k ≤ m) : (x.setWidth m).extractLsb' 0 k = x := by
  apply BitVec.eq_of_getLsbD_eq
  intro j hj
  simp only [BitVec.getLsbD_extractLsb', BitVec.getLsbD_setWidth, hj, Nat.zero_add]
  simp [show j < m by omega]

theorem bit_low {a b : Nat} (x : BitVec a) (y : BitVec b) (i : Nat) (h : i < b) : (x ++ y).getLsbD i = y.getLsbD i := by
  simp [BitVec.getLsbD_append, h]

theorem bit_high {a b : Nat} (x : BitVec a) (y : BitVec b) (i : Nat) (h : b ≤ i) : (x ++ y).getLsbD i = x.getLsbD (i - b) := by
  simp [BitVec.getLsbD_append, Nat.not_lt.mpr h]

/-! ### Fields of the formats -/

@[simp] theorem srOf_ofSr (r : SR) : srOf (ofSr r) = r := by simp [srOf, ofSr]
@[simp] theorem krOf_ofKr (r : KR) : krOf (ofKr r) = r := by simp [krOf, ofKr]

theorem field_w (w : BitVec 2) : (w.setWidth 8).extractLsb' 0 2 = w := by
  exact bits_wide _ (by omega)

theorem field_u (u : Bool) : ((BitVec.ofBool u).setWidth 8).getLsbD 0 = u := by
  cases u <;> rfl

theorem field_ru0 (r u : Bool) : ((BitVec.ofBool r ++ BitVec.ofBool u).setWidth 8).getLsbD 0 = u := by
  cases r <;> cases u <;> rfl

theorem field_ru1 (r u : Bool) : ((BitVec.ofBool r ++ BitVec.ofBool u).setWidth 8).getLsbD 1 = r := by
  cases r <;> cases u <;> rfl

theorem field_uw0 (u : Bool) (w : BitVec 2) : (0#5 ++ BitVec.ofBool u ++ w).extractLsb' 0 2 = w := by
  repeat rw [bits_low _ _ _ _ (by omega)]
  exact bits_whole _

theorem field_uw1 (u : Bool) (w : BitVec 2) : (0#5 ++ BitVec.ofBool u ++ w).getLsbD 2 = u := by
  repeat (first | rw [bit_low _ _ _ (by omega)] | rw [bit_high _ _ _ (by omega)])
  simp

theorem field_rw0 (r w : BitVec 2) : (0#4 ++ r ++ w).extractLsb' 0 2 = w := by
  repeat rw [bits_low _ _ _ _ (by omega)]
  exact bits_whole _

theorem field_rw1 (r w : BitVec 2) : (0#4 ++ r ++ w).extractLsb' 2 2 = r := by
  repeat (first | rw [bits_low _ _ _ _ (by omega)] | rw [bits_high _ _ _ _ (by omega)])
  exact bits_whole _

theorem field_row0 (r w : BitVec 2) (o : BitVec 3) : (0#1 ++ r ++ o ++ w).extractLsb' 0 2 = w := by
  repeat rw [bits_low _ _ _ _ (by omega)]
  exact bits_whole _

theorem field_row1 (r w : BitVec 2) (o : BitVec 3) : (0#1 ++ r ++ o ++ w).extractLsb' 2 3 = o := by
  repeat (first | rw [bits_low _ _ _ _ (by omega)] | rw [bits_high _ _ _ _ (by omega)])
  exact bits_whole _

theorem field_row2 (r w : BitVec 2) (o : BitVec 3) : (0#1 ++ r ++ o ++ w).extractLsb' 5 2 = r := by
  repeat (first | rw [bits_low _ _ _ _ (by omega)] | rw [bits_high _ _ _ _ (by omega)])
  exact bits_whole _

theorem field_n2 (n : BitVec 2) : (n.setWidth 18).extractLsb' 0 2 = n := by
  exact bits_wide _ (by omega)

theorem field_n3 (n : BitVec 3) : (n.setWidth 18).extractLsb' 0 3 = n := by
  exact bits_wide _ (by omega)

theorem field_n4 (n : BitVec 4) : (n.setWidth 18).extractLsb' 0 4 = n := by
  exact bits_wide _ (by omega)

theorem field_n5 (n : BitVec 5) : (n.setWidth 18).extractLsb' 0 5 = n := by
  exact bits_wide _ (by omega)

theorem field_n6 (n : BitVec 6) : (n.setWidth 18).extractLsb' 0 6 = n := by
  exact bits_wide _ (by omega)

theorem field_n12 (n : BitVec 12) : (n.setWidth 18).extractLsb' 0 12 = n := by
  exact bits_wide _ (by omega)

theorem field_code (n : BitVec 16) : (0#2 ++ n).extractLsb' 0 16 = n := by
  repeat rw [bits_low _ _ _ _ (by omega)]
  exact bits_whole _

theorem field_tm0 (t : BitVec 6) (m : BitVec 12) : (t ++ m).extractLsb' 0 12 = m := by
  repeat rw [bits_low _ _ _ _ (by omega)]
  exact bits_whole _

theorem field_tm1 (t : BitVec 6) (m : BitVec 12) : (t ++ m).extractLsb' 12 6 = t := by
  repeat (first | rw [bits_low _ _ _ _ (by omega)] | rw [bits_high _ _ _ _ (by omega)])
  exact bits_whole _

theorem field_scope (o : BitVec 3) : (o ++ 0#15).extractLsb' 15 3 = o := by
  repeat (first | rw [bits_low _ _ _ _ (by omega)] | rw [bits_high _ _ _ _ (by omega)])
  exact bits_whole _

theorem field_sd0 (o : BitVec 3) (d : BitVec 15) : (o ++ d).extractLsb' 0 15 = d := by
  repeat rw [bits_low _ _ _ _ (by omega)]
  exact bits_whole _

theorem field_sd1 (o : BitVec 3) (d : BitVec 15) : (o ++ d).extractLsb' 15 3 = o := by
  repeat (first | rw [bits_low _ _ _ _ (by omega)] | rw [bits_high _ _ _ _ (by omega)])
  exact bits_whole _

theorem field_rank (n : BitVec 15) : (4#3 ++ n).extractLsb' 0 15 = n := by
  repeat rw [bits_low _ _ _ _ (by omega)]
  exact bits_whole _

theorem field_rows0 (x y : BitVec 5) : (0#8 ++ y ++ x).extractLsb' 0 5 = x := by
  repeat rw [bits_low _ _ _ _ (by omega)]
  exact bits_whole _

theorem field_rows1 (x y : BitVec 5) : (0#8 ++ y ++ x).extractLsb' 5 5 = y := by
  repeat (first | rw [bits_low _ _ _ _ (by omega)] | rw [bits_high _ _ _ _ (by omega)])
  exact bits_whole _

theorem field_hold0 (x : BitVec 4) (n : BitVec 6) : (0#8 ++ n ++ x).extractLsb' 0 4 = x := by
  repeat rw [bits_low _ _ _ _ (by omega)]
  exact bits_whole _

theorem field_hold1 (x : BitVec 4) (n : BitVec 6) : (0#8 ++ n ++ x).extractLsb' 4 6 = n := by
  repeat (first | rw [bits_low _ _ _ _ (by omega)] | rw [bits_high _ _ _ _ (by omega)])
  exact bits_whole _

theorem field_ms0 (h r u : Bool) (o : BitVec 2) : (0#3 ++ BitVec.ofBool h ++ BitVec.ofBool r ++ BitVec.ofBool u ++ o).extractLsb' 0 2 = o := by
  repeat rw [bits_low _ _ _ _ (by omega)]
  exact bits_whole _

theorem field_ms2 (h r u : Bool) (o : BitVec 2) : (0#3 ++ BitVec.ofBool h ++ BitVec.ofBool r ++ BitVec.ofBool u ++ o).getLsbD 2 = u := by
  repeat (first | rw [bit_low _ _ _ (by omega)] | rw [bit_high _ _ _ (by omega)])
  simp

theorem field_ms3 (h r u : Bool) (o : BitVec 2) : (0#3 ++ BitVec.ofBool h ++ BitVec.ofBool r ++ BitVec.ofBool u ++ o).getLsbD 3 = r := by
  repeat (first | rw [bit_low _ _ _ (by omega)] | rw [bit_high _ _ _ (by omega)])
  simp

theorem field_ms4 (h r u : Bool) (o : BitVec 2) : (0#3 ++ BitVec.ofBool h ++ BitVec.ofBool r ++ BitVec.ofBool u ++ o).getLsbD 4 = h := by
  repeat (first | rw [bit_low _ _ _ (by omega)] | rw [bit_high _ _ _ (by omega)])
  simp

theorem field_cvt0 (s : BitVec 4) (r : BitVec 2) : (s ++ r ++ 0#2).extractLsb' 2 2 = r := by
  repeat (first | rw [bits_low _ _ _ _ (by omega)] | rw [bits_high _ _ _ _ (by omega)])
  exact bits_whole _

theorem field_cvt1 (s : BitVec 4) (r : BitVec 2) : (s ++ r ++ 0#2).extractLsb' 4 4 = s := by
  repeat (first | rw [bits_low _ _ _ _ (by omega)] | rw [bits_high _ _ _ _ (by omega)])
  exact bits_whole _

theorem field_wid (pol scl : BitVec 2) (sx : Bool) (wid : BitVec 3) : (modM pol scl sx wid).extractLsb' 0 3 = wid := by
  unfold modM
  repeat rw [bits_low _ _ _ _ (by omega)]
  exact bits_whole _

theorem field_sx (pol scl : BitVec 2) (sx : Bool) (wid : BitVec 3) : (modM pol scl sx wid).getLsbD 3 = sx := by
  unfold modM
  repeat (first | rw [bit_low _ _ _ (by omega)] | rw [bit_high _ _ _ (by omega)])
  simp

theorem field_scl (pol scl : BitVec 2) (sx : Bool) (wid : BitVec 3) : (modM pol scl sx wid).extractLsb' 4 2 = scl := by
  unfold modM
  repeat (first | rw [bits_low _ _ _ _ (by omega)] | rw [bits_high _ _ _ _ (by omega)])
  exact bits_whole _

theorem field_pol (pol scl : BitVec 2) (sx : Bool) (wid : BitVec 3) : (modM pol scl sx wid).extractLsb' 6 2 = pol := by
  unfold modM
  repeat (first | rw [bits_low _ _ _ _ (by omega)] | rw [bits_high _ _ _ _ (by omega)])
  exact bits_whole _

theorem field_movi0 (imm : BitVec 32) (d : BitVec 8) : (bodyI imm d).extractLsb' 0 8 = d := by
  unfold bodyI
  repeat rw [bits_low _ _ _ _ (by omega)]
  exact bits_whole _

theorem field_movi1 (imm : BitVec 32) (d : BitVec 8) : (bodyI imm d).extractLsb' 24 32 = imm := by
  unfold bodyI
  repeat (first | rw [bits_low _ _ _ _ (by omega)] | rw [bits_high _ _ _ _ (by omega)])
  exact bits_whole _

/-! ### The formats -/

theorem FmtR.ofBody_body (f : FmtR) : FmtR.ofBody f.body = f := by
  obtain ⟨i, m, c, b, a, d⟩ := f
  unfold FmtR.ofBody FmtR.body
  rw [FmtR.mk.injEq]
  refine ⟨?_, ?_, ?_, ?_, ?_, ?_⟩
  all_goals repeat (first | rw [bits_low _ _ _ _ (by omega)] | rw [bits_high _ _ _ _ (by omega)])
  all_goals exact bits_whole _

theorem FmtB.ofBody_body (f : FmtB) : FmtB.ofBody f.body = f := by
  obtain ⟨⟨rl, rs⟩, ⟨tl, ts⟩, a, m, k⟩ := f
  unfold FmtB.ofBody FmtB.body
  rw [FmtB.mk.injEq, BTgt.mk.injEq, BTgt.mk.injEq]
  refine ⟨⟨?_, ?_⟩, ⟨?_, ?_⟩, ?_, ?_, ?_⟩
  all_goals repeat (first | rw [bits_low _ _ _ _ (by omega)] | rw [bits_high _ _ _ _ (by omega)])
  all_goals exact bits_whole _

@[simp] theorem MemOp.ofR_toR (m : MemOp) (d c : BitVec 8) : MemOp.ofR (m.toR d c) = m := by
  simp only [MemOp.ofR, MemOp.toR, srOf_ofSr, field_wid, field_sx, field_scl, field_pol]

@[simp] theorem ScopedOp.ofR_toR (m : ScopedOp) (sx : Bool) (d c : BitVec 8) : ScopedOp.ofR (m.toR sx d c) = m := by
  simp only [ScopedOp.ofR, ScopedOp.toR, srOf_ofSr, field_wid, field_scl, field_sd0, field_sd1]

theorem MemOp.toR_dst (m : MemOp) (d c : BitVec 8) : (m.toR d c).dst = d := rfl
theorem MemOp.toR_sc (m : MemOp) (d c : BitVec 8) : (m.toR d c).sc = c := rfl
theorem ScopedOp.toR_dst (m : ScopedOp) (sx : Bool) (d c : BitVec 8) : (m.toR sx d c).dst = d := rfl
theorem ScopedOp.toR_sc (m : ScopedOp) (sx : Bool) (d c : BitVec 8) : (m.toR sx d c).sc = c := rfl
theorem ScopedOp.toR_sx (m : ScopedOp) (sx : Bool) (d c : BitVec 8) : (m.toR sx d c).mod.getLsbD 3 = sx := by
  simp only [ScopedOp.toR, field_sx]

theorem Word96.ofBits_pack (c : Ctl) (p : Pred) (opc fn : Nat) (b : BitVec 58) :
    Word96.ofBits (packWord c p opc fn b) = { c := c, body := b, z := false, p := p, fn := BitVec.ofNat 5 fn, opc := BitVec.ofNat 7 opc } := by
  unfold Word96.ofBits packWord
  rw [Word96.mk.injEq]
  refine ⟨?_, ?_, ?_, ?_, ?_, ?_⟩
  · obtain ⟨y, f, w, l⟩ := c
    rw [Ctl.mk.injEq]
    refine ⟨?_, ?_, ?_, ?_⟩
    · repeat (first | rw [bit_low _ _ _ (by omega)] | rw [bit_high _ _ _ (by omega)])
      simp
    all_goals repeat (first | rw [bits_low _ _ _ _ (by omega)] | rw [bits_high _ _ _ _ (by omega)])
    all_goals exact bits_whole _
  · repeat (first | rw [bits_low _ _ _ _ (by omega)] | rw [bits_high _ _ _ _ (by omega)])
    exact bits_whole _
  · repeat (first | rw [bit_low _ _ _ (by omega)] | rw [bit_high _ _ _ (by omega)])
    rfl
  · obtain ⟨g, n⟩ := p
    rw [Pred.mk.injEq]
    constructor
    · repeat (first | rw [bits_low _ _ _ _ (by omega)] | rw [bits_high _ _ _ _ (by omega)])
      exact bits_whole _
    · repeat (first | rw [bit_low _ _ _ (by omega)] | rw [bit_high _ _ _ (by omega)])
      simp
  all_goals repeat (first | rw [bits_low _ _ _ _ (by omega)] | rw [bits_high _ _ _ _ (by omega)])
  all_goals exact bits_whole _

/-! ### Functions named by number -/

@[simp] theorem SFn.ofCode_code (f : SFn) : SFn.ofCode f.code = some f := by cases f <;> rfl
@[simp] theorem VFn.ofCode_code (f : VFn) : VFn.ofCode f.code = some f := by cases f <;> rfl
@[simp] theorem AFn.ofCode_code (f : AFn) : AFn.ofCode f.code = some f := by cases f <;> rfl
@[simp] theorem ICond.ofCode_code (f : ICond) : ICond.ofCode f.code = some f := by cases f <;> rfl
@[simp] theorem FCond.ofCode_code (f : FCond) : FCond.ofCode f.code = some f := by cases f <;> rfl
@[simp] theorem SFn.code_mod (f : SFn) : f.code % 32 = f.code := by cases f <;> rfl
@[simp] theorem VFn.code_mod (f : VFn) : f.code % 32 = f.code := by cases f <;> rfl
@[simp] theorem AFn.code_mod (f : AFn) : f.code % 32 = f.code := by cases f <;> rfl
@[simp] theorem ICond.code_mod (f : ICond) : f.code % 32 = f.code := by cases f <;> rfl
@[simp] theorem FCond.code_mod (f : FCond) : f.code % 32 = f.code := by cases f <;> rfl

/-! ### A word decodes to what its fields name -/

theorem decodeWord_of_fields {i : Instr} {w : BitVec 96} (h : decFields (Word96.ofBits w) = .ok i) (hw : i.wf = true) (he : encode i = some w) :
    decodeWord w = .ok i := by
  unfold decodeWord
  rw [h]
  simp [hw, he]

/-- The fields of a format R word, by opcode and function (Table 07.5). -/
theorem decFields_packR (c : Ctl) (p : Pred) (opc fn : Nat) (f : FmtR) :
    decFields (Word96.ofBits (packWord c p opc fn f.body)) =
      decFields { c := c, body := f.body, z := false, p := p, fn := BitVec.ofNat 5 fn, opc := BitVec.ofNat 7 opc } := by
  rw [Word96.ofBits_pack]

end Sys2Proof
end

