-- ==== Sys2Proof/Laws/State.lean ====
section
/-! SUPPORT. What each replacement of one component leaves alone: one lemma for each field of the state. -/

namespace Sys2Proof.Machine

/-! ### setGang -/

@[simp] theorem State.setGang_clock (s : State) (g : Gang) : (s.setGang g).clock = s.clock := rfl
@[simp] theorem State.setGang_freeCtr (s : State) (g : Gang) : (s.setGang g).freeCtr = s.freeCtr := rfl
@[simp] theorem State.setGang_nextId (s : State) (g : Gang) : (s.setGang g).nextId = s.nextId := rfl
@[simp] theorem State.setGang_agenda (s : State) (g : Gang) : (s.setGang g).agenda = s.agenda := rfl
@[simp] theorem State.setGang_focus (s : State) (g : Gang) : (s.setGang g).focus = s.focus := rfl
@[simp] theorem State.setGang_wants (s : State) (g : Gang) : (s.setGang g).wants = s.wants := rfl
@[simp] theorem State.setGang_flaws (s : State) (g : Gang) : (s.setGang g).flaws = s.flaws := rfl
@[simp] theorem State.setGang_mem (s : State) (g : Gang) : (s.setGang g).mem = s.mem := rfl
@[simp] theorem State.setGang_cores (s : State) (g : Gang) : (s.setGang g).cores = s.cores := rfl
@[simp] theorem State.setGang_dies (s : State) (g : Gang) : (s.setGang g).dies = s.dies := rfl
@[simp] theorem State.setGang_ctxs (s : State) (g : Gang) : (s.setGang g).ctxs = s.ctxs := rfl
@[simp] theorem State.setGang_tenants (s : State) (g : Gang) : (s.setGang g).tenants = s.tenants := rfl
@[simp] theorem State.setGang_queues (s : State) (g : Gang) : (s.setGang g).queues = s.queues := rfl
@[simp] theorem State.setGang_insts (s : State) (g : Gang) : (s.setGang g).insts = s.insts := rfl
@[simp] theorem State.setGang_launches (s : State) (g : Gang) : (s.setGang g).launches = s.launches := rfl
@[simp] theorem State.setGang_places (s : State) (g : Gang) : (s.setGang g).places = s.places := rfl
@[simp] theorem State.setGang_ops (s : State) (g : Gang) : (s.setGang g).ops = s.ops := rfl
@[simp] theorem State.setGang_items (s : State) (g : Gang) : (s.setGang g).items = s.items := rfl
@[simp] theorem State.setGang_drains (s : State) (g : Gang) : (s.setGang g).drains = s.drains := rfl
@[simp] theorem State.setGang_rstvs (s : State) (g : Gang) : (s.setGang g).rstvs = s.rstvs := rfl
@[simp] theorem State.setGang_txns (s : State) (g : Gang) : (s.setGang g).txns = s.txns := rfl
@[simp] theorem State.setGang_sweeps (s : State) (g : Gang) : (s.setGang g).sweeps = s.sweeps := rfl
@[simp] theorem State.setGang_aborts (s : State) (g : Gang) : (s.setGang g).aborts = s.aborts := rfl
@[simp] theorem State.setGang_told (s : State) (g : Gang) : (s.setGang g).told = s.told := rfl
@[simp] theorem State.setGang_snoops (s : State) (g : Gang) : (s.setGang g).snoops = s.snoops := rfl
@[simp] theorem State.setGang_hostFilter (s : State) (g : Gang) : (s.setGang g).hostFilter = s.hostFilter := rfl
@[simp] theorem State.setGang_heldWr (s : State) (g : Gang) : (s.setGang g).heldWr = s.heldWr := rfl
@[simp] theorem State.setGang_hostOrd (s : State) (g : Gang) : (s.setGang g).hostOrd = s.hostOrd := rfl
@[simp] theorem State.setGang_pkts (s : State) (g : Gang) : (s.setGang g).pkts = s.pkts := rfl
@[simp] theorem State.setGang_ports (s : State) (g : Gang) : (s.setGang g).ports = s.ports := rfl
@[simp] theorem State.setGang_routes (s : State) (g : Gang) : (s.setGang g).routes = s.routes := rfl
@[simp] theorem State.setGang_devid (s : State) (g : Gang) : (s.setGang g).devid = s.devid := rfl
@[simp] theorem State.setGang_nextTag (s : State) (g : Gang) : (s.setGang g).nextTag = s.nextTag := rfl
@[simp] theorem State.setGang_quarantine (s : State) (g : Gang) : (s.setGang g).quarantine = s.quarantine := rfl
@[simp] theorem State.setGang_refused (s : State) (g : Gang) : (s.setGang g).refused = s.refused := rfl
@[simp] theorem State.setGang_performed (s : State) (g : Gang) : (s.setGang g).performed = s.performed := rfl
@[simp] theorem State.setGang_peerBad (s : State) (g : Gang) : (s.setGang g).peerBad = s.peerBad := rfl
@[simp] theorem State.setGang_stale (s : State) (g : Gang) : (s.setGang g).stale = s.stale := rfl
@[simp] theorem State.setGang_hlMode (s : State) (g : Gang) : (s.setGang g).hlMode = s.hlMode := rfl
@[simp] theorem State.setGang_hlWidth (s : State) (g : Gang) : (s.setGang g).hlWidth = s.hlWidth := rfl
@[simp] theorem State.setGang_hlUp (s : State) (g : Gang) : (s.setGang g).hlUp = s.hlUp := rfl
@[simp] theorem State.setGang_hlerr (s : State) (g : Gang) : (s.setGang g).hlerr = s.hlerr := rfl
@[simp] theorem State.setGang_fuses (s : State) (g : Gang) : (s.setGang g).fuses = s.fuses := rfl
@[simp] theorem State.setGang_boot (s : State) (g : Gang) : (s.setGang g).boot = s.boot := rfl
@[simp] theorem State.setGang_spdm (s : State) (g : Gang) : (s.setGang g).spdm = s.spdm := rfl
@[simp] theorem State.setGang_out (s : State) (g : Gang) : (s.setGang g).out = s.out := rfl

/-! ### onGang -/

@[simp] theorem State.onGang_clock (s : State) (u : Nat) (f : Gang → Gang) : (s.onGang u f).clock = s.clock := rfl
@[simp] theorem State.onGang_freeCtr (s : State) (u : Nat) (f : Gang → Gang) : (s.onGang u f).freeCtr = s.freeCtr := rfl
@[simp] theorem State.onGang_nextId (s : State) (u : Nat) (f : Gang → Gang) : (s.onGang u f).nextId = s.nextId := rfl
@[simp] theorem State.onGang_agenda (s : State) (u : Nat) (f : Gang → Gang) : (s.onGang u f).agenda = s.agenda := rfl
@[simp] theorem State.onGang_focus (s : State) (u : Nat) (f : Gang → Gang) : (s.onGang u f).focus = s.focus := rfl
@[simp] theorem State.onGang_wants (s : State) (u : Nat) (f : Gang → Gang) : (s.onGang u f).wants = s.wants := rfl
@[simp] theorem State.onGang_flaws (s : State) (u : Nat) (f : Gang → Gang) : (s.onGang u f).flaws = s.flaws := rfl
@[simp] theorem State.onGang_mem (s : State) (u : Nat) (f : Gang → Gang) : (s.onGang u f).mem = s.mem := rfl
@[simp] theorem State.onGang_cores (s : State) (u : Nat) (f : Gang → Gang) : (s.onGang u f).cores = s.cores := rfl
@[simp] theorem State.onGang_dies (s : State) (u : Nat) (f : Gang → Gang) : (s.onGang u f).dies = s.dies := rfl
@[simp] theorem State.onGang_ctxs (s : State) (u : Nat) (f : Gang → Gang) : (s.onGang u f).ctxs = s.ctxs := rfl
@[simp] theorem State.onGang_tenants (s : State) (u : Nat) (f : Gang → Gang) : (s.onGang u f).tenants = s.tenants := rfl
@[simp] theorem State.onGang_queues (s : State) (u : Nat) (f : Gang → Gang) : (s.onGang u f).queues = s.queues := rfl
@[simp] theorem State.onGang_insts (s : State) (u : Nat) (f : Gang → Gang) : (s.onGang u f).insts = s.insts := rfl
@[simp] theorem State.onGang_launches (s : State) (u : Nat) (f : Gang → Gang) : (s.onGang u f).launches = s.launches := rfl
@[simp] theorem State.onGang_places (s : State) (u : Nat) (f : Gang → Gang) : (s.onGang u f).places = s.places := rfl
@[simp] theorem State.onGang_ops (s : State) (u : Nat) (f : Gang → Gang) : (s.onGang u f).ops = s.ops := rfl
@[simp] theorem State.onGang_items (s : State) (u : Nat) (f : Gang → Gang) : (s.onGang u f).items = s.items := rfl
@[simp] theorem State.onGang_drains (s : State) (u : Nat) (f : Gang → Gang) : (s.onGang u f).drains = s.drains := rfl
@[simp] theorem State.onGang_rstvs (s : State) (u : Nat) (f : Gang → Gang) : (s.onGang u f).rstvs = s.rstvs := rfl
@[simp] theorem State.onGang_txns (s : State) (u : Nat) (f : Gang → Gang) : (s.onGang u f).txns = s.txns := rfl
@[simp] theorem State.onGang_sweeps (s : State) (u : Nat) (f : Gang → Gang) : (s.onGang u f).sweeps = s.sweeps := rfl
@[simp] theorem State.onGang_aborts (s : State) (u : Nat) (f : Gang → Gang) : (s.onGang u f).aborts = s.aborts := rfl
@[simp] theorem State.onGang_told (s : State) (u : Nat) (f : Gang → Gang) : (s.onGang u f).told = s.told := rfl
@[simp] theorem State.onGang_snoops (s : State) (u : Nat) (f : Gang → Gang) : (s.onGang u f).snoops = s.snoops := rfl
@[simp] theorem State.onGang_hostFilter (s : State) (u : Nat) (f : Gang → Gang) : (s.onGang u f).hostFilter = s.hostFilter := rfl
@[simp] theorem State.onGang_heldWr (s : State) (u : Nat) (f : Gang → Gang) : (s.onGang u f).heldWr = s.heldWr := rfl
@[simp] theorem State.onGang_hostOrd (s : State) (u : Nat) (f : Gang → Gang) : (s.onGang u f).hostOrd = s.hostOrd := rfl
@[simp] theorem State.onGang_pkts (s : State) (u : Nat) (f : Gang → Gang) : (s.onGang u f).pkts = s.pkts := rfl
@[simp] theorem State.onGang_ports (s : State) (u : Nat) (f : Gang → Gang) : (s.onGang u f).ports = s.ports := rfl
@[simp] theorem State.onGang_routes (s : State) (u : Nat) (f : Gang → Gang) : (s.onGang u f).routes = s.routes := rfl
@[simp] theorem State.onGang_devid (s : State) (u : Nat) (f : Gang → Gang) : (s.onGang u f).devid = s.devid := rfl
@[simp] theorem State.onGang_nextTag (s : State) (u : Nat) (f : Gang → Gang) : (s.onGang u f).nextTag = s.nextTag := rfl
@[simp] theorem State.onGang_quarantine (s : State) (u : Nat) (f : Gang → Gang) : (s.onGang u f).quarantine = s.quarantine := rfl
@[simp] theorem State.onGang_refused (s : State) (u : Nat) (f : Gang → Gang) : (s.onGang u f).refused = s.refused := rfl
@[simp] theorem State.onGang_performed (s : State) (u : Nat) (f : Gang → Gang) : (s.onGang u f).performed = s.performed := rfl
@[simp] theorem State.onGang_peerBad (s : State) (u : Nat) (f : Gang → Gang) : (s.onGang u f).peerBad = s.peerBad := rfl
@[simp] theorem State.onGang_stale (s : State) (u : Nat) (f : Gang → Gang) : (s.onGang u f).stale = s.stale := rfl
@[simp] theorem State.onGang_hlMode (s : State) (u : Nat) (f : Gang → Gang) : (s.onGang u f).hlMode = s.hlMode := rfl
@[simp] theorem State.onGang_hlWidth (s : State) (u : Nat) (f : Gang → Gang) : (s.onGang u f).hlWidth = s.hlWidth := rfl
@[simp] theorem State.onGang_hlUp (s : State) (u : Nat) (f : Gang → Gang) : (s.onGang u f).hlUp = s.hlUp := rfl
@[simp] theorem State.onGang_hlerr (s : State) (u : Nat) (f : Gang → Gang) : (s.onGang u f).hlerr = s.hlerr := rfl
@[simp] theorem State.onGang_fuses (s : State) (u : Nat) (f : Gang → Gang) : (s.onGang u f).fuses = s.fuses := rfl
@[simp] theorem State.onGang_boot (s : State) (u : Nat) (f : Gang → Gang) : (s.onGang u f).boot = s.boot := rfl
@[simp] theorem State.onGang_spdm (s : State) (u : Nat) (f : Gang → Gang) : (s.onGang u f).spdm = s.spdm := rfl
@[simp] theorem State.onGang_out (s : State) (u : Nat) (f : Gang → Gang) : (s.onGang u f).out = s.out := rfl

/-! ### setCore -/

@[simp] theorem State.setCore_clock (s : State) (k : Core) : (s.setCore k).clock = s.clock := by unfold State.setCore; split <;> rfl
@[simp] theorem State.setCore_freeCtr (s : State) (k : Core) : (s.setCore k).freeCtr = s.freeCtr := by unfold State.setCore; split <;> rfl
@[simp] theorem State.setCore_nextId (s : State) (k : Core) : (s.setCore k).nextId = s.nextId := by unfold State.setCore; split <;> rfl
@[simp] theorem State.setCore_agenda (s : State) (k : Core) : (s.setCore k).agenda = s.agenda := by unfold State.setCore; split <;> rfl
@[simp] theorem State.setCore_focus (s : State) (k : Core) : (s.setCore k).focus = s.focus := by unfold State.setCore; split <;> rfl
@[simp] theorem State.setCore_wants (s : State) (k : Core) : (s.setCore k).wants = s.wants := by unfold State.setCore; split <;> rfl
@[simp] theorem State.setCore_flaws (s : State) (k : Core) : (s.setCore k).flaws = s.flaws := by unfold State.setCore; split <;> rfl
@[simp] theorem State.setCore_mem (s : State) (k : Core) : (s.setCore k).mem = s.mem := by unfold State.setCore; split <;> rfl
@[simp] theorem State.setCore_gangs (s : State) (k : Core) : (s.setCore k).gangs = s.gangs := by unfold State.setCore; split <;> rfl
@[simp] theorem State.setCore_dies (s : State) (k : Core) : (s.setCore k).dies = s.dies := by unfold State.setCore; split <;> rfl
@[simp] theorem State.setCore_ctxs (s : State) (k : Core) : (s.setCore k).ctxs = s.ctxs := by unfold State.setCore; split <;> rfl
@[simp] theorem State.setCore_tenants (s : State) (k : Core) : (s.setCore k).tenants = s.tenants := by unfold State.setCore; split <;> rfl
@[simp] theorem State.setCore_queues (s : State) (k : Core) : (s.setCore k).queues = s.queues := by unfold State.setCore; split <;> rfl
@[simp] theorem State.setCore_insts (s : State) (k : Core) : (s.setCore k).insts = s.insts := by unfold State.setCore; split <;> rfl
@[simp] theorem State.setCore_launches (s : State) (k : Core) : (s.setCore k).launches = s.launches := by unfold State.setCore; split <;> rfl
@[simp] theorem State.setCore_places (s : State) (k : Core) : (s.setCore k).places = s.places := by unfold State.setCore; split <;> rfl
@[simp] theorem State.setCore_ops (s : State) (k : Core) : (s.setCore k).ops = s.ops := by unfold State.setCore; split <;> rfl
@[simp] theorem State.setCore_items (s : State) (k : Core) : (s.setCore k).items = s.items := by unfold State.setCore; split <;> rfl
@[simp] theorem State.setCore_drains (s : State) (k : Core) : (s.setCore k).drains = s.drains := by unfold State.setCore; split <;> rfl
@[simp] theorem State.setCore_rstvs (s : State) (k : Core) : (s.setCore k).rstvs = s.rstvs := by unfold State.setCore; split <;> rfl
@[simp] theorem State.setCore_txns (s : State) (k : Core) : (s.setCore k).txns = s.txns := by unfold State.setCore; split <;> rfl
@[simp] theorem State.setCore_sweeps (s : State) (k : Core) : (s.setCore k).sweeps = s.sweeps := by unfold State.setCore; split <;> rfl
@[simp] theorem State.setCore_aborts (s : State) (k : Core) : (s.setCore k).aborts = s.aborts := by unfold State.setCore; split <;> rfl
@[simp] theorem State.setCore_told (s : State) (k : Core) : (s.setCore k).told = s.told := by unfold State.setCore; split <;> rfl
@[simp] theorem State.setCore_snoops (s : State) (k : Core) : (s.setCore k).snoops = s.snoops := by unfold State.setCore; split <;> rfl
@[simp] theorem State.setCore_hostFilter (s : State) (k : Core) : (s.setCore k).hostFilter = s.hostFilter := by unfold State.setCore; split <;> rfl
@[simp] theorem State.setCore_heldWr (s : State) (k : Core) : (s.setCore k).heldWr = s.heldWr := by unfold State.setCore; split <;> rfl
@[simp] theorem State.setCore_hostOrd (s : State) (k : Core) : (s.setCore k).hostOrd = s.hostOrd := by unfold State.setCore; split <;> rfl
@[simp] theorem State.setCore_pkts (s : State) (k : Core) : (s.setCore k).pkts = s.pkts := by unfold State.setCore; split <;> rfl
@[simp] theorem State.setCore_ports (s : State) (k : Core) : (s.setCore k).ports = s.ports := by unfold State.setCore; split <;> rfl
@[simp] theorem State.setCore_routes (s : State) (k : Core) : (s.setCore k).routes = s.routes := by unfold State.setCore; split <;> rfl
@[simp] theorem State.setCore_devid (s : State) (k : Core) : (s.setCore k).devid = s.devid := by unfold State.setCore; split <;> rfl
@[simp] theorem State.setCore_nextTag (s : State) (k : Core) : (s.setCore k).nextTag = s.nextTag := by unfold State.setCore; split <;> rfl
@[simp] theorem State.setCore_quarantine (s : State) (k : Core) : (s.setCore k).quarantine = s.quarantine := by unfold State.setCore; split <;> rfl
@[simp] theorem State.setCore_refused (s : State) (k : Core) : (s.setCore k).refused = s.refused := by unfold State.setCore; split <;> rfl
@[simp] theorem State.setCore_performed (s : State) (k : Core) : (s.setCore k).performed = s.performed := by unfold State.setCore; split <;> rfl
@[simp] theorem State.setCore_peerBad (s : State) (k : Core) : (s.setCore k).peerBad = s.peerBad := by unfold State.setCore; split <;> rfl
@[simp] theorem State.setCore_stale (s : State) (k : Core) : (s.setCore k).stale = s.stale := by unfold State.setCore; split <;> rfl
@[simp] theorem State.setCore_hlMode (s : State) (k : Core) : (s.setCore k).hlMode = s.hlMode := by unfold State.setCore; split <;> rfl
@[simp] theorem State.setCore_hlWidth (s : State) (k : Core) : (s.setCore k).hlWidth = s.hlWidth := by unfold State.setCore; split <;> rfl
@[simp] theorem State.setCore_hlUp (s : State) (k : Core) : (s.setCore k).hlUp = s.hlUp := by unfold State.setCore; split <;> rfl
@[simp] theorem State.setCore_hlerr (s : State) (k : Core) : (s.setCore k).hlerr = s.hlerr := by unfold State.setCore; split <;> rfl
@[simp] theorem State.setCore_fuses (s : State) (k : Core) : (s.setCore k).fuses = s.fuses := by unfold State.setCore; split <;> rfl
@[simp] theorem State.setCore_boot (s : State) (k : Core) : (s.setCore k).boot = s.boot := by unfold State.setCore; split <;> rfl
@[simp] theorem State.setCore_spdm (s : State) (k : Core) : (s.setCore k).spdm = s.spdm := by unfold State.setCore; split <;> rfl
@[simp] theorem State.setCore_out (s : State) (k : Core) : (s.setCore k).out = s.out := by unfold State.setCore; split <;> rfl

/-! ### setDie -/

@[simp] theorem State.setDie_clock (s : State) (d : Die) : (s.setDie d).clock = s.clock := rfl
@[simp] theorem State.setDie_freeCtr (s : State) (d : Die) : (s.setDie d).freeCtr = s.freeCtr := rfl
@[simp] theorem State.setDie_nextId (s : State) (d : Die) : (s.setDie d).nextId = s.nextId := rfl
@[simp] theorem State.setDie_agenda (s : State) (d : Die) : (s.setDie d).agenda = s.agenda := rfl
@[simp] theorem State.setDie_focus (s : State) (d : Die) : (s.setDie d).focus = s.focus := rfl
@[simp] theorem State.setDie_wants (s : State) (d : Die) : (s.setDie d).wants = s.wants := rfl
@[simp] theorem State.setDie_flaws (s : State) (d : Die) : (s.setDie d).flaws = s.flaws := rfl
@[simp] theorem State.setDie_mem (s : State) (d : Die) : (s.setDie d).mem = s.mem := rfl
@[simp] theorem State.setDie_gangs (s : State) (d : Die) : (s.setDie d).gangs = s.gangs := rfl
@[simp] theorem State.setDie_cores (s : State) (d : Die) : (s.setDie d).cores = s.cores := rfl
@[simp] theorem State.setDie_ctxs (s : State) (d : Die) : (s.setDie d).ctxs = s.ctxs := rfl
@[simp] theorem State.setDie_tenants (s : State) (d : Die) : (s.setDie d).tenants = s.tenants := rfl
@[simp] theorem State.setDie_queues (s : State) (d : Die) : (s.setDie d).queues = s.queues := rfl
@[simp] theorem State.setDie_insts (s : State) (d : Die) : (s.setDie d).insts = s.insts := rfl
@[simp] theorem State.setDie_launches (s : State) (d : Die) : (s.setDie d).launches = s.launches := rfl
@[simp] theorem State.setDie_places (s : State) (d : Die) : (s.setDie d).places = s.places := rfl
@[simp] theorem State.setDie_ops (s : State) (d : Die) : (s.setDie d).ops = s.ops := rfl
@[simp] theorem State.setDie_items (s : State) (d : Die) : (s.setDie d).items = s.items := rfl
@[simp] theorem State.setDie_drains (s : State) (d : Die) : (s.setDie d).drains = s.drains := rfl
@[simp] theorem State.setDie_rstvs (s : State) (d : Die) : (s.setDie d).rstvs = s.rstvs := rfl
@[simp] theorem State.setDie_txns (s : State) (d : Die) : (s.setDie d).txns = s.txns := rfl
@[simp] theorem State.setDie_sweeps (s : State) (d : Die) : (s.setDie d).sweeps = s.sweeps := rfl
@[simp] theorem State.setDie_aborts (s : State) (d : Die) : (s.setDie d).aborts = s.aborts := rfl
@[simp] theorem State.setDie_told (s : State) (d : Die) : (s.setDie d).told = s.told := rfl
@[simp] theorem State.setDie_snoops (s : State) (d : Die) : (s.setDie d).snoops = s.snoops := rfl
@[simp] theorem State.setDie_hostFilter (s : State) (d : Die) : (s.setDie d).hostFilter = s.hostFilter := rfl
@[simp] theorem State.setDie_heldWr (s : State) (d : Die) : (s.setDie d).heldWr = s.heldWr := rfl
@[simp] theorem State.setDie_hostOrd (s : State) (d : Die) : (s.setDie d).hostOrd = s.hostOrd := rfl
@[simp] theorem State.setDie_pkts (s : State) (d : Die) : (s.setDie d).pkts = s.pkts := rfl
@[simp] theorem State.setDie_ports (s : State) (d : Die) : (s.setDie d).ports = s.ports := rfl
@[simp] theorem State.setDie_routes (s : State) (d : Die) : (s.setDie d).routes = s.routes := rfl
@[simp] theorem State.setDie_devid (s : State) (d : Die) : (s.setDie d).devid = s.devid := rfl
@[simp] theorem State.setDie_nextTag (s : State) (d : Die) : (s.setDie d).nextTag = s.nextTag := rfl
@[simp] theorem State.setDie_quarantine (s : State) (d : Die) : (s.setDie d).quarantine = s.quarantine := rfl
@[simp] theorem State.setDie_refused (s : State) (d : Die) : (s.setDie d).refused = s.refused := rfl
@[simp] theorem State.setDie_performed (s : State) (d : Die) : (s.setDie d).performed = s.performed := rfl
@[simp] theorem State.setDie_peerBad (s : State) (d : Die) : (s.setDie d).peerBad = s.peerBad := rfl
@[simp] theorem State.setDie_stale (s : State) (d : Die) : (s.setDie d).stale = s.stale := rfl
@[simp] theorem State.setDie_hlMode (s : State) (d : Die) : (s.setDie d).hlMode = s.hlMode := rfl
@[simp] theorem State.setDie_hlWidth (s : State) (d : Die) : (s.setDie d).hlWidth = s.hlWidth := rfl
@[simp] theorem State.setDie_hlUp (s : State) (d : Die) : (s.setDie d).hlUp = s.hlUp := rfl
@[simp] theorem State.setDie_hlerr (s : State) (d : Die) : (s.setDie d).hlerr = s.hlerr := rfl
@[simp] theorem State.setDie_fuses (s : State) (d : Die) : (s.setDie d).fuses = s.fuses := rfl
@[simp] theorem State.setDie_boot (s : State) (d : Die) : (s.setDie d).boot = s.boot := rfl
@[simp] theorem State.setDie_spdm (s : State) (d : Die) : (s.setDie d).spdm = s.spdm := rfl
@[simp] theorem State.setDie_out (s : State) (d : Die) : (s.setDie d).out = s.out := rfl

/-! ### setCtx -/

@[simp] theorem State.setCtx_clock (s : State) (c : Context) : (s.setCtx c).clock = s.clock := rfl
@[simp] theorem State.setCtx_freeCtr (s : State) (c : Context) : (s.setCtx c).freeCtr = s.freeCtr := rfl
@[simp] theorem State.setCtx_nextId (s : State) (c : Context) : (s.setCtx c).nextId = s.nextId := rfl
@[simp] theorem State.setCtx_agenda (s : State) (c : Context) : (s.setCtx c).agenda = s.agenda := rfl
@[simp] theorem State.setCtx_focus (s : State) (c : Context) : (s.setCtx c).focus = s.focus := rfl
@[simp] theorem State.setCtx_wants (s : State) (c : Context) : (s.setCtx c).wants = s.wants := rfl
@[simp] theorem State.setCtx_flaws (s : State) (c : Context) : (s.setCtx c).flaws = s.flaws := rfl
@[simp] theorem State.setCtx_mem (s : State) (c : Context) : (s.setCtx c).mem = s.mem := rfl
@[simp] theorem State.setCtx_gangs (s : State) (c : Context) : (s.setCtx c).gangs = s.gangs := rfl
@[simp] theorem State.setCtx_cores (s : State) (c : Context) : (s.setCtx c).cores = s.cores := rfl
@[simp] theorem State.setCtx_dies (s : State) (c : Context) : (s.setCtx c).dies = s.dies := rfl
@[simp] theorem State.setCtx_tenants (s : State) (c : Context) : (s.setCtx c).tenants = s.tenants := rfl
@[simp] theorem State.setCtx_queues (s : State) (c : Context) : (s.setCtx c).queues = s.queues := rfl
@[simp] theorem State.setCtx_insts (s : State) (c : Context) : (s.setCtx c).insts = s.insts := rfl
@[simp] theorem State.setCtx_launches (s : State) (c : Context) : (s.setCtx c).launches = s.launches := rfl
@[simp] theorem State.setCtx_places (s : State) (c : Context) : (s.setCtx c).places = s.places := rfl
@[simp] theorem State.setCtx_ops (s : State) (c : Context) : (s.setCtx c).ops = s.ops := rfl
@[simp] theorem State.setCtx_items (s : State) (c : Context) : (s.setCtx c).items = s.items := rfl
@[simp] theorem State.setCtx_drains (s : State) (c : Context) : (s.setCtx c).drains = s.drains := rfl
@[simp] theorem State.setCtx_rstvs (s : State) (c : Context) : (s.setCtx c).rstvs = s.rstvs := rfl
@[simp] theorem State.setCtx_txns (s : State) (c : Context) : (s.setCtx c).txns = s.txns := rfl
@[simp] theorem State.setCtx_sweeps (s : State) (c : Context) : (s.setCtx c).sweeps = s.sweeps := rfl
@[simp] theorem State.setCtx_aborts (s : State) (c : Context) : (s.setCtx c).aborts = s.aborts := rfl
@[simp] theorem State.setCtx_told (s : State) (c : Context) : (s.setCtx c).told = s.told := rfl
@[simp] theorem State.setCtx_snoops (s : State) (c : Context) : (s.setCtx c).snoops = s.snoops := rfl
@[simp] theorem State.setCtx_hostFilter (s : State) (c : Context) : (s.setCtx c).hostFilter = s.hostFilter := rfl
@[simp] theorem State.setCtx_heldWr (s : State) (c : Context) : (s.setCtx c).heldWr = s.heldWr := rfl
@[simp] theorem State.setCtx_hostOrd (s : State) (c : Context) : (s.setCtx c).hostOrd = s.hostOrd := rfl
@[simp] theorem State.setCtx_pkts (s : State) (c : Context) : (s.setCtx c).pkts = s.pkts := rfl
@[simp] theorem State.setCtx_ports (s : State) (c : Context) : (s.setCtx c).ports = s.ports := rfl
@[simp] theorem State.setCtx_routes (s : State) (c : Context) : (s.setCtx c).routes = s.routes := rfl
@[simp] theorem State.setCtx_devid (s : State) (c : Context) : (s.setCtx c).devid = s.devid := rfl
@[simp] theorem State.setCtx_nextTag (s : State) (c : Context) : (s.setCtx c).nextTag = s.nextTag := rfl
@[simp] theorem State.setCtx_quarantine (s : State) (c : Context) : (s.setCtx c).quarantine = s.quarantine := rfl
@[simp] theorem State.setCtx_refused (s : State) (c : Context) : (s.setCtx c).refused = s.refused := rfl
@[simp] theorem State.setCtx_performed (s : State) (c : Context) : (s.setCtx c).performed = s.performed := rfl
@[simp] theorem State.setCtx_peerBad (s : State) (c : Context) : (s.setCtx c).peerBad = s.peerBad := rfl
@[simp] theorem State.setCtx_stale (s : State) (c : Context) : (s.setCtx c).stale = s.stale := rfl
@[simp] theorem State.setCtx_hlMode (s : State) (c : Context) : (s.setCtx c).hlMode = s.hlMode := rfl
@[simp] theorem State.setCtx_hlWidth (s : State) (c : Context) : (s.setCtx c).hlWidth = s.hlWidth := rfl
@[simp] theorem State.setCtx_hlUp (s : State) (c : Context) : (s.setCtx c).hlUp = s.hlUp := rfl
@[simp] theorem State.setCtx_hlerr (s : State) (c : Context) : (s.setCtx c).hlerr = s.hlerr := rfl
@[simp] theorem State.setCtx_fuses (s : State) (c : Context) : (s.setCtx c).fuses = s.fuses := rfl
@[simp] theorem State.setCtx_boot (s : State) (c : Context) : (s.setCtx c).boot = s.boot := rfl
@[simp] theorem State.setCtx_spdm (s : State) (c : Context) : (s.setCtx c).spdm = s.spdm := rfl
@[simp] theorem State.setCtx_out (s : State) (c : Context) : (s.setCtx c).out = s.out := rfl

/-! ### setTenant -/

@[simp] theorem State.setTenant_clock (s : State) (n : Tenant) : (s.setTenant n).clock = s.clock := rfl
@[simp] theorem State.setTenant_freeCtr (s : State) (n : Tenant) : (s.setTenant n).freeCtr = s.freeCtr := rfl
@[simp] theorem State.setTenant_nextId (s : State) (n : Tenant) : (s.setTenant n).nextId = s.nextId := rfl
@[simp] theorem State.setTenant_agenda (s : State) (n : Tenant) : (s.setTenant n).agenda = s.agenda := rfl
@[simp] theorem State.setTenant_focus (s : State) (n : Tenant) : (s.setTenant n).focus = s.focus := rfl
@[simp] theorem State.setTenant_wants (s : State) (n : Tenant) : (s.setTenant n).wants = s.wants := rfl
@[simp] theorem State.setTenant_flaws (s : State) (n : Tenant) : (s.setTenant n).flaws = s.flaws := rfl
@[simp] theorem State.setTenant_mem (s : State) (n : Tenant) : (s.setTenant n).mem = s.mem := rfl
@[simp] theorem State.setTenant_gangs (s : State) (n : Tenant) : (s.setTenant n).gangs = s.gangs := rfl
@[simp] theorem State.setTenant_cores (s : State) (n : Tenant) : (s.setTenant n).cores = s.cores := rfl
@[simp] theorem State.setTenant_dies (s : State) (n : Tenant) : (s.setTenant n).dies = s.dies := rfl
@[simp] theorem State.setTenant_ctxs (s : State) (n : Tenant) : (s.setTenant n).ctxs = s.ctxs := rfl
@[simp] theorem State.setTenant_queues (s : State) (n : Tenant) : (s.setTenant n).queues = s.queues := rfl
@[simp] theorem State.setTenant_insts (s : State) (n : Tenant) : (s.setTenant n).insts = s.insts := rfl
@[simp] theorem State.setTenant_launches (s : State) (n : Tenant) : (s.setTenant n).launches = s.launches := rfl
@[simp] theorem State.setTenant_places (s : State) (n : Tenant) : (s.setTenant n).places = s.places := rfl
@[simp] theorem State.setTenant_ops (s : State) (n : Tenant) : (s.setTenant n).ops = s.ops := rfl
@[simp] theorem State.setTenant_items (s : State) (n : Tenant) : (s.setTenant n).items = s.items := rfl
@[simp] theorem State.setTenant_drains (s : State) (n : Tenant) : (s.setTenant n).drains = s.drains := rfl
@[simp] theorem State.setTenant_rstvs (s : State) (n : Tenant) : (s.setTenant n).rstvs = s.rstvs := rfl
@[simp] theorem State.setTenant_txns (s : State) (n : Tenant) : (s.setTenant n).txns = s.txns := rfl
@[simp] theorem State.setTenant_sweeps (s : State) (n : Tenant) : (s.setTenant n).sweeps = s.sweeps := rfl
@[simp] theorem State.setTenant_aborts (s : State) (n : Tenant) : (s.setTenant n).aborts = s.aborts := rfl
@[simp] theorem State.setTenant_told (s : State) (n : Tenant) : (s.setTenant n).told = s.told := rfl
@[simp] theorem State.setTenant_snoops (s : State) (n : Tenant) : (s.setTenant n).snoops = s.snoops := rfl
@[simp] theorem State.setTenant_hostFilter (s : State) (n : Tenant) : (s.setTenant n).hostFilter = s.hostFilter := rfl
@[simp] theorem State.setTenant_heldWr (s : State) (n : Tenant) : (s.setTenant n).heldWr = s.heldWr := rfl
@[simp] theorem State.setTenant_hostOrd (s : State) (n : Tenant) : (s.setTenant n).hostOrd = s.hostOrd := rfl
@[simp] theorem State.setTenant_pkts (s : State) (n : Tenant) : (s.setTenant n).pkts = s.pkts := rfl
@[simp] theorem State.setTenant_ports (s : State) (n : Tenant) : (s.setTenant n).ports = s.ports := rfl
@[simp] theorem State.setTenant_routes (s : State) (n : Tenant) : (s.setTenant n).routes = s.routes := rfl
@[simp] theorem State.setTenant_devid (s : State) (n : Tenant) : (s.setTenant n).devid = s.devid := rfl
@[simp] theorem State.setTenant_nextTag (s : State) (n : Tenant) : (s.setTenant n).nextTag = s.nextTag := rfl
@[simp] theorem State.setTenant_quarantine (s : State) (n : Tenant) : (s.setTenant n).quarantine = s.quarantine := rfl
@[simp] theorem State.setTenant_refused (s : State) (n : Tenant) : (s.setTenant n).refused = s.refused := rfl
@[simp] theorem State.setTenant_performed (s : State) (n : Tenant) : (s.setTenant n).performed = s.performed := rfl
@[simp] theorem State.setTenant_peerBad (s : State) (n : Tenant) : (s.setTenant n).peerBad = s.peerBad := rfl
@[simp] theorem State.setTenant_stale (s : State) (n : Tenant) : (s.setTenant n).stale = s.stale := rfl
@[simp] theorem State.setTenant_hlMode (s : State) (n : Tenant) : (s.setTenant n).hlMode = s.hlMode := rfl
@[simp] theorem State.setTenant_hlWidth (s : State) (n : Tenant) : (s.setTenant n).hlWidth = s.hlWidth := rfl
@[simp] theorem State.setTenant_hlUp (s : State) (n : Tenant) : (s.setTenant n).hlUp = s.hlUp := rfl
@[simp] theorem State.setTenant_hlerr (s : State) (n : Tenant) : (s.setTenant n).hlerr = s.hlerr := rfl
@[simp] theorem State.setTenant_fuses (s : State) (n : Tenant) : (s.setTenant n).fuses = s.fuses := rfl
@[simp] theorem State.setTenant_boot (s : State) (n : Tenant) : (s.setTenant n).boot = s.boot := rfl
@[simp] theorem State.setTenant_spdm (s : State) (n : Tenant) : (s.setTenant n).spdm = s.spdm := rfl
@[simp] theorem State.setTenant_out (s : State) (n : Tenant) : (s.setTenant n).out = s.out := rfl

/-! ### setQueue -/

@[simp] theorem State.setQueue_clock (s : State) (q : LaunchQueue) : (s.setQueue q).clock = s.clock := rfl
@[simp] theorem State.setQueue_freeCtr (s : State) (q : LaunchQueue) : (s.setQueue q).freeCtr = s.freeCtr := rfl
@[simp] theorem State.setQueue_nextId (s : State) (q : LaunchQueue) : (s.setQueue q).nextId = s.nextId := rfl
@[simp] theorem State.setQueue_agenda (s : State) (q : LaunchQueue) : (s.setQueue q).agenda = s.agenda := rfl
@[simp] theorem State.setQueue_focus (s : State) (q : LaunchQueue) : (s.setQueue q).focus = s.focus := rfl
@[simp] theorem State.setQueue_wants (s : State) (q : LaunchQueue) : (s.setQueue q).wants = s.wants := rfl
@[simp] theorem State.setQueue_flaws (s : State) (q : LaunchQueue) : (s.setQueue q).flaws = s.flaws := rfl
@[simp] theorem State.setQueue_mem (s : State) (q : LaunchQueue) : (s.setQueue q).mem = s.mem := rfl
@[simp] theorem State.setQueue_gangs (s : State) (q : LaunchQueue) : (s.setQueue q).gangs = s.gangs := rfl
@[simp] theorem State.setQueue_cores (s : State) (q : LaunchQueue) : (s.setQueue q).cores = s.cores := rfl
@[simp] theorem State.setQueue_dies (s : State) (q : LaunchQueue) : (s.setQueue q).dies = s.dies := rfl
@[simp] theorem State.setQueue_ctxs (s : State) (q : LaunchQueue) : (s.setQueue q).ctxs = s.ctxs := rfl
@[simp] theorem State.setQueue_tenants (s : State) (q : LaunchQueue) : (s.setQueue q).tenants = s.tenants := rfl
@[simp] theorem State.setQueue_insts (s : State) (q : LaunchQueue) : (s.setQueue q).insts = s.insts := rfl
@[simp] theorem State.setQueue_launches (s : State) (q : LaunchQueue) : (s.setQueue q).launches = s.launches := rfl
@[simp] theorem State.setQueue_places (s : State) (q : LaunchQueue) : (s.setQueue q).places = s.places := rfl
@[simp] theorem State.setQueue_ops (s : State) (q : LaunchQueue) : (s.setQueue q).ops = s.ops := rfl
@[simp] theorem State.setQueue_items (s : State) (q : LaunchQueue) : (s.setQueue q).items = s.items := rfl
@[simp] theorem State.setQueue_drains (s : State) (q : LaunchQueue) : (s.setQueue q).drains = s.drains := rfl
@[simp] theorem State.setQueue_rstvs (s : State) (q : LaunchQueue) : (s.setQueue q).rstvs = s.rstvs := rfl
@[simp] theorem State.setQueue_txns (s : State) (q : LaunchQueue) : (s.setQueue q).txns = s.txns := rfl
@[simp] theorem State.setQueue_sweeps (s : State) (q : LaunchQueue) : (s.setQueue q).sweeps = s.sweeps := rfl
@[simp] theorem State.setQueue_aborts (s : State) (q : LaunchQueue) : (s.setQueue q).aborts = s.aborts := rfl
@[simp] theorem State.setQueue_told (s : State) (q : LaunchQueue) : (s.setQueue q).told = s.told := rfl
@[simp] theorem State.setQueue_snoops (s : State) (q : LaunchQueue) : (s.setQueue q).snoops = s.snoops := rfl
@[simp] theorem State.setQueue_hostFilter (s : State) (q : LaunchQueue) : (s.setQueue q).hostFilter = s.hostFilter := rfl
@[simp] theorem State.setQueue_heldWr (s : State) (q : LaunchQueue) : (s.setQueue q).heldWr = s.heldWr := rfl
@[simp] theorem State.setQueue_hostOrd (s : State) (q : LaunchQueue) : (s.setQueue q).hostOrd = s.hostOrd := rfl
@[simp] theorem State.setQueue_pkts (s : State) (q : LaunchQueue) : (s.setQueue q).pkts = s.pkts := rfl
@[simp] theorem State.setQueue_ports (s : State) (q : LaunchQueue) : (s.setQueue q).ports = s.ports := rfl
@[simp] theorem State.setQueue_routes (s : State) (q : LaunchQueue) : (s.setQueue q).routes = s.routes := rfl
@[simp] theorem State.setQueue_devid (s : State) (q : LaunchQueue) : (s.setQueue q).devid = s.devid := rfl
@[simp] theorem State.setQueue_nextTag (s : State) (q : LaunchQueue) : (s.setQueue q).nextTag = s.nextTag := rfl
@[simp] theorem State.setQueue_quarantine (s : State) (q : LaunchQueue) : (s.setQueue q).quarantine = s.quarantine := rfl
@[simp] theorem State.setQueue_refused (s : State) (q : LaunchQueue) : (s.setQueue q).refused = s.refused := rfl
@[simp] theorem State.setQueue_performed (s : State) (q : LaunchQueue) : (s.setQueue q).performed = s.performed := rfl
@[simp] theorem State.setQueue_peerBad (s : State) (q : LaunchQueue) : (s.setQueue q).peerBad = s.peerBad := rfl
@[simp] theorem State.setQueue_stale (s : State) (q : LaunchQueue) : (s.setQueue q).stale = s.stale := rfl
@[simp] theorem State.setQueue_hlMode (s : State) (q : LaunchQueue) : (s.setQueue q).hlMode = s.hlMode := rfl
@[simp] theorem State.setQueue_hlWidth (s : State) (q : LaunchQueue) : (s.setQueue q).hlWidth = s.hlWidth := rfl
@[simp] theorem State.setQueue_hlUp (s : State) (q : LaunchQueue) : (s.setQueue q).hlUp = s.hlUp := rfl
@[simp] theorem State.setQueue_hlerr (s : State) (q : LaunchQueue) : (s.setQueue q).hlerr = s.hlerr := rfl
@[simp] theorem State.setQueue_fuses (s : State) (q : LaunchQueue) : (s.setQueue q).fuses = s.fuses := rfl
@[simp] theorem State.setQueue_boot (s : State) (q : LaunchQueue) : (s.setQueue q).boot = s.boot := rfl
@[simp] theorem State.setQueue_spdm (s : State) (q : LaunchQueue) : (s.setQueue q).spdm = s.spdm := rfl
@[simp] theorem State.setQueue_out (s : State) (q : LaunchQueue) : (s.setQueue q).out = s.out := rfl

/-! ### setPort -/

@[simp] theorem State.setPort_clock (s : State) (p : Port) : (s.setPort p).clock = s.clock := rfl
@[simp] theorem State.setPort_freeCtr (s : State) (p : Port) : (s.setPort p).freeCtr = s.freeCtr := rfl
@[simp] theorem State.setPort_nextId (s : State) (p : Port) : (s.setPort p).nextId = s.nextId := rfl
@[simp] theorem State.setPort_agenda (s : State) (p : Port) : (s.setPort p).agenda = s.agenda := rfl
@[simp] theorem State.setPort_focus (s : State) (p : Port) : (s.setPort p).focus = s.focus := rfl
@[simp] theorem State.setPort_wants (s : State) (p : Port) : (s.setPort p).wants = s.wants := rfl
@[simp] theorem State.setPort_flaws (s : State) (p : Port) : (s.setPort p).flaws = s.flaws := rfl
@[simp] theorem State.setPort_mem (s : State) (p : Port) : (s.setPort p).mem = s.mem := rfl
@[simp] theorem State.setPort_gangs (s : State) (p : Port) : (s.setPort p).gangs = s.gangs := rfl
@[simp] theorem State.setPort_cores (s : State) (p : Port) : (s.setPort p).cores = s.cores := rfl
@[simp] theorem State.setPort_dies (s : State) (p : Port) : (s.setPort p).dies = s.dies := rfl
@[simp] theorem State.setPort_ctxs (s : State) (p : Port) : (s.setPort p).ctxs = s.ctxs := rfl
@[simp] theorem State.setPort_tenants (s : State) (p : Port) : (s.setPort p).tenants = s.tenants := rfl
@[simp] theorem State.setPort_queues (s : State) (p : Port) : (s.setPort p).queues = s.queues := rfl
@[simp] theorem State.setPort_insts (s : State) (p : Port) : (s.setPort p).insts = s.insts := rfl
@[simp] theorem State.setPort_launches (s : State) (p : Port) : (s.setPort p).launches = s.launches := rfl
@[simp] theorem State.setPort_places (s : State) (p : Port) : (s.setPort p).places = s.places := rfl
@[simp] theorem State.setPort_ops (s : State) (p : Port) : (s.setPort p).ops = s.ops := rfl
@[simp] theorem State.setPort_items (s : State) (p : Port) : (s.setPort p).items = s.items := rfl
@[simp] theorem State.setPort_drains (s : State) (p : Port) : (s.setPort p).drains = s.drains := rfl
@[simp] theorem State.setPort_rstvs (s : State) (p : Port) : (s.setPort p).rstvs = s.rstvs := rfl
@[simp] theorem State.setPort_txns (s : State) (p : Port) : (s.setPort p).txns = s.txns := rfl
@[simp] theorem State.setPort_sweeps (s : State) (p : Port) : (s.setPort p).sweeps = s.sweeps := rfl
@[simp] theorem State.setPort_aborts (s : State) (p : Port) : (s.setPort p).aborts = s.aborts := rfl
@[simp] theorem State.setPort_told (s : State) (p : Port) : (s.setPort p).told = s.told := rfl
@[simp] theorem State.setPort_snoops (s : State) (p : Port) : (s.setPort p).snoops = s.snoops := rfl
@[simp] theorem State.setPort_hostFilter (s : State) (p : Port) : (s.setPort p).hostFilter = s.hostFilter := rfl
@[simp] theorem State.setPort_heldWr (s : State) (p : Port) : (s.setPort p).heldWr = s.heldWr := rfl
@[simp] theorem State.setPort_hostOrd (s : State) (p : Port) : (s.setPort p).hostOrd = s.hostOrd := rfl
@[simp] theorem State.setPort_pkts (s : State) (p : Port) : (s.setPort p).pkts = s.pkts := rfl
@[simp] theorem State.setPort_routes (s : State) (p : Port) : (s.setPort p).routes = s.routes := rfl
@[simp] theorem State.setPort_devid (s : State) (p : Port) : (s.setPort p).devid = s.devid := rfl
@[simp] theorem State.setPort_nextTag (s : State) (p : Port) : (s.setPort p).nextTag = s.nextTag := rfl
@[simp] theorem State.setPort_quarantine (s : State) (p : Port) : (s.setPort p).quarantine = s.quarantine := rfl
@[simp] theorem State.setPort_refused (s : State) (p : Port) : (s.setPort p).refused = s.refused := rfl
@[simp] theorem State.setPort_performed (s : State) (p : Port) : (s.setPort p).performed = s.performed := rfl
@[simp] theorem State.setPort_peerBad (s : State) (p : Port) : (s.setPort p).peerBad = s.peerBad := rfl
@[simp] theorem State.setPort_stale (s : State) (p : Port) : (s.setPort p).stale = s.stale := rfl
@[simp] theorem State.setPort_hlMode (s : State) (p : Port) : (s.setPort p).hlMode = s.hlMode := rfl
@[simp] theorem State.setPort_hlWidth (s : State) (p : Port) : (s.setPort p).hlWidth = s.hlWidth := rfl
@[simp] theorem State.setPort_hlUp (s : State) (p : Port) : (s.setPort p).hlUp = s.hlUp := rfl
@[simp] theorem State.setPort_hlerr (s : State) (p : Port) : (s.setPort p).hlerr = s.hlerr := rfl
@[simp] theorem State.setPort_fuses (s : State) (p : Port) : (s.setPort p).fuses = s.fuses := rfl
@[simp] theorem State.setPort_boot (s : State) (p : Port) : (s.setPort p).boot = s.boot := rfl
@[simp] theorem State.setPort_spdm (s : State) (p : Port) : (s.setPort p).spdm = s.spdm := rfl
@[simp] theorem State.setPort_out (s : State) (p : Port) : (s.setPort p).out = s.out := rfl

/-! ### setInst -/

@[simp] theorem State.setInst_clock (s : State) (i : Inst) : (s.setInst i).clock = s.clock := rfl
@[simp] theorem State.setInst_freeCtr (s : State) (i : Inst) : (s.setInst i).freeCtr = s.freeCtr := rfl
@[simp] theorem State.setInst_nextId (s : State) (i : Inst) : (s.setInst i).nextId = s.nextId := rfl
@[simp] theorem State.setInst_agenda (s : State) (i : Inst) : (s.setInst i).agenda = s.agenda := rfl
@[simp] theorem State.setInst_focus (s : State) (i : Inst) : (s.setInst i).focus = s.focus := rfl
@[simp] theorem State.setInst_wants (s : State) (i : Inst) : (s.setInst i).wants = s.wants := rfl
@[simp] theorem State.setInst_flaws (s : State) (i : Inst) : (s.setInst i).flaws = s.flaws := rfl
@[simp] theorem State.setInst_mem (s : State) (i : Inst) : (s.setInst i).mem = s.mem := rfl
@[simp] theorem State.setInst_gangs (s : State) (i : Inst) : (s.setInst i).gangs = s.gangs := rfl
@[simp] theorem State.setInst_cores (s : State) (i : Inst) : (s.setInst i).cores = s.cores := rfl
@[simp] theorem State.setInst_dies (s : State) (i : Inst) : (s.setInst i).dies = s.dies := rfl
@[simp] theorem State.setInst_ctxs (s : State) (i : Inst) : (s.setInst i).ctxs = s.ctxs := rfl
@[simp] theorem State.setInst_tenants (s : State) (i : Inst) : (s.setInst i).tenants = s.tenants := rfl
@[simp] theorem State.setInst_queues (s : State) (i : Inst) : (s.setInst i).queues = s.queues := rfl
@[simp] theorem State.setInst_launches (s : State) (i : Inst) : (s.setInst i).launches = s.launches := rfl
@[simp] theorem State.setInst_places (s : State) (i : Inst) : (s.setInst i).places = s.places := rfl
@[simp] theorem State.setInst_ops (s : State) (i : Inst) : (s.setInst i).ops = s.ops := rfl
@[simp] theorem State.setInst_items (s : State) (i : Inst) : (s.setInst i).items = s.items := rfl
@[simp] theorem State.setInst_drains (s : State) (i : Inst) : (s.setInst i).drains = s.drains := rfl
@[simp] theorem State.setInst_rstvs (s : State) (i : Inst) : (s.setInst i).rstvs = s.rstvs := rfl
@[simp] theorem State.setInst_txns (s : State) (i : Inst) : (s.setInst i).txns = s.txns := rfl
@[simp] theorem State.setInst_sweeps (s : State) (i : Inst) : (s.setInst i).sweeps = s.sweeps := rfl
@[simp] theorem State.setInst_aborts (s : State) (i : Inst) : (s.setInst i).aborts = s.aborts := rfl
@[simp] theorem State.setInst_told (s : State) (i : Inst) : (s.setInst i).told = s.told := rfl
@[simp] theorem State.setInst_snoops (s : State) (i : Inst) : (s.setInst i).snoops = s.snoops := rfl
@[simp] theorem State.setInst_hostFilter (s : State) (i : Inst) : (s.setInst i).hostFilter = s.hostFilter := rfl
@[simp] theorem State.setInst_heldWr (s : State) (i : Inst) : (s.setInst i).heldWr = s.heldWr := rfl
@[simp] theorem State.setInst_hostOrd (s : State) (i : Inst) : (s.setInst i).hostOrd = s.hostOrd := rfl
@[simp] theorem State.setInst_pkts (s : State) (i : Inst) : (s.setInst i).pkts = s.pkts := rfl
@[simp] theorem State.setInst_ports (s : State) (i : Inst) : (s.setInst i).ports = s.ports := rfl
@[simp] theorem State.setInst_routes (s : State) (i : Inst) : (s.setInst i).routes = s.routes := rfl
@[simp] theorem State.setInst_devid (s : State) (i : Inst) : (s.setInst i).devid = s.devid := rfl
@[simp] theorem State.setInst_nextTag (s : State) (i : Inst) : (s.setInst i).nextTag = s.nextTag := rfl
@[simp] theorem State.setInst_quarantine (s : State) (i : Inst) : (s.setInst i).quarantine = s.quarantine := rfl
@[simp] theorem State.setInst_refused (s : State) (i : Inst) : (s.setInst i).refused = s.refused := rfl
@[simp] theorem State.setInst_performed (s : State) (i : Inst) : (s.setInst i).performed = s.performed := rfl
@[simp] theorem State.setInst_peerBad (s : State) (i : Inst) : (s.setInst i).peerBad = s.peerBad := rfl
@[simp] theorem State.setInst_stale (s : State) (i : Inst) : (s.setInst i).stale = s.stale := rfl
@[simp] theorem State.setInst_hlMode (s : State) (i : Inst) : (s.setInst i).hlMode = s.hlMode := rfl
@[simp] theorem State.setInst_hlWidth (s : State) (i : Inst) : (s.setInst i).hlWidth = s.hlWidth := rfl
@[simp] theorem State.setInst_hlUp (s : State) (i : Inst) : (s.setInst i).hlUp = s.hlUp := rfl
@[simp] theorem State.setInst_hlerr (s : State) (i : Inst) : (s.setInst i).hlerr = s.hlerr := rfl
@[simp] theorem State.setInst_fuses (s : State) (i : Inst) : (s.setInst i).fuses = s.fuses := rfl
@[simp] theorem State.setInst_boot (s : State) (i : Inst) : (s.setInst i).boot = s.boot := rfl
@[simp] theorem State.setInst_spdm (s : State) (i : Inst) : (s.setInst i).spdm = s.spdm := rfl
@[simp] theorem State.setInst_out (s : State) (i : Inst) : (s.setInst i).out = s.out := rfl

/-! ### setOp -/

@[simp] theorem State.setOp_clock (s : State) (o : Op) : (s.setOp o).clock = s.clock := rfl
@[simp] theorem State.setOp_freeCtr (s : State) (o : Op) : (s.setOp o).freeCtr = s.freeCtr := rfl
@[simp] theorem State.setOp_nextId (s : State) (o : Op) : (s.setOp o).nextId = s.nextId := rfl
@[simp] theorem State.setOp_agenda (s : State) (o : Op) : (s.setOp o).agenda = s.agenda := rfl
@[simp] theorem State.setOp_focus (s : State) (o : Op) : (s.setOp o).focus = s.focus := rfl
@[simp] theorem State.setOp_wants (s : State) (o : Op) : (s.setOp o).wants = s.wants := rfl
@[simp] theorem State.setOp_flaws (s : State) (o : Op) : (s.setOp o).flaws = s.flaws := rfl
@[simp] theorem State.setOp_mem (s : State) (o : Op) : (s.setOp o).mem = s.mem := rfl
@[simp] theorem State.setOp_gangs (s : State) (o : Op) : (s.setOp o).gangs = s.gangs := rfl
@[simp] theorem State.setOp_cores (s : State) (o : Op) : (s.setOp o).cores = s.cores := rfl
@[simp] theorem State.setOp_dies (s : State) (o : Op) : (s.setOp o).dies = s.dies := rfl
@[simp] theorem State.setOp_ctxs (s : State) (o : Op) : (s.setOp o).ctxs = s.ctxs := rfl
@[simp] theorem State.setOp_tenants (s : State) (o : Op) : (s.setOp o).tenants = s.tenants := rfl
@[simp] theorem State.setOp_queues (s : State) (o : Op) : (s.setOp o).queues = s.queues := rfl
@[simp] theorem State.setOp_insts (s : State) (o : Op) : (s.setOp o).insts = s.insts := rfl
@[simp] theorem State.setOp_launches (s : State) (o : Op) : (s.setOp o).launches = s.launches := rfl
@[simp] theorem State.setOp_places (s : State) (o : Op) : (s.setOp o).places = s.places := rfl
@[simp] theorem State.setOp_items (s : State) (o : Op) : (s.setOp o).items = s.items := rfl
@[simp] theorem State.setOp_drains (s : State) (o : Op) : (s.setOp o).drains = s.drains := rfl
@[simp] theorem State.setOp_rstvs (s : State) (o : Op) : (s.setOp o).rstvs = s.rstvs := rfl
@[simp] theorem State.setOp_txns (s : State) (o : Op) : (s.setOp o).txns = s.txns := rfl
@[simp] theorem State.setOp_sweeps (s : State) (o : Op) : (s.setOp o).sweeps = s.sweeps := rfl
@[simp] theorem State.setOp_aborts (s : State) (o : Op) : (s.setOp o).aborts = s.aborts := rfl
@[simp] theorem State.setOp_told (s : State) (o : Op) : (s.setOp o).told = s.told := rfl
@[simp] theorem State.setOp_snoops (s : State) (o : Op) : (s.setOp o).snoops = s.snoops := rfl
@[simp] theorem State.setOp_hostFilter (s : State) (o : Op) : (s.setOp o).hostFilter = s.hostFilter := rfl
@[simp] theorem State.setOp_heldWr (s : State) (o : Op) : (s.setOp o).heldWr = s.heldWr := rfl
@[simp] theorem State.setOp_hostOrd (s : State) (o : Op) : (s.setOp o).hostOrd = s.hostOrd := rfl
@[simp] theorem State.setOp_pkts (s : State) (o : Op) : (s.setOp o).pkts = s.pkts := rfl
@[simp] theorem State.setOp_ports (s : State) (o : Op) : (s.setOp o).ports = s.ports := rfl
@[simp] theorem State.setOp_routes (s : State) (o : Op) : (s.setOp o).routes = s.routes := rfl
@[simp] theorem State.setOp_devid (s : State) (o : Op) : (s.setOp o).devid = s.devid := rfl
@[simp] theorem State.setOp_nextTag (s : State) (o : Op) : (s.setOp o).nextTag = s.nextTag := rfl
@[simp] theorem State.setOp_quarantine (s : State) (o : Op) : (s.setOp o).quarantine = s.quarantine := rfl
@[simp] theorem State.setOp_refused (s : State) (o : Op) : (s.setOp o).refused = s.refused := rfl
@[simp] theorem State.setOp_performed (s : State) (o : Op) : (s.setOp o).performed = s.performed := rfl
@[simp] theorem State.setOp_peerBad (s : State) (o : Op) : (s.setOp o).peerBad = s.peerBad := rfl
@[simp] theorem State.setOp_stale (s : State) (o : Op) : (s.setOp o).stale = s.stale := rfl
@[simp] theorem State.setOp_hlMode (s : State) (o : Op) : (s.setOp o).hlMode = s.hlMode := rfl
@[simp] theorem State.setOp_hlWidth (s : State) (o : Op) : (s.setOp o).hlWidth = s.hlWidth := rfl
@[simp] theorem State.setOp_hlUp (s : State) (o : Op) : (s.setOp o).hlUp = s.hlUp := rfl
@[simp] theorem State.setOp_hlerr (s : State) (o : Op) : (s.setOp o).hlerr = s.hlerr := rfl
@[simp] theorem State.setOp_fuses (s : State) (o : Op) : (s.setOp o).fuses = s.fuses := rfl
@[simp] theorem State.setOp_boot (s : State) (o : Op) : (s.setOp o).boot = s.boot := rfl
@[simp] theorem State.setOp_spdm (s : State) (o : Op) : (s.setOp o).spdm = s.spdm := rfl
@[simp] theorem State.setOp_out (s : State) (o : Op) : (s.setOp o).out = s.out := rfl

/-! ### dropOp -/

@[simp] theorem State.dropOp_clock (s : State) (n : Nat) : (s.dropOp n).clock = s.clock := rfl
@[simp] theorem State.dropOp_freeCtr (s : State) (n : Nat) : (s.dropOp n).freeCtr = s.freeCtr := rfl
@[simp] theorem State.dropOp_nextId (s : State) (n : Nat) : (s.dropOp n).nextId = s.nextId := rfl
@[simp] theorem State.dropOp_agenda (s : State) (n : Nat) : (s.dropOp n).agenda = s.agenda := rfl
@[simp] theorem State.dropOp_focus (s : State) (n : Nat) : (s.dropOp n).focus = s.focus := rfl
@[simp] theorem State.dropOp_wants (s : State) (n : Nat) : (s.dropOp n).wants = s.wants := rfl
@[simp] theorem State.dropOp_flaws (s : State) (n : Nat) : (s.dropOp n).flaws = s.flaws := rfl
@[simp] theorem State.dropOp_mem (s : State) (n : Nat) : (s.dropOp n).mem = s.mem := rfl
@[simp] theorem State.dropOp_gangs (s : State) (n : Nat) : (s.dropOp n).gangs = s.gangs := rfl
@[simp] theorem State.dropOp_cores (s : State) (n : Nat) : (s.dropOp n).cores = s.cores := rfl
@[simp] theorem State.dropOp_dies (s : State) (n : Nat) : (s.dropOp n).dies = s.dies := rfl
@[simp] theorem State.dropOp_ctxs (s : State) (n : Nat) : (s.dropOp n).ctxs = s.ctxs := rfl
@[simp] theorem State.dropOp_tenants (s : State) (n : Nat) : (s.dropOp n).tenants = s.tenants := rfl
@[simp] theorem State.dropOp_queues (s : State) (n : Nat) : (s.dropOp n).queues = s.queues := rfl
@[simp] theorem State.dropOp_insts (s : State) (n : Nat) : (s.dropOp n).insts = s.insts := rfl
@[simp] theorem State.dropOp_launches (s : State) (n : Nat) : (s.dropOp n).launches = s.launches := rfl
@[simp] theorem State.dropOp_places (s : State) (n : Nat) : (s.dropOp n).places = s.places := rfl
@[simp] theorem State.dropOp_items (s : State) (n : Nat) : (s.dropOp n).items = s.items := rfl
@[simp] theorem State.dropOp_drains (s : State) (n : Nat) : (s.dropOp n).drains = s.drains := rfl
@[simp] theorem State.dropOp_rstvs (s : State) (n : Nat) : (s.dropOp n).rstvs = s.rstvs := rfl
@[simp] theorem State.dropOp_txns (s : State) (n : Nat) : (s.dropOp n).txns = s.txns := rfl
@[simp] theorem State.dropOp_sweeps (s : State) (n : Nat) : (s.dropOp n).sweeps = s.sweeps := rfl
@[simp] theorem State.dropOp_aborts (s : State) (n : Nat) : (s.dropOp n).aborts = s.aborts := rfl
@[simp] theorem State.dropOp_told (s : State) (n : Nat) : (s.dropOp n).told = s.told := rfl
@[simp] theorem State.dropOp_snoops (s : State) (n : Nat) : (s.dropOp n).snoops = s.snoops := rfl
@[simp] theorem State.dropOp_hostFilter (s : State) (n : Nat) : (s.dropOp n).hostFilter = s.hostFilter := rfl
@[simp] theorem State.dropOp_heldWr (s : State) (n : Nat) : (s.dropOp n).heldWr = s.heldWr := rfl
@[simp] theorem State.dropOp_hostOrd (s : State) (n : Nat) : (s.dropOp n).hostOrd = s.hostOrd := rfl
@[simp] theorem State.dropOp_pkts (s : State) (n : Nat) : (s.dropOp n).pkts = s.pkts := rfl
@[simp] theorem State.dropOp_ports (s : State) (n : Nat) : (s.dropOp n).ports = s.ports := rfl
@[simp] theorem State.dropOp_routes (s : State) (n : Nat) : (s.dropOp n).routes = s.routes := rfl
@[simp] theorem State.dropOp_devid (s : State) (n : Nat) : (s.dropOp n).devid = s.devid := rfl
@[simp] theorem State.dropOp_nextTag (s : State) (n : Nat) : (s.dropOp n).nextTag = s.nextTag := rfl
@[simp] theorem State.dropOp_quarantine (s : State) (n : Nat) : (s.dropOp n).quarantine = s.quarantine := rfl
@[simp] theorem State.dropOp_refused (s : State) (n : Nat) : (s.dropOp n).refused = s.refused := rfl
@[simp] theorem State.dropOp_performed (s : State) (n : Nat) : (s.dropOp n).performed = s.performed := rfl
@[simp] theorem State.dropOp_peerBad (s : State) (n : Nat) : (s.dropOp n).peerBad = s.peerBad := rfl
@[simp] theorem State.dropOp_stale (s : State) (n : Nat) : (s.dropOp n).stale = s.stale := rfl
@[simp] theorem State.dropOp_hlMode (s : State) (n : Nat) : (s.dropOp n).hlMode = s.hlMode := rfl
@[simp] theorem State.dropOp_hlWidth (s : State) (n : Nat) : (s.dropOp n).hlWidth = s.hlWidth := rfl
@[simp] theorem State.dropOp_hlUp (s : State) (n : Nat) : (s.dropOp n).hlUp = s.hlUp := rfl
@[simp] theorem State.dropOp_hlerr (s : State) (n : Nat) : (s.dropOp n).hlerr = s.hlerr := rfl
@[simp] theorem State.dropOp_fuses (s : State) (n : Nat) : (s.dropOp n).fuses = s.fuses := rfl
@[simp] theorem State.dropOp_boot (s : State) (n : Nat) : (s.dropOp n).boot = s.boot := rfl
@[simp] theorem State.dropOp_spdm (s : State) (n : Nat) : (s.dropOp n).spdm = s.spdm := rfl
@[simp] theorem State.dropOp_out (s : State) (n : Nat) : (s.dropOp n).out = s.out := rfl

/-! ### setItem -/

@[simp] theorem State.setItem_clock (s : State) (i : Item) : (s.setItem i).clock = s.clock := by unfold State.setItem; split <;> rfl
@[simp] theorem State.setItem_freeCtr (s : State) (i : Item) : (s.setItem i).freeCtr = s.freeCtr := by unfold State.setItem; split <;> rfl
@[simp] theorem State.setItem_nextId (s : State) (i : Item) : (s.setItem i).nextId = s.nextId := by unfold State.setItem; split <;> rfl
@[simp] theorem State.setItem_agenda (s : State) (i : Item) : (s.setItem i).agenda = s.agenda := by unfold State.setItem; split <;> rfl
@[simp] theorem State.setItem_focus (s : State) (i : Item) : (s.setItem i).focus = s.focus := by unfold State.setItem; split <;> rfl
@[simp] theorem State.setItem_wants (s : State) (i : Item) : (s.setItem i).wants = s.wants := by unfold State.setItem; split <;> rfl
@[simp] theorem State.setItem_flaws (s : State) (i : Item) : (s.setItem i).flaws = s.flaws := by unfold State.setItem; split <;> rfl
@[simp] theorem State.setItem_mem (s : State) (i : Item) : (s.setItem i).mem = s.mem := by unfold State.setItem; split <;> rfl
@[simp] theorem State.setItem_gangs (s : State) (i : Item) : (s.setItem i).gangs = s.gangs := by unfold State.setItem; split <;> rfl
@[simp] theorem State.setItem_cores (s : State) (i : Item) : (s.setItem i).cores = s.cores := by unfold State.setItem; split <;> rfl
@[simp] theorem State.setItem_dies (s : State) (i : Item) : (s.setItem i).dies = s.dies := by unfold State.setItem; split <;> rfl
@[simp] theorem State.setItem_ctxs (s : State) (i : Item) : (s.setItem i).ctxs = s.ctxs := by unfold State.setItem; split <;> rfl
@[simp] theorem State.setItem_tenants (s : State) (i : Item) : (s.setItem i).tenants = s.tenants := by unfold State.setItem; split <;> rfl
@[simp] theorem State.setItem_queues (s : State) (i : Item) : (s.setItem i).queues = s.queues := by unfold State.setItem; split <;> rfl
@[simp] theorem State.setItem_insts (s : State) (i : Item) : (s.setItem i).insts = s.insts := by unfold State.setItem; split <;> rfl
@[simp] theorem State.setItem_launches (s : State) (i : Item) : (s.setItem i).launches = s.launches := by unfold State.setItem; split <;> rfl
@[simp] theorem State.setItem_places (s : State) (i : Item) : (s.setItem i).places = s.places := by unfold State.setItem; split <;> rfl
@[simp] theorem State.setItem_ops (s : State) (i : Item) : (s.setItem i).ops = s.ops := by unfold State.setItem; split <;> rfl
@[simp] theorem State.setItem_drains (s : State) (i : Item) : (s.setItem i).drains = s.drains := by unfold State.setItem; split <;> rfl
@[simp] theorem State.setItem_rstvs (s : State) (i : Item) : (s.setItem i).rstvs = s.rstvs := by unfold State.setItem; split <;> rfl
@[simp] theorem State.setItem_txns (s : State) (i : Item) : (s.setItem i).txns = s.txns := by unfold State.setItem; split <;> rfl
@[simp] theorem State.setItem_sweeps (s : State) (i : Item) : (s.setItem i).sweeps = s.sweeps := by unfold State.setItem; split <;> rfl
@[simp] theorem State.setItem_aborts (s : State) (i : Item) : (s.setItem i).aborts = s.aborts := by unfold State.setItem; split <;> rfl
@[simp] theorem State.setItem_told (s : State) (i : Item) : (s.setItem i).told = s.told := by unfold State.setItem; split <;> rfl
@[simp] theorem State.setItem_snoops (s : State) (i : Item) : (s.setItem i).snoops = s.snoops := by unfold State.setItem; split <;> rfl
@[simp] theorem State.setItem_hostFilter (s : State) (i : Item) : (s.setItem i).hostFilter = s.hostFilter := by unfold State.setItem; split <;> rfl
@[simp] theorem State.setItem_heldWr (s : State) (i : Item) : (s.setItem i).heldWr = s.heldWr := by unfold State.setItem; split <;> rfl
@[simp] theorem State.setItem_hostOrd (s : State) (i : Item) : (s.setItem i).hostOrd = s.hostOrd := by unfold State.setItem; split <;> rfl
@[simp] theorem State.setItem_pkts (s : State) (i : Item) : (s.setItem i).pkts = s.pkts := by unfold State.setItem; split <;> rfl
@[simp] theorem State.setItem_ports (s : State) (i : Item) : (s.setItem i).ports = s.ports := by unfold State.setItem; split <;> rfl
@[simp] theorem State.setItem_routes (s : State) (i : Item) : (s.setItem i).routes = s.routes := by unfold State.setItem; split <;> rfl
@[simp] theorem State.setItem_devid (s : State) (i : Item) : (s.setItem i).devid = s.devid := by unfold State.setItem; split <;> rfl
@[simp] theorem State.setItem_nextTag (s : State) (i : Item) : (s.setItem i).nextTag = s.nextTag := by unfold State.setItem; split <;> rfl
@[simp] theorem State.setItem_quarantine (s : State) (i : Item) : (s.setItem i).quarantine = s.quarantine := by unfold State.setItem; split <;> rfl
@[simp] theorem State.setItem_refused (s : State) (i : Item) : (s.setItem i).refused = s.refused := by unfold State.setItem; split <;> rfl
@[simp] theorem State.setItem_performed (s : State) (i : Item) : (s.setItem i).performed = s.performed := by unfold State.setItem; split <;> rfl
@[simp] theorem State.setItem_peerBad (s : State) (i : Item) : (s.setItem i).peerBad = s.peerBad := by unfold State.setItem; split <;> rfl
@[simp] theorem State.setItem_stale (s : State) (i : Item) : (s.setItem i).stale = s.stale := by unfold State.setItem; split <;> rfl
@[simp] theorem State.setItem_hlMode (s : State) (i : Item) : (s.setItem i).hlMode = s.hlMode := by unfold State.setItem; split <;> rfl
@[simp] theorem State.setItem_hlWidth (s : State) (i : Item) : (s.setItem i).hlWidth = s.hlWidth := by unfold State.setItem; split <;> rfl
@[simp] theorem State.setItem_hlUp (s : State) (i : Item) : (s.setItem i).hlUp = s.hlUp := by unfold State.setItem; split <;> rfl
@[simp] theorem State.setItem_hlerr (s : State) (i : Item) : (s.setItem i).hlerr = s.hlerr := by unfold State.setItem; split <;> rfl
@[simp] theorem State.setItem_fuses (s : State) (i : Item) : (s.setItem i).fuses = s.fuses := by unfold State.setItem; split <;> rfl
@[simp] theorem State.setItem_boot (s : State) (i : Item) : (s.setItem i).boot = s.boot := by unfold State.setItem; split <;> rfl
@[simp] theorem State.setItem_spdm (s : State) (i : Item) : (s.setItem i).spdm = s.spdm := by unfold State.setItem; split <;> rfl
@[simp] theorem State.setItem_out (s : State) (i : Item) : (s.setItem i).out = s.out := by unfold State.setItem; split <;> rfl

/-! ### say -/

@[simp] theorem State.say_clock (s : State) (m : OutMsg) : (s.say m).clock = s.clock := rfl
@[simp] theorem State.say_freeCtr (s : State) (m : OutMsg) : (s.say m).freeCtr = s.freeCtr := rfl
@[simp] theorem State.say_nextId (s : State) (m : OutMsg) : (s.say m).nextId = s.nextId := rfl
@[simp] theorem State.say_agenda (s : State) (m : OutMsg) : (s.say m).agenda = s.agenda := rfl
@[simp] theorem State.say_focus (s : State) (m : OutMsg) : (s.say m).focus = s.focus := rfl
@[simp] theorem State.say_wants (s : State) (m : OutMsg) : (s.say m).wants = s.wants := rfl
@[simp] theorem State.say_flaws (s : State) (m : OutMsg) : (s.say m).flaws = s.flaws := rfl
@[simp] theorem State.say_mem (s : State) (m : OutMsg) : (s.say m).mem = s.mem := rfl
@[simp] theorem State.say_gangs (s : State) (m : OutMsg) : (s.say m).gangs = s.gangs := rfl
@[simp] theorem State.say_cores (s : State) (m : OutMsg) : (s.say m).cores = s.cores := rfl
@[simp] theorem State.say_dies (s : State) (m : OutMsg) : (s.say m).dies = s.dies := rfl
@[simp] theorem State.say_ctxs (s : State) (m : OutMsg) : (s.say m).ctxs = s.ctxs := rfl
@[simp] theorem State.say_tenants (s : State) (m : OutMsg) : (s.say m).tenants = s.tenants := rfl
@[simp] theorem State.say_queues (s : State) (m : OutMsg) : (s.say m).queues = s.queues := rfl
@[simp] theorem State.say_insts (s : State) (m : OutMsg) : (s.say m).insts = s.insts := rfl
@[simp] theorem State.say_launches (s : State) (m : OutMsg) : (s.say m).launches = s.launches := rfl
@[simp] theorem State.say_places (s : State) (m : OutMsg) : (s.say m).places = s.places := rfl
@[simp] theorem State.say_ops (s : State) (m : OutMsg) : (s.say m).ops = s.ops := rfl
@[simp] theorem State.say_items (s : State) (m : OutMsg) : (s.say m).items = s.items := rfl
@[simp] theorem State.say_drains (s : State) (m : OutMsg) : (s.say m).drains = s.drains := rfl
@[simp] theorem State.say_rstvs (s : State) (m : OutMsg) : (s.say m).rstvs = s.rstvs := rfl
@[simp] theorem State.say_txns (s : State) (m : OutMsg) : (s.say m).txns = s.txns := rfl
@[simp] theorem State.say_sweeps (s : State) (m : OutMsg) : (s.say m).sweeps = s.sweeps := rfl
@[simp] theorem State.say_aborts (s : State) (m : OutMsg) : (s.say m).aborts = s.aborts := rfl
@[simp] theorem State.say_told (s : State) (m : OutMsg) : (s.say m).told = s.told := rfl
@[simp] theorem State.say_snoops (s : State) (m : OutMsg) : (s.say m).snoops = s.snoops := rfl
@[simp] theorem State.say_hostFilter (s : State) (m : OutMsg) : (s.say m).hostFilter = s.hostFilter := rfl
@[simp] theorem State.say_heldWr (s : State) (m : OutMsg) : (s.say m).heldWr = s.heldWr := rfl
@[simp] theorem State.say_hostOrd (s : State) (m : OutMsg) : (s.say m).hostOrd = s.hostOrd := rfl
@[simp] theorem State.say_pkts (s : State) (m : OutMsg) : (s.say m).pkts = s.pkts := rfl
@[simp] theorem State.say_ports (s : State) (m : OutMsg) : (s.say m).ports = s.ports := rfl
@[simp] theorem State.say_routes (s : State) (m : OutMsg) : (s.say m).routes = s.routes := rfl
@[simp] theorem State.say_devid (s : State) (m : OutMsg) : (s.say m).devid = s.devid := rfl
@[simp] theorem State.say_nextTag (s : State) (m : OutMsg) : (s.say m).nextTag = s.nextTag := rfl
@[simp] theorem State.say_quarantine (s : State) (m : OutMsg) : (s.say m).quarantine = s.quarantine := rfl
@[simp] theorem State.say_refused (s : State) (m : OutMsg) : (s.say m).refused = s.refused := rfl
@[simp] theorem State.say_performed (s : State) (m : OutMsg) : (s.say m).performed = s.performed := rfl
@[simp] theorem State.say_peerBad (s : State) (m : OutMsg) : (s.say m).peerBad = s.peerBad := rfl
@[simp] theorem State.say_stale (s : State) (m : OutMsg) : (s.say m).stale = s.stale := rfl
@[simp] theorem State.say_hlMode (s : State) (m : OutMsg) : (s.say m).hlMode = s.hlMode := rfl
@[simp] theorem State.say_hlWidth (s : State) (m : OutMsg) : (s.say m).hlWidth = s.hlWidth := rfl
@[simp] theorem State.say_hlUp (s : State) (m : OutMsg) : (s.say m).hlUp = s.hlUp := rfl
@[simp] theorem State.say_hlerr (s : State) (m : OutMsg) : (s.say m).hlerr = s.hlerr := rfl
@[simp] theorem State.say_fuses (s : State) (m : OutMsg) : (s.say m).fuses = s.fuses := rfl
@[simp] theorem State.say_boot (s : State) (m : OutMsg) : (s.say m).boot = s.boot := rfl
@[simp] theorem State.say_spdm (s : State) (m : OutMsg) : (s.say m).spdm = s.spdm := rfl

end Sys2Proof.Machine
end

