-- ==== Sys2Proof/Laws/Issue.lean ====
section
/-! SUPPORT. What the shared operations of issue do: the one door, a result of fixed latency, an accepted operation, sequential
flow. -/

namespace Sys2Proof.Machine
set_option Elab.async false

/-- Two replacements of one gang are one. -/
theorem State.onGang_setGang (s : State) (g : Gang) (u : Nat) (f : Gang → Gang) (hu : g.uid = u) (h : (f g).uid = u) :
    (s.setGang g).onGang u f = s.setGang (f g) := by
  subst hu
  simp only [State.setGang, State.onGang, List.map_map, State.mk.injEq, true_and, and_true]
  apply List.map_congr_left
  intro x _
  by_cases hx : x.uid = g.uid
  · simp [hx, h]
  · simp [hx, h]

theorem State.gang?_uid {s : State} {u : Nat} {g : Gang} (h : s.gang? u = some g) : g.uid = u := by
  simpa using List.find?_some h

theorem Gang.split?_sid {g : Gang} {n : Nat} {sp : Split} (h : g.split? n = some sp) : sp.sid = n := by
  simpa using List.find?_some h

/-- The gang that a replacement has put in place is found. -/
theorem State.gang?_setGang {s : State} {g : Gang} {u : Nat} {g' : Gang} (h : s.gang? u = some g) (h' : g'.uid = u) :
    (s.setGang g').gang? u = some g' := by
  subst h'
  simp only [State.gang?, State.setGang] at h ⊢
  generalize s.gangs = l at h ⊢
  induction l with
  | nil => simp at h
  | cons x xs ih =>
    by_cases hx : x.uid = g'.uid
    · simp [hx]
    · simp [hx] at h ⊢
      simpa using ih (by simpa using h)

@[simp] theorem Gang.issued_uid (g : Gang) (t : Nat) (c : Ctl) (f : Focus) : (g.issued t c f).uid = g.uid := rfl
@[simp] theorem Gang.incFlag_uid (g : Gang) (k : BitVec 4) (n : Nat) : (g.incFlag k n).uid = g.uid := by unfold Gang.incFlag; split <;> rfl
@[simp] theorem Gang.onSplit_uid (g : Gang) (n : Nat) (f : Split → Split) : (g.onSplit n f).uid = g.uid := rfl
@[simp] theorem Gang.incFlag_tl (g : Gang) (k : BitVec 4) (n : Nat) : (g.incFlag k n).tl = g.tl := by unfold Gang.incFlag; split <;> rfl
@[simp] theorem Gang.issued_tl (g : Gang) (n : Nat) (c : Ctl) (f : Focus) : (g.issued n c f).tl = g.tl := rfl
@[simp] theorem Gang.incFlag_pend (g : Gang) (k : BitVec 4) (n : Nat) : (g.incFlag k n).pend = g.pend := by unfold Gang.incFlag; split <;> rfl
@[simp] theorem Gang.incFlag_trap (g : Gang) (k : BitVec 4) (n : Nat) : (g.incFlag k n).trap = g.trap := by unfold Gang.incFlag; split <;> rfl
@[simp] theorem Gang.incFlag_status (g : Gang) (k : BitVec 4) (n : Nat) : (g.incFlag k n).status = g.status := by unfold Gang.incFlag; split <;> rfl
@[simp] theorem Gang.incFlag_region (g : Gang) (k : BitVec 4) (n : Nat) : (g.incFlag k n).region = g.region := by unfold Gang.incFlag; split <;> rfl
@[simp] theorem Gang.incFlag_loc (g : Gang) (k : BitVec 4) (n : Nat) : (g.incFlag k n).loc = g.loc := by unfold Gang.incFlag; split <;> rfl
@[simp] theorem Gang.incFlag_ctx (g : Gang) (k : BitVec 4) (n : Nat) : (g.incFlag k n).ctx = g.ctx := by unfold Gang.incFlag; split <;> rfl

/-- Through the door: an instruction that issues has its effect, and the split goes on to the successor unless it moved. -/
theorem issue_next {i : Instr} {c : Ctl} {s : State} {f : Focus} {g : Gang} {sp : Split} (h : Issues i c s f g sp)
    (body : State → Gang → Split → W64 → State) :
    issue i c s body = .next ((body (s.setGang (g.issued s.clock c f)) (g.issued s.clock c f) sp f.pc).advance f.uid f.sid f.pc) := by
  have hg := State.gang?_uid h.gang
  have hs := Gang.split?_sid h.split
  have h1 : (!f.second && !(g.status == .active && g.trap.isNone && g.unwaiting && g.ready s.clock c)) = false := by
    rcases h.awaits with h2 | ⟨h2, h3⟩ <;> simp [h.active, h.noTrap, *]
  have h4 : (!f.second && waitsAtIssue s g sp f.pc i) = false := by rcases h.noWait with h2 | h2 <;> simp [h2]
  have h5 : (isBarrier i && g.diverged) = false := by
    cases hb : isBarrier i
    · rfl
    · simp [h.whole hb]
  simp only [issue, h.focus, h.gang, h.split, h1, h.noFab, h.legal, h4, h5, h.sound, Gang.issued]
  rw [← hg, ← hs]
  rfl

/-- Sequential flow of a split, in the words of the statements. -/
theorem Split.flow_eq (sp : Split) (tl : Nat) (pc : W64) : sp.flow tl pc = sp.stepped tl pc := by
  unfold Split.flow Split.stepped
  by_cases h : tl = 0 ∧ sp.depth ≠ 0 ∧ succPc pc = sp.rpc
  · have h' : (tl == 0 && sp.depth != 0 && succPc pc == sp.rpc) = true := by simpa [and_assoc] using h
    rw [if_pos h]
    simp only [h', Bool.not_true, Bool.false_and, if_true, Bool.false_eq_true, if_false]
  · have h' : (tl == 0 && sp.depth != 0 && succPc pc == sp.rpc) = false := by
      rw [Bool.eq_false_iff]; intro e; exact h (by simpa [and_assoc] using e)
    rw [if_neg h]
    simp only [h', Bool.not_false, Bool.true_and, Bool.false_eq_true, if_false]

/-- Sequential flow of a gang that has just been put in place. -/
theorem State.advance_setGang {s : State} {f : Focus} {g : Gang} (hf : s.focus = some f) (hm : f.moved = false) (hu : g.uid = f.uid)
    (ht : g.trap = none) (hp : g.status ≠ .parkedFault) :
    (s.setGang g).advance f.uid f.sid f.pc = s.setGang (g.onSplit f.sid fun x => x.stepped g.tl f.pc) := by
  simp only [State.advance, State.setGang_focus, hf, Option.map_some, Option.getD_some, hm]
  rw [if_neg (by simp), State.onGang_setGang s g f.uid _ hu (by split <;> simp [hu])]
  have hp' : (g.status == GStatus.parkedFault) = false := by simpa using hp
  simp only [ht, Option.isSome_none, Bool.false_or, hp', Split.flow_eq]
  rfl

/-- A result of fixed latency, then sequential flow. -/
theorem State.fixed_advance {s : State} {f : Focus} {g : Gang} {c : Ctl} {lat : Nat} {ws : List Wr} (hf : s.focus = some f)
    (hm : f.moved = false) (hu : g.uid = f.uid) (ha : g.status = .active) (ht : g.trap = none) :
    ((s.setGang (g.issued s.clock c f)).fixed f.uid lat c ws).advance f.uid f.sid f.pc = s.afterFixed f g lat c ws := by
  rw [State.fixed, State.onGang_setGang s _ f.uid _ (by simp [hu]) (by simp [hu]),
    State.advance_setGang hf hm (by simp [hu]) (by simpa [Gang.issued] using ht) (by simp [Gang.issued, ha])]
  simp only [State.afterFixed, State.setGang_clock, Gang.incFlag_tl, Gang.issued_tl]
  rfl

/-- An instruction that issues with writes of fixed latency completes its step so. -/
theorem issue_fixed {i : Instr} {c : Ctl} {s : State} {f : Focus} {g : Gang} {sp : Split} (h : Issues i c s f g sp)
    {body : State → Gang → Split → W64 → State} {lat : Nat} {ws : List Wr}
    (hb : body (s.setGang (g.issued s.clock c f)) (g.issued s.clock c f) sp f.pc =
      (s.setGang (g.issued s.clock c f)).fixed g.uid lat c ws) :
    issue i c s body = .next (s.afterFixed f g lat c ws) := by
  rw [issue_next h, hb, State.gang?_uid h.gang, State.fixed_advance h.focus h.stays (State.gang?_uid h.gang) h.active h.noTrap]

/-- Sequential flow does not look at the operations. -/
theorem State.advance_ops (s : State) (ops : List Op) (n u sid : Nat) (pc : W64) :
    ({ s with ops := ops, nextId := n } : State).advance u sid pc = { s.advance u sid pc with ops := ops, nextId := n } := by
  unfold State.advance
  dsimp only
  split <;> rfl

/-- An instruction that issues and is accepted completes its step so. -/
theorem issue_accept {i : Instr} {c : Ctl} {s : State} {f : Focus} {g : Gang} {sp : Split} (h : Issues i c s f g sp)
    {body : State → Gang → Split → W64 → State} {kind : OpKind}
    (hb : body (s.setGang (g.issued s.clock c f)) (g.issued s.clock c f) sp f.pc =
      ((s.setGang (g.issued s.clock c f)).accept (g.issued s.clock c f) sp c kind).2) :
    issue i c s body = .next (s.afterAccept f g c kind) := by
  have hu := State.gang?_uid h.gang
  have hs := Gang.split?_sid h.split
  have hp : s.focusPc = f.pc := by simp [State.focusPc, h.focus]
  rw [issue_next h, hb]
  have e : ((s.setGang (g.issued s.clock c f)).accept (g.issued s.clock c f) sp c kind).2 =
      { (s.setGang (g.issued s.clock c f)).onGang f.uid (fun g => g.incFlag c.setf) with
        ops := s.ops ++ [s.opOf f g c kind], nextId := s.nextId + 1 } := by
    unfold State.opOf
    rw [← hp, ← hs, ← hu]
    rfl
  rw [e, State.onGang_setGang s _ f.uid _ (by simp [hu]) (by simp [hu]), State.advance_ops,
    State.advance_setGang h.focus h.stays (by simp [hu]) (by simpa [Gang.issued] using h.noTrap) (by simp [Gang.issued, h.active])]
  simp only [State.afterAccept, Gang.incFlag_tl, Gang.issued_tl]

end Sys2Proof.Machine
end

