-- ==== Sys2Proof/Laws/Mem.lean ====
section
/-! SUPPORT. Byte memories: a read after a write, and the canonical form, which every memory operation keeps. -/

namespace Sys2Proof.Machine
set_option Elab.async false

/-- A read gives the byte last written there. -/
theorem memRead_memWrite_self (m : List Host.Cell) (x : Nat) (v : Byte) : Memory.wf m = true → memRead (memWrite m x v) x = v := by
  suffices h : ∀ (m : List Host.Cell) (lo : Option Nat), memWfFrom lo m = true → memRead (memWrite m x v) x = v from h m none
  intro m
  induction m with
  | nil =>
    intro _ _
    by_cases hv : v = memBlank <;> simp [memWrite, memRead, hv]
  | cons c m ih =>
    intro lo hw
    obtain ⟨a, b⟩ := c
    have hm : memWfFrom (some a) m = true := by cases lo <;> simp_all [memWfFrom]
    rcases Nat.lt_trichotomy x a with h | h | h
    · by_cases hv : v = memBlank
      · have : a ≠ x := by omega
        simp [memWrite, h, hv, memRead, this]
      · simp [memWrite, h, hv, memRead]
    · subst h
      by_cases hv : v = memBlank
      · subst hv
        cases m with
        | nil => simp [memWrite, memRead]
        | cons d m =>
          obtain ⟨a', b'⟩ := d
          have h1 : x < a' := by simp [memWfFrom] at hm; omega
          have h2 : a' ≠ x := by omega
          simp [memWrite, memRead, h1, h2]
      · simp [memWrite, memRead, hv]
    · have h1 : ¬ x < a := by omega
      have h2 : ¬ x = a := by omega
      have h3 : ¬ a = x := by omega
      simp [memWrite, memRead, h1, h2, h3, ih _ hm]

/-- Below every listed address a memory reads blank. -/
theorem memRead_below (m : List Host.Cell) (lo x : Nat) (hw : memWfFrom (some lo) m = true) (hx : x ≤ lo) : memRead m x = memBlank := by
  cases m with
  | nil => rfl
  | cons c m =>
    obtain ⟨a, b⟩ := c
    simp [memWfFrom] at hw
    have h1 : a ≠ x := by omega
    have h2 : x < a := by omega
    simp [memRead, h1, h2]

/-- A write leaves every other byte alone. -/
theorem memRead_memWrite_other (m : List Host.Cell) (x y : Nat) (v : Byte) (hxy : y ≠ x) :
    Memory.wf m = true → memRead (memWrite m x v) y = memRead m y := by
  suffices h : ∀ (m : List Host.Cell) (lo : Option Nat), memWfFrom lo m = true → memRead (memWrite m x v) y = memRead m y from h m none
  intro m
  induction m with
  | nil =>
    intro _ _
    by_cases hv : v = memBlank
    · simp [memWrite, hv]
    · have : ¬ x = y := fun h => hxy h.symm
      simp [memWrite, hv, memRead, this]
  | cons c m ih =>
    intro lo hw
    obtain ⟨a, b⟩ := c
    have hm : memWfFrom (some a) m = true := by cases lo <;> simp_all [memWfFrom]
    have hxy' : ¬ x = y := fun h => hxy h.symm
    rcases Nat.lt_trichotomy x a with h | h | h
    · by_cases hv : v = memBlank
      · simp [memWrite, h, hv]
      · by_cases hy : y < x
        · have h1 : ¬ a = y := by omega
          have h2 : y < a := by omega
          simp [memWrite, h, hv, memRead, hxy', hy, h1, h2]
        · simp [memWrite, h, hv, memRead, hxy', hy]
    · subst h
      by_cases hv : v = memBlank
      · by_cases hy : y < x
        · simp [memWrite, hv, memRead, hxy', hy, memRead_below m x y hm (by omega)]
        · simp [memWrite, hv, memRead, hxy', hy]
      · simp [memWrite, hv, memRead, hxy']
    · have h1 : ¬ x < a := by omega
      have h2 : ¬ x = a := by omega
      simp [memWrite, memRead, h1, h2, ih _ hm]

/-- A lower bound may be lowered. -/
theorem memWfFrom_mono (m : List Host.Cell) (a lo : Nat) (h : memWfFrom (some a) m = true) (hl : lo ≤ a) : memWfFrom (some lo) m = true := by
  cases m with
  | nil => rfl
  | cons c m =>
    obtain ⟨x, b⟩ := c
    simp [memWfFrom] at h ⊢
    exact ⟨⟨by omega, h.1.2⟩, h.2⟩

/-- A lower bound may be dropped. -/
theorem memWfFrom_none (m : List Host.Cell) (lo : Nat) (h : memWfFrom (some lo) m = true) : memWfFrom none m = true := by
  cases m with
  | nil => rfl
  | cons c m =>
    obtain ⟨x, b⟩ := c
    simp [memWfFrom] at h ⊢
    exact ⟨h.1.2, h.2⟩

/-- Writing above a lower bound keeps the form above it. -/
theorem memWrite_wfFrom (m : List Host.Cell) (lo x : Nat) (v : Byte) (hx : lo < x) :
    memWfFrom (some lo) m = true → memWfFrom (some lo) (memWrite m x v) = true := by
  induction m generalizing lo with
  | nil =>
    intro _
    by_cases hv : v = memBlank <;> simp [memWrite, memWfFrom, hv, hx]
  | cons c m ih =>
    obtain ⟨a, b⟩ := c
    intro hw
    simp [memWfFrom] at hw
    obtain ⟨⟨ha, hb⟩, hm⟩ := hw
    rcases Nat.lt_trichotomy x a with h | h | h
    · by_cases hv : v = memBlank <;> simp [memWrite, memWfFrom, h, hv, ha, hb, hm, hx]
    · subst h
      by_cases hv : v = memBlank
      · simp [memWrite, hv, memWfFrom_mono m x lo hm (by omega)]
      · simp [memWrite, memWfFrom, hv, ha, hm]
    · have h1 : ¬ x < a := by omega
      have h2 : ¬ x = a := by omega
      simp [memWrite, memWfFrom, h1, h2, ha, hb, ih a h hm]

/-- A write keeps the canonical form. -/
theorem memWrite_wf (m : List Host.Cell) (x : Nat) (v : Byte) (h : Memory.wf m = true) : Memory.wf (memWrite m x v) = true := by
  unfold Memory.wf at *
  cases m with
  | nil => by_cases hv : v = memBlank <;> simp [memWrite, memWfFrom, hv]
  | cons c m =>
    obtain ⟨a, b⟩ := c
    simp [memWfFrom] at h
    rcases Nat.lt_trichotomy x a with h1 | h1 | h1
    · by_cases hv : v = memBlank <;> simp [memWrite, memWfFrom, h1, hv, h.1, h.2]
    · subst h1
      by_cases hv : v = memBlank
      · simp [memWrite, hv, memWfFrom_none m x h.2]
      · simp [memWrite, memWfFrom, hv, h.2]
    · have h2 : ¬ x < a := by omega
      have h3 : ¬ x = a := by omega
      simp [memWrite, memWfFrom, h2, h3, h.1, memWrite_wfFrom m a x v h1 h.2]

/-- So does a write of several bytes. -/
theorem memWriteN_wf (bs : List Byte) (m : List Host.Cell) (a : Nat) (h : Memory.wf m = true) : Memory.wf (memWriteN m a bs) = true := by
  induction bs generalizing m a with
  | nil => exact h
  | cons b bs ih => exact ih _ _ (memWrite_wf m a b h)

/-- And a fold of writes at chosen addresses. -/
theorem foldl_memWrite_wf {β : Type} (f : β → Nat) (g : β → Byte) (l : List β) (m : List Host.Cell) (h : Memory.wf m = true) :
    Memory.wf (l.foldl (fun m b => memWrite m (f b) (g b)) m) = true := by
  induction l generalizing m with
  | nil => exact h
  | cons b l ih => exact ih _ (memWrite_wf m _ _ h)

/-- A write of several bytes leaves every byte outside them alone. -/
theorem memRead_memWriteN_other (bs : List Byte) (m : List Host.Cell) (a y : Nat) (h : Memory.wf m = true) (hy : y < a ∨ a + bs.length ≤ y) :
    memRead (memWriteN m a bs) y = memRead m y := by
  induction bs generalizing m a with
  | nil => rfl
  | cons b bs ih =>
    simp at hy
    rw [memWriteN, ih _ _ (memWrite_wf m a b h) (by omega), memRead_memWrite_other m a y b (by omega) h]

end Sys2Proof.Machine
end

