-- ==== Sys2Proof/Laws/PerInstr.lean ====
section
/-! SUPPORT. Statements about every instruction as syntax, one lemma per constructor: the word of a well-formed instruction decodes to that
instruction, and an event has no word (R158, R166). -/

namespace Sys2Proof.Laws.RoundTrip
set_option Elab.async false

/-- The word of `i`, if it has one, decodes to `i`. -/
def Statement (i : Instr) : Prop := i.wf = true → ∀ w, encode i = some w → decodeWord w = .ok i

theorem nop (c : Ctl) : Statement (.nop c) := by
  intro h w hw
  refine decodeWord_of_fields ?_ h hw
  rw [← Option.some.inj hw, Word96.ofBits_pack]
  simp only [decFields, BitVec.toNat_ofNat, Nat.reducePow, Nat.reduceMod, decMisc]

theorem pause (c : Ctl) (n : BitVec 18) : Statement (.pause c n) := by
  intro h w hw
  refine decodeWord_of_fields ?_ h hw
  rw [← Option.some.inj hw, Word96.ofBits_pack]
  simp only [decFields, FmtR.ofBody_body, BitVec.toNat_ofNat, Nat.reducePow, Nat.reduceMod, decMisc]

theorem waitf (c : Ctl) (mask : BitVec 12) (t : BitVec 6) : Statement (.waitf c mask t) := by
  intro h w hw
  refine decodeWord_of_fields ?_ h hw
  rw [← Option.some.inj hw, Word96.ofBits_pack]
  simp only [decFields, FmtR.ofBody_body, BitVec.toNat_ofNat, Nat.reducePow, Nat.reduceMod, decMisc, field_tm0, field_tm1]

theorem exit (c : Ctl) : Statement (.exit c) := by
  intro h w hw
  refine decodeWord_of_fields ?_ h hw
  rw [← Option.some.inj hw, Word96.ofBits_pack]
  simp only [decFields, BitVec.toNat_ofNat, Nat.reducePow, Nat.reduceMod, decMisc]

theorem trap (c : Ctl) (code : BitVec 16) : Statement (.trap c code) := by
  intro h w hw
  refine decodeWord_of_fields ?_ h hw
  rw [← Option.some.inj hw, Word96.ofBits_pack]
  simp only [decFields, FmtR.ofBody_body, BitVec.toNat_ofNat, Nat.reducePow, Nat.reduceMod, decMisc, field_code]

theorem brk (c : Ctl) (code : BitVec 16) : Statement (.brk c code) := by
  intro h w hw
  refine decodeWord_of_fields ?_ h hw
  rw [← Option.some.inj hw, Word96.ofBits_pack]
  simp only [decFields, FmtR.ofBody_body, BitVec.toNat_ofNat, Nat.reducePow, Nat.reduceMod, decMisc, field_code]

theorem sget (c : Ctl) (num : BitVec 4) (d : VR) : Statement (.sget c num d) := by
  intro h w hw
  refine decodeWord_of_fields ?_ h hw
  rw [← Option.some.inj hw, Word96.ofBits_pack]
  simp only [decFields, FmtR.ofBody_body, BitVec.toNat_ofNat, Nat.reducePow, Nat.reduceMod, decMisc, field_n4]

theorem setfmt (c : Ctl) (v : BitVec 16) : Statement (.setfmt c v) := by
  intro h w hw
  refine decodeWord_of_fields ?_ h hw
  rw [← Option.some.inj hw, Word96.ofBits_pack]
  simp only [decFields, FmtR.ofBody_body, BitVec.toNat_ofNat, Nat.reducePow, Nat.reduceMod, decMisc, field_code]

theorem getfmt (c : Ctl) (d : SR) : Statement (.getfmt c d) := by
  intro h w hw
  refine decodeWord_of_fields ?_ h hw
  rw [← Option.some.inj hw, Word96.ofBits_pack]
  simp only [decFields, FmtR.ofBody_body, BitVec.toNat_ofNat, Nat.reducePow, Nat.reduceMod, decMisc, srOf_ofSr]

theorem setexec (c : Ctl) (k : KR) : Statement (.setexec c k) := by
  intro h w hw
  refine decodeWord_of_fields ?_ h hw
  rw [← Option.some.inj hw, Word96.ofBits_pack]
  simp only [decFields, FmtR.ofBody_body, BitVec.toNat_ofNat, Nat.reducePow, Nat.reduceMod, decMisc, krOf_ofKr]

theorem getexec (c : Ctl) (k : KR) : Statement (.getexec c k) := by
  intro h w hw
  refine decodeWord_of_fields ?_ h hw
  rw [← Option.some.inj hw, Word96.ofBits_pack]
  simp only [decFields, FmtR.ofBody_body, BitVec.toNat_ofNat, Nat.reducePow, Nat.reduceMod, decMisc, krOf_ofKr]

theorem sset (c : Ctl) (num : BitVec 4) (a : SR) : Statement (.sset c num a) := by
  intro h w hw
  refine decodeWord_of_fields ?_ h hw
  rw [← Option.some.inj hw, Word96.ofBits_pack]
  simp only [decFields, FmtR.ofBody_body, BitVec.toNat_ofNat, Nat.reducePow, Nat.reduceMod, decMisc, srOf_ofSr, field_n4]

theorem eret (c : Ctl) : Statement (.eret c) := by
  intro h w hw
  refine decodeWord_of_fields ?_ h hw
  rw [← Option.some.inj hw, Word96.ofBits_pack]
  simp only [decFields, BitVec.toNat_ofNat, Nat.reducePow, Nat.reduceMod, decSys]

theorem sysget (c : Ctl) (num : BitVec 12) (d : VR) : Statement (.sysget c num d) := by
  intro h w hw
  refine decodeWord_of_fields ?_ h hw
  rw [← Option.some.inj hw, Word96.ofBits_pack]
  simp only [decFields, FmtR.ofBody_body, BitVec.toNat_ofNat, Nat.reducePow, Nat.reduceMod, decSys, field_n12]

theorem sysset (c : Ctl) (num : BitVec 12) (a : VR) : Statement (.sysset c num a) := by
  intro h w hw
  refine decodeWord_of_fields ?_ h hw
  rw [← Option.some.inj hw, Word96.ofBits_pack]
  simp only [decFields, FmtR.ofBody_body, BitVec.toNat_ofNat, Nat.reducePow, Nat.reduceMod, decSys, field_n12]

theorem tlbinv (c : Ctl) (a : SR) (b : SR) : Statement (.tlbinv c a b) := by
  intro h w hw
  refine decodeWord_of_fields ?_ h hw
  rw [← Option.some.inj hw, Word96.ofBits_pack]
  simp only [decFields, FmtR.ofBody_body, BitVec.toNat_ofNat, Nat.reducePow, Nat.reduceMod, decSys, srOf_ofSr]

theorem kill (c : Ctl) (code : BitVec 16) : Statement (.kill c code) := by
  intro h w hw
  refine decodeWord_of_fields ?_ h hw
  rw [← Option.some.inj hw, Word96.ofBits_pack]
  simp only [decFields, FmtR.ofBody_body, BitVec.toNat_ofNat, Nat.reducePow, Nat.reduceMod, decSys, field_code]

theorem idle (c : Ctl) (a : SR) : Statement (.idle c a) := by
  intro h w hw
  refine decodeWord_of_fields ?_ h hw
  rw [← Option.some.inj hw, Word96.ofBits_pack]
  simp only [decFields, FmtR.ofBody_body, BitVec.toNat_ofNat, Nat.reducePow, Nat.reduceMod, decSys, srOf_ofSr]

theorem pgpool (c : Ctl) (d : SR) (a : SR) : Statement (.pgpool c d a) := by
  intro h w hw
  refine decodeWord_of_fields ?_ h hw
  rw [← Option.some.inj hw, Word96.ofBits_pack]
  simp only [decFields, FmtR.ofBody_body, BitVec.toNat_ofNat, Nat.reducePow, Nat.reduceMod, decSys, srOf_ofSr]

theorem sadd (c : Ctl) (d a b : SR) : Statement (.sadd c d a b) := by
  intro h w hw
  refine decodeWord_of_fields ?_ h hw
  rw [← Option.some.inj hw, Word96.ofBits_pack]
  simp only [decFields, FmtR.ofBody_body, BitVec.toNat_ofNat, Nat.reducePow, Nat.reduceMod, decSalu, srOf_ofSr]

theorem ssub (c : Ctl) (d a b : SR) : Statement (.ssub c d a b) := by
  intro h w hw
  refine decodeWord_of_fields ?_ h hw
  rw [← Option.some.inj hw, Word96.ofBits_pack]
  simp only [decFields, FmtR.ofBody_body, BitVec.toNat_ofNat, Nat.reducePow, Nat.reduceMod, decSalu, srOf_ofSr]

theorem smul (c : Ctl) (d a b : SR) : Statement (.smul c d a b) := by
  intro h w hw
  refine decodeWord_of_fields ?_ h hw
  rw [← Option.some.inj hw, Word96.ofBits_pack]
  simp only [decFields, FmtR.ofBody_body, BitVec.toNat_ofNat, Nat.reducePow, Nat.reduceMod, decSalu, srOf_ofSr]

theorem smulhi (c : Ctl) (d a b : SR) : Statement (.smulhi c d a b) := by
  intro h w hw
  refine decodeWord_of_fields ?_ h hw
  rw [← Option.some.inj hw, Word96.ofBits_pack]
  simp only [decFields, FmtR.ofBody_body, BitVec.toNat_ofNat, Nat.reducePow, Nat.reduceMod, decSalu, srOf_ofSr]

theorem smulhu (c : Ctl) (d a b : SR) : Statement (.smulhu c d a b) := by
  intro h w hw
  refine decodeWord_of_fields ?_ h hw
  rw [← Option.some.inj hw, Word96.ofBits_pack]
  simp only [decFields, FmtR.ofBody_body, BitVec.toNat_ofNat, Nat.reducePow, Nat.reduceMod, decSalu, srOf_ofSr]

theorem sdiv (c : Ctl) (d a b : SR) : Statement (.sdiv c d a b) := by
  intro h w hw
  refine decodeWord_of_fields ?_ h hw
  rw [← Option.some.inj hw, Word96.ofBits_pack]
  simp only [decFields, FmtR.ofBody_body, BitVec.toNat_ofNat, Nat.reducePow, Nat.reduceMod, decSalu, srOf_ofSr]

theorem sdivu (c : Ctl) (d a b : SR) : Statement (.sdivu c d a b) := by
  intro h w hw
  refine decodeWord_of_fields ?_ h hw
  rw [← Option.some.inj hw, Word96.ofBits_pack]
  simp only [decFields, FmtR.ofBody_body, BitVec.toNat_ofNat, Nat.reducePow, Nat.reduceMod, decSalu, srOf_ofSr]

theorem srem (c : Ctl) (d a b : SR) : Statement (.srem c d a b) := by
  intro h w hw
  refine decodeWord_of_fields ?_ h hw
  rw [← Option.some.inj hw, Word96.ofBits_pack]
  simp only [decFields, FmtR.ofBody_body, BitVec.toNat_ofNat, Nat.reducePow, Nat.reduceMod, decSalu, srOf_ofSr]

theorem sremu (c : Ctl) (d a b : SR) : Statement (.sremu c d a b) := by
  intro h w hw
  refine decodeWord_of_fields ?_ h hw
  rw [← Option.some.inj hw, Word96.ofBits_pack]
  simp only [decFields, FmtR.ofBody_body, BitVec.toNat_ofNat, Nat.reducePow, Nat.reduceMod, decSalu, srOf_ofSr]

theorem sand (c : Ctl) (d a b : SR) : Statement (.sand c d a b) := by
  intro h w hw
  refine decodeWord_of_fields ?_ h hw
  rw [← Option.some.inj hw, Word96.ofBits_pack]
  simp only [decFields, FmtR.ofBody_body, BitVec.toNat_ofNat, Nat.reducePow, Nat.reduceMod, decSalu, srOf_ofSr]

theorem sor (c : Ctl) (d a b : SR) : Statement (.sor c d a b) := by
  intro h w hw
  refine decodeWord_of_fields ?_ h hw
  rw [← Option.some.inj hw, Word96.ofBits_pack]
  simp only [decFields, FmtR.ofBody_body, BitVec.toNat_ofNat, Nat.reducePow, Nat.reduceMod, decSalu, srOf_ofSr]

theorem sxor (c : Ctl) (d a b : SR) : Statement (.sxor c d a b) := by
  intro h w hw
  refine decodeWord_of_fields ?_ h hw
  rw [← Option.some.inj hw, Word96.ofBits_pack]
  simp only [decFields, FmtR.ofBody_body, BitVec.toNat_ofNat, Nat.reducePow, Nat.reduceMod, decSalu, srOf_ofSr]

theorem sandn (c : Ctl) (d a b : SR) : Statement (.sandn c d a b) := by
  intro h w hw
  refine decodeWord_of_fields ?_ h hw
  rw [← Option.some.inj hw, Word96.ofBits_pack]
  simp only [decFields, FmtR.ofBody_body, BitVec.toNat_ofNat, Nat.reducePow, Nat.reduceMod, decSalu, srOf_ofSr]

theorem sshl (c : Ctl) (d a b : SR) : Statement (.sshl c d a b) := by
  intro h w hw
  refine decodeWord_of_fields ?_ h hw
  rw [← Option.some.inj hw, Word96.ofBits_pack]
  simp only [decFields, FmtR.ofBody_body, BitVec.toNat_ofNat, Nat.reducePow, Nat.reduceMod, decSalu, srOf_ofSr]

theorem sshr (c : Ctl) (d a b : SR) : Statement (.sshr c d a b) := by
  intro h w hw
  refine decodeWord_of_fields ?_ h hw
  rw [← Option.some.inj hw, Word96.ofBits_pack]
  simp only [decFields, FmtR.ofBody_body, BitVec.toNat_ofNat, Nat.reducePow, Nat.reduceMod, decSalu, srOf_ofSr]

theorem ssar (c : Ctl) (d a b : SR) : Statement (.ssar c d a b) := by
  intro h w hw
  refine decodeWord_of_fields ?_ h hw
  rw [← Option.some.inj hw, Word96.ofBits_pack]
  simp only [decFields, FmtR.ofBody_body, BitVec.toNat_ofNat, Nat.reducePow, Nat.reduceMod, decSalu, srOf_ofSr]

theorem smin (c : Ctl) (d a b : SR) : Statement (.smin c d a b) := by
  intro h w hw
  refine decodeWord_of_fields ?_ h hw
  rw [← Option.some.inj hw, Word96.ofBits_pack]
  simp only [decFields, FmtR.ofBody_body, BitVec.toNat_ofNat, Nat.reducePow, Nat.reduceMod, decSalu, srOf_ofSr]

theorem smax (c : Ctl) (d a b : SR) : Statement (.smax c d a b) := by
  intro h w hw
  refine decodeWord_of_fields ?_ h hw
  rw [← Option.some.inj hw, Word96.ofBits_pack]
  simp only [decFields, FmtR.ofBody_body, BitVec.toNat_ofNat, Nat.reducePow, Nat.reduceMod, decSalu, srOf_ofSr]

theorem sminu (c : Ctl) (d a b : SR) : Statement (.sminu c d a b) := by
  intro h w hw
  refine decodeWord_of_fields ?_ h hw
  rw [← Option.some.inj hw, Word96.ofBits_pack]
  simp only [decFields, FmtR.ofBody_body, BitVec.toNat_ofNat, Nat.reducePow, Nat.reduceMod, decSalu, srOf_ofSr]

theorem smaxu (c : Ctl) (d a b : SR) : Statement (.smaxu c d a b) := by
  intro h w hw
  refine decodeWord_of_fields ?_ h hw
  rw [← Option.some.inj hw, Word96.ofBits_pack]
  simp only [decFields, FmtR.ofBody_body, BitVec.toNat_ofNat, Nat.reducePow, Nat.reduceMod, decSalu, srOf_ofSr]

theorem spopc (c : Ctl) (d a : SR) : Statement (.spopc c d a) := by
  intro h w hw
  refine decodeWord_of_fields ?_ h hw
  rw [← Option.some.inj hw, Word96.ofBits_pack]
  simp only [decFields, FmtR.ofBody_body, BitVec.toNat_ofNat, Nat.reducePow, Nat.reduceMod, decSalu, srOf_ofSr]

theorem sclz (c : Ctl) (d a : SR) : Statement (.sclz c d a) := by
  intro h w hw
  refine decodeWord_of_fields ?_ h hw
  rw [← Option.some.inj hw, Word96.ofBits_pack]
  simp only [decFields, FmtR.ofBody_body, BitVec.toNat_ofNat, Nat.reducePow, Nat.reduceMod, decSalu, srOf_ofSr]

theorem sctz (c : Ctl) (d a : SR) : Statement (.sctz c d a) := by
  intro h w hw
  refine decodeWord_of_fields ?_ h hw
  rw [← Option.some.inj hw, Word96.ofBits_pack]
  simp only [decFields, FmtR.ofBody_body, BitVec.toNat_ofNat, Nat.reducePow, Nat.reduceMod, decSalu, srOf_ofSr]

theorem smov (c : Ctl) (d a : SR) : Statement (.smov c d a) := by
  intro h w hw
  refine decodeWord_of_fields ?_ h hw
  rw [← Option.some.inj hw, Word96.ofBits_pack]
  simp only [decFields, FmtR.ofBody_body, BitVec.toNat_ofNat, Nat.reducePow, Nat.reduceMod, decSalu, srOf_ofSr]

theorem ssel (c : Ctl) (d a b : SR) (k : KR) : Statement (.ssel c d a b k) := by
  intro h w hw
  refine decodeWord_of_fields ?_ h hw
  rw [← Option.some.inj hw, Word96.ofBits_pack]
  simp only [decFields, FmtR.ofBody_body, BitVec.toNat_ofNat, Nat.reducePow, Nat.reduceMod, decSalu, srOf_ofSr, krOf_ofKr]

theorem salui (c : Ctl) (f : SFn) (d a : SR) (imm : BitVec 18) : Statement (.salui c f d a imm) := by
  intro h w hw
  refine decodeWord_of_fields ?_ h hw
  rw [← Option.some.inj hw, Word96.ofBits_pack]
  simp only [decFields, FmtR.ofBody_body, BitVec.toNat_ofNat, Nat.reducePow, Nat.reduceMod, byCode, srOf_ofSr, SFn.code_mod, SFn.ofCode_code]

theorem scmp (c : Ctl) (cond : ICond) (k : KR) (a b : SR) : Statement (.scmp c cond k a b) := by
  intro h w hw
  refine decodeWord_of_fields ?_ h hw
  rw [← Option.some.inj hw, Word96.ofBits_pack]
  simp only [decFields, FmtR.ofBody_body, BitVec.toNat_ofNat, Nat.reducePow, Nat.reduceMod, byCode, srOf_ofSr, krOf_ofKr, ICond.code_mod, ICond.ofCode_code]

theorem scmpi (c : Ctl) (cond : ICond) (k : KR) (a : SR) (imm : BitVec 18) : Statement (.scmpi c cond k a imm) := by
  intro h w hw
  refine decodeWord_of_fields ?_ h hw
  rw [← Option.some.inj hw, Word96.ofBits_pack]
  simp only [decFields, FmtR.ofBody_body, BitVec.toNat_ofNat, Nat.reducePow, Nat.reduceMod, byCode, srOf_ofSr, krOf_ofKr, ICond.code_mod, ICond.ofCode_code]

theorem smovi (c : Ctl) (d : SR) (imm : BitVec 32) : Statement (.smovi c d imm) := by
  intro h w hw
  refine decodeWord_of_fields ?_ h hw
  rw [← Option.some.inj hw, Word96.ofBits_pack]
  simp only [decFields, BitVec.toNat_ofNat, Nat.reducePow, Nat.reduceMod, decMovi, srOf_ofSr, field_movi0, field_movi1]

theorem smoviz (c : Ctl) (d : SR) (imm : BitVec 32) : Statement (.smoviz c d imm) := by
  intro h w hw
  refine decodeWord_of_fields ?_ h hw
  rw [← Option.some.inj hw, Word96.ofBits_pack]
  simp only [decFields, BitVec.toNat_ofNat, Nat.reducePow, Nat.reduceMod, decMovi, srOf_ofSr, field_movi0, field_movi1]

theorem smovhi (c : Ctl) (d : SR) (imm : BitVec 32) : Statement (.smovhi c d imm) := by
  intro h w hw
  refine decodeWord_of_fields ?_ h hw
  rw [← Option.some.inj hw, Word96.ofBits_pack]
  simp only [decFields, BitVec.toNat_ofNat, Nat.reducePow, Nat.reduceMod, decMovi, srOf_ofSr, field_movi0, field_movi1]

theorem sld (c : Ctl) (d : SR) (m : MemOp) : Statement (.sld c d m) := by
  intro h w hw
  refine decodeWord_of_fields ?_ h hw
  rw [← Option.some.inj hw, Word96.ofBits_pack]
  simp only [decFields, FmtR.ofBody_body, BitVec.toNat_ofNat, Nat.reducePow, Nat.reduceMod, decSmem, srOf_ofSr, MemOp.ofR_toR, MemOp.toR_dst]

theorem sst (c : Ctl) (d : SR) (m : MemOp) : Statement (.sst c d m) := by
  intro h w hw
  refine decodeWord_of_fields ?_ h hw
  rw [← Option.some.inj hw, Word96.ofBits_pack]
  simp only [decFields, FmtR.ofBody_body, BitVec.toNat_ofNat, Nat.reducePow, Nat.reduceMod, decSmem, srOf_ofSr, MemOp.ofR_toR, MemOp.toR_dst]

theorem vadd (c : Ctl) (p : Pred) (w : BitVec 2) (d a b : VR) : Statement (.vadd c p w d a b) := by
  intro h w hw
  refine decodeWord_of_fields ?_ h hw
  rw [← Option.some.inj hw, Word96.ofBits_pack]
  simp only [decFields, FmtR.ofBody_body, BitVec.toNat_ofNat, Nat.reducePow, Nat.reduceMod, decValu, field_w]

theorem vsub (c : Ctl) (p : Pred) (w : BitVec 2) (d a b : VR) : Statement (.vsub c p w d a b) := by
  intro h w hw
  refine decodeWord_of_fields ?_ h hw
  rw [← Option.some.inj hw, Word96.ofBits_pack]
  simp only [decFields, FmtR.ofBody_body, BitVec.toNat_ofNat, Nat.reducePow, Nat.reduceMod, decValu, field_w]

theorem vmul (c : Ctl) (p : Pred) (w : BitVec 2) (d a b : VR) : Statement (.vmul c p w d a b) := by
  intro h w hw
  refine decodeWord_of_fields ?_ h hw
  rw [← Option.some.inj hw, Word96.ofBits_pack]
  simp only [decFields, FmtR.ofBody_body, BitVec.toNat_ofNat, Nat.reducePow, Nat.reduceMod, decValu, field_w]

theorem vmulhi (c : Ctl) (p : Pred) (w : BitVec 2) (d a b : VR) : Statement (.vmulhi c p w d a b) := by
  intro h w hw
  refine decodeWord_of_fields ?_ h hw
  rw [← Option.some.inj hw, Word96.ofBits_pack]
  simp only [decFields, FmtR.ofBody_body, BitVec.toNat_ofNat, Nat.reducePow, Nat.reduceMod, decValu, field_w]

theorem vmulhu (c : Ctl) (p : Pred) (w : BitVec 2) (d a b : VR) : Statement (.vmulhu c p w d a b) := by
  intro h w hw
  refine decodeWord_of_fields ?_ h hw
  rw [← Option.some.inj hw, Word96.ofBits_pack]
  simp only [decFields, FmtR.ofBody_body, BitVec.toNat_ofNat, Nat.reducePow, Nat.reduceMod, decValu, field_w]

theorem vmad (c : Ctl) (p : Pred) (w : BitVec 2) (d a b e : VR) : Statement (.vmad c p w d a b e) := by
  intro h w hw
  refine decodeWord_of_fields ?_ h hw
  rw [← Option.some.inj hw, Word96.ofBits_pack]
  simp only [decFields, FmtR.ofBody_body, BitVec.toNat_ofNat, Nat.reducePow, Nat.reduceMod, decValu, field_w]

theorem vdiv (c : Ctl) (p : Pred) (w : BitVec 2) (d a b : VR) : Statement (.vdiv c p w d a b) := by
  intro h w hw
  refine decodeWord_of_fields ?_ h hw
  rw [← Option.some.inj hw, Word96.ofBits_pack]
  simp only [decFields, FmtR.ofBody_body, BitVec.toNat_ofNat, Nat.reducePow, Nat.reduceMod, decValu, field_w]

theorem vdivu (c : Ctl) (p : Pred) (w : BitVec 2) (d a b : VR) : Statement (.vdivu c p w d a b) := by
  intro h w hw
  refine decodeWord_of_fields ?_ h hw
  rw [← Option.some.inj hw, Word96.ofBits_pack]
  simp only [decFields, FmtR.ofBody_body, BitVec.toNat_ofNat, Nat.reducePow, Nat.reduceMod, decValu, field_w]

theorem vrem (c : Ctl) (p : Pred) (w : BitVec 2) (d a b : VR) : Statement (.vrem c p w d a b) := by
  intro h w hw
  refine decodeWord_of_fields ?_ h hw
  rw [← Option.some.inj hw, Word96.ofBits_pack]
  simp only [decFields, FmtR.ofBody_body, BitVec.toNat_ofNat, Nat.reducePow, Nat.reduceMod, decValu, field_w]

theorem vremu (c : Ctl) (p : Pred) (w : BitVec 2) (d a b : VR) : Statement (.vremu c p w d a b) := by
  intro h w hw
  refine decodeWord_of_fields ?_ h hw
  rw [← Option.some.inj hw, Word96.ofBits_pack]
  simp only [decFields, FmtR.ofBody_body, BitVec.toNat_ofNat, Nat.reducePow, Nat.reduceMod, decValu, field_w]

theorem vand (c : Ctl) (p : Pred) (w : BitVec 2) (d a b : VR) : Statement (.vand c p w d a b) := by
  intro h w hw
  refine decodeWord_of_fields ?_ h hw
  rw [← Option.some.inj hw, Word96.ofBits_pack]
  simp only [decFields, FmtR.ofBody_body, BitVec.toNat_ofNat, Nat.reducePow, Nat.reduceMod, decValu, field_w]

theorem vor (c : Ctl) (p : Pred) (w : BitVec 2) (d a b : VR) : Statement (.vor c p w d a b) := by
  intro h w hw
  refine decodeWord_of_fields ?_ h hw
  rw [← Option.some.inj hw, Word96.ofBits_pack]
  simp only [decFields, FmtR.ofBody_body, BitVec.toNat_ofNat, Nat.reducePow, Nat.reduceMod, decValu, field_w]

theorem vxor (c : Ctl) (p : Pred) (w : BitVec 2) (d a b : VR) : Statement (.vxor c p w d a b) := by
  intro h w hw
  refine decodeWord_of_fields ?_ h hw
  rw [← Option.some.inj hw, Word96.ofBits_pack]
  simp only [decFields, FmtR.ofBody_body, BitVec.toNat_ofNat, Nat.reducePow, Nat.reduceMod, decValu, field_w]

theorem vandn (c : Ctl) (p : Pred) (w : BitVec 2) (d a b : VR) : Statement (.vandn c p w d a b) := by
  intro h w hw
  refine decodeWord_of_fields ?_ h hw
  rw [← Option.some.inj hw, Word96.ofBits_pack]
  simp only [decFields, FmtR.ofBody_body, BitVec.toNat_ofNat, Nat.reducePow, Nat.reduceMod, decValu, field_w]

theorem vshl (c : Ctl) (p : Pred) (w : BitVec 2) (d a b : VR) : Statement (.vshl c p w d a b) := by
  intro h w hw
  refine decodeWord_of_fields ?_ h hw
  rw [← Option.some.inj hw, Word96.ofBits_pack]
  simp only [decFields, FmtR.ofBody_body, BitVec.toNat_ofNat, Nat.reducePow, Nat.reduceMod, decValu, field_w]

theorem vshr (c : Ctl) (p : Pred) (w : BitVec 2) (d a b : VR) : Statement (.vshr c p w d a b) := by
  intro h w hw
  refine decodeWord_of_fields ?_ h hw
  rw [← Option.some.inj hw, Word96.ofBits_pack]
  simp only [decFields, FmtR.ofBody_body, BitVec.toNat_ofNat, Nat.reducePow, Nat.reduceMod, decValu, field_w]

theorem vsar (c : Ctl) (p : Pred) (w : BitVec 2) (d a b : VR) : Statement (.vsar c p w d a b) := by
  intro h w hw
  refine decodeWord_of_fields ?_ h hw
  rw [← Option.some.inj hw, Word96.ofBits_pack]
  simp only [decFields, FmtR.ofBody_body, BitVec.toNat_ofNat, Nat.reducePow, Nat.reduceMod, decValu, field_w]

theorem vmin (c : Ctl) (p : Pred) (w : BitVec 2) (d a b : VR) : Statement (.vmin c p w d a b) := by
  intro h w hw
  refine decodeWord_of_fields ?_ h hw
  rw [← Option.some.inj hw, Word96.ofBits_pack]
  simp only [decFields, FmtR.ofBody_body, BitVec.toNat_ofNat, Nat.reducePow, Nat.reduceMod, decValu, field_w]

theorem vmax (c : Ctl) (p : Pred) (w : BitVec 2) (d a b : VR) : Statement (.vmax c p w d a b) := by
  intro h w hw
  refine decodeWord_of_fields ?_ h hw
  rw [← Option.some.inj hw, Word96.ofBits_pack]
  simp only [decFields, FmtR.ofBody_body, BitVec.toNat_ofNat, Nat.reducePow, Nat.reduceMod, decValu, field_w]

theorem vminu (c : Ctl) (p : Pred) (w : BitVec 2) (d a b : VR) : Statement (.vminu c p w d a b) := by
  intro h w hw
  refine decodeWord_of_fields ?_ h hw
  rw [← Option.some.inj hw, Word96.ofBits_pack]
  simp only [decFields, FmtR.ofBody_body, BitVec.toNat_ofNat, Nat.reducePow, Nat.reduceMod, decValu, field_w]

theorem vmaxu (c : Ctl) (p : Pred) (w : BitVec 2) (d a b : VR) : Statement (.vmaxu c p w d a b) := by
  intro h w hw
  refine decodeWord_of_fields ?_ h hw
  rw [← Option.some.inj hw, Word96.ofBits_pack]
  simp only [decFields, FmtR.ofBody_body, BitVec.toNat_ofNat, Nat.reducePow, Nat.reduceMod, decValu, field_w]

theorem vabs (c : Ctl) (p : Pred) (w : BitVec 2) (d a : VR) : Statement (.vabs c p w d a) := by
  intro h w hw
  refine decodeWord_of_fields ?_ h hw
  rw [← Option.some.inj hw, Word96.ofBits_pack]
  simp only [decFields, FmtR.ofBody_body, BitVec.toNat_ofNat, Nat.reducePow, Nat.reduceMod, decValu, field_w]

theorem vneg (c : Ctl) (p : Pred) (w : BitVec 2) (d a : VR) : Statement (.vneg c p w d a) := by
  intro h w hw
  refine decodeWord_of_fields ?_ h hw
  rw [← Option.some.inj hw, Word96.ofBits_pack]
  simp only [decFields, FmtR.ofBody_body, BitVec.toNat_ofNat, Nat.reducePow, Nat.reduceMod, decValu, field_w]

theorem vpopc (c : Ctl) (p : Pred) (w : BitVec 2) (d a : VR) : Statement (.vpopc c p w d a) := by
  intro h w hw
  refine decodeWord_of_fields ?_ h hw
  rw [← Option.some.inj hw, Word96.ofBits_pack]
  simp only [decFields, FmtR.ofBody_body, BitVec.toNat_ofNat, Nat.reducePow, Nat.reduceMod, decValu, field_w]

theorem vclz (c : Ctl) (p : Pred) (w : BitVec 2) (d a : VR) : Statement (.vclz c p w d a) := by
  intro h w hw
  refine decodeWord_of_fields ?_ h hw
  rw [← Option.some.inj hw, Word96.ofBits_pack]
  simp only [decFields, FmtR.ofBody_body, BitVec.toNat_ofNat, Nat.reducePow, Nat.reduceMod, decValu, field_w]

theorem vadds (c : Ctl) (p : Pred) (u : Bool) (w : BitVec 2) (d a b : VR) : Statement (.vadds c p u w d a b) := by
  intro h w hw
  refine decodeWord_of_fields ?_ h hw
  rw [← Option.some.inj hw, Word96.ofBits_pack]
  simp only [decFields, FmtR.ofBody_body, BitVec.toNat_ofNat, Nat.reducePow, Nat.reduceMod, decValu, field_uw0, field_uw1]

theorem vsubs (c : Ctl) (p : Pred) (u : Bool) (w : BitVec 2) (d a b : VR) : Statement (.vsubs c p u w d a b) := by
  intro h w hw
  refine decodeWord_of_fields ?_ h hw
  rw [← Option.some.inj hw, Word96.ofBits_pack]
  simp only [decFields, FmtR.ofBody_body, BitVec.toNat_ofNat, Nat.reducePow, Nat.reduceMod, decValu, field_uw0, field_uw1]

theorem vsel (c : Ctl) (p : Pred) (w : BitVec 2) (d a b : VR) (k : KR) : Statement (.vsel c p w d a b k) := by
  intro h w hw
  refine decodeWord_of_fields ?_ h hw
  rw [← Option.some.inj hw, Word96.ofBits_pack]
  simp only [decFields, FmtR.ofBody_body, BitVec.toNat_ofNat, Nat.reducePow, Nat.reduceMod, decValu, krOf_ofKr, field_w]

theorem vmov (c : Ctl) (p : Pred) (w : BitVec 2) (d a : VR) : Statement (.vmov c p w d a) := by
  intro h w hw
  refine decodeWord_of_fields ?_ h hw
  rw [← Option.some.inj hw, Word96.ofBits_pack]
  simp only [decFields, FmtR.ofBody_body, BitVec.toNat_ofNat, Nat.reducePow, Nat.reduceMod, decValu, field_w]

theorem vfroms (c : Ctl) (p : Pred) (w : BitVec 2) (d : VR) (a : SR) : Statement (.vfroms c p w d a) := by
  intro h w hw
  refine decodeWord_of_fields ?_ h hw
  rw [← Option.some.inj hw, Word96.ofBits_pack]
  simp only [decFields, FmtR.ofBody_body, BitVec.toNat_ofNat, Nat.reducePow, Nat.reduceMod, decValu, srOf_ofSr, field_w]

theorem sfromv (c : Ctl) (p : Pred) (w : BitVec 2) (d : SR) (a : VR) (b : SR) : Statement (.sfromv c p w d a b) := by
  intro h w hw
  refine decodeWord_of_fields ?_ h hw
  rw [← Option.some.inj hw, Word96.ofBits_pack]
  simp only [decFields, FmtR.ofBody_body, BitVec.toNat_ofNat, Nat.reducePow, Nat.reduceMod, decValu, srOf_ofSr, field_w]

theorem valui (c : Ctl) (p : Pred) (f : VFn) (u : Bool) (w : BitVec 2) (d a : VR) (imm : BitVec 18) : Statement (.valui c p f u w d a imm) := by
  intro h w hw
  refine decodeWord_of_fields ?_ h hw
  rw [← Option.some.inj hw, Word96.ofBits_pack]
  simp only [decFields, FmtR.ofBody_body, BitVec.toNat_ofNat, Nat.reducePow, Nat.reduceMod, byCode, field_uw0, field_uw1, VFn.code_mod, VFn.ofCode_code]

theorem vcmp (c : Ctl) (p : Pred) (cond : ICond) (w : BitVec 2) (k : KR) (a b : VR) : Statement (.vcmp c p cond w k a b) := by
  intro h w hw
  refine decodeWord_of_fields ?_ h hw
  rw [← Option.some.inj hw, Word96.ofBits_pack]
  simp only [decFields, FmtR.ofBody_body, BitVec.toNat_ofNat, Nat.reducePow, Nat.reduceMod, byCode, krOf_ofKr, field_w, ICond.code_mod, ICond.ofCode_code]

theorem vcmpi (c : Ctl) (p : Pred) (cond : ICond) (w : BitVec 2) (k : KR) (a : VR) (imm : BitVec 18) : Statement (.vcmpi c p cond w k a imm) := by
  intro h w hw
  refine decodeWord_of_fields ?_ h hw
  rw [← Option.some.inj hw, Word96.ofBits_pack]
  simp only [decFields, FmtR.ofBody_body, BitVec.toNat_ofNat, Nat.reducePow, Nat.reduceMod, byCode, krOf_ofKr, field_w, ICond.code_mod, ICond.ofCode_code]

theorem vfadd (c : Ctl) (p : Pred) (r w : BitVec 2) (d a b : VR) : Statement (.vfadd c p r w d a b) := by
  intro h w hw
  refine decodeWord_of_fields ?_ h hw
  rw [← Option.some.inj hw, Word96.ofBits_pack]
  simp only [decFields, FmtR.ofBody_body, BitVec.toNat_ofNat, Nat.reducePow, Nat.reduceMod, decVfpu, field_rw0, field_rw1]

theorem vfsub (c : Ctl) (p : Pred) (r w : BitVec 2) (d a b : VR) : Statement (.vfsub c p r w d a b) := by
  intro h w hw
  refine decodeWord_of_fields ?_ h hw
  rw [← Option.some.inj hw, Word96.ofBits_pack]
  simp only [decFields, FmtR.ofBody_body, BitVec.toNat_ofNat, Nat.reducePow, Nat.reduceMod, decVfpu, field_rw0, field_rw1]

theorem vfmul (c : Ctl) (p : Pred) (r w : BitVec 2) (d a b : VR) : Statement (.vfmul c p r w d a b) := by
  intro h w hw
  refine decodeWord_of_fields ?_ h hw
  rw [← Option.some.inj hw, Word96.ofBits_pack]
  simp only [decFields, FmtR.ofBody_body, BitVec.toNat_ofNat, Nat.reducePow, Nat.reduceMod, decVfpu, field_rw0, field_rw1]

theorem vfma (c : Ctl) (p : Pred) (r w : BitVec 2) (d a b e : VR) : Statement (.vfma c p r w d a b e) := by
  intro h w hw
  refine decodeWord_of_fields ?_ h hw
  rw [← Option.some.inj hw, Word96.ofBits_pack]
  simp only [decFields, FmtR.ofBody_body, BitVec.toNat_ofNat, Nat.reducePow, Nat.reduceMod, decVfpu, field_rw0, field_rw1]

theorem vfms (c : Ctl) (p : Pred) (r w : BitVec 2) (d a b e : VR) : Statement (.vfms c p r w d a b e) := by
  intro h w hw
  refine decodeWord_of_fields ?_ h hw
  rw [← Option.some.inj hw, Word96.ofBits_pack]
  simp only [decFields, FmtR.ofBody_body, BitVec.toNat_ofNat, Nat.reducePow, Nat.reduceMod, decVfpu, field_rw0, field_rw1]

theorem vfnma (c : Ctl) (p : Pred) (r w : BitVec 2) (d a b e : VR) : Statement (.vfnma c p r w d a b e) := by
  intro h w hw
  refine decodeWord_of_fields ?_ h hw
  rw [← Option.some.inj hw, Word96.ofBits_pack]
  simp only [decFields, FmtR.ofBody_body, BitVec.toNat_ofNat, Nat.reducePow, Nat.reduceMod, decVfpu, field_rw0, field_rw1]

theorem vfmin (c : Ctl) (p : Pred) (w : BitVec 2) (d a b : VR) : Statement (.vfmin c p w d a b) := by
  intro h w hw
  refine decodeWord_of_fields ?_ h hw
  rw [← Option.some.inj hw, Word96.ofBits_pack]
  simp only [decFields, FmtR.ofBody_body, BitVec.toNat_ofNat, Nat.reducePow, Nat.reduceMod, decVfpu, field_w]

theorem vfmax (c : Ctl) (p : Pred) (w : BitVec 2) (d a b : VR) : Statement (.vfmax c p w d a b) := by
  intro h w hw
  refine decodeWord_of_fields ?_ h hw
  rw [← Option.some.inj hw, Word96.ofBits_pack]
  simp only [decFields, FmtR.ofBody_body, BitVec.toNat_ofNat, Nat.reducePow, Nat.reduceMod, decVfpu, field_w]

theorem vfdiv (c : Ctl) (p : Pred) (r w : BitVec 2) (d a b : VR) : Statement (.vfdiv c p r w d a b) := by
  intro h w hw
  refine decodeWord_of_fields ?_ h hw
  rw [← Option.some.inj hw, Word96.ofBits_pack]
  simp only [decFields, FmtR.ofBody_body, BitVec.toNat_ofNat, Nat.reducePow, Nat.reduceMod, decVfpu, field_rw0, field_rw1]

theorem vfsqrt (c : Ctl) (p : Pred) (r w : BitVec 2) (d a : VR) : Statement (.vfsqrt c p r w d a) := by
  intro h w hw
  refine decodeWord_of_fields ?_ h hw
  rw [← Option.some.inj hw, Word96.ofBits_pack]
  simp only [decFields, FmtR.ofBody_body, BitVec.toNat_ofNat, Nat.reducePow, Nat.reduceMod, decVfpu, field_rw0, field_rw1]

theorem vfrcp (c : Ctl) (p : Pred) (r w : BitVec 2) (d a : VR) : Statement (.vfrcp c p r w d a) := by
  intro h w hw
  refine decodeWord_of_fields ?_ h hw
  rw [← Option.some.inj hw, Word96.ofBits_pack]
  simp only [decFields, FmtR.ofBody_body, BitVec.toNat_ofNat, Nat.reducePow, Nat.reduceMod, decVfpu, field_rw0, field_rw1]

theorem vfrsq (c : Ctl) (p : Pred) (r w : BitVec 2) (d a : VR) : Statement (.vfrsq c p r w d a) := by
  intro h w hw
  refine decodeWord_of_fields ?_ h hw
  rw [← Option.some.inj hw, Word96.ofBits_pack]
  simp only [decFields, FmtR.ofBody_body, BitVec.toNat_ofNat, Nat.reducePow, Nat.reduceMod, decVfpu, field_rw0, field_rw1]

theorem vfexp2 (c : Ctl) (p : Pred) (r w : BitVec 2) (d a : VR) : Statement (.vfexp2 c p r w d a) := by
  intro h w hw
  refine decodeWord_of_fields ?_ h hw
  rw [← Option.some.inj hw, Word96.ofBits_pack]
  simp only [decFields, FmtR.ofBody_body, BitVec.toNat_ofNat, Nat.reducePow, Nat.reduceMod, decVfpu, field_rw0, field_rw1]

theorem vflog2 (c : Ctl) (p : Pred) (r w : BitVec 2) (d a : VR) : Statement (.vflog2 c p r w d a) := by
  intro h w hw
  refine decodeWord_of_fields ?_ h hw
  rw [← Option.some.inj hw, Word96.ofBits_pack]
  simp only [decFields, FmtR.ofBody_body, BitVec.toNat_ofNat, Nat.reducePow, Nat.reduceMod, decVfpu, field_rw0, field_rw1]

theorem vfabs (c : Ctl) (p : Pred) (w : BitVec 2) (d a : VR) : Statement (.vfabs c p w d a) := by
  intro h w hw
  refine decodeWord_of_fields ?_ h hw
  rw [← Option.some.inj hw, Word96.ofBits_pack]
  simp only [decFields, FmtR.ofBody_body, BitVec.toNat_ofNat, Nat.reducePow, Nat.reduceMod, decVfpu, field_w]

theorem vfneg (c : Ctl) (p : Pred) (w : BitVec 2) (d a : VR) : Statement (.vfneg c p w d a) := by
  intro h w hw
  refine decodeWord_of_fields ?_ h hw
  rw [← Option.some.inj hw, Word96.ofBits_pack]
  simp only [decFields, FmtR.ofBody_body, BitVec.toNat_ofNat, Nat.reducePow, Nat.reduceMod, decVfpu, field_w]

theorem vfclass (c : Ctl) (p : Pred) (w : BitVec 2) (d a : VR) : Statement (.vfclass c p w d a) := by
  intro h w hw
  refine decodeWord_of_fields ?_ h hw
  rw [← Option.some.inj hw, Word96.ofBits_pack]
  simp only [decFields, FmtR.ofBody_body, BitVec.toNat_ofNat, Nat.reducePow, Nat.reduceMod, decVfpu, field_w]

theorem vfscale (c : Ctl) (p : Pred) (r w : BitVec 2) (d a b : VR) : Statement (.vfscale c p r w d a b) := by
  intro h w hw
  refine decodeWord_of_fields ?_ h hw
  rw [← Option.some.inj hw, Word96.ofBits_pack]
  simp only [decFields, FmtR.ofBody_body, BitVec.toNat_ofNat, Nat.reducePow, Nat.reduceMod, decVfpu, field_rw0, field_rw1]

theorem vfrint (c : Ctl) (p : Pred) (r w : BitVec 2) (d a : VR) : Statement (.vfrint c p r w d a) := by
  intro h w hw
  refine decodeWord_of_fields ?_ h hw
  rw [← Option.some.inj hw, Word96.ofBits_pack]
  simp only [decFields, FmtR.ofBody_body, BitVec.toNat_ofNat, Nat.reducePow, Nat.reduceMod, decVfpu, field_rw0, field_rw1]

theorem vfcmp (c : Ctl) (p : Pred) (cond : FCond) (w : BitVec 2) (k : KR) (a b : VR) : Statement (.vfcmp c p cond w k a b) := by
  intro h w hw
  refine decodeWord_of_fields ?_ h hw
  rw [← Option.some.inj hw, Word96.ofBits_pack]
  simp only [decFields, FmtR.ofBody_body, BitVec.toNat_ofNat, Nat.reducePow, Nat.reduceMod, byCode, krOf_ofKr, field_w, FCond.code_mod, FCond.ofCode_code]

theorem vcvt (c : Ctl) (p : Pred) (sat : Bool) (dt st : BitVec 4) (r : BitVec 2) (pos : BitVec 3) (d a : VR) (b : SR) : Statement (.vcvt c p sat dt st r pos d a b) := by
  intro h w hw
  refine decodeWord_of_fields ?_ h hw
  rw [← Option.some.inj hw, Word96.ofBits_pack]
  have hs : BitVec.ofNat 5 (BitVec.ofBool sat ++ dt).toNat = BitVec.ofBool sat ++ dt := by simp
  have h0 : (BitVec.ofBool sat ++ dt).extractLsb' 0 4 = dt := by
    rw [bits_low _ _ _ _ (by omega)]
    exact bits_whole _
  have h1 : (BitVec.ofBool sat ++ dt).getLsbD 4 = sat := by
    rw [bit_high _ _ _ (by omega)]
    simp
  simp only [decFields, FmtR.ofBody_body, hs, h0, h1, srOf_ofSr, field_n3, field_cvt0, field_cvt1]
  rfl

theorem vshuf (c : Ctl) (p : Pred) (w : BitVec 2) (d a b : VR) : Statement (.vshuf c p w d a b) := by
  intro h w hw
  refine decodeWord_of_fields ?_ h hw
  rw [← Option.some.inj hw, Word96.ofBits_pack]
  simp only [decFields, FmtR.ofBody_body, BitVec.toNat_ofNat, Nat.reducePow, Nat.reduceMod, decLane, field_w]

theorem vbcast (c : Ctl) (p : Pred) (w : BitVec 2) (d a : VR) (b : SR) : Statement (.vbcast c p w d a b) := by
  intro h w hw
  refine decodeWord_of_fields ?_ h hw
  rw [← Option.some.inj hw, Word96.ofBits_pack]
  simp only [decFields, FmtR.ofBody_body, BitVec.toNat_ofNat, Nat.reducePow, Nat.reduceMod, decLane, srOf_ofSr, field_w]

theorem vrot (c : Ctl) (p : Pred) (w : BitVec 2) (d a : VR) (n : BitVec 5) : Statement (.vrot c p w d a n) := by
  intro h w hw
  refine decodeWord_of_fields ?_ h hw
  rw [← Option.some.inj hw, Word96.ofBits_pack]
  simp only [decFields, FmtR.ofBody_body, BitVec.toNat_ofNat, Nat.reducePow, Nat.reduceMod, decLane, field_w, field_n5]

theorem vreduce (c : Ctl) (p : Pred) (r : BitVec 2) (op : BitVec 3) (w : BitVec 2) (d : SR) (a : VR) : Statement (.vreduce c p r op w d a) := by
  intro h w hw
  refine decodeWord_of_fields ?_ h hw
  rw [← Option.some.inj hw, Word96.ofBits_pack]
  simp only [decFields, FmtR.ofBody_body, BitVec.toNat_ofNat, Nat.reducePow, Nat.reduceMod, decLane, srOf_ofSr, field_row0, field_row1, field_row2]

theorem vscan (c : Ctl) (p : Pred) (r : BitVec 2) (op : BitVec 3) (w : BitVec 2) (d a : VR) : Statement (.vscan c p r op w d a) := by
  intro h w hw
  refine decodeWord_of_fields ?_ h hw
  rw [← Option.some.inj hw, Word96.ofBits_pack]
  simp only [decFields, FmtR.ofBody_body, BitVec.toNat_ofNat, Nat.reducePow, Nat.reduceMod, decLane, field_row0, field_row1, field_row2]

theorem vmatch (c : Ctl) (p : Pred) (w : BitVec 2) (d a : VR) : Statement (.vmatch c p w d a) := by
  intro h w hw
  refine decodeWord_of_fields ?_ h hw
  rw [← Option.some.inj hw, Word96.ofBits_pack]
  simp only [decFields, FmtR.ofBody_body, BitVec.toNat_ofNat, Nat.reducePow, Nat.reduceMod, decLane, field_w]

theorem kand (c : Ctl) (d a b : KR) : Statement (.kand c d a b) := by
  intro h w hw
  refine decodeWord_of_fields ?_ h hw
  rw [← Option.some.inj hw, Word96.ofBits_pack]
  simp only [decFields, FmtR.ofBody_body, BitVec.toNat_ofNat, Nat.reducePow, Nat.reduceMod, decKop, krOf_ofKr]

theorem kor (c : Ctl) (d a b : KR) : Statement (.kor c d a b) := by
  intro h w hw
  refine decodeWord_of_fields ?_ h hw
  rw [← Option.some.inj hw, Word96.ofBits_pack]
  simp only [decFields, FmtR.ofBody_body, BitVec.toNat_ofNat, Nat.reducePow, Nat.reduceMod, decKop, krOf_ofKr]

theorem kxor (c : Ctl) (d a b : KR) : Statement (.kxor c d a b) := by
  intro h w hw
  refine decodeWord_of_fields ?_ h hw
  rw [← Option.some.inj hw, Word96.ofBits_pack]
  simp only [decFields, FmtR.ofBody_body, BitVec.toNat_ofNat, Nat.reducePow, Nat.reduceMod, decKop, krOf_ofKr]

theorem kandn (c : Ctl) (d a b : KR) : Statement (.kandn c d a b) := by
  intro h w hw
  refine decodeWord_of_fields ?_ h hw
  rw [← Option.some.inj hw, Word96.ofBits_pack]
  simp only [decFields, FmtR.ofBody_body, BitVec.toNat_ofNat, Nat.reducePow, Nat.reduceMod, decKop, krOf_ofKr]

theorem knot (c : Ctl) (d a : KR) : Statement (.knot c d a) := by
  intro h w hw
  refine decodeWord_of_fields ?_ h hw
  rw [← Option.some.inj hw, Word96.ofBits_pack]
  simp only [decFields, FmtR.ofBody_body, BitVec.toNat_ofNat, Nat.reducePow, Nat.reduceMod, decKop, krOf_ofKr]

theorem kmov (c : Ctl) (d a : KR) : Statement (.kmov c d a) := by
  intro h w hw
  refine decodeWord_of_fields ?_ h hw
  rw [← Option.some.inj hw, Word96.ofBits_pack]
  simp only [decFields, FmtR.ofBody_body, BitVec.toNat_ofNat, Nat.reducePow, Nat.reduceMod, decKop, krOf_ofKr]

theorem kpopc (c : Ctl) (d : SR) (a : KR) : Statement (.kpopc c d a) := by
  intro h w hw
  refine decodeWord_of_fields ?_ h hw
  rw [← Option.some.inj hw, Word96.ofBits_pack]
  simp only [decFields, FmtR.ofBody_body, BitVec.toNat_ofNat, Nat.reducePow, Nat.reduceMod, decKop, srOf_ofSr, krOf_ofKr]

theorem kffs (c : Ctl) (d : SR) (a : KR) : Statement (.kffs c d a) := by
  intro h w hw
  refine decodeWord_of_fields ?_ h hw
  rw [← Option.some.inj hw, Word96.ofBits_pack]
  simp only [decFields, FmtR.ofBody_body, BitVec.toNat_ofNat, Nat.reducePow, Nat.reduceMod, decKop, srOf_ofSr, krOf_ofKr]

theorem kfroms (c : Ctl) (d : KR) (a : SR) : Statement (.kfroms c d a) := by
  intro h w hw
  refine decodeWord_of_fields ?_ h hw
  rw [← Option.some.inj hw, Word96.ofBits_pack]
  simp only [decFields, FmtR.ofBody_body, BitVec.toNat_ofNat, Nat.reducePow, Nat.reduceMod, decKop, srOf_ofSr, krOf_ofKr]

theorem ktos (c : Ctl) (d : SR) (a : KR) : Statement (.ktos c d a) := by
  intro h w hw
  refine decodeWord_of_fields ?_ h hw
  rw [← Option.some.inj hw, Word96.ofBits_pack]
  simp only [decFields, FmtR.ofBody_body, BitVec.toNat_ofNat, Nat.reducePow, Nat.reduceMod, decKop, srOf_ofSr, krOf_ofKr]

theorem bra (c : Ctl) (mode : BitVec 2) (k : KR) (t : BTgt) : Statement (.bra c mode k t) := by
  intro h w hw
  refine decodeWord_of_fields ?_ h hw
  rw [← Option.some.inj hw, Word96.ofBits_pack]
  simp only [decFields, FmtB.ofBody_body, BitVec.toNat_ofNat, Nat.reducePow, Nat.reduceMod, decBr]

theorem brx (c : Ctl) (clear : Bool) (k : KR) (t r : BTgt) : Statement (.brx c clear k t r) := by
  intro h w hw
  refine decodeWord_of_fields ?_ h hw
  rw [← Option.some.inj hw, Word96.ofBits_pack]
  simp only [decFields, FmtB.ofBody_body, BitVec.toNat_ofNat, Nat.reducePow, Nat.reduceMod, decBr]
  cases clear <;> rfl

theorem jmp (c : Ctl) (t : JTgt) : Statement (.jmp c t) := by
  intro h w hw
  cases t
  · refine decodeWord_of_fields ?_ h hw
    rw [← Option.some.inj hw, Word96.ofBits_pack]
    simp only [decFields, decBr, decJtgt, FmtB.ofBody_body]
    simp
  · refine decodeWord_of_fields ?_ h hw
    rw [← Option.some.inj hw, Word96.ofBits_pack]
    simp only [decFields, decBr, decJtgt, FmtB.ofBody_body]
    simp

theorem call (c : Ctl) (t : JTgt) : Statement (.call c t) := by
  intro h w hw
  cases t
  · refine decodeWord_of_fields ?_ h hw
    rw [← Option.some.inj hw, Word96.ofBits_pack]
    simp only [decFields, decBr, decJtgt, FmtB.ofBody_body]
    simp
  · refine decodeWord_of_fields ?_ h hw
    rw [← Option.some.inj hw, Word96.ofBits_pack]
    simp only [decFields, decBr, decJtgt, FmtB.ofBody_body]
    simp

theorem ret (c : Ctl) (a : SR) : Statement (.ret c a) := by
  intro h w hw
  refine decodeWord_of_fields ?_ h hw
  rw [← Option.some.inj hw, Word96.ofBits_pack]
  simp only [decFields, FmtB.ofBody_body, BitVec.toNat_ofNat, Nat.reducePow, Nat.reduceMod, decBr, srOf_ofSr]

theorem region (c : Ctl) (vb : VR) (a : SR) : Statement (.region c vb a) := by
  intro h w hw
  refine decodeWord_of_fields ?_ h hw
  rw [← Option.some.inj hw, Word96.ofBits_pack]
  simp only [decFields, FmtR.ofBody_body, BitVec.toNat_ofNat, Nat.reducePow, Nat.reduceMod, decRegn, srOf_ofSr]

theorem rcommit (c : Ctl) : Statement (.rcommit c) := by
  intro h w hw
  refine decodeWord_of_fields ?_ h hw
  rw [← Option.some.inj hw, Word96.ofBits_pack]
  simp only [decFields, BitVec.toNat_ofNat, Nat.reducePow, Nat.reduceMod, decRegn]

theorem rabort (c : Ctl) : Statement (.rabort c) := by
  intro h w hw
  refine decodeWord_of_fields ?_ h hw
  rw [← Option.some.inj hw, Word96.ofBits_pack]
  simp only [decFields, BitVec.toNat_ofNat, Nat.reducePow, Nat.reduceMod, decRegn]

theorem join (c : Ctl) (d : SR) (n : BitVec 4) : Statement (.join c d n) := by
  intro h w hw
  refine decodeWord_of_fields ?_ h hw
  rw [← Option.some.inj hw, Word96.ofBits_pack]
  simp only [decFields, FmtR.ofBody_body, BitVec.toNat_ofNat, Nat.reducePow, Nat.reduceMod, decCoh, srOf_ofSr, field_n4]

theorem leave (c : Ctl) : Statement (.leave c) := by
  intro h w hw
  refine decodeWord_of_fields ?_ h hw
  rw [← Option.some.inj hw, Word96.ofBits_pack]
  simp only [decFields, BitVec.toNat_ofNat, Nat.reducePow, Nat.reduceMod, decCoh]

theorem bar (c : Ctl) : Statement (.bar c) := by
  intro h w hw
  refine decodeWord_of_fields ?_ h hw
  rw [← Option.some.inj hw, Word96.ofBits_pack]
  simp only [decFields, BitVec.toNat_ofNat, Nat.reducePow, Nat.reduceMod, decCoh]

theorem bara (c : Ctl) : Statement (.bara c) := by
  intro h w hw
  refine decodeWord_of_fields ?_ h hw
  rw [← Option.some.inj hw, Word96.ofBits_pack]
  simp only [decFields, BitVec.toNat_ofNat, Nat.reducePow, Nat.reduceMod, decCoh]

theorem barw (c : Ctl) : Statement (.barw c) := by
  intro h w hw
  refine decodeWord_of_fields ?_ h hw
  rw [← Option.some.inj hw, Word96.ofBits_pack]
  simp only [decFields, BitVec.toNat_ofNat, Nat.reducePow, Nat.reduceMod, decCoh]

theorem rquota (c : Ctl) (d : SR) (n : BitVec 18) : Statement (.rquota c d n) := by
  intro h w hw
  refine decodeWord_of_fields ?_ h hw
  rw [← Option.some.inj hw, Word96.ofBits_pack]
  simp only [decFields, FmtR.ofBody_body, BitVec.toNat_ofNat, Nat.reducePow, Nat.reduceMod, decCoh, srOf_ofSr]

theorem vld (c : Ctl) (p : Pred) (d : VR) (m : MemOp) : Statement (.vld c p d m) := by
  intro h w hw
  refine decodeWord_of_fields ?_ h hw
  rw [← Option.some.inj hw, Word96.ofBits_pack]
  simp only [decFields, FmtR.ofBody_body, BitVec.toNat_ofNat, Nat.reducePow, Nat.reduceMod, decVmem, MemOp.ofR_toR, MemOp.toR_dst]

theorem vst (c : Ctl) (p : Pred) (d : VR) (m : MemOp) : Statement (.vst c p d m) := by
  intro h w hw
  refine decodeWord_of_fields ?_ h hw
  rw [← Option.some.inj hw, Word96.ofBits_pack]
  simp only [decFields, FmtR.ofBody_body, BitVec.toNat_ofNat, Nat.reducePow, Nat.reduceMod, decVmem, MemOp.ofR_toR, MemOp.toR_dst]

theorem vldc (c : Ctl) (p : Pred) (d : VR) (ver : SR) (m : MemOp) : Statement (.vldc c p d ver m) := by
  intro h w hw
  refine decodeWord_of_fields ?_ h hw
  rw [← Option.some.inj hw, Word96.ofBits_pack]
  simp only [decFields, FmtR.ofBody_body, BitVec.toNat_ofNat, Nat.reducePow, Nat.reduceMod, decVmem, srOf_ofSr, MemOp.ofR_toR, MemOp.toR_dst, MemOp.toR_sc]

theorem vstc (c : Ctl) (p : Pred) (d : VR) (ver : SR) (m : MemOp) : Statement (.vstc c p d ver m) := by
  intro h w hw
  refine decodeWord_of_fields ?_ h hw
  rw [← Option.some.inj hw, Word96.ofBits_pack]
  simp only [decFields, FmtR.ofBody_body, BitVec.toNat_ofNat, Nat.reducePow, Nat.reduceMod, decVmem, srOf_ofSr, MemOp.ofR_toR, MemOp.toR_dst, MemOp.toR_sc]

theorem ldacq (c : Ctl) (p : Pred) (d : VR) (sx : Bool) (m : ScopedOp) : Statement (.ldacq c p d sx m) := by
  intro h w hw
  refine decodeWord_of_fields ?_ h hw
  rw [← Option.some.inj hw, Word96.ofBits_pack]
  simp only [decFields, FmtR.ofBody_body, BitVec.toNat_ofNat, Nat.reducePow, Nat.reduceMod, decVmem, ScopedOp.ofR_toR, ScopedOp.toR_dst, ScopedOp.toR_sx]

theorem strel (c : Ctl) (p : Pred) (d : VR) (m : ScopedOp) : Statement (.strel c p d m) := by
  intro h w hw
  refine decodeWord_of_fields ?_ h hw
  rw [← Option.some.inj hw, Word96.ofBits_pack]
  simp only [decFields, FmtR.ofBody_body, BitVec.toNat_ofNat, Nat.reducePow, Nat.reduceMod, decVmem, ScopedOp.ofR_toR, ScopedOp.toR_dst]

theorem prefetch (c : Ctl) (p : Pred) (m : MemOp) : Statement (.prefetch c p m) := by
  intro h w hw
  refine decodeWord_of_fields ?_ h hw
  rw [← Option.some.inj hw, Word96.ofBits_pack]
  simp only [decFields, FmtR.ofBody_body, BitVec.toNat_ofNat, Nat.reducePow, Nat.reduceMod, decVmem, MemOp.ofR_toR]

theorem cflush (c : Ctl) (p : Pred) (m : MemOp) : Statement (.cflush c p m) := by
  intro h w hw
  refine decodeWord_of_fields ?_ h hw
  rw [← Option.some.inj hw, Word96.ofBits_pack]
  simp only [decFields, FmtR.ofBody_body, BitVec.toNat_ofNat, Nat.reducePow, Nat.reduceMod, decVmem, MemOp.ofR_toR]

theorem vatom (c : Ctl) (p : Pred) (f : AFn) (d : VR) (cmp : VR) (m : ScopedOp) : Statement (.vatom c p f d cmp m) := by
  intro h w hw
  refine decodeWord_of_fields ?_ h hw
  rw [← Option.some.inj hw, Word96.ofBits_pack]
  simp only [decFields, FmtR.ofBody_body, BitVec.toNat_ofNat, Nat.reducePow, Nat.reduceMod, byCode, ScopedOp.ofR_toR, ScopedOp.toR_dst, AFn.code_mod, AFn.ofCode_code, ScopedOp.toR_sc]

theorem satom (c : Ctl) (f : AFn) (d : SR) (cmp : SR) (m : ScopedOp) : Statement (.satom c f d cmp m) := by
  intro h w hw
  refine decodeWord_of_fields ?_ h hw
  rw [← Option.some.inj hw, Word96.ofBits_pack]
  simp only [decFields, FmtR.ofBody_body, BitVec.toNat_ofNat, Nat.reducePow, Nat.reduceMod, byCode, srOf_ofSr, ScopedOp.ofR_toR, ScopedOp.toR_dst, AFn.code_mod, AFn.ofCode_code, ScopedOp.toR_sc]

theorem fenceAcq (c : Ctl) (scope : BitVec 3) : Statement (.fenceAcq c scope) := by
  intro h w hw
  refine decodeWord_of_fields ?_ h hw
  rw [← Option.some.inj hw, Word96.ofBits_pack]
  simp only [decFields, FmtR.ofBody_body, BitVec.toNat_ofNat, Nat.reducePow, Nat.reduceMod, decFence, field_scope]

theorem fenceRel (c : Ctl) (scope : BitVec 3) : Statement (.fenceRel c scope) := by
  intro h w hw
  refine decodeWord_of_fields ?_ h hw
  rw [← Option.some.inj hw, Word96.ofBits_pack]
  simp only [decFields, FmtR.ofBody_body, BitVec.toNat_ofNat, Nat.reducePow, Nat.reduceMod, decFence, field_scope]

theorem fenceAcqrel (c : Ctl) (scope : BitVec 3) : Statement (.fenceAcqrel c scope) := by
  intro h w hw
  refine decodeWord_of_fields ?_ h hw
  rw [← Option.some.inj hw, Word96.ofBits_pack]
  simp only [decFields, FmtR.ofBody_body, BitVec.toNat_ofNat, Nat.reducePow, Nat.reduceMod, decFence, field_scope]

theorem fenceSc (c : Ctl) (scope : BitVec 3) : Statement (.fenceSc c scope) := by
  intro h w hw
  refine decodeWord_of_fields ?_ h hw
  rw [← Option.some.inj hw, Word96.ofBits_pack]
  simp only [decFields, FmtR.ofBody_body, BitVec.toNat_ofNat, Nat.reducePow, Nat.reduceMod, decFence, field_scope]

theorem stashMap (c : Ctl) (d a : SR) (sel : SR) (disp : BitVec 18) : Statement (.stashMap c d a sel disp) := by
  intro h w hw
  refine decodeWord_of_fields ?_ h hw
  rw [← Option.some.inj hw, Word96.ofBits_pack]
  simp only [decFields, FmtR.ofBody_body, BitVec.toNat_ofNat, Nat.reducePow, Nat.reduceMod, decStash, srOf_ofSr]

theorem stashUnmap (c : Ctl) (d sel : SR) : Statement (.stashUnmap c d sel) := by
  intro h w hw
  refine decodeWord_of_fields ?_ h hw
  rw [← Option.some.inj hw, Word96.ofBits_pack]
  simp only [decFields, FmtR.ofBody_body, BitVec.toNat_ofNat, Nat.reducePow, Nat.reduceMod, decStash, srOf_ofSr]

theorem stashFlush (c : Ctl) (d sel : SR) : Statement (.stashFlush c d sel) := by
  intro h w hw
  refine decodeWord_of_fields ?_ h hw
  rw [← Option.some.inj hw, Word96.ofBits_pack]
  simp only [decFields, FmtR.ofBody_body, BitVec.toNat_ofNat, Nat.reducePow, Nat.reduceMod, decStash, srOf_ofSr]

theorem stashInval (c : Ctl) (d sel : SR) : Statement (.stashInval c d sel) := by
  intro h w hw
  refine decodeWord_of_fields ?_ h hw
  rw [← Option.some.inj hw, Word96.ofBits_pack]
  simp only [decFields, FmtR.ofBody_body, BitVec.toNat_ofNat, Nat.reducePow, Nat.reduceMod, decStash, srOf_ofSr]

theorem mclaim (c : Ctl) (d a : SR) : Statement (.mclaim c d a) := by
  intro h w hw
  refine decodeWord_of_fields ?_ h hw
  rw [← Option.some.inj hw, Word96.ofBits_pack]
  simp only [decFields, FmtR.ofBody_body, BitVec.toNat_ofNat, Nat.reducePow, Nat.reduceMod, decMtx, srOf_ofSr]

theorem mtry (c : Ctl) (d a : SR) : Statement (.mtry c d a) := by
  intro h w hw
  refine decodeWord_of_fields ?_ h hw
  rw [← Option.some.inj hw, Word96.ofBits_pack]
  simp only [decFields, FmtR.ofBody_body, BitVec.toNat_ofNat, Nat.reducePow, Nat.reduceMod, decMtx, srOf_ofSr]

theorem mrel (c : Ctl) (a : SR) : Statement (.mrel c a) := by
  intro h w hw
  refine decodeWord_of_fields ?_ h hw
  rw [← Option.some.inj hw, Word96.ofBits_pack]
  simp only [decFields, FmtR.ofBody_body, BitVec.toNat_ofNat, Nat.reducePow, Nat.reduceMod, decMtx, srOf_ofSr]

theorem mload (c : Ctl) (side : Bool) (a b t : SR) : Statement (.mload c side a b t) := by
  intro h w hw
  refine decodeWord_of_fields ?_ h hw
  rw [← Option.some.inj hw, Word96.ofBits_pack]
  simp only [decFields, FmtR.ofBody_body, BitVec.toNat_ofNat, Nat.reducePow, Nat.reduceMod, decMtx, srOf_ofSr, field_u]

theorem mzero (c : Ctl) (a : SR) : Statement (.mzero c a) := by
  intro h w hw
  refine decodeWord_of_fields ?_ h hw
  rw [← Option.some.inj hw, Word96.ofBits_pack]
  simp only [decFields, FmtR.ofBody_body, BitVec.toNat_ofNat, Nat.reducePow, Nat.reduceMod, decMtx, srOf_ofSr]

theorem mmac (c : Ctl) (a : SR) : Statement (.mmac c a) := by
  intro h w hw
  refine decodeWord_of_fields ?_ h hw
  rw [← Option.some.inj hw, Word96.ofBits_pack]
  simp only [decFields, FmtR.ofBody_body, BitVec.toNat_ofNat, Nat.reducePow, Nat.reduceMod, decMtx, srOf_ofSr]

theorem mloop (c : Ctl) (d a : SR) : Statement (.mloop c d a) := by
  intro h w hw
  refine decodeWord_of_fields ?_ h hw
  rw [← Option.some.inj hw, Word96.ofBits_pack]
  simp only [decFields, FmtR.ofBody_body, BitVec.toNat_ofNat, Nat.reducePow, Nat.reduceMod, decMtx, srOf_ofSr]

theorem maccrd (c : Ctl) (ef : BitVec 2) (row0 nrow : BitVec 5) (d : VR) (a : SR) : Statement (.maccrd c ef row0 nrow d a) := by
  intro h w hw
  refine decodeWord_of_fields ?_ h hw
  rw [← Option.some.inj hw, Word96.ofBits_pack]
  simp only [decFields, FmtR.ofBody_body, BitVec.toNat_ofNat, Nat.reducePow, Nat.reduceMod, decMtx, srOf_ofSr, field_rows0, field_rows1, field_w]

theorem maccwr (c : Ctl) (ef : BitVec 2) (row0 nrow : BitVec 5) (d : VR) (a : SR) : Statement (.maccwr c ef row0 nrow d a) := by
  intro h w hw
  refine decodeWord_of_fields ?_ h hw
  rw [← Option.some.inj hw, Word96.ofBits_pack]
  simp only [decFields, FmtR.ofBody_body, BitVec.toNat_ofNat, Nat.reducePow, Nat.reduceMod, decMtx, srOf_ofSr, field_rows0, field_rows1, field_w]

theorem mstore (c : Ctl) (hi tr tom : Bool) (of : BitVec 2) (a b t : SR) : Statement (.mstore c hi tr tom of a b t) := by
  intro h w hw
  refine decodeWord_of_fields ?_ h hw
  rw [← Option.some.inj hw, Word96.ofBits_pack]
  simp only [decFields, FmtR.ofBody_body, BitVec.toNat_ofNat, Nat.reducePow, Nat.reduceMod, decMtx, srOf_ofSr, field_ms0, field_ms2, field_ms3, field_ms4]

theorem mdrain (c : Ctl) (ord : Bool) (d a b t : SR) : Statement (.mdrain c ord d a b t) := by
  intro h w hw
  refine decodeWord_of_fields ?_ h hw
  rw [← Option.some.inj hw, Word96.ofBits_pack]
  simp only [decFields, FmtR.ofBody_body, BitVec.toNat_ofNat, Nat.reducePow, Nat.reduceMod, decMtx, srOf_ofSr, field_u]

theorem mstate (c : Ctl) (d a : SR) : Statement (.mstate c d a) := by
  intro h w hw
  refine decodeWord_of_fields ?_ h hw
  rw [← Option.some.inj hw, Word96.ofBits_pack]
  simp only [decFields, FmtR.ofBody_body, BitVec.toNat_ofNat, Nat.reducePow, Nat.reduceMod, decMtx, srOf_ofSr]

theorem qbind (c : Ctl) (d : SR) (q : QR) (b : SR) : Statement (.qbind c d q b) := by
  intro h w hw
  refine decodeWord_of_fields ?_ h hw
  rw [← Option.some.inj hw, Word96.ofBits_pack]
  simp only [decFields, FmtR.ofBody_body, BitVec.toNat_ofNat, Nat.reducePow, Nat.reduceMod, decQeng, srOf_ofSr, krOf_ofKr]

theorem qpush (c : Ctl) (d : SR) (q : QR) (b : SR) (n : BitVec 3) : Statement (.qpush c d q b n) := by
  intro h w hw
  refine decodeWord_of_fields ?_ h hw
  rw [← Option.some.inj hw, Word96.ofBits_pack]
  simp only [decFields, FmtR.ofBody_body, BitVec.toNat_ofNat, Nat.reducePow, Nat.reduceMod, decQeng, srOf_ofSr, krOf_ofKr, field_n3]

theorem qpop (c : Ctl) (d : SR) (q : QR) : Statement (.qpop c d q) := by
  intro h w hw
  refine decodeWord_of_fields ?_ h hw
  rw [← Option.some.inj hw, Word96.ofBits_pack]
  simp only [decFields, FmtR.ofBody_body, BitVec.toNat_ofNat, Nat.reducePow, Nat.reduceMod, decQeng, srOf_ofSr, krOf_ofKr]

theorem qtry (c : Ctl) (d : SR) (q : QR) : Statement (.qtry c d q) := by
  intro h w hw
  refine decodeWord_of_fields ?_ h hw
  rw [← Option.some.inj hw, Word96.ofBits_pack]
  simp only [decFields, FmtR.ofBody_body, BitVec.toNat_ofNat, Nat.reducePow, Nat.reduceMod, decQeng, srOf_ofSr, krOf_ofKr]

theorem tlwait (c : Ctl) (q : QR) (b : SR) : Statement (.tlwait c q b) := by
  intro h w hw
  refine decodeWord_of_fields ?_ h hw
  rw [← Option.some.inj hw, Word96.ofBits_pack]
  simp only [decFields, FmtR.ofBody_body, BitVec.toNat_ofNat, Nat.reducePow, Nat.reduceMod, decQeng, srOf_ofSr, krOf_ofKr]

theorem tlread (c : Ctl) (d : SR) (q : QR) : Statement (.tlread c d q) := by
  intro h w hw
  refine decodeWord_of_fields ?_ h hw
  rw [← Option.some.inj hw, Word96.ofBits_pack]
  simp only [decFields, FmtR.ofBody_body, BitVec.toNat_ofNat, Nat.reducePow, Nat.reduceMod, decQeng, srOf_ofSr, krOf_ofKr]

theorem gnew (c : Ctl) (d a b : SR) : Statement (.gnew c d a b) := by
  intro h w hw
  refine decodeWord_of_fields ?_ h hw
  rw [← Option.some.inj hw, Word96.ofBits_pack]
  simp only [decFields, FmtR.ofBody_body, BitVec.toNat_ofNat, Nat.reducePow, Nat.reduceMod, decGrd, srOf_ofSr]

theorem gfree (c : Ctl) (d a : SR) : Statement (.gfree c d a) := by
  intro h w hw
  refine decodeWord_of_fields ?_ h hw
  rw [← Option.some.inj hw, Word96.ofBits_pack]
  simp only [decFields, FmtR.ofBody_body, BitVec.toNat_ofNat, Nat.reducePow, Nat.reduceMod, decGrd, srOf_ofSr]

theorem gpub (c : Ctl) (nb : Bool) (g : BitVec 2) (d a b : SR) : Statement (.gpub c nb g d a b) := by
  intro h w hw
  refine decodeWord_of_fields ?_ h hw
  rw [← Option.some.inj hw, Word96.ofBits_pack]
  simp only [decFields, FmtR.ofBody_body, BitVec.toNat_ofNat, Nat.reducePow, Nat.reduceMod, decGrd, srOf_ofSr, field_u, field_n2]

theorem gprom (c : Ctl) (g : BitVec 2) (d a b : SR) : Statement (.gprom c g d a b) := by
  intro h w hw
  refine decodeWord_of_fields ?_ h hw
  rw [← Option.some.inj hw, Word96.ofBits_pack]
  simp only [decFields, FmtR.ofBody_body, BitVec.toNat_ofNat, Nat.reducePow, Nat.reduceMod, decGrd, srOf_ofSr, field_n2]

theorem gqry (c : Ctl) (d a : SR) : Statement (.gqry c d a) := by
  intro h w hw
  refine decodeWord_of_fields ?_ h hw
  rw [← Option.some.inj hw, Word96.ofBits_pack]
  simp only [decFields, FmtR.ofBody_body, BitVec.toNat_ofNat, Nat.reducePow, Nat.reduceMod, decGrd, srOf_ofSr]

theorem tspawn (c : Ctl) (p : Pred) (one keep : Bool) (d a : SR) (b : VR) : Statement (.tspawn c p one keep d a b) := by
  intro h w hw
  refine decodeWord_of_fields ?_ h hw
  rw [← Option.some.inj hw, Word96.ofBits_pack]
  simp only [decFields, FmtR.ofBody_body, BitVec.toNat_ofNat, Nat.reducePow, Nat.reduceMod, decGrd, srOf_ofSr, field_ru0, field_ru1]

theorem rstv (c : Ctl) (p : Pred) (rel sts : Bool) (scope : BitVec 3) (d : VR) (a : SR) (b : VR) (st : SR) : Statement (.rstv c p rel sts scope d a b st) := by
  intro h w hw
  refine decodeWord_of_fields ?_ h hw
  rw [← Option.some.inj hw, Word96.ofBits_pack]
  simp only [decFields, FmtR.ofBody_body, BitVec.toNat_ofNat, Nat.reducePow, Nat.reduceMod, decNamed, srOf_ofSr, field_ru0, field_ru1, field_scope]

theorem hold (c : Ctl) (regm : Bool) (d : VR) (k : BitVec 4) (n : BitVec 6) : Statement (.hold c regm d k n) := by
  intro h w hw
  refine decodeWord_of_fields ?_ h hw
  rw [← Option.some.inj hw, Word96.ofBits_pack]
  simp only [decFields, FmtR.ofBody_body, BitVec.toNat_ofNat, Nat.reducePow, Nat.reduceMod, decNamed, field_u, field_hold0, field_hold1]

theorem regroup (c : Ctl) (p : Pred) (vt key vl : VR) (n : BitVec 6) : Statement (.regroup c p vt key vl n) := by
  intro h w hw
  refine decodeWord_of_fields ?_ h hw
  rw [← Option.some.inj hw, Word96.ofBits_pack]
  simp only [decFields, FmtR.ofBody_body, BitVec.toNat_ofNat, Nat.reducePow, Nat.reduceMod, decNamed, field_n6]

theorem collPut (c : Ctl) (p : Pred) (d : VR) (a : SR) (scl : BitVec 2) (off rank : VR) (disp : BitVec 15) : Statement (.collPut c p d a scl off rank disp) := by
  intro h w hw
  refine decodeWord_of_fields ?_ h hw
  rw [← Option.some.inj hw, Word96.ofBits_pack]
  simp only [decFields, FmtR.ofBody_body, BitVec.toNat_ofNat, Nat.reducePow, Nat.reduceMod, decColl, srOf_ofSr, field_rank, field_scl]

theorem collGet (c : Ctl) (p : Pred) (d : VR) (a : SR) (scl : BitVec 2) (off rank : VR) (disp : BitVec 15) : Statement (.collGet c p d a scl off rank disp) := by
  intro h w hw
  refine decodeWord_of_fields ?_ h hw
  rw [← Option.some.inj hw, Word96.ofBits_pack]
  simp only [decFields, FmtR.ofBody_body, BitVec.toNat_ofNat, Nat.reducePow, Nat.reduceMod, decColl, srOf_ofSr, field_rank, field_scl]

theorem collRaddF32 (c : Ctl) (p : Pred) (d : VR) (a : SR) (scl : BitVec 2) (off rank : VR) (disp : BitVec 15) : Statement (.collRaddF32 c p d a scl off rank disp) := by
  intro h w hw
  refine decodeWord_of_fields ?_ h hw
  rw [← Option.some.inj hw, Word96.ofBits_pack]
  simp only [decFields, FmtR.ofBody_body, BitVec.toNat_ofNat, Nat.reducePow, Nat.reduceMod, decColl, srOf_ofSr, field_rank, field_scl]

theorem collRaddBf16 (c : Ctl) (p : Pred) (d : VR) (a : SR) (scl : BitVec 2) (off rank : VR) (disp : BitVec 15) : Statement (.collRaddBf16 c p d a scl off rank disp) := by
  intro h w hw
  refine decodeWord_of_fields ?_ h hw
  rw [← Option.some.inj hw, Word96.ofBits_pack]
  simp only [decFields, FmtR.ofBody_body, BitVec.toNat_ofNat, Nat.reducePow, Nat.reduceMod, decColl, srOf_ofSr, field_rank, field_scl]

theorem collRmaxF32 (c : Ctl) (p : Pred) (d : VR) (a : SR) (scl : BitVec 2) (off rank : VR) (disp : BitVec 15) : Statement (.collRmaxF32 c p d a scl off rank disp) := by
  intro h w hw
  refine decodeWord_of_fields ?_ h hw
  rw [← Option.some.inj hw, Word96.ofBits_pack]
  simp only [decFields, FmtR.ofBody_body, BitVec.toNat_ofNat, Nat.reducePow, Nat.reduceMod, decColl, srOf_ofSr, field_rank, field_scl]

theorem collRaddI32 (c : Ctl) (p : Pred) (d : VR) (a : SR) (scl : BitVec 2) (off rank : VR) (disp : BitVec 15) : Statement (.collRaddI32 c p d a scl off rank disp) := by
  intro h w hw
  refine decodeWord_of_fields ?_ h hw
  rw [← Option.some.inj hw, Word96.ofBits_pack]
  simp only [decFields, FmtR.ofBody_body, BitVec.toNat_ofNat, Nat.reducePow, Nat.reduceMod, decColl, srOf_ofSr, field_rank, field_scl]

theorem confx (c : Ctl) (p : Pred) (emit : Bool) (k : KR) (a : VR) (b : SR) (ver : VR) (q : QR) : Statement (.confx c p emit k a b ver q) := by
  intro h w hw
  refine decodeWord_of_fields ?_ h hw
  rw [← Option.some.inj hw, Word96.ofBits_pack]
  simp only [decFields, FmtR.ofBody_body, BitVec.toNat_ofNat, Nat.reducePow, Nat.reduceMod, decInfer, srOf_ofSr, krOf_ofKr, field_u, field_n4]

theorem accept (c : Ctl) (p : Pred) (prob : Bool) (k : KR) (a : VR) (b : SR) (seg : KR) : Statement (.accept c p prob k a b seg) := by
  intro h w hw
  refine decodeWord_of_fields ?_ h hw
  rw [← Option.some.inj hw, Word96.ofBits_pack]
  simp only [decFields, FmtR.ofBody_body, BitVec.toNat_ofNat, Nat.reducePow, Nat.reduceMod, decInfer, srOf_ofSr, krOf_ofKr, field_u, field_n4]

theorem apport (c : Ctl) (p : Pred) (d a : VR) (b : SR) : Statement (.apport c p d a b) := by
  intro h w hw
  refine decodeWord_of_fields ?_ h hw
  rw [← Option.some.inj hw, Word96.ofBits_pack]
  simp only [decFields, FmtR.ofBody_body, BitVec.toNat_ofNat, Nat.reducePow, Nat.reduceMod, decInfer, srOf_ofSr]

theorem vrand (c : Ctl) (p : Pred) (raw : Bool) (d a : VR) (b : SR) : Statement (.vrand c p raw d a b) := by
  intro h w hw
  refine decodeWord_of_fields ?_ h hw
  rw [← Option.some.inj hw, Word96.ofBits_pack]
  simp only [decFields, FmtR.ofBody_body, BitVec.toNat_ofNat, Nat.reducePow, Nat.reduceMod, decInfer, srOf_ofSr, field_u]

theorem pauseEnd (g : GRef) : Statement (.pauseEnd g) := by
  intro _ w h
  exact nomatch (show (none : Option (BitVec 96)) = some w from h)

theorem fixedResultWrite (g : GRef) : Statement (.fixedResultWrite g) := by
  intro _ w h
  exact nomatch (show (none : Option (BitVec 96)) = some w from h)

theorem longLatencyComplete (op : Nat) : Statement (.longLatencyComplete op) := by
  intro _ w h
  exact nomatch (show (none : Option (BitVec 96)) = some w from h)

theorem activeSetExchange (g h : GRef) : Statement (.activeSetExchange g h) := by
  intro _ w h
  exact nomatch (show (none : Option (BitVec 96)) = some w from h)

theorem lineFetch (g : GRef) (sid : Nat) : Statement (.lineFetch g sid) := by
  intro _ w h
  exact nomatch (show (none : Option (BitVec 96)) = some w from h)

theorem deferredSplitResume (g : GRef) : Statement (.deferredSplitResume g) := by
  intro _ w h
  exact nomatch (show (none : Option (BitVec 96)) = some w from h)

theorem splitMerge (g : GRef) : Statement (.splitMerge g) := by
  intro _ w h
  exact nomatch (show (none : Option (BitVec 96)) = some w from h)

theorem barrierReconverge (g : GRef) : Statement (.barrierReconverge g) := by
  intro _ w h
  exact nomatch (show (none : Option (BitVec 96)) = some w from h)

theorem barrierPhaseComplete (die core num : Nat) : Statement (.barrierPhaseComplete die core num) := by
  intro _ w h
  exact nomatch (show (none : Option (BitVec 96)) = some w from h)

theorem rquotaGrant (g : GRef) : Statement (.rquotaGrant g) := by
  intro _ w h
  exact nomatch (show (none : Option (BitVec 96)) = some w from h)

theorem regroupStep (die core num : Nat) : Statement (.regroupStep die core num) := by
  intro _ w h
  exact nomatch (show (none : Option (BitVec 96)) = some w from h)

theorem claimGrant (die core : Nat) : Statement (.claimGrant die core) := by
  intro _ w h
  exact nomatch (show (none : Option (BitVec 96)) = some w from h)

theorem mloopStep (op : Nat) : Statement (.mloopStep op) := by
  intro _ w h
  exact nomatch (show (none : Option (BitVec 96)) = some w from h)

theorem tileFillDone (die core : Nat) (acm : Bool) (idx : Nat) : Statement (.tileFillDone die core acm idx) := by
  intro _ w h
  exact nomatch (show (none : Option (BitVec 96)) = some w from h)

theorem tileDrainDone (die core : Nat) (acm : Bool) (idx : Nat) : Statement (.tileDrainDone die core acm idx) := by
  intro _ w h
  exact nomatch (show (none : Option (BitVec 96)) = some w from h)

theorem mdrainArrival (k : Nat) : Statement (.mdrainArrival k) := by
  intro _ w h
  exact nomatch (show (none : Option (BitVec 96)) = some w from h)

theorem heldAdditionApply (die core unit : Nat) : Statement (.heldAdditionApply die core unit) := by
  intro _ w h
  exact nomatch (show (none : Option (BitVec 96)) = some w from h)

theorem powerLeaveGrant (die : Nat) : Statement (.powerLeaveGrant die) := by
  intro _ w h
  exact nomatch (show (none : Option (BitVec 96)) = some w from h)

theorem powerLeaveRelease (die id : Nat) : Statement (.powerLeaveRelease die id) := by
  intro _ w h
  exact nomatch (show (none : Option (BitVec 96)) = some w from h)

theorem trapEntry (g : GRef) : Statement (.trapEntry g) := by
  intro _ w h
  exact nomatch (show (none : Option (BitVec 96)) = some w from h)

theorem parkedRetry (g : GRef) : Statement (.parkedRetry g) := by
  intro _ w h
  exact nomatch (show (none : Option (BitVec 96)) = some w from h)

theorem coreGate (die core : Nat) : Statement (.coreGate die core) := by
  intro _ w h
  exact nomatch (show (none : Option (BitVec 96)) = some w from h)

theorem coreWake (die core : Nat) : Statement (.coreWake die core) := by
  intro _ w h
  exact nomatch (show (none : Option (BitVec 96)) = some w from h)

theorem engineCommandStart (e : EngRef) : Statement (.engineCommandStart e) := by
  intro _ w h
  exact nomatch (show (none : Option (BitVec 96)) = some w from h)

theorem copy (e : EngRef) (n : Nat) : Statement (.copy e n) := by
  intro _ w h
  exact nomatch (show (none : Option (BitVec 96)) = some w from h)

theorem copy2d (e : EngRef) (n : Nat) : Statement (.copy2d e n) := by
  intro _ w h
  exact nomatch (show (none : Option (BitVec 96)) = some w from h)

theorem fill (e : EngRef) (n : Nat) : Statement (.fill e n) := by
  intro _ w h
  exact nomatch (show (none : Option (BitVec 96)) = some w from h)

theorem convert (e : EngRef) (n : Nat) : Statement (.convert e n) := by
  intro _ w h
  exact nomatch (show (none : Option (BitVec 96)) = some w from h)

theorem chisel (e : EngRef) (n : Nat) : Statement (.chisel e n) := by
  intro _ w h
  exact nomatch (show (none : Option (BitVec 96)) = some w from h)

theorem chmerge (e : EngRef) (n : Nat) : Statement (.chmerge e n) := by
  intro _ w h
  exact nomatch (show (none : Option (BitVec 96)) = some w from h)

theorem engineCommandComplete (e : EngRef) (n : Nat) : Statement (.engineCommandComplete e n) := by
  intro _ w h
  exact nomatch (show (none : Option (BitVec 96)) = some w from h)

theorem eventPost (e : EngRef) (n : Nat) : Statement (.eventPost e n) := by
  intro _ w h
  exact nomatch (show (none : Option (BitVec 96)) = some w from h)

theorem bfcfg (op : Nat) : Statement (.bfcfg op) := by
  intro _ w h
  exact nomatch (show (none : Option (BitVec 96)) = some w from h)

theorem arm (op : Nat) : Statement (.arm op) := by
  intro _ w h
  exact nomatch (show (none : Option (BitVec 96)) = some w from h)

theorem disarm (op : Nat) : Statement (.disarm op) := by
  intro _ w h
  exact nomatch (show (none : Option (BitVec 96)) = some w from h)

theorem bfeBatchTimeout (die cfg layer : Nat) : Statement (.bfeBatchTimeout die cfg layer) := by
  intro _ w h
  exact nomatch (show (none : Option (BitVec 96)) = some w from h)

theorem halyardEvaluate (die : Nat) : Statement (.halyardEvaluate die) := by
  intro _ w h
  exact nomatch (show (none : Option (BitVec 96)) = some w from h)

theorem outboundSend (item : Nat) : Statement (.outboundSend item) := by
  intro _ w h
  exact nomatch (show (none : Option (BitVec 96)) = some w from h)

theorem loadPerform (item : Nat) (src : LoadSrc) (lanes : BitVec 32) : Statement (.loadPerform item src lanes) := by
  intro _ w h
  exact nomatch (show (none : Option (BitVec 96)) = some w from h)

theorem orderPointApply (line : Nat) : Statement (.orderPointApply line) := by
  intro _ w h
  exact nomatch (show (none : Option (BitVec 96)) = some w from h)

theorem writeExpose (line : Nat) : Statement (.writeExpose line) := by
  intro _ w h
  exact nomatch (show (none : Option (BitVec 96)) = some w from h)

theorem update (line : Nat) (copy : CopyRef) : Statement (.update line copy) := by
  intro _ w h
  exact nomatch (show (none : Option (BitVec 96)) = some w from h)

theorem invalidation (line die : Nat) : Statement (.invalidation line die) := by
  intro _ w h
  exact nomatch (show (none : Option (BitVec 96)) = some w from h)

theorem dirtyHolderNotice (item : Nat) : Statement (.dirtyHolderNotice item) := by
  intro _ w h
  exact nomatch (show (none : Option (BitVec 96)) = some w from h)

theorem writeBack (line die : Nat) : Statement (.writeBack line die) := by
  intro _ w h
  exact nomatch (show (none : Option (BitVec 96)) = some w from h)

theorem evictionNotice (line die : Nat) : Statement (.evictionNotice line die) := by
  intro _ w h
  exact nomatch (show (none : Option (BitVec 96)) = some w from h)

theorem sliceDirectoryOverflow (die line : Nat) : Statement (.sliceDirectoryOverflow die line) := by
  intro _ w h
  exact nomatch (show (none : Option (BitVec 96)) = some w from h)

theorem snoopFilterVictim (line : Nat) : Statement (.snoopFilterVictim line) := by
  intro _ w h
  exact nomatch (show (none : Option (BitVec 96)) = some w from h)

theorem birsp (line : Nat) (data : List Byte) : Statement (.birsp line data) := by
  intro _ w h
  exact nomatch (show (none : Option (BitVec 96)) = some w from h)

theorem pendStoreRetry (item : Nat) : Statement (.pendStoreRetry item) := by
  intro _ w h
  exact nomatch (show (none : Option (BitVec 96)) = some w from h)

theorem tlbSweepDone (id : Nat) : Statement (.tlbSweepDone id) := by
  intro _ w h
  exact nomatch (show (none : Option (BitVec 96)) = some w from h)

theorem translationDirectoryOverflow (die idx : Nat) : Statement (.translationDirectoryOverflow die idx) := by
  intro _ w h
  exact nomatch (show (none : Option (BitVec 96)) = some w from h)

theorem taskLaunch (id : Nat) : Statement (.taskLaunch id) := by
  intro _ w h
  exact nomatch (show (none : Option (BitVec 96)) = some w from h)

theorem fire (ctx inst : Nat) : Statement (.fire ctx inst) := by
  intro _ w h
  exact nomatch (show (none : Option (BitVec 96)) = some w from h)

theorem gangPlacement (queue : Nat) : Statement (.gangPlacement queue) := by
  intro _ w h
  exact nomatch (show (none : Option (BitVec 96)) = some w from h)

theorem runComplete (ctx inst : Nat) : Statement (.runComplete ctx inst) := by
  intro _ w h
  exact nomatch (show (none : Option (BitVec 96)) = some w from h)

theorem gradedFaultDelivery (ctx : Nat) : Statement (.gradedFaultDelivery ctx) := by
  intro _ w h
  exact nomatch (show (none : Option (BitVec 96)) = some w from h)

theorem egressHoldRelease (ctx inst : Nat) : Statement (.egressHoldRelease ctx inst) := by
  intro _ w h
  exact nomatch (show (none : Option (BitVec 96)) = some w from h)

theorem preemptRequest (queue : Nat) : Statement (.preemptRequest queue) := by
  intro _ w h
  exact nomatch (show (none : Option (BitVec 96)) = some w from h)

theorem preemptEntry (g : GRef) : Statement (.preemptEntry g) := by
  intro _ w h
  exact nomatch (show (none : Option (BitVec 96)) = some w from h)

theorem resume (id : Nat) : Statement (.resume id) := by
  intro _ w h
  exact nomatch (show (none : Option (BitVec 96)) = some w from h)

theorem contextKill (ctx : Nat) : Statement (.contextKill ctx) := by
  intro _ w h
  exact nomatch (show (none : Option (BitVec 96)) = some w from h)

theorem rstvArrival (k : Nat) : Statement (.rstvArrival k) := by
  intro _ w h
  exact nomatch (show (none : Option (BitVec 96)) = some w from h)

theorem forwardEntryExpiry (die core : Nat) : Statement (.forwardEntryExpiry die core) := by
  intro _ w h
  exact nomatch (show (none : Option (BitVec 96)) = some w from h)

theorem injectionGrant (die core : Nat) : Statement (.injectionGrant die core) := by
  intro _ w h
  exact nomatch (show (none : Option (BitVec 96)) = some w from h)

theorem communicatorAbort (ten comm : Nat) : Statement (.communicatorAbort ten comm) := by
  intro _ w h
  exact nomatch (show (none : Option (BitVec 96)) = some w from h)

theorem flitReceive (port seq : Nat) (crcOk : Bool) (flit : Nat) : Statement (.flitReceive port seq crcOk flit) := by
  intro _ w h
  exact nomatch (show (none : Option (BitVec 96)) = some w from h)

theorem flitAcknowledgement (port seq : Nat) : Statement (.flitAcknowledgement port seq) := by
  intro _ w h
  exact nomatch (show (none : Option (BitVec 96)) = some w from h)

theorem flitReplay (port : Nat) : Statement (.flitReplay port) := by
  intro _ w h
  exact nomatch (show (none : Option (BitVec 96)) = some w from h)

theorem linkRetrain (port : Nat) : Statement (.linkRetrain port) := by
  intro _ w h
  exact nomatch (show (none : Option (BitVec 96)) = some w from h)

theorem portTrainingEnd (port : Nat) (ok : Bool) (lanes peer : Nat) : Statement (.portTrainingEnd port ok lanes peer) := by
  intro _ w h
  exact nomatch (show (none : Option (BitVec 96)) = some w from h)

theorem creditReturn (port p1 d1 p2 d2 : Nat) : Statement (.creditReturn port p1 d1 p2 d2) := by
  intro _ w h
  exact nomatch (show (none : Option (BitVec 96)) = some w from h)

theorem custodyTake (port : Nat) : Statement (.custodyTake port) := by
  intro _ w h
  exact nomatch (show (none : Option (BitVec 96)) = some w from h)

theorem custodyAck (port tag sdev : Nat) : Statement (.custodyAck port tag sdev) := by
  intro _ w h
  exact nomatch (show (none : Option (BitVec 96)) = some w from h)

theorem packetForward (k : Nat) : Statement (.packetForward k) := by
  intro _ w h
  exact nomatch (show (none : Option (BitVec 96)) = some w from h)

theorem packetHoldTimeout (k : Nat) : Statement (.packetHoldTimeout k) := by
  intro _ w h
  exact nomatch (show (none : Option (BitVec 96)) = some w from h)

theorem remoteRequest (k : Nat) : Statement (.remoteRequest k) := by
  intro _ w h
  exact nomatch (show (none : Option (BitVec 96)) = some w from h)

theorem remoteResponse (k : Nat) : Statement (.remoteResponse k) := by
  intro _ w h
  exact nomatch (show (none : Option (BitVec 96)) = some w from h)

theorem errorNotice (k : Nat) : Statement (.errorNotice k) := by
  intro _ w h
  exact nomatch (show (none : Option (BitVec 96)) = some w from h)

theorem inDoubtNotice (k : Nat) : Statement (.inDoubtNotice k) := by
  intro _ w h
  exact nomatch (show (none : Option (BitVec 96)) = some w from h)

theorem probe (k : Nat) : Statement (.probe k) := by
  intro _ w h
  exact nomatch (show (none : Option (BitVec 96)) = some w from h)

theorem probeResponse (k : Nat) : Statement (.probeResponse k) := by
  intro _ w h
  exact nomatch (show (none : Option (BitVec 96)) = some w from h)

theorem abortNotice (k : Nat) : Statement (.abortNotice k) := by
  intro _ w h
  exact nomatch (show (none : Option (BitVec 96)) = some w from h)

theorem refusalExpiry (k : Nat) : Statement (.refusalExpiry k) := by
  intro _ w h
  exact nomatch (show (none : Option (BitVec 96)) = some w from h)

theorem hostWrite (f : HostFn) (pa : Nat) (data : List Byte) (relaxed : Bool) : Statement (.hostWrite f pa data relaxed) := by
  intro _ w h
  exact nomatch (show (none : Option (BitVec 96)) = some w from h)

theorem hostRead (f : HostFn) (pa n id : Nat) (own : Bool) : Statement (.hostRead f pa n id own) := by
  intro _ w h
  exact nomatch (show (none : Option (BitVec 96)) = some w from h)

theorem hostAtomicop (f : HostFn) (k : HostAtomic) (pa n : Nat) (v cmp : BitVec 64) (id : Nat) : Statement (.hostAtomicop f k pa n v cmp id) := by
  intro _ w h
  exact nomatch (show (none : Option (BitVec 96)) = some w from h)

theorem hostCompletion (item : Nat) (ok : Bool) (data : List Byte) : Statement (.hostCompletion item ok data) := by
  intro _ w h
  exact nomatch (show (none : Option (BitVec 96)) = some w from h)

theorem hostLinkTrain (mode width : Nat) : Statement (.hostLinkTrain mode width) := by
  intro _ w h
  exact nomatch (show (none : Option (BitVec 96)) = some w from h)

theorem hostLinkDown : Statement (.hostLinkDown) := by
  intro _ w h
  exact nomatch (show (none : Option (BitVec 96)) = some w from h)

theorem ctxcmdKill (ctx : Nat) : Statement (.ctxcmdKill ctx) := by
  intro _ w h
  exact nomatch (show (none : Option (BitVec 96)) = some w from h)

theorem ctxcmdReset (ctx : Nat) : Statement (.ctxcmdReset ctx) := by
  intro _ w h
  exact nomatch (show (none : Option (BitVec 96)) = some w from h)

theorem ctxcfg (ctx : Nat) (v : BitVec 64) : Statement (.ctxcfg ctx v) := by
  intro _ w h
  exact nomatch (show (none : Option (BitVec 96)) = some w from h)

theorem tinv (ctx : Nat) (v : BitVec 64) : Statement (.tinv ctx v) := by
  intro _ w h
  exact nomatch (show (none : Option (BitVec 96)) = some w from h)

theorem pfva (ctx : Nat) : Statement (.pfva ctx) := by
  intro _ w h
  exact nomatch (show (none : Option (BitVec 96)) = some w from h)

theorem pfrel (ctx : Nat) (v : BitVec 64) : Statement (.pfrel ctx v) := by
  intro _ w h
  exact nomatch (show (none : Option (BitVec 96)) = some w from h)

theorem pgreqSplit (ctx : Nat) (v : BitVec 64) : Statement (.pgreqSplit ctx v) := by
  intro _ w h
  exact nomatch (show (none : Option (BitVec 96)) = some w from h)

theorem pgreqPromote (ctx : Nat) (v : BitVec 64) : Statement (.pgreqPromote ctx v) := by
  intro _ w h
  exact nomatch (show (none : Option (BitVec 96)) = some w from h)

theorem splinterSwap (ctx : Nat) : Statement (.splinterSwap ctx) := by
  intro _ w h
  exact nomatch (show (none : Option (BitVec 96)) = some w from h)

theorem splinterSweep (ctx : Nat) : Statement (.splinterSweep ctx) := by
  intro _ w h
  exact nomatch (show (none : Option (BitVec 96)) = some w from h)

theorem promotionCopy (ctx : Nat) : Statement (.promotionCopy ctx) := by
  intro _ w h
  exact nomatch (show (none : Option (BitVec 96)) = some w from h)

theorem promotionSwap (ctx : Nat) : Statement (.promotionSwap ctx) := by
  intro _ w h
  exact nomatch (show (none : Option (BitVec 96)) = some w from h)

theorem promotionSweep (ctx : Nat) : Statement (.promotionSweep ctx) := by
  intro _ w h
  exact nomatch (show (none : Option (BitVec 96)) = some w from h)

theorem hwcmdArm (ctx : Nat) (v : BitVec 64) : Statement (.hwcmdArm ctx v) := by
  intro _ w h
  exact nomatch (show (none : Option (BitVec 96)) = some w from h)

theorem hwcmdDisarm (ctx : Nat) (v : BitVec 64) : Statement (.hwcmdDisarm ctx v) := by
  intro _ w h
  exact nomatch (show (none : Option (BitVec 96)) = some w from h)

theorem portctlEn (port : Nat) (v : BitVec 64) : Statement (.portctlEn port v) := by
  intro _ w h
  exact nomatch (show (none : Option (BitVec 96)) = some w from h)

theorem portctlReenable (port : Nat) : Statement (.portctlReenable port) := by
  intro _ w h
  exact nomatch (show (none : Option (BitVec 96)) = some w from h)

theorem devid (v : BitVec 64) : Statement (.devid v) := by
  intro _ w h
  exact nomatch (show (none : Option (BitVec 96)) = some w from h)

theorem plbudget (die : Nat) (fw : Bool) (v : BitVec 64) : Statement (.plbudget die fw v) := by
  intro _ w h
  exact nomatch (show (none : Option (BitVec 96)) = some w from h)

theorem configWrite (f : HostFn) (off : Nat) (v : BitVec 64) : Statement (.configWrite f off v) := by
  intro _ w h
  exact nomatch (show (none : Option (BitVec 96)) = some w from h)

theorem deviceReset : Statement (.deviceReset) := by
  intro _ w h
  exact nomatch (show (none : Option (BitVec 96)) = some w from h)

theorem bootRomVerify : Statement (.bootRomVerify) := by
  intro _ w h
  exact nomatch (show (none : Option (BitVec 96)) = some w from h)

theorem memoryTrain (ok : Bool) : Statement (.memoryTrain ok) := by
  intro _ w h
  exact nomatch (show (none : Option (BitVec 96)) = some w from h)

theorem platformConfig (ok : Bool) (r : PlatformRegs) : Statement (.platformConfig ok r) := by
  intro _ w h
  exact nomatch (show (none : Option (BitVec 96)) = some w from h)

theorem ready : Statement (.ready) := by
  intro _ w h
  exact nomatch (show (none : Option (BitVec 96)) = some w from h)

theorem getVersion : Statement (.getVersion) := by
  intro _ w h
  exact nomatch (show (none : Option (BitVec 96)) = some w from h)

theorem getCapabilities : Statement (.getCapabilities) := by
  intro _ w h
  exact nomatch (show (none : Option (BitVec 96)) = some w from h)

theorem negotiateAlgorithms : Statement (.negotiateAlgorithms) := by
  intro _ w h
  exact nomatch (show (none : Option (BitVec 96)) = some w from h)

theorem getDigests : Statement (.getDigests) := by
  intro _ w h
  exact nomatch (show (none : Option (BitVec 96)) = some w from h)

theorem getCertificate : Statement (.getCertificate) := by
  intro _ w h
  exact nomatch (show (none : Option (BitVec 96)) = some w from h)

theorem challenge (nonce : BitVec 256) : Statement (.challenge nonce) := by
  intro _ w h
  exact nomatch (show (none : Option (BitVec 96)) = some w from h)

theorem getMeasurements (sign : Bool) (nonce : BitVec 256) : Statement (.getMeasurements sign nonce) := by
  intro _ w h
  exact nomatch (show (none : Option (BitVec 96)) = some w from h)

theorem spdmUnsupportedRequest (code : BitVec 8) : Statement (.spdmUnsupportedRequest code) := by
  intro _ w h
  exact nomatch (show (none : Option (BitVec 96)) = some w from h)

end Sys2Proof.Laws.RoundTrip
end

