-- ==== Sys2Proof/Tests/Slice0.lean ====
section
/-! SUPPORT. Tests: the well-formedness checks refuse, words written out from the spec's encodings decode, one step of each kind, and for
every statement that has hypotheses a state that meets them. Expected values are taken from the spec, by the examples and tables named. -/

namespace Sys2Proof.Tests
set_option Elab.async false
open Sys2Proof.Machine

/-! ### Small states -/

/-- No flag, no wait, no stall. -/
def c0 : Ctl := { yld := false, setf := 15, wait := 0, stall := 0 }
/-- The predicate K0: every lane (R11). -/
def p0 : Pred := { pg := 0, pn := false }

/-- One gang, about to issue a NOP, as the placing of a word leaves it (log 1). -/
def loaded : State := State.reset.withFetchWord 96 0x780000000000000000000080

/-- The same gang and its one split in focus. -/
def s0 : State := match loaded.issuer with
  | some (g, sp) => loaded.focusOn g.uid sp.sid sp.pc
  | none => loaded

/-- `i` issues in `s` (Safety.lean, Issues), and `P` holds of the focus, the gang and the split that it finds. -/
def holdsAt (s : State) (i : Instr) (P : Focus → Gang → Split → Bool) : Bool :=
  match i.ctl?, s.focus with
  | some c, some f =>
    match s.gang? f.uid with
    | some g =>
      match g.split? f.sid with
      | some sp =>
        !f.moved && g.status == .active && g.trap == none && (f.second || (g.unwaiting && g.ready s.clock c)) &&
          (!decide (c.setf.toNat < 12) || decide (g.counter c.setf.toNat < 63)) && !g.fabTrap c && !illegalUse s g sp f.pc i &&
          (f.second || !waitsAtIssue s g sp f.pc i) && (!isBarrier i || !g.diverged) && s.flawOf g.uid i == none && P f g sp
      | none => false
    | none => false
  | _, _ => false

theorem holdsAt_issues {s : State} {i : Instr} {P : Focus → Gang → Split → Bool} (h : holdsAt s i P = true) :
    ∃ c f g sp, i.ctl? = some c ∧ Issues i c s f g sp ∧ P f g sp = true := by
  unfold holdsAt at h
  split at h
  · rename_i c f hc hf
    split at h
    · rename_i g hg
      split at h
      · rename_i sp hsp
        simp only [Bool.and_eq_true, Bool.or_eq_true, Bool.not_eq_true', beq_iff_eq, decide_eq_true_eq, decide_eq_false_iff_not] at h
        obtain ⟨⟨⟨⟨⟨⟨⟨⟨⟨⟨h1, h2⟩, h3⟩, h4⟩, h5⟩, h6⟩, h7⟩, h8⟩, h9⟩, h10⟩, hP⟩ := h
        refine ⟨c, f, g, sp, hc, ⟨hf, hg, hsp, h1, h2, h3, h4, ?_, h6, h7, h8, ?_, h10⟩, hP⟩
        · intro hlt
          exact h5.resolve_left (fun hn => hn hlt)
        · intro hb
          rcases h9 with h9 | h9
          · rw [hb] at h9; cases h9
          · exact h9
      · cases h
    · cases h
  · cases h

/-- `i` issues in `s`. -/
def issuesAt (s : State) (i : Instr) : Bool := holdsAt s i fun _ _ _ => true

/-- The state with its one gang changed. -/
def chg (s : State) (f : Gang → Gang) : State := { s with gangs := s.gangs.map f }

/-- All the scalar and vector functions that are not divisions, and those that are. -/
def sFns : List SFn := [.add, .sub, .mul, .mulhi, .mulhu, .and, .or, .xor, .andn, .shl, .shr, .sar, .min, .max, .minu, .maxu]
def vFns : List VFn := [.add, .sub, .mul, .mulhi, .mulhu, .and, .or, .xor, .andn, .shl, .shr, .sar, .min, .max, .minu, .maxu, .adds, .subs]
/-- The division trap enabled, and V3 zero (R175). -/
def sIdz : State := chg s0 fun g => { g with trapen := 1, v := [(3, Vector.replicate 32 0)] }

/-! ### States that meet the hypotheses: scalar, vector and floating-point instructions -/

theorem hyp_ScalarInstructions : (sFns.all fun f => issuesAt s0 (saluInstr f c0 1 2 3) && issuesAt s0 (.salui c0 f 1 2 5)) = true ∧
    [Instr.spopc c0 1 2, .sclz c0 1 2, .sctz c0 1 2, .smov c0 1 2, .ssel c0 1 2 3 4, .smovi c0 1 7, .smoviz c0 1 7, .smovhi c0 1 7,
      .scmp c0 .lt 1 2 3, .scmpi c0 .geu 1 2 3].all (issuesAt s0) = true := by decide +kernel

theorem hyp_IntegerDivision : ([SFn.div, .divu, .rem, .remu].all fun f => issuesAt s0 (saluInstr f c0 1 2 3) && issuesAt s0 (.salui c0 f 1 2 0) &&
      holdsAt sIdz (saluInstr f c0 1 2 3) (fun _ g _ => g.trapen.getLsbD 0 && g.sr 3 == 0) && issuesAt sIdz (.salui c0 f 1 2 0)) = true ∧
    ([VFn.div, .divu, .rem, .remu].all fun f => issuesAt s0 (valuInstr f c0 p0 false 0 1 2 3) && issuesAt s0 (.valui c0 p0 f false 1 2 4 0) &&
      holdsAt sIdz (valuInstr f c0 p0 false 0 1 2 3) (fun _ g sp => (takes g sp p0).getLsbD 0 && g.elem 0 3 0 0 == 0) &&
      issuesAt sIdz (.valui c0 p0 f false 0 1 2 0) && issuesAt sIdz (.valui c0 p0 f false 0 1 2 9)) = true ∧
    ((BitVec.intMin 32).toInt < 0 ∧ (7#32 : BitVec 32) ≠ 0) := by decide +kernel

theorem hyp_MaskOperations : [Instr.kand c0 1 2 3, .kor c0 1 2 3, .kxor c0 1 2 3, .kandn c0 1 2 3, .knot c0 1 2, .kmov c0 1 2, .kfroms c0 1 2,
    .kpopc c0 1 2, .kffs c0 1 2, .ktos c0 1 2].all (issuesAt s0) = true := by decide +kernel

theorem hyp_VectorArithmetic : ((vFns.all fun f => [false, true].all fun u => [(0 : BitVec 2), 1, 2, 3].all fun w =>
      (issuesAt s0 (valuInstr f c0 p0 u w 2 4 6) && (u && f != .adds && f != .subs || issuesAt s0 (.valui c0 p0 f u w 2 4 5))))) = true := by
  decide +kernel

theorem hyp_VectorUnaryAndCompare : [Instr.vmad c0 p0 0 1 2 3 4, .vabs c0 p0 1 2 4, .vneg c0 p0 2 1 2, .vpopc c0 p0 3 1 2, .vclz c0 p0 0 1 2,
    .vsel c0 p0 0 1 2 3 4, .vmov c0 p0 1 2 4, .vfroms c0 p0 1 2 3, .sfromv c0 p0 0 1 2 3, .vcmp c0 p0 .eq 0 1 2 3, .vcmp c0 p0 .ltu 1 1 2 4,
    .vcmpi c0 p0 .gt 0 1 2 3].all (issuesAt s0) = true := by decide +kernel

theorem hyp_FloatArithmetic : ([(0 : BitVec 2), 1, 2, 3].all fun w => [Instr.vfadd c0 p0 0 w 2 4 6, .vfsub c0 p0 1 w 2 4 6, .vfmul c0 p0 2 w 2 4 6,
      .vfma c0 p0 3 w 2 4 6 8, .vfms c0 p0 0 w 2 4 6 8, .vfnma c0 p0 0 w 2 4 6 8, .vfmin c0 p0 w 2 4 6, .vfmax c0 p0 w 2 4 6, .vfabs c0 p0 w 2 4,
      .vfneg c0 p0 w 2 4, .vfclass c0 p0 w 2 4, .vfscale c0 p0 0 w 2 4 6, .vfrint c0 p0 0 w 2 4, .vfdiv c0 p0 0 w 2 4 6, .vfsqrt c0 p0 0 w 2 4].all
        (issuesAt s0)) = true ∧
    ([(0 : BitVec 2), 2, 3].all fun w => [Instr.vfrcp c0 p0 0 w 1 2, .vfrsq c0 p0 0 w 1 2, .vfexp2 c0 p0 0 w 1 2, .vflog2 c0 p0 0 w 1 2].all
      (issuesAt s0)) = true ∧
    ([0, 1, 2, 3].all fun rm => FVal.ofBits fF16 (roundMag fF16 rm false 2049 0 false).bits == .fin false (if rm == 3 then 1025 else 1024) 1) = true ∧
    FVal.ofBits fF32 (roundMag fF32 0 false 1 200 false).bits = .inf false ∧ FVal.ofBits fF32 0x3F800000 = .fin false 8388608 (-23) ∧
    FVal.ofBits fF32 0xC0400000 = .fin true 12582912 (-22) ∧ (8388608 : Nat) = 2 ^ 23 ∧ 8388608 * 2 ^ ((-23 : Int)).toNat = 1 * 2 ^ (23 : Int).toNat ∧
    FVal.ofBits fF32 0xFF800000 = .inf true ∧ FVal.ofBits fF32 0x80000000 = .fin true 0 (-149) ∧ Truncates 2 false := by
  refine ⟨by decide +kernel, by decide +kernel, by decide +kernel, by decide +kernel, by decide +kernel, by decide +kernel, by decide, by decide, by decide +kernel,
    by decide +kernel, .inr (.inl ⟨rfl, rfl⟩)⟩

theorem hyp_FloatConversionsAndSpecialValues : [Instr.vfcmp c0 p0 .eq 0 1 2 3, .vfcmp c0 p0 .lt 1 1 2 4, .vcvt c0 p0 false 3 0 0 1 8 2 0,
      .vcvt c0 p0 true 4 8 0 0 1 2 0, .vcvt c0 p0 false 0 12 0 2 1 2 5, .vcvt c0 p0 false 1 0 0 0 2 3 0].all (issuesAt s0) = true ∧
    ((FVal.ofBits fF32 0x7FC00000).isNan = true ∧ (FVal.ofBits fF32 0).isZero = true ∧ FVal.ofBits fF32 0x7F800000 = .inf false ∧
      FVal.ofBits fF32 0xFF800000 = .inf true ∧ (∃ n m e, FVal.ofBits fF32 0xBF800000 = .fin n m e ∧ m ≠ 0 ∧ n = true)) := by
  refine ⟨by decide +kernel, by decide, by decide, rfl, rfl, _, _, _, rfl, by decide, rfl⟩

theorem hyp_LaneOperations : [Instr.vshuf c0 p0 1 2 4 5, .vbcast c0 p0 0 1 2 3, .vrot c0 p0 0 1 2 31, .vmatch c0 p0 0 1 2, .vreduce c0 p0 0 0 0 1 2,
      .vreduce c0 p0 1 5 2 1 2, .vscan c0 p0 0 0 0 1 2, .vscan c0 p0 0 7 3 1 2].all (issuesAt s0) = true ∧
    holdsAt (chg s0 fun g => { g with table := g.table.map fun x => { x with exec := 0 } }) (.vreduce c0 p0 0 0 0 1 2) (fun _ g sp => takes g sp p0 == 0) = true ∧
    holdsAt s0 (.vreduce c0 p0 0 0 0 1 2) (fun _ g sp => takes g sp p0 != 0) = true := by decide +kernel

/-! ### Control -/

/-- A second split beside the one in focus, below a join (R12). -/
def sTwo : State := chg s0 fun g => { g with table := g.table.flatMap fun x =>
  [{ x with kind := .join, sid := 90, exec := 2, pc := x.pc + 60, rpc := 0 }, { x with exec := 0x0000FFFF, depth := 1, rpc := x.pc + 60 },
   { x with sid := 91, exec := 0xFFFF0000, depth := 1, rpc := x.pc + 60, latch := none }] }

/-- An open region at the instruction in focus, with `n` stores held back (R24 to R28). -/
def inRegion (n : Nat) : State := chg s0 fun g => { g with region := some {
  head := 0x10000000, vb := 0, mask := 0xFF, opb := [], snapS := g.s, snapK := g.k, snapE := 0xFFFFFFFF, snapF := 0
  buf := (List.range n).map fun _ => { setf := 15, ip := 0x10000000, body := .store [] .store }, lines := [], count := n, comm := none
  stage := .opened, after := .succ, op := 0 } }

theorem hyp_GangControlAndExit : [Instr.nop c0, .pause c0 0, .pause c0 9, .waitf c0 3 1, .sget c0 0 1, .sget c0 5 1, .setfmt c0 0x11, .getfmt c0 1,
      .setexec c0 1, .getexec c0 1, .sset c0 9 1, .sset c0 10 1, .sset c0 11 1].all (issuesAt s0) = true ∧
    holdsAt s0 (.exit c0) (fun _ g sp => g.region == none && g.table == [sp]) = true ∧
    holdsAt (chg sTwo fun g => { g with tl := 1 }) (.setexec c0 1) (fun _ g _ => g.diverged && g.tl == 1) = true ∧ issuesAt sTwo (.setexec c0 1) = true ∧
    holdsAt sTwo (.exit c0) (fun f g _ => g.tl == 0 && decide (g.table.map (·.sid)).Nodup && endEntry 65 g.table (splitIdx g.table f.sid) != []) = true := by
  decide +kernel

theorem hyp_SoftwareTraps : [Instr.trap c0 7, .brk c0 7].all (issuesAt s0) = true := by decide +kernel

/-- The instruction stands in focus of a gang that could issue it were it legal. -/
def turnAt (s : State) (i : Instr) (P : Focus → Gang → Split → Bool) : Bool :=
  match i.ctl?, s.focus with
  | some c, some f => (s.gang? f.uid).any fun g => (g.split? f.sid).any fun sp => g.status == .active && g.trap == none && g.unwaiting &&
      g.ready s.clock c && !g.fabTrap c && (s.ctxs.map (·.num)).contains g.ctx && P f g sp
  | _, _ => false

theorem hyp_IllegalUses : turnAt s0 (.vadd c0 p0 1 1 2 4) (fun _ g _ => !(Instr.vadd c0 p0 1 1 2 4).wf && g.cohort == none) = true ∧
    turnAt (chg s0 fun g => { g with vblocks := 1 }) (.vadd c0 p0 0 1 2 32) (fun _ g _ => (vregs (.vadd c0 p0 0 1 2 32)).any fun n => decide (32 * g.vblocks ≤ n)) = true ∧
    turnAt (chg s0 fun g => { g with tl := 1 }) (.bar c0) (fun _ g _ => decide (0 < g.tl)) = true ∧
    ([Instr.brx c0 false 1 ⟨0, 0⟩ ⟨0, 1⟩, .call c0 (.direct ⟨0, 0⟩), .ret c0 1, .jmp c0 (.indirect 1)].all fun i => turnAt (inRegion 0) i fun _ g _ => g.region.isSome) = true ∧
    turnAt (inRegion 0) (.jmp c0 (.direct ⟨-1, 0⟩)) (fun f g _ => (g.region.any fun r => target f.pc ⟨-1, 0⟩ != r.head) &&
      decide ((target f.pc ⟨-1, 0⟩).toNat ≤ f.pc.toNat)) = true ∧
    turnAt s0 (.rcommit c0) (fun _ g _ => g.region == none) = true ∧ turnAt s0 (.rabort c0) (fun _ g _ => g.region == none) = true ∧
    ([Instr.bar c0, .join c0 3 1, .hold c0 true 3 1 0, .stashFlush c0 3 1, .qpop c0 3 2, .gqry c0 3 1, .mzero c0 3, .mrel c0 1, .confx c0 p0 true 1 8 2 5 0,
      .collGet c0 p0 1 2 0 3 4 0].all fun i => turnAt (inRegion 0) i fun _ g _ => g.region.isSome) = true ∧
    turnAt (chg (inRegion 0) fun g => { g with region := g.region.map fun r => { r with comm := some 5 } }) (.collPut c0 p0 1 2 0 3 4 0)
      (fun _ g _ => g.region.any fun r => r.comm == some 5 && (g.sr 2).toNat % 256 != 5) = true ∧
    turnAt (inRegion 0) (.vadd c0 p0 0 1 2 9) (fun _ g _ => g.region.any fun r => (vregs (.vadd c0 p0 0 1 2 9)).any fun n => !r.mask.getLsbD (n - r.vb.toNat)) = true ∧
    turnAt sTwo (.region c0 0 1) (fun _ g _ => g.table.any fun x => x.kind == .join) = true ∧
    ([0x1FFFFFFFF, 0x8000000000000000].all fun m => turnAt (chg s0 fun g => { g with vblocks := 1, s := g.s.set! 1 m }) (.region c0 0 1) fun _ g _ => g.pend == [] && (List.range 12).all (fun k => g.counter k == 0) &&
      (decide (32 < ((List.range 64).filter fun j => (g.sr 1).getLsbD j).length) || (List.range 64).any fun j => (g.sr 1).getLsbD j && decide (32 * g.vblocks ≤ j))) = true := by decide +kernel

/-- The branch tests read K1 as given, and S1 as a return address. -/
def sBr (k : W32) (a : W64) : State := chg s0 fun g => { g with k := g.k.set! 1 k, s := g.s.set! 1 a }

theorem hyp_Branches :
    (let ok := fun (f : Focus) => (slotOf (target f.pc ⟨1, 2⟩)).isSome && decide ((target f.pc ⟨1, 2⟩).toNat < lwin)
     holdsAt (sBr 0 0) (.bra c0 0 1 ⟨1, 2⟩) (fun _ g sp => g.kr 1 &&& sp.exec == 0) = true ∧
     holdsAt (sBr 1 0) (.bra c0 0 1 ⟨1, 2⟩) (fun f g sp => g.kr 1 &&& sp.exec != 0 && g.region == none && ok f) = true ∧
     holdsAt (sBr (-1) 0) (.bra c0 1 1 ⟨1, 2⟩) (fun f g sp => g.kr 1 &&& sp.exec == sp.exec && ok f) = true ∧
     holdsAt (sBr 0 0) (.bra c0 2 1 ⟨1, 2⟩) (fun f g sp => g.kr 1 &&& sp.exec == 0 && ok f) = true ∧
     holdsAt s0 (.bra c0 3 0 ⟨1, 2⟩) (fun f _ _ => ok f) = true ∧
     ([Instr.jmp c0 (.direct ⟨1, 2⟩), .call c0 (.direct ⟨1, 2⟩)].all fun i => holdsAt s0 i fun f _ _ => ok f) = true ∧
     ([Instr.jmp c0 (.indirect 1), .call c0 (.indirect 1), .ret c0 1].all fun i => holdsAt (sBr 0 0x1000000C) i fun _ g _ =>
       (slotOf (g.sr 1)).isSome && decide ((g.sr 1).toNat < lwin)) = true ∧
     ([Instr.jmp c0 (.indirect 1), .call c0 (.indirect 1), .ret c0 1].all fun i => holdsAt (sBr 0 0x10000001) i fun _ g _ => (slotOf (g.sr 1)).isNone) = true ∧
     (let low := fun (s : State) => { chg s fun g => { g with table := g.table.map fun x => { x with pc := 0 } } with focus := s.focus.map fun f => { f with pc := 0 } }
      ([Instr.bra c0 3 0 ⟨-1, 0⟩, .jmp c0 (.direct ⟨-1, 0⟩), .call c0 (.direct ⟨-1, 0⟩), .brx c0 false 1 ⟨-1, 0⟩ ⟨1, 0⟩].all fun i => holdsAt (low s0) i fun f g _ =>
        g.region == none && (s0.ctxs.map (·.num)).contains g.ctx && decide (lwin ≤ (target f.pc ⟨-1, 0⟩).toNat)) = true)) ∧
    (let i := Instr.brx c0 false 1 ⟨1, 2⟩ ⟨2, 0⟩
     let ok := fun (f : Focus) => (slotOf (target f.pc ⟨1, 2⟩)).isSome && (slotOf (target f.pc ⟨2, 0⟩)).isSome
     holdsAt (chg (sBr 0 0) fun g => { g with table := g.table.map fun x => { x with exec := 0 } }) i (fun f _ sp => ok f && sp.exec == 0) = true ∧
     holdsAt (sBr (-1) 0) i (fun f _ sp => ok f && sp.exec != 0) = true ∧ holdsAt (sBr 0 0) i (fun f _ sp => ok f && sp.exec != 0) = true ∧
     holdsAt (chg (sBr 7 0) fun g => { g with table := g.table.map fun x => { x with depth := 64 } }) i (fun f _ sp => ok f && sp.depth == 64) = true ∧
     holdsAt (sBr 7 0) i (fun f _ sp => ok f && decide (sp.depth.toNat < 64)) = true) := by decide +kernel

theorem hyp_Regions : issuesAt (sBr 0 0xFF) (.region c0 0 1) = true ∧
    ([Instr.rcommit c0, .rabort c0].all fun i => holdsAt (inRegion 0) i fun _ g _ => (g.region.any fun r => r.buf == []) &&
      ((inRegion 0).core g.loc.die g.loc.core).arbQ == [] && ((inRegion 0).core g.loc.die g.loc.core).grant == none) = true ∧
    ([Instr.rcommit c0, .exit c0].all fun i => holdsAt (inRegion 1) i fun _ g _ => g.region.any fun r => r.buf != []) = true ∧
    holdsAt (inRegion 0) (.bra c0 3 0 ⟨0, 0⟩) (fun f g _ => g.region.any fun r => target f.pc ⟨0, 0⟩ == r.head) = true ∧
    holdsAt (inRegion 0) (.jmp c0 (.direct ⟨0, 0⟩)) (fun f g _ => g.region.any fun r => target f.pc ⟨0, 0⟩ == r.head) = true ∧
    holdsAt (inRegion 0) (.exit c0) (fun _ g sp => g.table == [sp] && (inRegion 0).ops == []) = true := by decide +kernel

/-! ### Cohorts, claims of registers, traps -/

/-- The home core of the gang changed. -/
def home (s : State) (f : Core → Core) : State := s.onCore 0 0 f

/-- The gang in cohort 3 of its core, with another member that has arrived, and a pool of `n` blocks. -/
def inCohort (n : Nat) (arrived : List Nat) : State :=
  home (chg s0 fun g => { g with cohort := some 3, lastArr := some 0 }) fun k =>
    { k with cohorts := [{ num := 3, ctx := 0, members := (s0.gangs.map (·.uid)) ++ [77], arrived := arrived, phase := 0, pool := n }] }

/-- The uid of the one gang. -/
def u0 : Nat := (s0.gangs.map (·.uid)).headD 0

/-- A second gang of the same cohort, in another slot. -/
def withMate (s : State) : State := { s with gangs := s.gangs ++ s.gangs.map fun g => { g with uid := 77, loc := { g.loc with slot := 1 } } }

theorem hyp_CohortMembership : holdsAt (inCohort 0 []) (.join c0 1 2) (fun _ g _ => g.cohort != none) = true ∧
    holdsAt (home s0 fun k => { k with cohorts := [{ num := 2, ctx := 5, members := [77], arrived := [], phase := 0, pool := 0 }] }) (.join c0 1 2)
      (fun _ g _ => g.cohort == none && ((home s0 fun k => { k with cohorts := [{ num := 2, ctx := 5, members := [77], arrived := [], phase := 0, pool := 0 }] }).cohort?
        g.loc.die g.loc.core 2).any fun x => x.ctx != g.ctx) = true ∧
    holdsAt s0 (.join c0 1 2) (fun _ g _ => g.cohort == none && s0.cohort? g.loc.die g.loc.core 2 == none) = true ∧
    holdsAt s0 (.leave c0) (fun _ g _ => g.cohort == none) = true ∧ holdsAt (inCohort 0 []) (.leave c0) (fun _ g _ => g.cohort == some 3) = true := by
  decide +kernel

theorem hyp_Barriers : ([Instr.bar c0, .bara c0, .barw c0].all fun i => holdsAt s0 i fun _ g _ => g.cohort == none) = true ∧
    ([Instr.bar c0, .bara c0, .barw c0].all fun i => holdsAt (inCohort 0 [77]) i fun _ g _ => g.cohort == some 3 &&
      ((inCohort 0 [77]).cohort? g.loc.die g.loc.core 3).any (fun k => !k.arrived.contains g.uid) && (inCohort 0 [77]).waitingClaims g.loc.die g.loc.core == [] &&
      (inCohort 0 [77]).waitingQuotas g.loc.die g.loc.core 3 == []) = true ∧
    ([Instr.bar c0, .bara c0].all fun i => holdsAt (inCohort 0 [u0]) i fun _ g _ => g.cohort == some 3 &&
      ((inCohort 0 [u0]).cohort? g.loc.die g.loc.core 3).any (fun k => k.arrived.contains g.uid) && (inCohort 0 [u0]).waitingClaims g.loc.die g.loc.core == [] &&
      (inCohort 0 [u0]).waitingQuotas g.loc.die g.loc.core 3 == []) = true ∧
    holdsAt (inCohort 0 [u0]) (.barw c0) (fun _ g _ => g.lastArr == some 0 && ((inCohort 0 [u0]).cohort? g.loc.die g.loc.core 3).any (fun k =>
      k.arrived.contains g.uid && k.phase == 0)) = true := by decide +kernel

theorem hyp_RegisterQuota :
    (let small := fun (s : State) => chg s fun g => { g with vblocks := 2, vseeds := [0, 1] }
     holdsAt s0 (.rquota c0 1 256) (fun _ g _ => g.vblocks == 8) = true ∧ holdsAt s0 (.rquota c0 1 64) (fun _ g _ => g.cohort == none && decide (g.vblocks ≤ g.vseeds.length)) = true ∧
     holdsAt (inCohort 0 []) (.rquota c0 1 64) (fun _ g _ => g.cohort == some 3 && ((inCohort 0 []).cohort? g.loc.die g.loc.core 3).isSome) = true ∧
     holdsAt (small s0) (.rquota c0 1 96) (fun _ g _ => g.cohort == none && decide (96 / 32 > g.vblocks)) = true ∧
     holdsAt (small (inCohort 1 [])) (.rquota c0 1 96) (fun _ g _ => decide (g.vblocks ≤ g.vseeds.length) && ((inCohort 1 []).cohort? g.loc.die g.loc.core 3).any (·.pool ≥ 1)) = true ∧
     holdsAt (withMate (small (inCohort 0 []))) (.rquota c0 1 96) (fun _ g _ => (withMate (small (inCohort 0 []))).waitingClaims g.loc.die g.loc.core == [] &&
       (withMate (small (inCohort 0 []))).waitingQuotas g.loc.die g.loc.core 3 == [] && ((withMate (small (inCohort 0 []))).gang? 77).any (fun x => x.wait == none)) = true ∧
     (let s0' := withMate (small (inCohort 0 []))
      let s : State := { s0' with gangs := s0'.gangs.map fun g => if g.uid == 77 then { g with wait := some .regroup } else g }
      holdsAt s (.rquota c0 1 96) (fun _ g _ => decide (96 / 32 > g.vblocks) && g.cohort == some 3 && s.waitingClaims g.loc.die g.loc.core == [] &&
        s.waitingQuotas g.loc.die g.loc.core 3 == [] && s.ops == [] && (s.cohort? g.loc.die g.loc.core 3).any fun k => k.pool == 0 &&
          k.members.all fun u => u == g.uid || (s.gang? u).all fun x => x.wait == some .regroup) = true)) := by
  decide +kernel

/-- The gang in a handler at level 1, entered for a pre-emption (R316, R326). -/
def inHandler : State := chg s0 fun g => { g with tl := 1, t1 := { g.t1 with cause := 0x0C, ret := 0x1000000C } }

theorem hyp_SystemInstructions : [Instr.sysget c0 0x11 1, .sysget c0 0x60 1, .sysset c0 0x11 1, .tlbinv c0 1 2, .pgpool c0 1 2].all (issuesAt inHandler) = true ∧
    issuesAt (chg inHandler fun g => { g with t1 := { g.t1 with cause := 0x010C } }) (.sysset c0 0x60 1) = true ∧
    (s0.gangs.any fun g => g.rst == [] && g.tl == 0 && g.table.length == 1) = true ∧ (s0.gangs.any fun g => lookup g.q 3 == none) = true ∧
    ((chg s0 fun g => { g with stash := { mapped := true, va := 0x2000000F, wr := false, frame := none, data := [], lines := [], stored := [] } :: g.stash.drop 1 }).gangs.any fun g =>
      g.stash[0]?.any (·.mapped)) = true ∧
    holdsAt inHandler (.kill c0 7) (fun _ g _ => (inHandler.ctx g.ctx).killed == false && (inHandler.ctxs.map (·.num)).contains g.ctx) = true ∧
    holdsAt (chg inHandler fun g => { g with s := g.s.set! 1 8 }) (.idle c0 1) (fun _ g _ => decide ((g.sr 1).toNat % 4096 ≠ 0)) = true ∧
    holdsAt (chg inHandler fun g => { g with s := g.s.set! 1 0x20000000 }) (.idle c0 1) (fun f g _ => decide ((g.sr 1).toNat % 4096 = 0) &&
      (match ((chg inHandler fun g => { g with s := g.s.set! 1 0x20000000 }).setGang (g.issued inHandler.clock c0 f)).checkLanes (g.issued inHandler.clock c0 f)
        { plainNeed .store 128 with window := false } ((List.range 320).map fun i => (32, 0x20000000 + 128 * i)) with | (_, .ok _) => true | _ => false)) = true := by
  decide +kernel

/-- A cause `q` stands to be taken at level `l` + 1, and both vectors are set. -/
def trapped (l : Nat) (cause : BitVec 8) (reg : Bool) (s : State) : State :=
  let s := s.onCtx 0 fun c => { c with tvec1 := 0x20000000, tvec2 := 0x2000000C }
  chg s fun g => { g with tl := l, trap := some { cause := cause, sub := 0, code := 0, lane := 0, ip := 0x10000000, ret := 0x10000000, va := 0, sid := 0, reg := reg } }

/-- The gang at its place, with its trap and the split that raised it. -/
def trapAtHand (s : State) (P : Gang → TrapReq → Bool) : Bool :=
  s.gangs.any fun g => s.gangAt g.loc == some g && s.gang? g.uid == some g && g.trap.any fun q => (g.split? q.sid).isSome && P g q

theorem hyp_TrapEntry : trapAtHand (trapped 0 causeTRAPI false s0) (fun g q => g.region == none && !q.reg && g.settled) = true ∧
    trapAtHand (trapped 1 causePROT false s0) (fun g q => g.region == none && !q.reg && g.settled) = true ∧
    trapAtHand (trapped 0 causeTRAPI true (inRegion 0)) (fun g q => g.region.isSome && q.reg && g.quiet) = true ∧
    trapAtHand (trapped 0 causeXLATE false s0) (fun g _ => g.tl == 0 && g.settled && g.move != .toRead) = true ∧
    trapAtHand (trapped 0 causeXLATE true (inRegion 0)) (fun g _ => g.tl == 0 && g.region.isSome && g.quiet && g.move != .toRead) = true ∧
    trapAtHand (chg (trapped 0 causePREEMPT false s0) fun g => { g with move := .toRead }) (fun g _ => g.move == .toRead) = true ∧
    trapAtHand (trapped 2 causePROT false s0) (fun g _ => g.tl == 2 && ((trapped 2 causePROT false s0).ctxs.map (·.num)).contains g.ctx &&
      !((trapped 2 causePROT false s0).ctx g.ctx).killed) = true ∧
    trapAtHand ((trapped 0 causePROT false s0).onCtx 0 fun c => { c with tvec1 := 0 }) (fun g _ => g.tl == 0) = true ∧
    trapAtHand (chg (trapped 0 causePROT false s0) fun g => { g with fc := g.fc.set! 0 1 }) (fun g _ => !g.settled && g.region == none) = true ∧
    trapAtHand (chg (trapped 0 causePROT true (inRegion 0)) fun g => { g with fc := g.fc.set! 0 1 }) (fun g _ => !g.quiet && g.region != none) = true ∧
    ((slotOf 0x20000000).isSome = true ∧ (0x20000000#64 : W64).toNat < lwin) := by decide +kernel

theorem hyp_TrapReturn : holdsAt inHandler (.eret c0) (fun _ g _ => g.rst == [] && (slotOf (g.tregs g.tl).ret).isSome && decide ((g.tregs g.tl).ret.toNat < lwin)) = true ∧
    holdsAt (chg inHandler fun g => { g with t1 := { g.t1 with ret := 1 } }) (.eret c0) (fun _ g _ => g.rst == [] && (slotOf (g.tregs g.tl).ret).isNone) = true := by decide +kernel

theorem hyp_SystemPrivilege : ([Instr.sysget c0 0x11 1, .sysset c0 0x11 1, .tlbinv c0 1 2, .kill c0 7, .idle c0 1, .pgpool c0 1 2, .eret c0].all fun i =>
    turnAt s0 i fun _ g _ => g.tl == 0 && !(s0.ctx g.ctx).priv) = true ∧
    turnAt (s0.onCtx 0 fun c => { c with priv := true }) (.eret c0) (fun _ g _ => g.tl == 0) = true := by decide +kernel

/-! ### Memory -/

/-- S1 holds an address. -/
def at1 (a : W64) (s : State) : State := chg s fun g => { g with s := g.s.set! 1 a }
/-- Byte, halfword, word, doubleword and quadword operands at S1. -/
def m1 (wid : BitVec 3) : MemOp := { pol := 0, scl := 0, sx := false, wid := wid, base := 1, off := 0xFF, disp := 0 }
def q1 (wid scope : BitVec 3) : ScopedOp := { scl := 0, wid := wid, base := 1, off := 0xFF, scope := scope, disp := 0 }

/-- Every lane passes its checks, or the first that fails gives `e`. -/
def passes (s : State) (need : Need) (lanes : Focus → Gang → Split → List (Nat × Nat)) (f : Focus) (g : Gang) (sp : Split) (fail : Option AccFail) : Bool :=
  match (s.setGang (g.issued s.clock c0 f)).checkLanes (g.issued s.clock c0 f) need (lanes f g sp), fail with
  | (_, .ok _), none => true
  | (_, .error e), some x => e == x
  | _, _ => false

theorem hyp_Loads : (let s := at1 0x20000000 s0
    ([(0 : BitVec 3), 1, 2, 3, 4].all fun w => holdsAt s (.vld c0 p0 4 (m1 w)) (fun f g sp => passes s (plainNeed .load (widBytes w)) (fun _ g sp => lanesAt (m1 w) g sp p0) f g sp none) &&
      holdsAt s (.vldc c0 p0 4 2 (m1 w)) (fun f g sp => passes s (guardedNeed .load (widBytes w)) (fun _ g sp => lanesAt (m1 w) g sp p0) f g sp none)) = true ∧
    ([(0 : BitVec 3), 1, 2, 3, 4, 5].all fun o => holdsAt s (.ldacq c0 p0 4 false (q1 2 o)) (fun f g sp =>
      passes s (orderedNeed .load 4) (fun _ g sp => scopedAt (q1 2 o) g sp p0) f g sp none)) = true ∧
    holdsAt s (.sld c0 2 (m1 3)) (fun f g sp => passes s (plainNeed .load 8) (fun _ g _ => [(32, ((g.sr 1) + 0).toNat)]) f g sp none) = true) := by decide +kernel

theorem hyp_Stores : (let s := at1 0x20000000 s0
    ([(0 : BitVec 3), 1, 2, 3, 4].all fun w => holdsAt s (.vst c0 p0 4 (m1 w)) (fun f g sp => g.region == none &&
        passes s (plainNeed .store (widBytes w)) (fun _ g sp => lanesAt (m1 w) g sp p0) f g sp none) &&
      holdsAt (at1 0x20000010 s0) (.vstc c0 p0 4 2 (m1 w)) (fun f g sp => passes (at1 0x20000010 s0) (guardedNeed .store (widBytes w)) (fun _ g sp => lanesAt (m1 w) g sp p0) f g sp none)) = true ∧
    holdsAt s (.strel c0 p0 4 (q1 2 3)) (fun f g sp => passes s (orderedNeed .store 4) (fun _ g sp => scopedAt (q1 2 3) g sp p0) f g sp none) = true ∧
    holdsAt s (.sst c0 2 (m1 3)) (fun f g sp => passes s (plainNeed .store 8) (fun _ g _ => [(32, ((g.sr 1) + 0).toNat)]) f g sp none) = true) ∧
    ([1, 64].all fun n =>
      let s := fun a => at1 a (chg (inRegion 1) fun g => { g with region := g.region.map fun r => { r with count := n } })
      let has := fun (g : Gang) => g.region.any fun r => r.count == n && r.lines == []
      holdsAt (s 0x20000000) (.vst c0 p0 4 (m1 2)) (fun f g sp => has g && passes (s 0x20000000) (plainNeed .store 4) (fun _ g sp => lanesAt (m1 2) g sp p0) f g sp none) &&
      holdsAt (s 0x20000010) (.vstc c0 p0 4 2 (m1 2)) (fun f g sp => has g && passes (s 0x20000010) (guardedNeed .store 4) (fun _ g sp => lanesAt (m1 2) g sp p0) f g sp none) &&
      holdsAt (s 0x20000000) (.sst c0 2 (m1 3)) (fun f g sp => has g && passes (s 0x20000000) (plainNeed .store 8) (fun _ g _ => [(32, ((g.sr 1) + 0).toNat)]) f g sp none)) = true := by
  decide +kernel

/-- The one leaf of the page tables (log 1) with other attribute bits. -/
def leaf (b : Byte) : State := { s0 with mem := memWrite s0.mem 0x50001000 b }

theorem hyp_AccessChecks :
    (let s := at1 0x20000001 s0
     holdsAt s (.vld c0 p0 4 (m1 4)) (fun f g sp => passes s (plainNeed .load 16) (fun _ g sp => lanesAt (m1 4) g sp p0) f g sp (some ⟨0, 0x20000001, causeALIGN⟩)) = true) ∧
    (let s := at1 0x40000000000 s0
     holdsAt s (.vst c0 p0 4 (m1 2)) (fun f g sp => g.tl == 0 && g.region == none &&
       passes s (plainNeed .store 4) (fun _ g sp => lanesAt (m1 2) g sp p0) f g sp (some ⟨0, 0x40000000000, causeXLATE⟩)) = true) ∧
    (let s := at1 0x40000000000 inHandler
     holdsAt s (.vld c0 p0 4 (m1 2)) (fun f g sp => g.tl != 0 &&
       passes s (plainNeed .load 4) (fun _ g sp => lanesAt (m1 2) g sp p0) f g sp (some ⟨0, 0x40000000000, causeXLATE⟩)) = true) ∧
    (let open' := fun (s : State) => s.gangs.all fun g => s.gang? g.uid == some g && g.stashOver 0x20000000 == none && g.lanePg == [] && (s.core g.loc.die g.loc.core).tlb == [] &&
       (s.core g.loc.die g.loc.core).walkc == [] && s.txns == [] && !g.hasDirty
     open' s0 = true ∧ s0.walk 0 0x40000000000 = none ∧ s0.walk 0 0x20000000 = some (2, 0x1F) ∧ (leaf 0x1B).walk 0 0x20000000 = some (2, 0x1B) ∧ open' (leaf 0x1B) = true ∧
     (leaf 0x17).walk 0 0x20000000 = some (2, 0x17) ∧ pteR 0x1B = false ∧ pteW 0x17 = false ∧ ptePend 0x17 = false ∧ pteR 0x1F = true ∧ pteW 0x1F = true ∧
     ptePeer 0x1F = false ∧ pteHost 0x1F = false ∧ s0.inFwin (s0.ctx 0).ten (pteFrame 0x1F) = true) := by decide +kernel

theorem hyp_Atomics : (let s := at1 0x20000000 s0
    ([AFn.add, .xchg, .cas, .minu, .faddF32].all fun fn => holdsAt s (.vatom c0 p0 fn 4 0 (q1 2 3)) (fun f g sp =>
      passes s (atomNeed 4 (hostAtomOk fn)) (fun _ g sp => scopedAt (q1 2 3) g sp p0) f g sp none)) = true ∧
    holdsAt s (.satom c0 .add 2 0 (q1 3 2)) (fun f g sp => passes s (atomNeed 8 true) (fun _ g _ => [(32, (g.sr 1 + 0).toNat)]) f g sp none) = true) := by decide +kernel

theorem hyp_FencesAndCacheControl : ([s0, inRegion 0].all fun s => [Instr.fenceAcq c0 2, .fenceRel c0 3, .fenceAcqrel c0 0, .fenceSc c0 5].all (issuesAt s)) = true ∧
    issuesAt (at1 0x20000000 s0) (.prefetch c0 p0 (m1 0)) = true ∧ issuesAt (at1 0x40000000000 s0) (.prefetch c0 p0 (m1 0)) = true ∧
    (let s := at1 0x20000000 s0
     holdsAt s (.cflush c0 p0 (m1 0)) (fun f g sp => g.region == none && passes s (plainNeed .load 1) (fun _ g sp => lanesAt (m1 0) g sp p0) f g sp none) = true) := by
  decide +kernel

theorem hyp_StashFunctions :
    (let page := fun (m : Bool) => chg (at1 0x20000000 s0) fun g => { g with stash := [{ mapped := m, va := 0x30000000, wr := true, frame := some 0x30000000, data := [], lines := [], stored := [] }] }
     let sel := fun (w : W64) (s : State) => chg s fun g => { g with s := g.s.set! 2 w }
     ([0x100#64, 9#64, 0#64].all fun w => [Instr.stashUnmap c0 3 2, .stashFlush c0 3 2, .stashInval c0 3 2].all fun i => issuesAt (sel w (page true)) i && issuesAt (sel w (page false)) i) = true ∧
     holdsAt (at1 0x20000008 (page false)) (.stashMap c0 3 1 2 0) (fun _ g _ => decide ((g.sr 1).toNat % 4096 ≠ 0)) = true ∧
     holdsAt (page false) (.stashMap c0 3 1 2 0) (fun _ g _ => decide ((g.sr 1).toNat % 4096 = 0) && ((page false).core g.loc.die g.loc.core).tlb == [] && ((page false).core g.loc.die g.loc.core).walkc == [] && (page false).txns == [] && !g.hasDirty && pteNC 0x1F == false &&
       (s0.tenant (s0.ctx g.ctx).ten).cpart == 0 && (page false).walk g.ctx 0x20000000 == some (2, 0x1F)) = true) := by decide +kernel

/-! ### Claims and tiles -/

/-- One register of the gang. -/
def sr (n : Nat) (w : W64) (s : State) : State := chg s fun g => { g with s := g.s.set! n w }
/-- Two READY slots from 4, 5 and a READY FP80 tile at unit 5, held by the gang. -/
def tiles (s : State) : State := home s fun k => { k with
  mom := [4, 5, 6, 7].map fun i => ({ Tile.new i false (.gang u0) with st := .ready } : Tile)
  acm := [{ Tile.new 5 true (.gang u0) with st := .ready }] }
/-- Every tile and slot EMPTY. -/
def empties (s : State) : State := home s fun k => { k with mom := k.mom.map fun t => { t with st := .empty }, acm := k.acm.map fun t => { t with st := .empty } }

/-- The claim at hand: the slots and tiles it asks for can be found. -/
def claimable (s : State) (m n : Nat) (af : Bool) : Focus → Gang → Split → Bool := fun _ g _ =>
  s.waitingClaims g.loc.die g.loc.core == [] && ((s.home g).findMom m).isSome && ((s.home g).findAcm n af).isSome

theorem hyp_ClaimsAndReleases :
    (let s := sr 1 0x102 s0
     ([Instr.mclaim c0 2 1, .mtry c0 2 1].all fun i => holdsAt s i (claimable s 2 1 false)) = true) ∧
    (let s := home (sr 1 0x80 s0) fun k => { k with mom := [Tile.new 4 false (.gang 77)] }
     ([Instr.mclaim c0 2 1, .mtry c0 2 1].all fun i => holdsAt s i fun _ g _ => s.waitingClaims g.loc.die g.loc.core == [] &&
       (s.home g).findMom 128 == none && g.cohort == none && !(s.home g).holders.contains g.owner) = true) ∧
    (let s := home (sr 1 0x80 s0) fun k => { k with mom := [Tile.new 4 false (.gang u0)] }
     holdsAt s (.mclaim c0 2 1) (fun _ g _ => s.waitingClaims g.loc.die g.loc.core == [] && (s.home g).findMom 128 == none && g.cohort == none &&
       (s.home g).holders == [g.owner] && s.ops == []) = true) ∧
    (let s := sr 1 0x05048102 (tiles s0)
     holdsAt s (.mrel c0 1) (fun _ g _ => grantRuns (g.sr 1) == ([4, 5], [5]) && (s.home g).mom.all fun x => x.idle && x.owner == g.owner) = true) := by
  decide +kernel

theorem hyp_TileInstructions :
    (let s := sr 1 0x0505_0504 (tiles s0)
     issuesAt (empties s) (.mzero c0 1) = true ∧ issuesAt s (.maccrd c0 0 0 3 8 1) = true ∧ issuesAt (empties s) (.maccwr c0 0 0 3 8 1) = true ∧
     issuesAt s (.mstate c0 2 1) = true ∧
     holdsAt s (.mdrain c0 true 2 1 3 4) (fun _ g _ => nameDev (g.sr 3) == s.dev && !s.gated g.ctx g.inst g.run && ((s.home g).tile? (twC (g.sr 1))).isSome) = true) := by
  decide +kernel

/-- The lanes pass the checks of the row of accesses. -/
def rowsPass (s : State) (need : Need) (lanes : Gang → List (Nat × Nat)) (f : Focus) (g : Gang) : Bool :=
  match (s.setGang (g.issued s.clock c0 f)).checkLanes (g.issued s.clock c0 f) need (lanes g) with
  | (_, .ok _) => true
  | _ => false

theorem hyp_TileMemoryAndMultiply :
    (let s := sr 3 4 (sr 2 128 (sr 1 0x20000000 (empties (tiles s0))))
     holdsAt (sr 1 0x20000040 s) (.mload c0 true 1 2 3) (fun _ g _ => decide ((g.sr 1).toNat % 128 ≠ 0)) = true ∧
     holdsAt (sr 2 64 s) (.mload c0 true 1 2 3) (fun _ g _ => decide ((g.sr 1).toNat % 128 = 0) && decide ((g.sr 2).toNat % 128 ≠ 0)) = true ∧
     holdsAt s (.mload c0 true 1 2 3) (fun f g _ => decide ((g.sr 1).toNat % 128 = 0) && decide ((g.sr 2).toNat % 128 = 0) &&
       rowsPass s rowNeed (fun g => tileLanes (g.sr 1) (g.sr 2) true) f g) = true) ∧
    (let s := sr 3 0x80 (sr 2 0x20000000 (sr 1 0x00050004 (tiles s0)))
     holdsAt (sr 2 0x20000010 s) (.mstore c0 false false false 1 1 2 3) (fun _ g _ => decide ((g.sr 2).toNat % 64 ≠ 0)) = true ∧
     holdsAt (sr 3 0x88 s) (.mstore c0 false false false 1 1 2 3) (fun _ g _ => decide ((g.sr 2).toNat % 64 = 0) && decide ((g.sr 3).toNat % 64 ≠ 0)) = true ∧
     holdsAt s (.mstore c0 false false false 1 1 2 3) (fun f g _ => decide ((g.sr 2).toNat % 64 = 0) && decide ((g.sr 3).toNat % 64 = 0) &&
       rowsPass s (plainNeed .store 64) (fun g => ((List.range 32).flatMap fun i => (List.range (ofBytes 1 / 64)).map fun q => (i, q)).map fun x =>
         (32, (g.sr 2 + g.sr 3 * BitVec.ofNat 64 x.1 + BitVec.ofNat 64 (64 * x.2)).toNat)) f g) = true ∧
     holdsAt (home s fun k => { k with mom := k.mom.map fun t => { t with st := .empty } }) (.mstore c0 false true true 2 1 0 0) (fun _ _ _ => true) = true) ∧
    (let s := sr 1 0x00050504 (tiles s0)
     let fmt := fun (w : BitVec 16) (s : State) => chg s fun g => { g with table := g.table.map fun x => { x with fmt := w } }
     holdsAt (fmt 0x400 s) (.mmac c0 1) (fun _ _ sp => !isHs sp.fmt) = true ∧
     holdsAt (fmt 0x422 s) (.mmac c0 1) (fun _ g sp => isHs sp.fmt && (s.dies.map (·.die)).contains g.loc.die) = true ∧
     holdsAt (sr 4 0x000300050604 (fmt 0x400 s)) (.mloop c0 9 4) (fun _ g _ => (s.dies.map (·.die)).contains g.loc.die) = true) := by
  decide +kernel

/-! ### Queues, the grade board, named gangs, collectives, inference -/

/-- A core with four engine contexts; context 1 owned as given. -/
def engines (o : Option Owner) (cmds : List Cmd) (evs : List W64) (s : State) : State := home s fun k =>
  { k with engines := [0, 1, 2, 3].map fun n => { num := n, owner := if n == 1 then o else none, ctx := 0, next := 1 + cmds.length, cmds := cmds, events := evs } }
/-- Q2 bound. -/
def bound (b : QBind) (s : State) : State := chg s fun g => { g with q := [(2, b)] }
/-- A command that waits in a queue. -/
def aCmd : Cmd := { num := 1, words := [], uid := 1, inst := 0, run := 0, ctx := 0, tag := 0, st := .queued }

theorem hyp_Queues :
    (let bind := fun (s : State) (P : Engine → Gang → Bool) => holdsAt s (.qbind c0 3 2 1) fun _ g _ => lookup g.q 2 == none && P ((s.home g).engine 1) g
     let w := fun (o : Option Owner) => sr 1 4 (engines o [] [] s0)
     bind (w none) (fun e _ => e.owner == none && e.cmds == []) = true ∧ bind (w (some (.gang u0))) (fun e g => e.owner == some g.owner) = true ∧
     bind (w (some (.gang 77))) (fun e g => e.owner.any fun o => o != g.owner) = true ∧
     bind (sr 1 0x11 s0) (fun _ _ => ((List.range 16).find? fun i => (s0.bfe? 1 i).isNone) == some 0 && (s0.dies.map (·.die)).contains 1) = true ∧
     (let full := { s0 with dies := s0.dies.map fun d => { d with bfe := (List.range 16).map fun i =>
       { idx := i, owner := .gang 77, die := 0, core := 0, ctx := 0, set := false, kv := 0, ss := 0, ls := 0, nl := 0, recA := 0, area := 0, batches := [] } } }
      bind (sr 1 0x11 full) (fun _ _ => (List.range 16).all fun j => (full.bfe? 1 j).isSome)) = true ∧
     bind (sr 1 0x12 s0) (fun _ _ => true) = true ∧ bind (sr 1 0x13 s0) (fun _ _ => true) = true) ∧
    (let copy := bound (.copy 1 4) (engines (some (.gang u0)) [aCmd] [5, 6] s0)
     let full := bound (.copy 1 4) (engines (some (.gang u0)) (List.replicate 64 aCmd) [] s0)
     holdsAt copy (.qpush c0 3 2 1 3) (fun _ g _ => g.qbind? 2 == some (.copy 1 4) && decide (((copy.home g).engine 1).cmds.length < 64) &&
       !copy.pushWaits g.loc.die g.loc.core 1 && ((copy.home g).engines.map (·.num)).contains 1) = true ∧
     holdsAt full (.qpush c0 3 2 1 3) (fun _ g _ => g.qbind? 2 == some (.copy 1 4) && decide (((full.home g).engine 1).cmds.length ≥ 64)) = true ∧
     holdsAt (bound (.bfe 1 2 0x11) s0) (.qpush c0 3 2 1 3) (fun _ g _ => g.qbind? 2 == some (.bfe 1 2 0x11)) = true ∧
     holdsAt (bound (.halyard 1 0x12) s0) (.qpush c0 3 2 1 3) (fun _ g _ => g.qbind? 2 == some (.halyard 1 0x12)) = true ∧
     holdsAt copy (.qpop c0 3 2) (fun _ _ _ => true) = true ∧ holdsAt copy (.qtry c0 3 2) (fun _ g _ => (copy.engine (g.engRef 2)).events == [5, 6]) = true ∧
     holdsAt full (.qtry c0 3 2) (fun _ g _ => (full.engine (g.engRef 2)).events == []) = true ∧ issuesAt copy (.tlwait c0 2 1) = true ∧
     issuesAt copy (.tlread c0 3 2) = true) := by decide +kernel

/-- Value 1 of a table of four at 2000_0000h: live, version 5 and the grade `gr`, with `am` amendments. -/
def aValue (gr am flags : Byte) (s : State) : State :=
  let s := s.setTenant { s.tenant 0 with vtbase := 0x20000000, vtsize := 4 }
  let bytes := [(0x20000020, 0x40#8), (0x20000028, 0x10#8), (0x2000002C, gr ||| (am <<< 4)), (0x2000002D, 5#8), (0x2000002F, flags)]
  { s with mem := bytes.foldl (fun m p => memWrite m p.1 p.2) s.mem }

/-- An instance whose task has a handler bound. -/
def aTask (s : State) : State :=
  let tr : TaskRec :=
    { entry := 0, ngang := 1, vblk := 1, stashp := 0, cohsz := 0, queue := 0, nin := 0, nout := 0, argp := 0, fhrec := 0x3000, ins := [], outs := [] }
  { s with insts := [{ ctx := 0, num := 0, st := .running, run := 0, cons := [], pubs := [], past := [], again := false, by' := .tspawn, tr := tr }] }

/-- The one operation of the gang, of the kind given. -/
def anOp (k : OpKind) (s : State) : State := { s with nextId := 10, ops := s.gangs.map fun g =>
  { id := 5, uid := g.uid, die := 0, core := 0, sid := 0, setf := 15, ip := 0x10000000, kind := k, ctx := 0, inst := 0, run := 0, name := 0, dead := false, opb := false, lost := false } }

/-- The operation can be completed: it and its gang are there, and its value is read. -/
def graded (s : State) (P : Op → Nat → Bool) : Bool :=
  (s.op? 5).any fun o => o.id == 5 && !(s.core o.die o.core).gated && (s.gang? o.uid).isSome && match s.readValue o.ctx 1 with | (_, some e) => P o e | _ => false

/-- The conditions for a fault record to wait for the handler of the run. -/
def faultOk (s : State) : Bool := (s.inst? 0 0).any (fun i => i.tr.fhrec != 0) && !(s.ctx 0).killed && decide ((s.ctx 0).faults.length < 64) && (s.ctxs.map (·.num)).contains 0

theorem hyp_Graded : ([Instr.gnew c0 3 1 2, .gfree c0 3 1, .gpub c0 true 2 3 1 2, .gprom c0 1 3 1 2, .gqry c0 3 1].all (issuesAt s0)) = true ∧
    holdsAt (chg s0 fun g => { g with table := g.table.map fun x => { x with exec := 0 } }) (.tspawn c0 p0 true false 3 1 4) (fun _ g sp => takes g sp p0 == 0) = true ∧
    (let s := sr 1 0x20000000 s0
     holdsAt s (.tspawn c0 p0 true true 3 1 0) (fun f g sp => takes g sp p0 != 0 && decide ((g.sr 1).toNat % 128 = 0) &&
       rowsPass s { plainNeed .load 1 with window := false } (fun g => [(32, (g.sr 1).toNat)]) f g) = true) ∧
    graded (anOp (.gqry 3 1) (aValue 1 0 1 s0)) (fun _ e => veLive e) = true ∧
    graded (anOp (.gqry 3 1) (aValue 1 0 0 (aTask s0))) (fun _ e => !veLive e && faultOk (aTask s0)) = true ∧
    (let s := anOp (.gpub 3 1 false 0 2) (aValue 1 0 1 s0)
     let s : State := { s with mem := memWrite s.mem 0x2000002D 0 }
     graded s (fun o e => s.releaseMet o.uid o.id (((s.peekValue o.ctx 1).map veScope).getD 3) && veLive e && veVersion e == 0 &&
       ((s.readValue o.ctx 1).1.writeValue o.ctx 1 (veSet e 1 (max 2 (veGrade e)) (veAmcnt e))).isSome) = true) ∧
    (let s := (anOp (.gpub 3 1 false 0 2) (aValue 1 2 1 (aTask s0))).onCtx 0 fun c => { c with cfg := c.cfg ||| 0x1E00 }
     graded s (fun o e => s.releaseMet o.uid o.id (((s.peekValue o.ctx 1).map veScope).getD 3) && veLive e && veVersion e != 0 && veGrade e != 3 &&
       decide (veAmcnt e < (s.ctx o.ctx).amendLimit) && s.insts.all (fun i => i.tr.ins == []) && ((s.readValue o.ctx 1).1.writeValue o.ctx 1 (veSet e (veVersion e + 1) (max 2 (veGrade e)) (veAmcnt e + 1))).isSome) = true) ∧
    (let s := anOp (.gpub 3 1 false 0 2) (aValue 3 0 1 (aTask s0))
     graded s (fun o e => s.releaseMet o.uid o.id (((s.peekValue o.ctx 1).map veScope).getD 3) && veLive e && veVersion e != 0 && veGrade e == 3 && faultOk s) = true) ∧
    (let s := anOp (.gpub 3 1 false 0 2) (aValue 1 0xF 1 (aTask s0))
     graded s (fun o e => s.releaseMet o.uid o.id (((s.peekValue o.ctx 1).map veScope).getD 3) && veLive e && veVersion e != 0 && veGrade e != 3 &&
       decide ((s.ctx o.ctx).amendLimit ≤ veAmcnt e) && faultOk s) = true) ∧
    graded (anOp (.gprom 3 1 4 2) (aValue 1 0 1 s0)) (fun _ e => veLive e && veVersion e != 0 && veVersion e != 4) = true ∧
    graded (anOp (.gnew 3 0x20 0x100000004) (aValue 1 0 1 s0)) (fun _ e => veLive e) = true ∧
    (let put := fun (s : State) (x : Nat → Nat) (P : Op → Nat → Bool) => graded s fun o e => P o e && ((s.readValue o.ctx 1).1.writeValue o.ctx 1 (x e)).isSome
     put (anOp (.gnew 3 0x20 0x100000004) (aValue 1 0 0 s0)) (fun _ => 0x20 + 4 * 2 ^ 64 + 2 ^ 120) (fun _ e => !veLive e) = true ∧
     put (anOp (.gfree 3 1) (aValue 1 0 1 s0)) (fun e => setBits e 120 1 0) (fun _ e => veLive e && s0.insts == []) = true ∧
     put (anOp (.gprom 3 1 5 2) (aValue 1 0 1 s0)) (fun e => setBits e 96 2 2) (fun _ e => veLive e && veVersion e == 5 && decide (veGrade e < 2)) = true ∧
     graded (anOp (.gprom 3 1 5 1) (aValue 2 0 1 s0)) (fun _ e => veLive e && veVersion e == 5 && decide (1 ≤ veGrade e)) = true ∧
     ([0x40, 0x41].all fun b => let s := anOp (.gpub 3 1 true b 2) (aValue 1 0 1 s0)
       let s : State := { s with mem := memWrite s.mem 0x2000002D 0 }
       put s (fun e => setBits (veSet e 1 2 (veAmcnt e)) 0 52 b.toNat) fun o e => s.releaseMet o.uid o.id (((s.peekValue o.ctx 1).map veScope).getD 3) && veLive e && veVersion e == 0) = true) ∧
    (((0x100000004 : W64).extractLsb' 32 20).toNat = 1 ∧ (0x100000004 : W64).extractLsb' 52 12 = 0) := by decide +kernel

theorem hyp_NamedGangs :
    (let i := Instr.rstv c0 p0 true true 3 4 1 8 2
     holdsAt (chg s0 fun g => { g with table := g.table.map fun x => { x with exec := 0 } }) i (fun _ g sp => takes g sp p0 == 0) = true ∧
     holdsAt (sr 1 0 s0) i (fun _ g sp => takes g sp p0 != 0 && g.region == none && nameDev (g.sr 1) == s0.dev) = true ∧
     holdsAt (sr 1 0xFFF0000000000000 s0) i (fun _ g sp => takes g sp p0 != 0 && g.region == none && !s0.gated g.ctx g.inst g.run) = true ∧
     ([1, 64].all fun n => holdsAt (sr 1 0 (chg (inRegion 1) fun g => { g with region := g.region.map fun r => { r with count := n } })) (.rstv c0 p0 true false 3 4 1 3 0)
       fun _ g sp => takes g sp p0 != 0 && nameDev (g.sr 1) == s0.dev && g.region.any (·.count == n)) = true ∧
     issuesAt s0 (.hold c0 true 4 3 5) = true) ∧ issuesAt s0 (.regroup c0 p0 4 8 9 1) = true ∧
    (let s := chg s0 fun g => { g with wait := some .regroup, rgArg := some (4, 8, 9, 2), rgPred := 0x0F, v := [8, 9, 10].map fun n => (n, Vector.replicate 32 3) }
     s.gangs.all fun g => s.gangAt g.loc == some g && s.gang? g.uid == some g && decide (g.loc.slot < 64) && g.cohort == none && g.status != .saved &&
       g.settled && g.pend == [] && g.table.length == 1 && s.gangs.length == 1) = true := by decide +kernel

/-- Communicator 1 of a table at 2000_1000h: live, two ranks, this device rank 0, a window of 4 KiB, its rank list at 2000_2000h. -/
def aComm (flags : Byte) (s : State) : State :=
  let s := s.setTenant { s.tenant 0 with combase := 0x20001000, cpart := 1 }
  let bytes := [(0x20001021, 0x20#8), (0x20001023, 0x20#8), (0x20001028, 1#8), (0x20001031, 0x10#8), (0x20001034, flags), (0x20002003, 0x40#8),
    (0x2000200B, 0x50#8), (0x2000200E, 0x10#8)]
  { s with mem := bytes.foldl (fun m p => memWrite m p.1 p.2) s.mem }
/-- S1 names communicator 1; V8 holds offsets and V9 ranks. -/
def forColl (rank : W32) (s : State) : State := chg (sr 1 1 s) fun g => { g with v := [(8, Vector.replicate 32 0x40#32), (9, Vector.replicate 32 rank)] }

/-- An open region with `n` line-writes held. -/
def theRegion (n : Nat) : Option Region := ((inRegion 1).gangs.head?.bind (·.region)).map fun r => { r with count := n }

theorem hyp_Collectives :
    (let ins := [Instr.collPut c0 p0 4 1 0 8 9 0, .collGet c0 p0 4 1 0 8 9 0, .collRaddF32 c0 p0 4 1 0 8 9 0, .collRaddBf16 c0 p0 4 1 0 8 9 0,
       .collRmaxF32 c0 p0 4 1 0 8 9 0, .collRaddI32 c0 p0 4 1 0 8 9 0]
     let at1 := fun (s : State) (P : State → Gang → Nat → Bool) => ins.all fun i => holdsAt s i fun f g sp => g.region == none && takes g sp p0 != 0 &&
       match (s.setGang (g.issued s.clock c0 f)).readComm (g.issued s.clock c0 f) 1 with
       | (s1, some cm) => P s1 g cm.ent
       | _ => false
     let ok := fun (s1 : State) (g : Gang) (e : Nat) => ceLive e && !ceAbt e && s1.inPartition g && match s1.collLanes g.ctx e (fun l => (lane (g.vr 9) l).toNat)
         (fun l => g.ea 0 8 0 (disp15 0) l) (List.range 32) with
       | (s2, .ok ps) => let s3 := (s2.noteComm g.ctx 1 { pa := 0x20001020, far := false, ent := e }).abortCleared (s2.ctx g.ctx).ten 1
         ps.length == 32 && s3.gradeLines g.ctx g.inst == [] && !s3.gated g.ctx g.inst g.run && (s3.gang? g.uid).isSome
       | _ => false
     (let inside := fun (n : Nat) => chg (forColl 1 (aComm 1 s0)) fun g => { g with region := (theRegion n).map fun r => { r with snapS := g.s, mask := 0x3FF, opb := g.v } }
      [1, 64].all fun n => (ins.filter fun i => i != .collGet c0 p0 4 1 0 8 9 0).all fun i => holdsAt (inside n) i fun f g sp => takes g sp p0 != 0 && g.region.any (·.count == n) &&
        let g1 : Gang := { g.issued (inside n).clock c0 f with region := g.region.map fun r => { r with comm := some 1 } }
        match ((inside n).setGang g1).readComm g1 1 with
        | (s1, some cm) => ok s1 g cm.ent
        | _ => false) = true ∧
     at1 (forColl 1 (aComm 1 s0)) ok = true ∧ at1 (forColl 0 (aComm 1 s0)) ok = true ∧ at1 (forColl 1 (aComm 0 s0)) (fun _ _ e => !ceLive e) = true ∧
     at1 (forColl 1 (aComm 3 s0)) (fun _ _ e => ceAbt e) = true ∧
     (ins.all fun i => holdsAt (chg s0 fun g => { g with table := g.table.map fun x => { x with exec := 0 } }) i fun _ g sp => g.region == none && takes g sp p0 == 0) = true) := by
  decide +kernel

theorem hyp_ConfidenceAndApportionment :
    (let s := chg s0 fun g => { g with v := [(8, Vector.replicate 32 0x3F800000#32), (9, Vector.replicate 32 2#32), (10, Vector.replicate 32 3#32), (11, Vector.replicate 32 0#32)] }
     issuesAt s (.confx c0 p0 false 3 8 2 0 0) = true ∧
     holdsAt (bound (.bfe 1 2 0x11) s) (.confx c0 p0 true 3 8 2 9 2) (fun _ g _ => g.qbfe? 2 == some (1, 2)) = true ∧
     (let s := sr 2 0xFFFFFFFF s
      ([false, true].all fun b => holdsAt s (.accept c0 p0 b 3 8 2 1) fun _ g _ => (List.range 32).all fun l =>
        !decide (((g.sr 2).extractLsb' 0 32).toNat ≤ (lane (g.vr 8) l).toNat) && !(decide (((g.sr 3).extractLsb' 0 32).toNat ≤ (lane (g.vr 8) l).toNat) &&
          decide ((lane (g.vr 8) l).toNat < ((g.sr 3).extractLsb' 32 32).toNat))) = true) ∧
     holdsAt (sr 2 100 s) (.accept c0 p0 true 3 8 2 1) (fun _ g sp => !g.oorTrap && (takes g sp p0).getLsbD 0 && decide (100 ≤ (lane (g.vr 8) 0).toNat)) = true ∧
     (let s := chg (sr 2 100 s) fun g => { g with trapen := 2 }
      holdsAt s (.accept c0 p0 true 3 8 2 1) (fun _ g sp => g.oorTrap && (takes g sp p0).getLsbD 0 && decide (100 ≤ (lane (g.vr 8) 0).toNat)) = true) ∧
     issuesAt (sr 2 100 s) (.apport c0 p0 4 8 2) = true ∧ issuesAt s (.vrand c0 p0 true 4 8 2) = true ∧ issuesAt s (.vrand c0 p0 false 4 8 2) = true) := by
  decide +kernel

/-! ### Events of the schedulers and the cores -/

/-- The one gang stands at its place, and `P` holds of it. -/
def theGang (s : State) (P : Gang → Bool) : Bool := s.gangs.length == 1 && s.gangs.any fun g => s.gangAt g.loc == some g && s.gang? g.uid == some g && P g
/-- A word read back, and its item at a stage. -/
def anItem (st : ItemSt) (s : State) : State :=
  let acc : Acc := { lane := 32, off := 0, n := 8, val := 7, cmp := 0, ov := 0, ovv := 0, done := true }
  { s with items := [{ id := 6, op := 5, uid := u0, ctx := 0, inst := 0, run := 0, kind := .load, dst := .dev, line := 0x20000000, vline := 0x20000000, accs := [acc]
                       scope := 0, pol := 0, rel := false, acq := false, nc := false, comm := none, tag := none, pub := none, st := st, retry := false }] }
/-- The gang pending, and beside it an active one in another slot. -/
def two (s : State) : State := withMate s
/-- A pending result of K0 that is due, and one of a later cycle. -/
def landing : State := chg s0 fun g => { g with pend := [{ due := 0, setf := 3, wrs := [.kreg 0 5], opb := false }, { due := 90, setf := 3, wrs := [], opb := false }] }

theorem hyp_ResultAndCoreEvents :
    theGang landing (fun g => (match g.pend with | p :: rest => decide (p.due ≤ landing.clock) && rest.all fun q => decide (landing.clock < q.due) | [] => false)) = true ∧
    ([false, true].all fun b => let s := anOp (.calc [.sreg 3 7]) s0
      let s : State := { s with ops := s.ops.map fun o => { o with opb := b, lost := b } }
      theGang s fun g => (s.op? 5).any fun o => o.id == 5 && !(s.core o.die o.core).gated && o.uid == g.uid && o.lost == b && o.opb == b) = true ∧
    ([ItemSt.done, .queued].all fun st => let s := anItem st (anOp (.loadS 3 3 false) s0)
      theGang s fun g => (s.op? 5).any fun o => !(s.core o.die o.core).gated && o.uid == g.uid && (s.items.filter fun x => x.op == o.id).length == 1) = true ∧
    theGang s0 (fun g => decide (g.pauseTo ≤ s0.clock)) = true ∧
    (let s := chg s0 fun g => { g with status := .pending }
     theGang s (fun g => g.status == .pending && decide ((s.activeSet g.loc.die g.loc.core (schedOf g.loc)).length < 8)) = true) ∧
    (let s := chg (withMate s0) fun g => if g.uid == 77 then { g with status := .pending } else { g with yielded := true }
     s.gangs.any (fun g => s.gangs.any fun h => g.uid != h.uid && g.loc != h.loc && g.loc.die == h.loc.die && g.loc.core == h.loc.core && schedOf g.loc == schedOf h.loc &&
       g.status == .active && h.status == .pending && s.wantsExchange g && s.eligible h && s.gangAt g.loc == some g && s.gangAt h.loc == some h &&
       s.gang? g.uid == some g && s.gang? h.uid == some h) = true) ∧
    ([0x20000000#64, 0x40000000000#64].all fun va => let s := chg s0 fun g => { g with status := .parkedFault, retry := true, pfAcc := some (va, 0) }
      theGang s fun g => g.status == .parkedFault && g.retry && ((s.onGang g.uid fun g => { g with retry := false }).xlateCore 0 0 g.ctx va.toNat (accOfCode 0)).2 ==
        (if va == 0x20000000 then .ok 0x20000000 0x1F else .xlate)) = true ∧
    (let s := { s0 with clock := 9000, gangs := [], focus := none }
     (s.core 0 0).gated = false ∧ s.coreIdle 0 0 = true) ∧
    (let s := home s0 fun k => { k with gated := true }
     (s.core 0 0).gated = true ∧ s.wakes 0 0 = true) ∧
    ([7, 64].all fun t =>
      let s : State := { s0 with clock := t, dies := s0.dies.map fun d => { d with plb := 0x0808, leaves := [{ id := 5, coll := false, asked := 3, held := false, freed := false }] } }
      (s.dies.map (·.die)).contains 0 && (s.die 0).leaves.length == 1 && (s.die 0).bound / 16 != s.clock / 32 && decide (0 < plMbud (s.die 0).plb) || t == 7) = true := by
  decide +kernel

/-- The gang's split without its line, at the owed check `chk` and after `bad` failures of its line. -/
def unlatched (chk bad : Nat) (s : State) : State := chg s fun g =>
  { g with table := g.table.map fun x => { x with latch := none, chk := chk }, parity := if bad == 0 then [] else [(0x10000000, bad)] }
/-- The line of the gang's code as a copy in the L1, coherent or not. -/
def inL1 (nc : Bool) (s : State) : State := home s fun k => { k with l1 := [{ line := 0x10000000, data := memReadN s.mem 0x10000000 128, nc := nc, dirty := [], first := false }] }
/-- One bit of the first slot changed, so that its parity fails. -/
def badParity (s : State) : State := { s with mem := memWrite s.mem 0x10000001 (memRead s.mem 0x10000001 ^^^ 1) }
/-- The same line without its targets. -/
def noTarget : State :=
  let slots := (List.range 5).map fun i => lineSlot (memReadN s0.mem 0x10000000 64) i
  { s0 with mem := memWriteN s0.mem 0x1000003C (leBytes 4 (mkLineWord slots 0 0).toNat) }

theorem hyp_LineFetches :
    (let fetches := fun (bad : Nat) (s : State) (P : State → Split → List Byte → Bool) => theGang s fun g => g.table.any fun sp => g.split? sp.sid == some sp && g.mayIssue && g.fetches sp &&
       sp.next == .fetch && !(s.core g.loc.die g.loc.core).gated && decide (((lookup g.parity (lineOf sp.pc).toNat).getD 0) = bad) && (slotOf sp.pc).isSome && decide ((lineOf sp.pc).toNat < lwin) && (s.ctxs.map (·.num)).contains g.ctx &&
       match s.xlateCore g.loc.die g.loc.core g.ctx (lineOf sp.pc).toNat .fetch with
       | (s1, .ok pa e) => !ptePeer e && !pteHost e && s1.present pa && P s1 sp (match (s1.core g.loc.die g.loc.core).l1.find? fun x => x.line == lineBase pa with
         | some x => if x.nc || !s1.early (lineBase pa) (.l1 g.loc.die g.loc.core) then (x.data.drop (pa % 128)).take 64 else []
         | none => if s1.mayFill g.loc.die g.loc.core g.ctx (lineBase pa) && s1.txn? (lineBase pa) == none && !pteNC e && (s1.fillFirst g.loc.die (lineBase pa)).isNone then memReadN (s1.recall (lineBase pa)).mem pa 64 else [])
       | _ => false
     let ok := fun (yes : Bool) (bytes : List Byte) => bytes.length == 64 && parityOk ((List.range 5).map fun i => lineSlot bytes i) (lineWord bytes) == yes
     fetches 0 (unlatched 0 0 s0) (fun _ sp b => ok true b && sp.chk == 0) = true ∧ fetches 0 (unlatched 0 0 (inL1 true s0)) (fun _ sp b => ok true b && sp.chk == 0) = true ∧
     fetches 0 (unlatched 0 0 (inL1 false s0)) (fun _ sp b => ok true b && sp.chk == 0) = true ∧
     ([1, 2].all fun n => fetches 0 (unlatched n 0 noTarget) fun s1 sp b => ok true b && sp.chk == n && !(s1.ctx 0).killed && !(slotOf sp.pc).any fun i => tgtBit (lineWord b) i) = true ∧
     fetches 2 (unlatched 0 2 (badParity s0)) (fun _ _ b => ok false b) = true ∧
     fetches 3 (unlatched 0 3 (badParity s0)) (fun s1 _ b => ok false b && !(s1.ctx 0).killed) = true) := by decide +kernel

/-- A join with two children, changed as given. -/
def split3 (f h : Split → Split) : State := chg s0 fun g => { g with table := g.table.flatMap fun x =>
  [{ x with kind := .join, sid := 90, exec := 2, pc := 0x10000080, rpc := 0 }, f { x with exec := 0x0000FFFF, depth := 1, rpc := 0x10000080 },
   h { x with sid := 91, exec := 0xFFFF0000, depth := 1, rpc := 0x10000080, latch := none }] }

/-- A join within a join: one split beside it, two below it. -/
def split5 (f : Split → Split) : State := chg s0 fun g => { g with table := g.table.flatMap fun x =>
  [{ x with kind := .join, sid := 90, exec := 2, pc := 0x10000080, rpc := 0 }, f { x with sid := 92, exec := 0x000000FF, depth := 1, rpc := 0x10000080, latch := none },
   { x with kind := .join, sid := 93, exec := 2, pc := 0x10000060, rpc := 0x10000080, depth := 1 }, f { x with exec := 0x0000FF00, depth := 2, rpc := 0x10000060 },
   f { x with sid := 91, exec := 0xFFFF0000, depth := 2, rpc := 0x10000060, latch := none }] }

theorem hyp_SplitEvents :
    (let ok := fun (s : State) (P : Gang → Split → Split → Split → Bool) => theGang s fun g => g.running && match g.table with
       | [o, z, j, x, y] => o.kind == .join && z.kind == .live && j.kind == .join && x.kind == .live && y.kind == .live && z.depth.toNat == o.depth.toNat + 1 &&
         j.depth == z.depth && x.depth.toNat == j.depth.toNat + 1 && y.depth == x.depth && P g z x y
       | _ => false
     ok (split5 fun x => { x with pc := x.rpc }) (fun g _ x y => x.pc == x.rpc && y.pc == y.rpc && x.chk == 0 && y.chk == 0 && !g.writing x.sid && !g.writing y.sid) = true ∧
     ok (split5 fun x => x) (fun _ _ _ y => y.pc != y.rpc) = true ∧
     ok (split5 fun x => { x with atBar := true, pc := 0x1000000C }) (fun g z x y => !g.exited &&
       [z, x, y].all fun w => w.atBar && w.pc != w.rpc && !g.writing w.sid && w.pc == z.pc) = true) ∧
    (let ok := fun (s : State) (P : Gang → Split → Split → Bool) => theGang s fun g => g.running && match g.table with
       | [j, x, y] => j.kind == .join && x.kind == .live && x.depth.toNat == j.depth.toNat + 1 && y.depth.toNat == j.depth.toNat + 1 && x.sid != y.sid && P g x y
       | _ => false
     let rp := fun (x : Split) => { x with pc := x.rpc }
     let bar := fun (pc : W64) (x : Split) => { x with pc := pc, atBar := true }
     let idle := fun (g : Gang) (x y : Split) => !g.writing x.sid && !g.writing y.sid && x.chk == 0 && y.chk == 0
     ok (split3 rp rp) (fun g x y => y.kind == .live && x.pc == x.rpc && y.pc == y.rpc && idle g x y) = true ∧
     ([true, false].all fun b => ok (split3 (fun x => { rp x with fast := b }) fun y => { y with kind := .deferred }) fun g x y =>
       g.table.all (fun j => j.kind != .join || j.sid != x.sid) && y.kind == .deferred && x.pc == x.rpc && x.chk == 0 && x.fast == b && decide (g.fastFree ≥ 1)) = true ∧
     ok (split3 (bar 0x1000000C) (bar 0x1000000C)) (fun g x y => y.kind == .live && x.atBar && y.atBar && x.pc != x.rpc && y.pc != y.rpc && idle g x y && !g.exited && x.pc == y.pc) = true ∧
     ok (split3 (bar 0x1000000C) (bar 0x10000018)) (fun g x y => y.kind == .live && x.atBar && y.atBar && x.pc != x.rpc && y.pc != y.rpc && idle g x y && x.pc != y.pc) = true) := by
  decide +kernel

theorem hyp_GrantEvents :
    (let s := anOp (.bar 0 0 0 3) (home (chg s0 fun g => { g with cohort := some 3, wait := some (.op 5) }) fun k =>
       { k with cohorts := [{ num := 3, ctx := 0, members := [u0], arrived := [u0], phase := 0, pool := 0 }] })
     theGang s (fun g => g.status != .saved && !(s.core 0 0).gated && !g.moving && g.wait == some (.op 5) && (s.cohort? 0 0 3).any fun k => k.members == [g.uid] && k.arrived == [g.uid] &&
       s.ops.all fun o => o.kind == .bar k.phase 0 0 3) = true) ∧
    (let s := anOp (.bar 1 0 0 3) (home (chg s0 fun g => { g with cohort := some 3, wait := some (.bar 0 false) }) fun k =>
       { k with cohorts := [{ num := 3, ctx := 0, members := [u0], arrived := [u0], phase := 0, pool := 0 }] })
     theGang s (fun g => g.status != .saved && !(s.core 0 0).gated && !g.moving && (s.cohort? 0 0 3).any fun k => k.members == [g.uid] && k.arrived == [g.uid] &&
       g.wait == some (.bar k.phase false)) = true) ∧
    (let s := anOp (.rquota 2 9) (home (chg s0 fun g => { g with cohort := some 3, wait := some (.rquota 5) }) fun k =>
       { k with cohorts := [{ num := 3, ctx := 0, members := [u0], arrived := [], phase := 0, pool := 4 }] })
     theGang s (fun g => g.cohort == some 3 && (s.cohort? 0 0 3).any (fun k => decide (9 - g.vblocks ≤ k.pool)) && (s.op? 5).any fun o => o.uid == g.uid &&
       s.waitingQuotas 0 0 3 == [o] && g.wait == some (.rquota o.id)) = true) ∧
    (let s := anOp (.mclaim 2 2 1 false) (chg (home s0 fun k => { k with mom := [Tile.new 4 false (.gang 78)] }) fun g => { g with wait := some (.op 5) })
     theGang s (fun g => s.waitingClaims 0 0 == s.ops && ((s.home g).mom ++ (s.home g).acm).all (fun x => !x.going) && g.wait == some (.op 5) &&
       ((s.home g).findMom 2).isSome && ((s.home g).findAcm 1 false).isSome) = true) := by decide +kernel

/-- The gang's tile table with one slot 4 and one F32 tile at unit 6, in the states given, by operation 5. -/
def filling (st : TileSt) (s : State) : State := home s fun k => { k with
  mom := [{ Tile.new 4 false (.gang u0) with st := st, by' := some 5 }, { Tile.new 5 false (.gang u0) with st := .ready }]
  acm := [{ Tile.new 6 false (.gang u0) with st := st, by' := some 5 }] }

theorem hyp_TileEvents :
    (let at0 := fun (s : State) (P : Core → Bool) => (s.op? 5).any (fun o => o.id == 5 && o.die == 0 && o.core == 0) && Memory.wf (s.core 0 0).momMem && Memory.wf (s.core 0 0).acmMem && P (s.core 0 0)
     let fills := fun (x : Tile) => x.st == .filling && x.by' == some 5 && x.resv == none && !x.going
     (let s := anItem .done (anOp (.mload 4) (filling .filling s0))
      at0 s (fun k => (k.slot? 4).any fills && s.items.all fun i => i.st == .done && (fetched [i] 0).isSome || i.op == 5)) = true ∧
     at0 (anOp (.mzero 6) (filling .filling s0)) (fun k => (k.tile? 6).any fills) = true ∧
     at0 (anOp (.mstore 6) (filling .draining s0)) (fun k => (k.tile? 6).any fun x => x.st == .draining && x.by' == some 5 && !x.going) = true ∧
     (let s := anOp (.mmac 4 5 6 0x100 true) (filling .ready s0)
      at0 s (fun k => !k.gated && (k.tile? 6).any (fun x => !x.going && x.acc80 == ((0x100#16).extractLsb' 10 2 == 1)) && k.mom.all (fun y => !y.going) &&
       !isHs 0x100 && (s.die 0).leaves == [])) = true ∧
     ([1, 2].all fun n => let s := anOp (.mloop 2 4 4 6 0 n false 0 0 0 0 0 0 n 0 none) (filling .ready s0)
       at0 s fun _ => s.items.all (fun i => i.op != 5) && (s.die 0).leaves == []) = true ∧
     at0 (anOp (.mloop 2 4 4 6 0 3 false 0 0 0 0 0 0 2 1 (some 5)) (filling .ready s0)) (fun _ => true) = true ∧
     (let drain := fun (name : W64) => ({ k := 3, name := name, unit := 6, rank := none, acc80 := false, vals := List.replicate 1024 0, ten := 0, op := 5, uid := u0, pkt := none, tag := none } : Drain)
      let to' := fun (s : State) (n : W64) => { anOp (.mdrain 2 none) (filling .ready s) with drains := [drain n] }
      let named := fun (s : State) => s.drains.all fun y => y.op == 5 && y.vals.length == 1024 && nameDev y.name == s.dev && nameDie y.name == 0 && nameCore y.name == 0 && nameTen y.name == y.ten
      at0 (to' s0 0x2000000000) (fun k => !k.gated && named (to' s0 0x2000000000) && (to' s0 0x2000000000).gangAt (nameLoc 0x2000000000) == none) = true ∧
      (let s := to' s0 ((s0.gangs.map fun g => s0.nameOf g).headD 0)
       at0 s (fun k => !k.gated && named s && s.drains.all fun y => (s.gangAt (nameLoc y.name)).any fun g => (s.ctx g.ctx).ten == y.ten && decide (0 < s.ncore 0) && s.genOf (nameLoc y.name) == nameGen y.name &&
         !g.moving && (k.tileBy g.owner 6).any fun x => x.idx == 6 && k.tile? 6 == some x && x.st == .ready && !s.accumulating 0 0 6) = true)) ∧
     (let s := home (anOp (.mzero 9) (filling .ready s0)) fun k => { k with held := [{ unit := 6, rank := none, acc80 := false, vals := [], op := 5, pkt := none }] }
      at0 s (fun k => k.held.all (fun h => h.unit == 6 && h.rank == none && h.pkt == none) && (k.tile? 6).any (fun x => x.st == .ready) && !s.accumulating 0 0 6) = true)) := by
  decide +kernel

/-! ### Engines -/

/-- Context 1 of the core, with one command as given. -/
def eng : EngRef := { die := 0, core := 0, num := 1 }
def command (st : CmdSt) (ws : List W64) : State := engines (some (.gang u0)) [{ aCmd with st := st, words := ws, tag := 5 }] [] s0
/-- The command is there, and `P` holds of it. -/
def cmdAt (s : State) (P : Cmd → Bool) : Bool := (s.cmd? eng 1).any fun k => k.num == 1 && P k
/-- The command runs, there is room for what it writes, its source is read, and what is made of the bytes is written. -/
def cmdMoves (s : State) (src dst : List (Nat × Nat)) (made : List Byte → List Byte) : Bool := cmdAt s fun k =>
  let s := (s.engWarm eng k false src).engWarm eng k true dst
  k.st == .running && s.engRoom eng k dst && !s.engOverlap eng k src dst &&
  match s.engRead eng k src with
  | (s1, .got bs 0) => bs.length == src.foldl (fun n p => n + p.2) 0 && (s1.engWrite eng k dst (made bs)).2 == 0
  | _ => false
/-- A range lies in device memory at the same address, known to the TLB, and no write and no stash page is at its lines. -/
def plainAt (s : State) (k : Cmd) (va len : Nat) (write : Bool) : Bool := (cutRange va len).all fun p =>
  match s.engLoc eng k p.1 write with
  | .dev pa => pa == p.1 && ((s.core 0 0).tlb.any fun t => t.covers k.ctx p.1) && s.txn? (lineBase pa) == none && s.stashHolders (lineBase pa) == [] &&
      !s.snoops.contains (lineBase pa) && s.hostFilter.all (fun p => p.1 != lineBase pa) && Memory.wf s.mem
  | _ => false

theorem hyp_EngineCommands :
    ([[3, 0x20000000, 64, 5], [9]].all fun ws => let s := command .queued (ws.map fun n => BitVec.ofNat 64 n)
      cmdAt s fun k => k.st == .queued && (s.engine eng).cmds == [k]) = true ∧
    (let s := command .running [3, 0x20000040, 64, 5]
     cmdAt s (fun k => k.st == .running && plainAt (s.engWarm eng k true [(0x20000040, 64)]) k 0x20000040 64 true) = true) ∧
    (let s := command .running [3, 0x20000060, 320, 5]
     cmdAt s (fun k => k.st == .running && plainAt (s.engWarm eng k true (cutRange 0x20000060 320)) k 0x20000060 320 true) = true) ∧
    (let s := command .running [1, 0x10000000, 0x20000041, 200]
     cmdAt s (fun k => let s := (s.engWarm eng k false (cutRange 0x10000000 200)).engWarm eng k true (cutRange 0x20000041 200)
       plainAt s k 0x10000000 200 false && plainAt s k 0x20000041 200 true) = true) ∧
    cmdMoves (command .running [2, 0x10000000, 0x20000000, 0x0000000200000010, 0x0000008000000080]) ((List.range 2).flatMap fun r => cutRange (0x10000000 + r * 128) 16)
      ((List.range 2).flatMap fun r => cutRange (0x20000000 + r * 128) 16) id = true ∧
    cvOk false 2 0 = true ∧
    cmdMoves (command .running [4, 0x10000000, 0x20000000, 0x0000002000000004, 0]) (cutRange 0x10000000 16) (cutRange 0x20000000 8) (fun bs => bs.take 8) = true ∧
    (let s := command .running [5, 0x10000000, 0x20000000, 0x0000000000000003, 0, 16]
     cmdMoves s (cutRange 0x10000000 16) (cutRange 0x20000000 512) (fun _ => List.replicate 512 0) = true ∧
     cmdAt s (fun k => !s.meetsAcc80 eng k (cutRange 0x10000000 16)) = true) ∧
    cmdMoves (command .running [6, 0x10000000, 0x20000000, 0x0000000000000001]) (cutRange 0x10000000 1024) (cutRange 0x20000000 512) (fun bs => bs.take 512) = true ∧
    ([(0, 3), (1, 3), (0, 0x103)].all fun x => cmdAt (command (.moved x.1) [BitVec.ofNat 64 x.2]) fun k => k.st == .moved x.1) = true ∧ s0.items = [] ∧
    (let s := command (.posting 0) [0x103]
     cmdAt s (fun k => k.st == .posting 0 && !(s.engine eng).orphan k && decide ((s.engine eng).events.length < 16)) = true) := by decide +kernel

/-- A BFE configuration, and armed entries. -/
def aBfe (f : BfeCfg → BfeCfg) (s : State) : State := s.onDie 0 fun d => { d with bfe := [f
  { idx := 2, owner := .gang u0, die := 0, core := 0, ctx := 0, set := true, kv := 0, ss := 0, ls := 0, nl := 1, recA := 0x20000000, area := 0x30000000, batches := [] }] }
def aWatch (f : Watch → Watch) (s : State) : State := s.onDie 0 fun d => { d with evals := [(0x20000008, 5, 4)], watch := [f
  { idx := 3, id := 3, ctx := 0, addr := 0x20000008, cmp := 0, val := 5, recA := 0x30000000, persist := false }] }

theorem hyp_BackfillAndHalyard : (s0.dies.map (·.die)).contains 0 = true ∧
    (let s := aBfe id (anOp (.engine 0 (some 2) 3 [0x10, 0x20000000, 0x0000010000000080, 4, 0x30000000, 0x38000000]) s0)
     (s.bfe? 0 2).any (fun b => b.batches == [] && (s.recTenant b.ctx 0x30000000).2.all fun t => t == (s.ctx b.ctx).ten) = true) ∧
    ((aBfe id (anOp (.engine 0 (some 2) 3 [0x10]) s0)).bfe? 0 2).any (·.batches == []) = true ∧ ((aBfe id (anOp (.engine 0 (some 3) 3 [0x10]) s0)).bfe? 0 3).isNone = true ∧
    (let s := aBfe id (anOp (.engine 0 (some 2) 3 [0x10, 0x20000000, 0x0000010000000080, 4, 0x30000000, 0x38000000]) s0)
     let s := s.setQueue { s.queue 0 with ctl := (s.queue 0).ctl ||| 0x1F }
     (s.bfe? 0 2).any (fun b => (s.recTenant b.ctx 0x30000000).2.any fun t => t != (s.ctx b.ctx).ten) = true) ∧
    ([(false, (0x20 : W64)), (true, 0x10020)].all fun z => let s := anOp (.engine 0 none 3 [z.2, 0x20000008, 5, 0x30000000]) s0
     let s := s.tablesReady 0 0x20000008 8
     s.wants.isEmpty && s.gangs.any (fun g => g.ctx == 0 && match s.translate 0 0x20000008 .load, s.recTenant 0 0x30000000 with
       | .ok pa e, (s1, tn) => (tn.all fun t => t == (s.ctx g.ctx).ten) && !ptePeer e && !pteHost e && homeDie pa == 0 && s1.txn? (lineBase pa) == none &&
         ((List.range 64).find? fun i => !((s1.die 0).watch.any fun x => x.idx == i)) == some 0 && watchHolds (z.2.extractLsb' 16 2) (BitVec.ofNat 64 (s1.devReadNat pa 8).2) 5 == z.1
       | _, _ => false)) = true ∧
    (let s := fun (c : Nat) => aWatch (fun x => { x with ctx := c }) (anOp (.engine 0 none 3 [0x21, 3]) s0)
     ((s 0).die 0).watch.any (fun x => x.idx == 3 && x.ctx == 0) = true ∧ ((s 9).die 0).watch.all (fun x => x.idx == 3 && x.ctx != 0) = true) ∧
    (let batch := fun (rel : Bool) (n t : Nat) => let s := aBfe (fun b => { b with owner := if rel then .gang 0 else b.owner, batches := [{ layer := 1, pairs := List.replicate n (1, 2, 10) }] }) { s0 with clock := t }
      (s.bfe? 0 2).any fun b => (b.ctx, (b.area + 4096).toNat) ∉ (s.die 0).bufs && b.released == rel && b.batches.all fun bt => decide (0 < bt.pairs.length ∧ bt.pairs.length ≤ 64) &&
        (bt.pairs.length == 64 || b.released || decide (10 + 4096 ≤ s.clock))
     batch false 64 20 = true ∧ batch true 1 20 = true ∧ batch false 1 5000 = true) ∧
    watchHolds 0 5 5 = true ∧ watchHolds 1 5 5 = false ∧ ((aWatch id s0).die 0).evals == [(0x20000008, 5, 4)] && ((aWatch (fun x => { x with id := 4 }) s0).die 0).watch.all (·.id == 4) && ((aWatch id s0).die 0).watch.all (·.addr == 0x20000008) = true := by
  decide +kernel

/-! ### The ordering machine -/

/-- One item of operation 5, as given. -/
def oneItem (f : Item → Item) : State :=
  let s := anItem .queued (anOp .store s0)
  { s with items := s.items.map fun i => f { i with accs := i.accs.map fun a => { a with done := false } } }
/-- A transaction of its line. -/
def txnOf (x : Txn) (s : State) : State := { s with txns := [x] }
/-- The item and its operation are there. -/
def itemAt (s : State) (P : Item → Bool) : Bool := (s.op? 5).isSome && (s.item? 6).any fun i => i.id == 6 && i.op == 5 && P i
def clear (s : State) (i : Item) : Bool := s.txn? i.line == none && !s.snoops.contains i.line && !s.hostFilter.contains (i.line, true)

theorem hyp_WriteSteps :
    (let may := fun (s : State) (P : Item → Bool) => itemAt s fun i => i.st == .queued && !s.behindLine i && P i
     may (oneItem fun i => { i with kind := .store }) (fun i => i.kind == .store && !i.rel && i.comm == none && !i.nc && i.dst == .dev && s0.present i.line && !(oneItem fun i => { i with kind := .store }).behindOp i) = true ∧
     (let s : State := { oneItem (fun i => { i with kind := .store, dst := .host }) with hlUp := true }
      may s (fun i => i.dst == .host && !s.behindOp i && !s.itemGated i && s.hlUp && s.gradeLines i.ctx i.inst == []) = true) ∧
     (let s := oneItem fun i => { i with kind := .store, dst := .peer 3 }
      may s (fun i => i.dst == .peer 3 && !s.behindOp i && !s.itemGated i && s.route? 3 == none && s.gradeLines i.ctx i.inst == []) = true) ∧
     (let s := oneItem id
      may s (fun i => i.kind == .load && !i.acq && !i.nc && i.dst == .dev && s.present i.line && clear s i && i.comm == none && (s.fillNeed 0 i.line).isNone && i.accs.all fun a => pickAcc 1 a) = true) ∧
     ([false, true].all fun nc => let s := home (oneItem fun i => { i with line := 0x10000000 }) fun k => { k with l1 := [{ line := 0x10000000, data := memReadN s0.mem 0x10000000 128, nc := nc, dirty := [], first := false }] }
      may s fun i => !i.acq && i.pol != 2 && i.dst == .dev && i.comm == none && s.mayFill 0 0 i.ctx i.line && ((s.core 0 0).l1.any fun x => x.line == i.line) && !s.early i.line (.l1 0 0)) = true ∧
     ([ItemKind.store, .atomic .add 3].all fun k => let s := oneItem fun i => { i with kind := k, st := .arrived }
      itemAt s fun i => s.items == [i] && i.st == .arrived && s.present i.line && clear s i && !i.nc) = true ∧
     (let s := txnOf { line := 0x20000000, bytes := [(0, 7)], wait := [.l1 0 0, .l2 1], item := some 6, inval := false } (oneItem fun i => { i with kind := .store, st := .applied })
      itemAt s (fun i => (s.txn? i.line).any fun x => !x.inval && x.wait.contains (.l1 0 0)) = true) ∧
     (let s := txnOf { line := 0x20000000, bytes := [], wait := [], item := some 6, inval := false } (oneItem fun i => { i with kind := .store, st := .applied })
      itemAt s (fun i => (s.txn? i.line).any fun x => x.wait == [] && !x.inval && x.item == some i.id) = true)) := by decide +kernel

/-- A stash page that holds line 1 of its frame DIRTY. -/
def dirtyPage (s : State) : State := chg s fun g => { g with stash := [{ mapped := true, va := 0x30000000, wr := true, frame := some 0x30000000, data := [(0x80, 9)], lines := [(1, .dirty)], stored := [0x80] }] }

theorem hyp_CopiesGiveUp :
    (let s := txnOf { line := 0x20000000, bytes := [], wait := [.l2 0], item := none, inval := true } s0
     (s.txn? 0x20000000).any (fun x => x.inval && x.wait.contains (.l2 0)) = true) ∧
    (let s := dirtyPage (oneItem fun i => { i with kind := .store, st := .notice, dst := .stash 0, line := 0x30000080 })
     itemAt s (fun i => i.st == .notice && i.dst == .stash 0 && (s.gang? i.uid).any (fun g => g.stash[0]?.any fun p => p.covers i.line && p.lineState (p.lnOf i.line) != .invalid) &&
       clear s i && s.present i.line && (s.fillNeed 0 i.line).isNone) = true) ∧
    (let s := anOp (.fence 1 3) (dirtyPage s0)
     s.gangs.any (fun g => s.gang? g.uid == some g && s.stashHolders 0x30000080 == [(g.uid, 0, 1, .dirty)] && s.wantsClean g.uid && g.loc.die == 0 &&
       g.stash[0]?.any fun p => p.frame == some 0x30000000 && p.lineState 1 == .dirty) = true ∧ s.txn? 0x30000080 = none) ∧
    (s0.txn? 0x20000000 = none ∧ homeDie 0x20000000 ≠ 1 ∧ s0.sliceDH 1 0x20000000 = none) ∧
    (let s : State := { s0 with snoops := [0x20000000] }
     s.snoops.contains 0x20000000 = true ∧ s.txn? 0x20000000 = none ∧ Memory.wf s.mem = true) ∧
    (let full := fun (step die : Nat) => let ls := (List.range 16).map fun i => 0x20000000 + i * step
       s0.onDie die fun d => { d with dir := ls, sf := ls, l2 := ls.map fun l => { line := l, data := List.replicate 128 0, nc := false, dirty := [] } }
     (let s := full (160 * 2048 * 128) 1
      s.victim ((s.die 1).dir.filter fun l => sliceSet l == sliceSet 0x20000000 && s.dieHolds 1 l) = some 0x20000000) ∧
     (let s := (full (262144 * 128) 1).onDie 0 fun d => { d with sf := (List.range 16).map fun i => 0x20000000 + i * (262144 * 128) }
      s.farHeld 0x20000000 = true ∧ 15 ≤ (s.sfWays 0x20000000).length ∧ s.txn? 0x20000000 = none ∧ s.snoops = [])) ∧
    (let s := txnOf { line := 0x20000000, bytes := [], wait := [.host], item := none, inval := false } s0
     (s.txn? 0x20000000).any (fun x => x.wait.contains .host) = true) := by decide +kernel

theorem hyp_TranslationEvents :
    ([0x20000000#64, 0x40000000000#64].all fun v => let s := oneItem fun i => { i with kind := .store, st := .held, retry := true, vline := v }
      let r := fun (i : Item) => (s.setItem { i with retry := false }).xlateItem i i.vline.toNat i.need.kind
      s.txns == [] && s.gangs.all (fun g => g.stashOver v.toNat == none) && itemAt s fun i => i.st == .held && i.retry && match (r i).2 with
        | .ok pa e => (match placeOf (r i).1 i.need i.vline.toNat pa e with | .ok _ => v == 0x20000000 | _ => false)
        | .xlate => v != 0x20000000
        | _ => false) = true ∧
    ([false, true].all fun b => let s : State := { anOp (.tlbinv 8) s0 with sweeps := [{ id := 8, ctx := 0, all := true, va := 0, op := some 5, after := 5, uid := u0, began := b, waits := [6] }] }
      (s.sweeps.find? fun x => x.id == 8).any fun w => w.began == b && w.op == some 5 && (s.op? 5).isSome && s.releaseMet w.uid w.after 3 && s.cores.all (fun k => !k.gated) && s.items.all fun x => !w.waits.contains x.id) = true ∧
    (let s : State := { s0 with sweeps := [{ id := 8, ctx := 0, all := true, va := 0, op := none, after := 5, uid := 0, began := true, waits := [6] }] }
     s.sweeps.all (fun w => (s.ctxs.map (·.num)).contains w.ctx) = true ∧ s.items = []) ∧
    (let s := s0.onDie 0 fun d => { d with tdir := (List.range 16).map fun i => { ctx := 0, lvl := 2, va := i * 2 ^ 50, cores := [0] } }
     ((s.die 0).tdir[0]?).any fun v => decide (16 ≤ ((s.die 0).tdir.filter fun t => tdSet t.lvl t.va == tdSet v.lvl v.va).length)) = true := by decide +kernel

/-! ### The Armature -/

/-- Instance 1 of a task with one input, in the state given. -/
def anInst (f : Inst → Inst) (s : State) : State := { aTask s with insts := (aTask s).insts.map fun i => f { i with num := 1, tr := { i.tr with ins := [(1, 1, false)] } } }
/-- Launch 9 of the context, as given. -/
def aLaunch (f : Launch → Launch) (s : State) : State := { s with launches := [f { id := 9, ctx := 0, recA := 0, argp := none, num := none, bad := false, tr := (s.insts.head?.map (·.tr)), by' := .tspawn }] }
/-- Queue 0 enabled for every core, with PRIO 2 and PREEMPT. -/
def aQueue (since : Option Nat) (s : State) : State := { s with queues := s.queues.map fun q => if q.num == 0 then { q with ctl := 0x320, mask := 2 ^ 512 - 1, since := since, head := [0, 1, 0, 0] } else q }
/-- One gang waits for placement in queue 0. -/
def aPlace (s : State) : State := { s with places := ((aTask s).insts.map fun i => { queue := 0, ctx := 0, inst := 1, run := 0, next := 0, tr := i.tr }) }

/-- A task record at 3000_0000h with its handler's record at 3100h, and its argument at 3800_0000h (R95). -/
def aRec (s : State) : State := { s with mem := [(0x3000000A, 1#8), (0x30000013, 0x38#8), (0x30000019, 0x31#8)].foldl (fun m p => memWrite m p.1 p.2) s.mem }

theorem hyp_TaskEvents :
    (let noted := fun (s : State) (P : Launch → Bool) => s.launches.any fun l => s.launches.find? (fun y => y.id == l.id) == some l && l.by' == .tspawn && s.launches.length == 1 && P l
     noted ((aLaunch id (anInst id s0)).onCtx 0 fun c => { c with killed := true }) (fun _ => true) = true ∧
     (let s := aLaunch id (anInst id (aValue 1 0 1 s0))
      let s := s.setTenant { s.tenant 0 with clsize := 8 }
      noted s (fun l => l.num == none && l.argp == none && !(s.ctx l.ctx).killed && (s.ctxs.map (·.num)).contains l.ctx && l.tr.any fun tr => tr.ins != [] &&
        match s.deadInput l.ctx tr.ins with
        | (s1, none) => decide (s1.linksUsed (s.ctx l.ctx).ten + tr.ins.length ≤ (s1.tenant (s.ctx l.ctx).ten).clsize.toNat)
        | _ => false) = true) ∧
     ([false, true].all fun b => let s := aLaunch (fun l => { l with tr := none, recA := 0x30000000, bad := b }) (aRec s0)
      noted s fun l => l.num == none && l.argp == none && !(s.ctx 0).killed && decide ((s.ctx 0).faults.length < 64) && match s.readRec 0 0x30000000 with
        | (s1, some n) => !s1.recBad 0 0x30000000 n && (TaskRec.ofNat n).fhrec != 0 && (TaskRec.ofNat n).ins == [] && (s1.deadInput 0 []).2 == none && (s1.inst? 0 (s1.ctx 0).instN.toNat).isNone
        | _ => false)) ∧
    ([(1 : Byte), 0].all fun gr => let s := anInst (fun i => { i with st := .waiting }) (aValue gr 0 1 s0)
      (s.inst? 0 1).any fun i => i.st == .waiting && i.cons == [] && (i.tr.ins.all fun d => s.peekLines 0 d.1 == []) && (i.tr.ins.all fun d => (s.peekValue 0 d.1).any fun e => veLive e && decide (0 < veVersion e) &&
        decide (d.2.1 ≤ veGrade e)) == (gr == 1)) = true ∧
    (let s := aQueue none (aPlace s0)
     s.places.any (fun p => (s.queue 0).en && s.qhead 0 == some (.place p) && p.tr.cohsz == 0 && s.chooseCore (s.queue 0) (.place p) == some (1, 0) && !(s.core 1 0).gated &&
       (s.chooseSlot 1 0).isSome && (s.core 1 0).l1 == []) = true) ∧
    ([true, false].all fun a => let s := anInst (fun i => { i with again := a }) (aValue 1 0 1 s0)
      (s.inst? 0 1).any fun i => i.st == .running && s.runOver i && i.by' == .tspawn && i.tr.nout == 0 && i.again == a && (i.tr.ins.all fun d => !d.2.2) && !s.hasHeld 0 1) = true ∧
    (let s := anInst (fun i => { i with again := true, tr := { i.tr with nout := 1, outs := [1] } }) ((aValue 1 0 1 s0).onCtx 0 fun c => { c with cfg := c.cfg ||| 0x1E00 })
     (s.inst? 0 1).any (fun i => i.tr.outIds == [(0, 1)] && i.pubs == [] && i.again && (match s.publish 0 1 i.grade none with | (s1, r) => r.code == 0 && s1.insts == s.insts)) = true) ∧
    (let faulted := fun (a : Nat) (s : State) => s.onCtx 0 fun c => { c with faults := [{ fhrec := a, w := [1, 2, 3, 4] }] }
     let oldest := fun (s : State) (P : GFault → Bool) => ((s.ctx 0).faults.find? fun f => !((s.ctx 0).handlers.any fun h => h.1 == f.fhrec)).any P
     oldest (faulted 0x40000000000 s0) (fun f => (s0.readRec 0 f.fhrec).2 == none && !(s0.ctx 0).killed) = true ∧
     (let s := faulted 0x30000000 (aRec s0)
      oldest s (fun f => match s.readRec 0 f.fhrec with
        | (s1, some n) => !s1.recBad 0 f.fhrec n && (s1.ctxWrite 0 (TaskRec.ofNat n).argp.toNat (f.w.flatMap fun w => leBytes 8 w.toNat)).isSome
        | _ => false) = true)) ∧
    (let s := anItem .egress s0
     let s := anInst id { s with items := s.items.map fun i => { i with inst := 1 } }
     let s := s.onDie 0 fun d => { d with eghold := s.items.map fun i => { item := i, data := 8 } }
     (s.inst? 0 1).any (fun i => s.hasHeld 0 1 && s.items.all s.nextHeld && s.gradeLines 0 1 == [] && !s.gated 0 1 i.run && i.st != .retired) = true) := by decide +kernel

theorem hyp_PreemptionAndKill :
    (let s := aQueue (some 0) { aPlace (chg s0 fun g => { g with queue := 5, vblocks := 8 }) with clock := 5000 }
     let full := home { s with boot := { s.boot with ncore := 1 } } fun k => { k with cohorts := [{ num := 9, ctx := 0, members := [], arrived := [], phase := 0, pool := 438 }] }
     full.places.any (fun p => (full.queue 0).en && (full.queue 0).preempt && full.eligibleCores (full.queue 0) (.place p) == [] && full.qhead 0 == some (.place p) &&
       (full.queue 0).since == some 0 && (full.queue 0).head == (QHead.place p).key && full.allCores.all (fun x => !full.promised 0 x) && (full.allCores.filterMap fun x => full.victimsFor (full.queue 0) (.place p) x.1 x.2).map (·.map (·.uid)) == [[u0]]) = true ∧
     s.places.any (fun p => s.eligibleCores (s.queue 0) (.place p) != []) = true) ∧
    theGang (chg s0 fun g => { g with preempt := true }) (fun g => (g.table.find? fun x => x.kind == .live).isSome && g.preempt && g.tl == 0 && g.trap == none && g.status != .saved &&
      g.table.all (·.chk == 0) && g.unwaiting && g.region == none) = true ∧
    theGang (chg s0 fun g => { g with preempt := true, status := .parkedFault, pfSid := ((g.table.map (·.sid)).headD 0) }) (fun g =>
      (g.table.find? fun x => x.kind == .live && x.sid == g.pfSid).isSome && g.tl == 0 && g.trap == none && g.unwaiting && g.region == none) = true ∧
    theGang inHandler (fun g => decide (g.tl > 0)) = true ∧
    (let s := aQueue none ((chg s0 fun g => { g with status := .saved, saveA := 0x30000000, queue := 0 }).onCtx 0 fun c => { c with tvec1 := 0x10000000 })
     ([(0 : Byte), 8, 5].all fun n => let s : State := { s with mem := memWrite s.mem 0x30000240 n }
      theGang (chg s fun g => { g with vblocks := if n == 0 then 0 else 8 }) fun g => let s := chg s fun g => { g with vblocks := if n == 0 then 0 else 8 }
       g.status == .saved && g.move != .toRead && (s.queue 0).en && s.qhead 0 == some (.parked g) && s.chooseCore (s.queue 0) (.parked g) == some (0, 0) && !(s.core 0 0).gated && !s.saveBusy g &&
       match s.ctxRead g.ctx (g.saveA.toNat + 0x240) 8 with
       | (s1, some area) => s1.gang? g.uid == some g && leNat area == n.toNat && (({ s1 with gangs := s1.gangs.filter fun x => x.uid != g.uid } : State).chooseSlot 0 0).isSome
       | _ => false) = true) ∧
    -- counter 3 is 1 in the save area, and its hold entry armed with 1 left, or not
    ([(0x82 : Byte), 0x02].all fun b =>
      let s : State := { s0.onCtx 0 fun c => { c with tvec1 := 0x10000000 } with mem := [(0x30000203, 1#8), (0x3000021C, 20#8), (0x3000021D, b)].foldl (fun m p => memWrite m p.1 p.2) s0.mem }
      theGang (trapped 0 causePREEMPT false (chg s fun g => { g with saveA := 0x30000000, move := .toRead, table := g.table.map fun x => { x with sid := 0 } })) fun g =>
        g.move == .toRead && g.tl == 0 && g.region == none && g.table.map (·.sid) == [0] && match s.ctxRead g.ctx (g.saveA.toNat + 0x200) 64 with
        | (_, some area) => area.length == 64 && area.getD 3 0 == 1 && leNat ((area.drop 28).take 4) == 256 * b.toNat + 20
        | _ => false) = true ∧
    (s0.ctxs.map (·.num)).contains 0 = true ∧ (s0.ctx 0).killed = false ∧ ((s0.onCtx 0 fun c => { c with killed := true }).ctx 0).killed = true := by decide +kernel

/-! ### The pod -/

/-- The full name of the one gang. -/
def name0 (s : State) : W64 := (s.gangs.map fun g => s.nameOf g).headD 0
/-- An RSTV to a name, from operation 5. -/
def sent (n : W64) (f : Rstv → Rstv) (s : State) : State :=
  { anOp (.rstv none none) s with rstvs := [f { k := 7, name := n, reg := 8, lanes := 0xF, v := Vector.replicate 32 1, ten := 0, hops := 0, op := 5, uid := u0, pkt := none, rel := false, scope := 2, tag := none }] }
/-- Port 3 as given, beside a route to device 9 through it. -/
def onPort (f : Port → Port) (s : State) : State := { s.setPort (f (Port.init 3)) with routes := [(9, 0x123)] }
def upPort (p : Port) : Port := { p with st := .up, lanes := 8 }

theorem hyp_PodEvents :
    (let ok := fun (s : State) (P : Rstv → Bool) => s.rstvs.any fun r => (s.op? r.op).any (fun o => o.kind == .rstv none none) && r.tag == none && !s.rstvBehind r && s.rstvReleased r &&
       r.pkt == none && P r
     let here := fun (s : State) (P : Rstv → Bool) => ok s fun r => nameDev r.name == s.dev && !(s.core (nameLoc r.name).die (nameLoc r.name).core).gated && P r
     let gone := fun (s : State) (r : Rstv) => s.gangAt (nameLoc r.name) == none && nameTen r.name == r.ten
     let there := fun (s : State) (P : Rstv → Gang → Bool) => here s fun r => (s.gangAt (nameLoc r.name)).any fun g => s.gang? g.uid == some g && (s.ctx g.ctx).ten == nameTen r.name &&
       nameTen r.name == r.ten && decide ((nameLoc r.name).core < s.ncore (nameLoc r.name).die) && s.genOf (nameLoc r.name) == nameGen r.name && g.status != .saved && P r g
     here (sent 0x2000000000 id s0) (fun r => gone (sent 0x2000000000 id s0) r && ((sent 0x2000000000 id s0).core 0 0).fwd == []) = true ∧
     here (sent 0x2000000000 (fun r => { r with ten := 4 }) s0) (fun r => nameTen r.name != r.ten) = true ∧
     (let s := home (sent 0x2000000000 id s0) fun k => { k with fwd := [{ old := 0x2000000000, new := 0, since := 0 }] }
      here s (fun r => gone s r && (s.core 0 0).fwd.all (fun f => f.old == r.name) && decide (r.hops < 4)) = true) ∧
     there (sent (name0 s0) (fun r => { r with reg := 255 }) (chg s0 fun g => { g with vblocks := 2 })) (fun r g => decide (r.reg.toNat ≥ 32 * g.vblocks)) = true ∧
     (let s := chg s0 fun g => { g with tl := 1, move := .saving }
      there (sent (name0 s) id s) (fun _ g => g.moving) = true) ∧
     there (sent (name0 s0) id s0) (fun r g => decide (r.reg.toNat < 32 * g.vblocks) && !g.moving && g.region == none) = true ∧
     ok (sent 0x0070000000000000 id s0) (fun r => nameDev r.name != s0.dev && s0.route? (nameDev r.name) == none) = true ∧
     (let s := onPort upPort (sent 0x0090000000000000 id s0)
      ok s (fun r => nameDev r.name == 9 && match s.route? 9 with | some e => s.primaryHop e == .port 3 | none => false) = true)) ∧
    (let q : CollReq := { op := 5, uid := u0, comm := 1, ten := 0, prio := 2 }
     let s := home (anItem .queued (anOp .coll s0)) fun k => { k with arbQ := [q] }
     let s : State := { s with items := s.items.map fun i => { i with comm := some 1 } }
     (s.core 0 0).grant = none ∧ bestReq (s.core 0 0).arbQ = some q ∧ s.items.any (fun i => s.underGrant q i && i.st == .queued) = true ∧
       (s.gang? q.uid).all (fun g => g.region == none) = true) ∧
    (let at1 : CommAt := { pa := 0x20001020, far := false, ent := 1 }
     let s : State := { s0.onCtx 0 fun c => { c with comms := [(1, at1)] } with aborts := [(0, 1)] }
     s.aborting 0 1 = true ∧ s.abtCleared 0 1 = false ∧ s.told = [] ∧ s.items = [] ∧ s.cores.all (fun k => k.grant == none) = true ∧ s.pkts = [] ∧ s.commHome 0 1 = some (0, at1) ∧ at1.far = false ∧ Memory.wf s.mem = true ∧
       ({ s with told := [(0, 1)] } : State).abtCleared 0 1 = false ∧ s.gangs.all (fun g => !s.committing 0 1 g) = true ∧
       (let s := chg s fun g => { g with region := (theRegion 1).map fun r => { r with stage := .step3, comm := some 1, buf := [{ setf := 3, ip := 0, body := .coll 1 .store [] }] } }
        s.gangs.any (fun g => s.gang? g.uid == some g && s.committing 0 1 g && g.region.any fun r => r.buf.length == 1) = true)) := by decide +kernel

/-- A packet in custody here, or as given. -/
def aPkt (f : Pkt → Pkt) (s : State) : State := { s with nextId := 20, pkts := [f
  { k := 8, h := { Hdr.blank with kind := 1, sdev := 9, ddev := 0, tag := 44 }, data := [], loc := .here, inPort := none, since := 0 }] }

theorem hyp_LinkAndCustodyEvents :
    (let up := fun (f : Port → Port) (P : State → Port → Bool) => let s := onPort (fun p => f (upPort p)) s0; (s.port? 3).any fun p => s.portUp? 3 == some p && P s p
     up id (fun _ p => BitVec.ofNat 12 0 == p.rxSeq) = true ∧ ([(false, 0), (true, 14), (true, 15)].all fun x => up (fun p => { p with replay := [(0, 5, 0), (1, 6, 0)], replayed := x.1, fails := x.2 }) fun _ p =>
       p.replay != [] && p.replay.map (·.1) == [0, 1] && p.replayed == x.1 && p.fails == x.2) = true ∧
     up (fun p => { p with fails := 16 }) (fun _ p => decide (16 ≤ p.fails)) = true ∧ up id (fun _ p => decide (p.fails < 16)) = true ∧
     ([(PortSt.training, 0), (.retrain, 0), (.training, 3), (.retrain, 3)].all fun x => ((onPort (fun p => { p with st := x.1, retrains := x.2 }) s0).port? 3).any fun p => p.st == x.1 && p.retrains == x.2) = true ∧
     (let good := Hdr.toNat { Hdr.blank with kind := 1, sdev := 9, ddev := 4, tag := 44, hop := 1 }
      let bad := Hdr.toNat { Hdr.blank with kind := 1, sdev := 9, ddev := 4, tag := 44, cls := 7 }
      let here := fun (f : Nat) => let s := aPkt id (onPort (fun p => { upPort p with rx := [f] }) s0); (s.port? 3).any fun p => s.portUp? 3 == some p && s.pkts.all (fun y => decide (y.k < s.nextId)) && p.rx == [f] &&
        decide ((Hdr.ofNat f).flits ≤ 0)
      here good = true ∧ (Hdr.ofNat good).malformed good = false ∧ here bad = true ∧ (Hdr.ofNat bad).malformed bad = true ∧ (Hdr.ofNat bad).kind.toNat < 16) ∧
     (let s := aPkt (fun x => { x with loc := .link 3 }) (onPort upPort s0)
      s.pkts.any (fun x => x.k == 8 && x.loc == .link 3 && x.h.tag.toNat == 44 && x.h.sdev.toNat == 9) = true) ∧
     (let s := aPkt (fun x => { x with loc := .held, h := { x.h with ddev := 9, sdev := 0 } }) (onPort upPort s0)
      (s.pkt? 8).any (fun x => x.loc == .held && s.devid != none && !s.ordBehind x && s.nextHop x == .port 3 && decide (s.clock < x.since + 2 ^ 18)) = true ∧ ((s.port? 3).any fun p => p.num == 3) = true) ∧
     ([(6, 9, PortSt.up, 0), (1, 8, .up, 0), (1, 9, .dead, 0), (1, 9, .up, 300000)].all fun x =>
       let s := aPkt (fun p => { p with loc := .held, inPort := some 2, h := { p.h with ddev := BitVec.ofNat 12 x.2.1, sdev := 7, hop := BitVec.ofNat 3 x.1 } }) (onPort (fun p => { upPort p with st := x.2.2.1 }) s0)
       let s : State := { s with clock := x.2.2.2 }
       (s.pkt? 8).any fun p => p.inPort == some 2 && p.loc == .held && s.devid != none && !s.ordBehind p && s.items == [] && ((p.h.hop == 6) || (s.route? p.h.ddev.toNat == none) ||
         ((s.route? p.h.ddev.toNat).any fun e => s.primaryHop e == .dead) || decide (p.since + 2 ^ 18 ≤ s.clock))) = true ∧
     (let s := aPkt (fun x => { x with loc := .held, h := { x.h with ddev := 9, sdev := 0 } }) (onPort upPort (anItem .sent (anOp .store s0)))
      let s : State := { s with clock := 300000, items := s.items.map fun i => { i with tag := some 44 } }
      (s.pkt? 8).any (fun x => x.loc == .held && decide (x.since + 2 ^ 18 ≤ s.clock) && x.inPort == none && !x.h.resp && decide (x.h.kind.toNat < 8)) = true ∧
      s.items.any (fun i => i.tag == some 44 && i.st == .sent && s.item? i.id == some i && (s.op? i.op).isSome && i.comm == none) = true)) := by decide +kernel

theorem hyp_FabricItems :
    (let ok := fun (f : Hdr → Hdr) (i : Item → Item) (t : State → State) (P : State → Pkt → Item → Bool) =>
       let s := aPkt (fun x => { x with h := f x.h }) (t (anItem .sent (anOp .store s0)))
       let s : State := { s with items := s.items.map fun y => i { y with tag := some 44, dst := .peer 9 } }
       (s.pkt? 8).any fun x => decide (x.k < s.nextId) && x.loc == .here && s.items.any fun y => s.item? y.id == some y && y.tag == some x.h.tag.toNat && y.st == .sent && (s.op? y.op).isSome &&
         y.comm == none && P s x y
     let asks := fun (s : State) (x : Pkt) => !x.h.resp && !s.atWork x.k && s.refused == []
     let inside := fun (s : State) (x : Pkt) => let line := lineBase (x.h.addr.toNat % 2 ^ 52)
       s.inFwin x.h.ten.toNat (line / 65536 * 65536) && s.present line && s.txn? line == none && s.snoops == [] && s.hostFilter == []
     let at1 := fun (k : BitVec 6) (a : W64) (h : Hdr) => { h with kind := k, addr := a, mask := 0xF }
     ([1, 2].all fun k => ok (at1 k 0x20000000) id id fun s x _ => asks s x && inside s x && !(s.recall 0x20000000).outdated x.h) = true ∧
     ([1, 2].all fun k => ok (at1 k 0x4000000000) id id fun s x _ => asks s x && !s.inFwin x.h.ten.toNat (lineBase (x.h.addr.toNat % 2 ^ 52) / 65536 * 65536)) = true ∧
     ok (fun h => { h with kind := 1, resp := true }) id id (fun _ x i => x.h.resp && !x.h.err && i.kind == .load) = true ∧
     ok (fun h => { h with kind := 1, resp := true, err := true }) id id (fun _ x _ => x.h.resp && x.h.err) = true ∧
     ([false, true].all fun b => ok (fun h => { h with kind := 0x10, aux := if b then 0x2000 else 0 }) id id fun _ x i => x.h.kind == 0x10 && !x.h.aux.getLsbD 0 && x.h.aux.getLsbD 13 == b &&
       i.dst == .peer 9) = true ∧
     ok (fun h => { h with kind := 0x11 }) id id (fun _ x i => x.h.kind == 0x11 && !x.h.aux.getLsbD 15 && !x.h.aux.getLsbD 16 && i.dst == .peer 9) = true ∧
     ok (fun h => { h with kind := 0x12 }) id id (fun s x _ => x.h.kind == 0x12 && !x.h.resp && s.performed == [] && s.pkts.all fun y => decide (8 ≤ y.h.kind.toNat)) = true ∧
     ([(0x12, 0), (0x10, 0x13)].all fun n => ok (fun h => { h with kind := n.1, aux := n.2 }) id (fun s => { s with performed := [(9, 44, { k := 1, h := Hdr.blank, data := [], loc := .here, inPort := none, since := 0 })] })
       fun s x _ => x.h.kind == n.1 && !x.h.resp && (x.h.kind == 0x12 || (x.h.aux.getLsbD 0 && !x.h.aux.getLsbD 15 && !x.h.aux.getLsbD 16 && x.h.aux.extractLsb' 1 12 == 9)) &&
         s.performed.all fun r => r.1 == x.h.sdev.toNat && r.2.1 == x.h.tag.toNat) = true ∧
     ok (fun h => { h with kind := 0x12, resp := true }) id id (fun _ x _ => x.h.resp && !x.h.aux.getLsbD 31) = true ∧
     ok (fun h => { h with kind := 8, aux := 1 }) id id (fun s x _ => x.h.kind == 8 && s.ctxs.all fun c => !c.aborted.contains (x.h.aux.extractLsb' 0 8).toNat) = true ∧
     ([0, 50].all fun t => ok id id (fun s => { s with refused := [(9, 44, t)] }) fun s _ _ => (s.refused[0]?).any fun r => decide (r.2.2 ≤ s.clock) == (t == 0)) = true) := by
  decide +kernel

/-! ### The host and the driver -/

theorem hyp_HostEvents :
    (let base := fun (st : ItemSt) (k : ItemKind) (mode : BitVec 3) =>
       let s : State := { anItem st (anOp .store s0) with hlUp := true, hlMode := mode }
       ({ s with items := s.items.map fun i => { i with dst := .host, kind := k } } : State)
     let itemOk := fun (s : State) => s.hlUp && Memory.wf s.mem && s.items.any fun i => s.item? i.id == some i && (s.op? i.op).isSome && i.comm == none
     ([HostFn.pf, .vf 0].all fun f => [(0 : BitVec 3), 4].all fun m => let s := base .queued .load m
       itemOk s && s.hostReaches f 0x20000040 8 && !s.hostBusy 0x20000040 8 && !s.hostWaits 0x20000040 8 && s.hostOrd == [] && s.filterRoom 0x20000000 && s.hostFilter == []) = true ∧
     (let s := base .queued .load 0
      let s : State := { s with hostOrd := [{ pa := 0x20000000, data := [1] }] }
      s.hlUp && s.hostReaches .pf 0x20000040 8) = true ∧
     (let s := base .queued .load 0
      s.hostReaches (.vf 0) 0x4000000000 8 = false ∧ s.hostReaches (.vf 3) 0x20000000 8 = false) ∧
     ([4, 8].all fun n => let s := base .queued .load 4
      s.hlUp && s.hostReaches .pf 0x20000048 n && !s.hostWaits 0x20000048 n && s.hostFilter == [] && Memory.wf s.mem && !s.hostReaches (.vf 0) 0x4000000000 n) = true ∧
     ([ItemKind.load, .store].all fun k => let s := base .sent k 0; itemOk s && (s.items.map (·.id)).length == 1 && s.items.all fun i => i.st == .sent && i.dst == .host && i.kind == k) = true ∧
     s0.boot.stage.toNat ≥ 3 ∧ s0.boot.result = 0) := by decide +kernel

theorem hyp_DriverRegisters :
    (let drv := fun (s : State) (P : Context → Port → Bool) => s.boot.ready && (s.ctxs.map (·.num)).contains 0 && (s.port? 3).any fun p => P (s.ctx 0) p
     drv s0 (fun c p => !c.killed && !c.tinv && c.pfq == [] && p.st != .dead && c.ten == 0 && c.en) = true ∧ drv (s0.onCtx 0 fun c => { c with killed := true }) (fun c _ => c.killed) = true ∧
     (let s : State := { s0.onCtx 0 fun c => { c with cfg := 0 } with gangs := [] }
      drv s (fun c _ => !c.en && !s.ctxBusy 0) = true) ∧
     drv (s0.onCtx 0 fun c => { c with pfq := [7, 8], pfOvf := true }) (fun c _ => c.pfq == [7, 8]) = true ∧
     (let s := s0.onCtx 0 fun c => { c with hwaddr := 0x20000008, hwval := 5, hwrec := 0x30000000 }
      drv s (fun _ _ => ((s.lineReady 0x20000000 false).armWatch 0 0 0x20000008 0 5 0x30000000 false false).isSome) = true) ∧
     ([0, 9].all fun c => drv (aWatch (fun x => { x with ctx := c }) s0) fun _ _ => ((aWatch (fun x => { x with ctx := c }) s0).die 0).watch.any fun x => x.idx == 3 && (x.ctx == 0) == (c == 0)) = true ∧
     drv (onPort (fun p => { p with st := .dead }) s0) (fun _ p => p.st == .dead) = true ∧
     drv (onPort (fun p => { p with en := true }) { s0 with fuses := { s0.fuses with ports := 8 } }) (fun _ p => p.st == .down && p.en) = true ∧
     s0.boot.result = 0 ∧ ({ s0.boot with result := 3 } : Boot).result ≠ 0 ∧
     (let s := s0.onDie 0 fun d => { d with plbFw := 0x402060 }
      decide (s.boot.stage.toNat ≥ 3) && (s.dies.map (·.die)).contains 0 && decide (plRamp (s.die 0).plbFw < plRamp (0xF00000#64 &&& 0xF0FFFF)) && decide (plRamp (0x200101#64 &&& 0xF0FFFF) ≤ plRamp (s.die 0).plbFw) &&
        decide (plCbud 0x200101 ≤ plCbud (s.die 0).plbFw) && decide (plMbud 0x200101 ≤ plMbud (s.die 0).plbFw)) = true ∧ (s0.tenants.map (·.num)).contains 15 = true) := by decide +kernel

/-! ### Page engines -/

/-- A page-engine context, and the machine with it. -/
def pgCtx (f : Context → Context) (s : State) : State := s.onCtx 0 fun c => f { c with pgfrm := 0x60000000 }
/-- The leaf of the first 16 GiB with MIG, and no stash. -/
def migLeaf (s : State) : State := chg { s with mem := memWrite s.mem 0x50001001 1 } fun g => { g with stash := [] }
/-- The page-engine registers and the memory, as the statement reads them. -/
def pgAt (s : State) (P : Context → Bool) : Bool := (s.ctxs.map (·.num)).contains 0 && Memory.wf s.mem && P (s.ctx 0)
/-- The entry that PGREQ `v` asks for, and how far its range is from a boundary. -/
def asked (s : State) (v : W64) : Option Nat × Nat :=
  let c : Context := { s.ctx 0 with pgreq := keepBits v 25 51 ||| keepBits v 0 2, pgres := 0 }
  (((s.setCtx c).tablesReady 0 c.pgVa 1).entryAt 0 c.pgVa c.pgLvl, c.pgVa % 2 ^ lvlBits c.pgLvl)

theorem hyp_PageEngines_split :
    pgAt (pgCtx id s0) (fun _ => s0.pgFree 0 0x400000005 1 && (asked (pgCtx id s0) 0x400000001).1 == none) = true ∧
    ([(false, 0x60000000), (true, 0x3000000000), (true, 0x60000000)].all fun x =>
      let s := chg (pgCtx (fun c => { c with pgfrm := BitVec.ofNat 64 x.2 }) (if x.1 then migLeaf s0 else s0)) fun g => { g with stash := [] }
      let e := BitVec.ofNat 64 (memNat s.mem 0x50001000 8)
      pgAt s fun _ => s.pgFree 0 5 1 && s.txns == [] && s.snoops == [] && s.hostFilter == [] && s.gangs.all (fun g => g.stash == []) && asked s 5 == (some 0x50001000, 0) && pteV e && pteL e && !malformed e 2 &&
        (pteMig e == x.1) && (x.2 == 0x60000000) == (s.inFwin 0 x.2 && s.present x.2)) = true ∧
    ([0x1F, 0x11F].all fun e => let s := pgCtx (fun c => { c with pgst := .swap, pgreq := 5, pgSave := [(0x50001000, BitVec.ofNat 64 e)] }) s0
      pgAt s fun c => c.pgst == .swap && c.splits && ((s.readEnt 0x50001000).2 == BitVec.ofNat 64 e) == (e == 0x1F)) = true ∧
    ([none, some []].all fun w => pgAt (pgCtx (fun c => { c with pgst := .sweep, pgreq := 5, pgWait := w }) s0) fun c => c.pgst == .sweep && c.splits && c.pgWait == w) = true := by decide +kernel

theorem hyp_PageEngines_promotion :
    pgAt (pgCtx id s0) (fun _ => s0.pgFree 0 0x400000002 2 && (asked (pgCtx id s0) 0x400000002).1 == none) = true ∧
    (let s := chg (pgCtx (fun c => { c with pgst := .protect, pgreq := 2, pgSave := [(0x50002000, 1)] }) s0) fun g => { g with stash := [] }
     pgAt s (fun c => c.pgst == .protect && c.pgWait == none && s.cores.all (fun k => !k.gated)) = true ∧
     pgAt (s.onCtx 0 fun c => { c with pgWait := some [6] }) (fun c => c.pgst == .protect && c.pgWait == some [6] && s.items == []) = true ∧
     pgAt (s.onCtx 0 fun c => { c with pgst := .copy, pgSave := [(0x50002000, 0x58000001)] }) (fun c => c.pgst == .copy && s.txns == [] && s.snoops == [] && s.hostFilter == [] &&
       decide (pteFrame 0 + 65536 ≤ 0x60000000)) = true) ∧
    ([PgState.sweep, .abort].all fun st => [none, some []].all fun w => pgAt (pgCtx (fun c => { c with pgst := st, pgreq := 2, pgWait := w }) s0) fun c => c.pgst == st && !c.splits && c.pgWait == w) = true := by decide +kernel

/-! ### Bring-up, page tables, the machine -/

/-- The device in a boot stage. -/
def atBoot (n : BitVec 3) : State := { s0 with boot := { s0.boot with stage := n, ready := false } }

/-- Whether the slots verify is a matter of fuses and images of which nothing is known (log 8): the three cases of stage 1 exclude each other. -/
theorem hyp_BringUp : ([1, 2, 3, 4].all fun n => (atBoot (BitVec.ofNat 3 n)).atStage n && !(atBoot (BitVec.ofNat 3 n)).boot.ready && (atBoot (BitVec.ofNat 3 n)).boot.result == 0) = true ∧
    (let r : PlatformRegs := { ncore := 0x80808080, nchan := 0x40404040, chloc := 1152, pkgpwr := pkgPower }
     let s : State := { atBoot 3 with hlUp := true, fuses := { s0.fuses with ncore := 0x80808080, nchan := 0x40404040 } }
     platformOk r = true ∧ s.hlUp = true ∧ s.fuses.ncore = r.ncore ∧ s.fuses.nchan = r.nchan ∧ s.atStage 3 = true ∧ (atBoot 3).hlUp = false ∧ (atBoot 1).boot.stage.toNat < 3) ∧ (∀ x ∈ [0x84, 0xE1, 0xE3, 0x81, 0x82, 0x83, 0xE0], (0x85 : Byte) ≠ x) := by
  decide +kernel

theorem hyp_PageTables :
    (let entry := fun (s : State) (va t n : Nat) => BitVec.ofNat 64 (memNat s.mem (t + 8 * ((BitVec.ofNat 64 va).extractLsb' (16 + 9 * n) 9).toNat) 8)
     (entry s0 0 0x50000000 3 = 0x50001001 ∧ pteV 0x50001001 = true ∧ malformed 0x50001001 3 = false ∧ pteL 0x50001001 = false ∧ s0.inFwin 0 (pteFrame 0x50001001) = true) ∧
     (entry s0 0 0x50001000 2 = 0x1F ∧ malformed 0x1F 2 = false ∧ pteL 0x1F = true) ∧ pteV (entry s0 0x40000000000 0x50001000 2) = false ∧ malformed 0x1F 3 = true ∧
     s0.walk 0 0x40000000000 = none ∧ (0x40000000000 : Nat) < lwin ∧ s0.leafRes 0 0x20000000 2 0x1F .load = .ok 0x20000000 0x1F ∧ pteW 0x1F = true ∧ ptePeer 0x43 = true) := by
  decide +kernel

theorem hyp_DecodeOfEncode : (Instr.sadd c0 1 2 3).wf = true ∧ (Instr.sadd c0 1 2 3).isEvent = false ∧ encode (.sadd c0 1 2 3) = some 0x780000000000000C08040008 ∧
    (match decodeWord 0x780000000000000C08040008 with | .ok i => i == .sadd c0 1 2 3 | .error _ => false) = true := by decide +kernel

theorem hyp_StepRunsDecodedInstruction :
    (let ready := fun (s : State) (P : Gang → Split → Latch → Bool) => (firstChange s s.dueEvents).isNone && s.agenda == [] && match s.issuer with
       | some (g, sp) => (match sp.latch with | some l => l.va == lineOf sp.pc && slotOf sp.pc == some 0 && P g sp l | none => false)
       | none => false
     let two := fun (a b : BitVec 96) (pair : BitVec 4) => chg loaded fun g => { g with table := g.table.map fun x => { x with latch := x.latch.map fun l =>
       let slots := a :: b :: l.slots.drop 2
       { l with slots := slots, word := mkLineWord slots 31 pair } } }
     ready loaded (fun _ _ l => !lineIllegal l.word && !pairBit l.word 0 && (match decodeWord (l.slots.getD 0 0) with | .ok i => !i.isEvent | .error _ => false)) = true ∧
     ready (State.reset.withFetchWord 96 0xFFFFFFFFFFFFFFFFFFFFFFFF) (fun _ _ l => match decodeWord (l.slots.getD 0 0) with | .ok _ => false | .error _ => true) = true ∧
     ready (two 0x780000000000000C08040008 0x7800000000000008040C0010 1) (fun g sp l => !lineIllegal l.word && pairBit l.word 0 &&
       match decodeWord (l.slots.getD 0 0), decodeWord (l.slots.getD 1 0) with
       | .ok i, .ok j => Sys2Proof.Machine.pairOk (l.slots.getD 0 0) (l.slots.getD 1 0) i j && !illegalUse s0 g sp sp.pc i && !illegalUse s0 g sp (sp.pc + 12) j && sp.depth == 0
       | _, _ => false) = true ∧
     ready (two 0x780000000000000C08040008 0x780000000000000C08040008 1) (fun _ _ l => !lineIllegal l.word && pairBit l.word 0 &&
       match decodeWord (l.slots.getD 0 0), decodeWord (l.slots.getD 1 0) with
       | .ok i, .ok j => !Sys2Proof.Machine.pairOk (l.slots.getD 0 0) (l.slots.getD 1 0) i j
       | _, _ => false) = true ∧
     ready (chg (two 0x780000000000000C08040008 0x7800000000000008040C0010 1) fun g => { g with table := g.table.map fun x => { x with depth := 1, rpc := x.pc + 12 } })
       (fun g sp l => !lineIllegal l.word && pairBit l.word 0 && g.tl == 0 && sp.depth != 0 && sp.rpc == sp.pc + 12 && match decodeWord (l.slots.getD 0 0), decodeWord (l.slots.getD 1 0) with
       | .ok i, .ok j => Sys2Proof.Machine.pairOk (l.slots.getD 0 0) (l.slots.getD 1 0) i j
       | _, _ => false) = true ∧
     (let s : State := { s0 with agenda := [.ready] }
      (firstChange s s.dueEvents).isNone = true ∧ Instr.ready.isEvent = true)) := by decide +kernel

/-- Memory is in its canonical form at reset, and in the state that the placing of a word leaves (StepKeepsMemory). -/
theorem hyp_StepKeepsMemory : Memory.wf State.reset.mem = true ∧ Memory.wf loaded.mem = true ∧ (match step loaded with | .next t => Memory.wf t.mem | _ => false) = true := by
  decide +kernel

/-! The 512 leaves of a table that can be promoted. -/

/-- A table of `n` leaves from `a`, each of one byte. -/
def leafCells (b : Byte) : Nat → Nat → List Host.Cell
  | _, 0 => []
  | a, n + 1 => (a, b) :: leafCells b (a + 8) n

theorem memRead_leafCells (b : Byte) (n : Nat) : ∀ (a i o : Nat), i < n → o < 8 → memRead (leafCells b a n) (a + 8 * i + o) = if o = 0 then b else memBlank := by
  induction n with
  | zero => intro a i o h; omega
  | succ n ih =>
    intro a i o hi ho
    simp only [leafCells, memRead, beq_iff_eq]
    by_cases h0 : a = a + 8 * i + o
    · rw [if_pos h0, if_pos (by omega)]
    · rw [if_neg h0, if_neg (by omega)]
      cases i with
      | succ i => rw [← ih (a + 8) i o (by omega) ho]; congr 1; omega
      | zero =>
        rw [if_neg (by omega)]
        cases n with
        | zero => rfl
        | succ n => simp only [leafCells, memRead, beq_iff_eq]; rw [if_neg (by omega), if_pos (by omega)]

theorem memRead_append (m k : List Host.Cell) (x : Nat) (h : ∀ c ∈ m, c.1 < x) : memRead (m ++ k) x = memRead k x := by
  induction m with
  | nil => rfl
  | cons c m ih =>
    have hc := h c (List.mem_cons_self ..)
    obtain ⟨a, b⟩ := c
    simp only [List.cons_append, memRead, beq_iff_eq]
    rw [if_neg (by simp at hc; omega), if_neg (by simp at hc; omega), ih fun c hm => h c (List.mem_cons_of_mem _ hm)]

theorem memReadN_drop (m : List Host.Cell) (n : Nat) : ∀ (a k : Nat), (memReadN m a n).drop k = memReadN m (a + k) (n - k) := by
  induction n with
  | zero => intro a k; simp [memReadN]
  | succ n ih =>
    intro a k
    cases k with
    | zero => simp [memReadN]
    | succ k => simp only [memReadN, List.drop_succ_cons, ih]; congr 1 <;> omega

theorem memReadN_take (m : List Host.Cell) (n : Nat) : ∀ (a k : Nat), k ≤ n → (memReadN m a n).take k = memReadN m a k := by
  induction n with
  | zero => intro a k h; simp [memReadN, Nat.le_zero.mp h]
  | succ n ih =>
    intro a k h
    cases k with
    | zero => simp [memReadN]
    | succ k => simp only [memReadN, List.take_succ_cons, ih _ _ (Nat.le_of_succ_le_succ h)]

/-- With no write in progress and no stash page, a read at the order points is a read of memory. -/
theorem devRead_plain (s : State) (pa n : Nat) (ht : s.txns = [] ∧ s.snoops = [] ∧ s.hostFilter = []) (hg : ∀ g ∈ s.gangs, g.stash = []) : s.devRead pa n = (s, memReadN s.mem pa n) := by
  have hr : ∀ l, s.recall l = s := by
    intro l
    have : s.stashHolders l = [] := by
      simp only [State.stashHolders, List.flatMap_eq_nil_iff]
      intro g hm
      rw [hg g hm]
      rfl
    simp [State.recall, this]
  have hs : ∀ l, s.lineReady l false = s := by
    intro l
    have : s.settle l = s := by simp [State.settle, State.txn?, ht.1]
    simp [State.lineReady, this, State.txn?, ht.1, ht.2.1, ht.2.2, hr]
  have : ∀ ls : List Nat, ls.foldl (fun (s : State) l => s.lineReady l false) s = s := by
    intro ls
    induction ls with
    | nil => rfl
    | cons l ls ih => rw [List.foldl_cons, hs, ih]
  simp only [State.devRead, this]

/-- The leaves of a table that stands last in memory. -/
theorem leaves_leafCells (s : State) (up : List Host.Cell) (b : Byte) (t : Nat) (ht : s.txns = [] ∧ s.snoops = [] ∧ s.hostFilter = []) (hg : ∀ g ∈ s.gangs, g.stash = [])
    (hm : s.mem = up ++ leafCells b t 512) (hu : ∀ c ∈ up, c.1 < t) :
    s.leaves t = (s, (List.range 512).map fun i => (t + 8 * i, b.setWidth 64)) := by
  simp only [State.leaves, devRead_plain s t 4096 ht hg, Prod.mk.injEq, true_and]
  apply List.map_congr_left
  intro i hi
  have hi : i < 512 := List.mem_range.mp hi
  rw [memReadN_drop, memReadN_take _ _ _ _ (by omega), hm]
  have h : ∀ o, o < 8 → memRead (up ++ leafCells b t 512) (t + 8 * i + o) = if o = 0 then b else memBlank := by
    intro o ho
    rw [memRead_append _ _ _ fun c hc => by have := hu c hc; omega, memRead_leafCells b 512 t i o hi ho]
  have h0 := h 0 (by omega)
  have h1 := h 1 (by omega)
  have h2 := h 2 (by omega)
  have h3 := h 3 (by omega)
  have h4 := h 4 (by omega)
  have h5 := h 5 (by omega)
  have h6 := h 6 (by omega)
  have h7 := h 7 (by omega)
  have hb : ∀ b : Byte, BitVec.ofNat 64 (leNat [b, memBlank, memBlank, memBlank, memBlank, memBlank, memBlank, memBlank]) = b.setWidth 64 := by decide +kernel
  simp only [Nat.add_zero, if_true] at h0
  simp only [memReadN, h0, Nat.add_assoc, Nat.reduceAdd] at *
  simp [h1, h2, h3, h4, h5, h6, h7, hb]

/-- Page tables of the 32 MiB at 4_0000_0000h: a table entry of level 1 that names the table at 5800_0000h, whose 512 leaves are V, L, R, W and PROM; the target
frame is the first of a unit of 32 MiB. -/
def promUp : List Host.Cell :=
  memWriteN (memWriteN (memWriteN [] 0x50000000 (leBytes 8 0x50001001)) 0x50001008 (leBytes 8 0x50002001)) 0x50002000 (leBytes 8 0x58000001)
def promTables (b : Byte) (frame : Nat) : State :=
  let s : State := { s0 with mem := promUp ++ leafCells b 0x58000000 512, gangs := [], boot := { s0.boot with chloc := 32 } }
  s.onCtx 0 fun c => { c with pgfrm := BitVec.ofNat 64 frame, pgreq := 0x400000002 }

theorem promTables_plain (b : Byte) (frame : Nat) : ((promTables b frame).txns = s0.txns ∧ (promTables b frame).snoops = s0.snoops ∧
    (promTables b frame).hostFilter = s0.hostFilter) ∧ (promTables b frame).gangs = [] ∧ (promTables b frame).mem = promUp ++ leafCells b 0x58000000 512 := by
  have h : ∀ (x : State) (f : Context → Context), ((x.onCtx 0 f).txns = x.txns ∧ (x.onCtx 0 f).snoops = x.snoops ∧ (x.onCtx 0 f).hostFilter = x.hostFilter) ∧
      (x.onCtx 0 f).gangs = x.gangs ∧ (x.onCtx 0 f).mem = x.mem := fun _ _ => ⟨⟨rfl, rfl, rfl⟩, rfl, rfl⟩
  simp only [promTables, h, and_self]

theorem hyp_PageEngines_promote (frame : Nat) (hf : frame = 0x1180000000 ∨ frame = 0x60000000) :
    pgAt (promTables 0x8F frame) (fun c => c.pgreq == (keepBits 0x400000002 25 51 ||| keepBits 0x400000002 0 2) && c.pgres == 0 &&
      ((promTables 0x8F frame).tablesReady 0 c.pgVa 1).entryAt 0 c.pgVa 1 == some 0x50002000 && (promTables 0x8F frame).pgFree 0 0x400000002 2) = true ∧
    (promTables 0x8F frame).readEnt 0x50002000 = (promTables 0x8F frame, 0x58000001) ∧
    (pteV 0x58000001 = true ∧ pteL 0x58000001 = false ∧ malformed 0x58000001 1 = false ∧ pteFrame 0x58000001 = 0x58000000) ∧
    (promTables 0x8F frame).inFwin ((promTables 0x8F frame).ctx 0).ten 0x58000000 = true ∧
    (promTables 0x8F frame).leaves 0x58000000 = (promTables 0x8F frame, (List.range 512).map fun i => (0x58000000 + 8 * i, (0x8F#8 : Byte).setWidth 64)) ∧
    promOk ((0x8F#8 : Byte).setWidth 64) = true ∧ (promTables 0x8F frame).targetOk ((promTables 0x8F frame).ctx 0).ten frame = (frame == 0x1180000000) := by
  obtain ⟨ht, hg, hm⟩ := promTables_plain 0x8F frame
  have ht : (promTables 0x8F frame).txns = [] ∧ (promTables 0x8F frame).snoops = [] ∧ (promTables 0x8F frame).hostFilter = [] :=
    ⟨ht.1.trans (by decide +kernel), ht.2.1.trans (by decide +kernel), ht.2.2.trans (by decide +kernel)⟩
  have hg : ∀ g ∈ (promTables 0x8F frame).gangs, g.stash = [] := by rw [hg]; intro g h; cases h
  have hl := leaves_leafCells (promTables 0x8F frame) promUp 0x8F 0x58000000 ht hg hm (by decide +kernel)
  have hr : (promTables 0x8F frame).readEnt 0x50002000 = (promTables 0x8F frame, BitVec.ofNat 64 (memNat (promTables 0x8F frame).mem 0x50002000 8)) := by
    simp only [State.readEnt, State.devReadNat, devRead_plain (promTables 0x8F frame) 0x50002000 8 ht hg, memNat]
  have hv : BitVec.ofNat 64 (memNat (promTables 0x8F frame).mem 0x50002000 8) = 0x58000001 := by rw [hm]; decide +kernel
  refine ⟨?_, hr.trans (by rw [hv]), by decide +kernel, ?_, hl, by decide +kernel, ?_⟩
  all_goals rcases hf with rfl | rfl <;> decide +kernel

/-- PROMOTION_SWAP with the leaves as CHECK read them or with none, and the table entry as it was read or another. -/
def promSwap (ls : List (Nat × W64)) (e : W64) : State :=
  (promTables 0x87 0x60000000).onCtx 0 fun c => { c with pgst := .swap, pgSave := (0x50002000, e) :: ls }

theorem hyp_PageEngines_swap :
    let now := (List.range 512).map fun i => (0x58000000 + 8 * i, (0x87#8 : Byte).setWidth 64)
    ([(true, (0x58000001 : W64)), (true, 0x58000081), (false, 0x58000001)].all fun x =>
      let s := promSwap (if x.1 then now else []) x.2
      pgAt s (fun c => c.pgst == .swap && !c.splits && c.pgSave.head?.any (·.2 == x.2) && (x.2 == 0x58000001 || pteFrame x.2 == 0x58000000))) = true ∧
    (∀ ls e, (promSwap ls e).leaves 0x58000000 = (promSwap ls e, now) ∧ (promSwap ls e).readEnt 0x50002000 = (promSwap ls e, 0x58000001)) ∧
    now = now.map (fun x => (x.1, protectEnt x.2)) ∧ now ≠ [] := by
  refine ⟨by decide +kernel, ?_, by decide +kernel, by decide +kernel⟩
  intro ls e
  have h : ∀ (x : State) (f : Context → Context), ((x.onCtx 0 f).txns = x.txns ∧ (x.onCtx 0 f).snoops = x.snoops ∧ (x.onCtx 0 f).hostFilter = x.hostFilter) ∧
      (x.onCtx 0 f).gangs = x.gangs ∧ (x.onCtx 0 f).mem = x.mem := fun _ _ => ⟨⟨rfl, rfl, rfl⟩, rfl, rfl⟩
  obtain ⟨ht, hg, hm⟩ := promTables_plain 0x87 0x60000000
  have ht : (promSwap ls e).txns = [] ∧ (promSwap ls e).snoops = [] ∧ (promSwap ls e).hostFilter = [] := by
    rw [promSwap, (h _ _).1.1, (h _ _).1.2.1, (h _ _).1.2.2, ht.1, ht.2.1, ht.2.2]; decide +kernel
  have hg : ∀ g ∈ (promSwap ls e).gangs, g.stash = [] := by rw [promSwap, (h _ _).2.1, hg]; intro g h; cases h
  have hm : (promSwap ls e).mem = promUp ++ leafCells 0x87 0x58000000 512 := by rw [promSwap, (h _ _).2.2, hm]
  refine ⟨leaves_leafCells _ promUp 0x87 0x58000000 ht hg hm (by decide +kernel), ?_⟩
  have hr : (promSwap ls e).readEnt 0x50002000 = (promSwap ls e, BitVec.ofNat 64 (memNat (promSwap ls e).mem 0x50002000 8)) := by
    simp only [State.readEnt, State.devReadNat, devRead_plain (promSwap ls e) 0x50002000 8 ht hg, memNat]
  have hv : BitVec.ofNat 64 (memNat (promSwap ls e).mem 0x50002000 8) = 0x58000001 := by rw [hm]; decide +kernel
  exact hr.trans (by rw [hv])

/-! ### Well-formedness: a term that each check refuses -/

/-- A memory operand that breaks one limit of Table 07.4 at a time. -/
def mBad : List MemOp := [{ m1 2 with pol := 3 }, { m1 2 with scl := 1 }, { m1 5 with wid := 5 }]

theorem test_wf_refuses_control : ([Instr.nop { c0 with setf := 12 }, .eret { c0 with setf := 3 }, .hold { c0 with setf := 0 } false 0 3 1,
    .regroup { c0 with setf := 1 } p0 4 8 9 0, .sget c0 13 1, .sget c0 5 64, .setfmt c0 0x0004, .setfmt c0 0x0300, .setfmt c0 0x0800, .getexec c0 0, .sset c0 8 1,
    .sysget c0 0x07 1, .sysget c0 0x11 64, .sysset c0 0x10 1, .bra c0 0 1 ⟨0, 5⟩, .bra c0 3 1 ⟨0, 0⟩, .brx c0 false 1 ⟨0, 0⟩ ⟨0, 7⟩, .jmp c0 (.direct ⟨0, 5⟩),
    .region c0 8 1, .rquota c0 1 48, .rquota c0 1 0, .rquota c0 1 288].all fun i => !i.wf) = true := by decide +kernel

theorem test_wf_refuses_compute : ([Instr.scmp c0 .eq 0 1 2, .vadd c0 p0 1 1 2 4, .vadd c0 p0 1 2 3 4, .vmad c0 p0 1 2 4 6 7, .sfromv c0 p0 2 1 2 3, .valui c0 p0 .add true 0 1 2 3,
    .vcmp c0 p0 .eq 2 1 2 3, .vcmp c0 p0 .eq 0 0 2 3, .vfrcp c0 p0 0 1 2 4, .vcvt c0 p0 false 0 0 0 0 1 2 0, .vcvt c0 p0 false 14 0 0 0 1 2 0, .vcvt c0 p0 false 12 13 0 0 1 2 3,
    .vcvt c0 p0 true 0 2 0 0 1 2 0, .vcvt c0 p0 false 3 0 0 2 1 2 0, .vcvt c0 p0 false 0 8 0 0 1 2 3, .vreduce c0 p0 1 0 0 1 2, .vreduce c0 p0 0 0 2 1 2,
    .kand c0 0 1 2].all fun i => !i.wf) = true := by decide +kernel

theorem test_wf_refuses_memory : (mBad.all fun m => !(Instr.vld c0 p0 4 m).wf) = true ∧
    ([Instr.vld c0 p0 1 (m1 3), .vld c0 p0 2 (m1 4), .vld c0 p0 4 { m1 2 with sx := true }, .vst c0 p0 4 { m1 0 with sx := true }, .vldc c0 p0 4 2 { m1 2 with pol := 1 },
      .strel c0 p0 4 (q1 2 6), .sld c0 1 (m1 4), .sst c0 1 { m1 2 with off := 3 }, .prefetch c0 p0 (m1 2), .cflush c0 p0 { m1 0 with pol := 1 }, .vatom c0 p0 .faddF32 4 0 (q1 3 2),
      .vatom c0 p0 .add 4 2 (q1 2 2), .vatom c0 p0 .add 4 0 (q1 1 2), .satom c0 .add 1 2 (q1 2 2), .fenceAcq c0 6].all fun i => !i.wf) = true := by decide +kernel

theorem test_wf_refuses_engines : ([Instr.mloop c0 1 5, .maccrd c0 1 0 0 4 1, .maccrd c0 0 30 3 4 1, .maccrd c0 0 0 3 253 1, .mstore c0 true false false 0 1 2 3, .mstore c0 false false true 0 1 0 0,
    .mstore c0 false false true 2 1 2 0, .mdrain c0 false 1 2 3 4, .qpush c0 1 2 62 3, .gpub c0 true 0 1 2 3, .gpub c0 false 1 1 2 3, .gprom c0 0 1 2 3, .tspawn c0 p0 true true 1 2 4,
    .tspawn c0 p0 true false 1 2 5, .rstv c0 p0 false false 0 1 2 3 4, .rstv c0 p0 false true 2 1 2 3 4, .rstv c0 p0 true true 6 1 2 3 4, .hold c0 true 1 12 1, .hold c0 true 1 3 0, .hold c0 false 1 3 1,
    .regroup c0 p0 9 8 9 1, .regroup c0 p0 4 8 255 1, .collPut c0 p0 1 2 1 255 3 0, .confx c0 p0 true 0 2 1 3 1, .confx c0 p0 true 1 3 1 3 1, .confx c0 p0 false 1 2 1 3 0, .accept c0 p0 true 1 2 2 1,
    .accept c0 p0 false 1 2 3 1].all fun i => !i.wf) = true := by decide +kernel

/-! ### Decoding: words that the spec writes out -/

/-- The word decodes to the instruction. -/
def reads (w : BitVec 96) (i : Instr) : Bool := match decodeWord w with | .ok j => j == i | .error _ => false
/-- The word is refused. -/
def refuses (w : BitVec 96) : Bool := match decodeWord w with | .ok _ => false | .error _ => true

/-- The five words of the line of file 07 and of the line of file 12. -/
theorem test_decode_lines : reads 0x78001000000190000014000C (.smovi { c0 with stall := 1 } 5 100) = true ∧ reads 0x7800000000000008040C0010 (.vadd c0 p0 0 3 1 2) = true ∧
    reads 0x780010000000000000000200 (.exit { c0 with stall := 1 }) = true ∧ reads 0x780000000000000000000080 (.nop c0) = true ∧
    reads 0x0000000000880004080C0028 (.vld { c0 with setf := 0 } p0 3 { pol := 0, scl := 2, sx := false, wid := 2, base := 2, off := 1, disp := 0 }) = true ∧
    reads 0x780080000000000C0C100010 (.vadd { c0 with wait := 1 } p0 0 4 3 3) = true ∧
    reads 0x7800700200880004081000A8 (.vst { c0 with stall := 7 } p0 4 { pol := 0, scl := 2, sx := false, wid := 2, base := 2, off := 1, disp := 128 }) = true := by decide +kernel

/-- The worked words of files 08, 11 and 14 to 18. -/
theorem test_decode_examples : reads 0x7800000000101C1814102194 (.vfma c0 { pg := 2, pn := false } 1 0 4 5 6 7) = true ∧ reads 0x780000000400000008200196 (.vcvt c0 p0 false 3 0 0 1 8 2 0) = true ∧
    reads 0x78000000003C0000280004C0 (.mstore c0 false true true 3 10 0 0) = true ∧ reads 0x780070000000000824A00154 (.regroup { c0 with stall := 7 } p0 40 9 2 0) = true ∧
    reads 0x7800080000082834083052D8 (.collRaddI32 c0 { pg := 5, pn := false } 12 2 0 13 10 0) = true ∧ reads 0x780000004C00000000140081 (.sysget c0 0x013 5) = true ∧
    reads 0x080000000000000018140301 (.pgpool { c0 with setf := 1 } 5 6) = true ∧ reads 0x000020005000000020000101 (.sysset { c0 with setf := 0, stall := 2 } 0x014 8) = true ∧
    reads 0x780080000000000000000001 (.eret { c0 with wait := 1 }) = true ∧ reads 0x780000004C000000000000D4 (.hold c0 false 0 3 1) = true := by decide +kernel

/-- Words written out field by field: SETF 15 at [94:91], SC [49:42], SB [41:34], SA [33:26], DST [25:18], PN and PG [16:12], FN [11:7], OPC [6:0] (Table 07.2). -/
theorem test_decode_families :
    reads (0#1 ++ 15#4 ++ 0#41 ++ 0#8 ++ 9#8 ++ 3#8 ++ 2#8 ++ 0#2 ++ 0#4 ++ 1#5 ++ 0x08#7) (.ssub c0 2 3 9) = true ∧
    reads (0#1 ++ 15#4 ++ 0#41 ++ 0#8 ++ 9#8 ++ 3#8 ++ 2#8 ++ 0#2 ++ 0#4 ++ 0#5 ++ 0x1A#7) (.kand c0 2 3 9) = true ∧
    reads (0#1 ++ 15#4 ++ 0#41 ++ 0#8 ++ 0#8 ++ 3#8 ++ 2#8 ++ 0#2 ++ 0#4 ++ 1#5 ++ 0x40#7) (.mtry c0 2 3) = true ∧
    refuses (0#1 ++ 15#4 ++ 0#41 ++ 1#8 ++ 9#8 ++ 3#8 ++ 2#8 ++ 0#2 ++ 0#4 ++ 1#5 ++ 0x08#7) = true := by decide +kernel

/-- Reserved encodings are refused, by R166. -/
theorem test_decode_refuses : ([(0x78000000000000000000007F : BitVec 96), 0x780000000000000000000F80, 0x600000000000000000000080, 0].all refuses) = true := by decide +kernel

/-! ### One step -/

/-- What `exec` leaves. -/
def after (i : Instr) (s : State) (P : State → Bool) : Bool := match exec i s with | .next t => P t | _ => false
/-- The last result in flight writes this. -/
def writes (ws : List Wr) (lat : Nat) (t : State) : Bool := t.gangs.any fun g => g.pend.any fun p => p.wrs == ws && p.due == t.clock + lat
/-- The last operation is of this kind. -/
def begins (k : OpKind) (t : State) : Bool := t.ops.any fun o => o.kind == k

/-- Hand-computed: 5 − 7, the high half of (2^63)·2 unsigned and signed, −7 / 2, and a shift by 65, which is a shift by 1 (R65, R66, R178). -/
theorem test_scalar : after (.ssub c0 9 1 2) (sr 1 5 (sr 2 7 s0)) (writes [.sreg 9 0xFFFFFFFFFFFFFFFE] 2) = true ∧
    after (.smulhu c0 9 1 2) (sr 1 0x8000000000000000 (sr 2 2 s0)) (writes [.sreg 9 1] 2) = true ∧
    after (.smulhi c0 9 1 2) (sr 1 0x8000000000000000 (sr 2 2 s0)) (writes [.sreg 9 0xFFFFFFFFFFFFFFFF] 2) = true ∧
    after (.sshl c0 9 1 2) (sr 1 3 (sr 2 65 s0)) (writes [.sreg 9 6] 2) = true ∧ after (.scmp c0 .lt 3 1 2) (sr 1 (-1) (sr 2 0 s0)) (writes [.kreg 3 0xFFFFFFFF] 2) = true ∧
    after (.scmp c0 .ltu 3 1 2) (sr 1 (-1) (sr 2 0 s0)) (writes [.kreg 3 0] 2) = true := by decide +kernel

/-- The gang with V1 all 0x7FFFFFFF and V2 all 1. -/
def sV : State := chg s0 fun g => { g with v := [(1, Vector.replicate 32 0x7FFFFFFF#32), (2, Vector.replicate 32 1#32)] }

/-- Hand-computed: the wrap of 32 bits, its saturation, and a comparison (R65, R183). -/
theorem test_vector : after (.vadd c0 p0 0 3 1 2) sV (writes [.vreg 3 0xFFFFFFFF 0xFFFFFFFF (Vector.replicate 32 0x80000000)] 8) = true ∧
    after (.vadds c0 p0 false 0 3 1 2) sV (writes [.vreg 3 0xFFFFFFFF 0xFFFFFFFF (Vector.replicate 32 0x7FFFFFFF)] 8) = true ∧
    after (.vcmp c0 p0 .gt 0 5 1 2) sV (writes [.kreg 5 0xFFFFFFFF] 8) = true := by decide +kernel

/-- Hand-computed: 1.5 + 2.25 in F32, and the conversion of 1.0 to BF16 in the upper half (R71, R197). -/
theorem test_float :
    (let s := chg s0 fun g => { g with v := [(1, Vector.replicate 32 0x3FC00000#32), (2, Vector.replicate 32 0x40100000#32)] }
     after (.vfadd c0 p0 0 0 3 1 2) s (fun t => t.gangs.any fun g => g.pend.any fun p => p.wrs.any fun w => match w with | .vreg r _ _ v => r == 3 && lane v 5 == 0x40700000 | _ => false) = true) := by
  decide +kernel

/-- A branch that is taken goes to its slot, and one that is not goes on (R218, R163). -/
theorem test_branch : after (.bra c0 0 1 ⟨1, 2⟩) (sBr 1 0) (fun t => t.gangs.any fun g => g.table.map (·.pc) == [0x10000058]) = true ∧
    after (.bra c0 0 1 ⟨1, 2⟩) (sBr 0 0) (fun t => t.gangs.any fun g => g.table.map (·.pc) == [0x1000000C]) = true ∧
    after (.trap c0 7) s0 (fun t => t.gangs.any fun g => g.trap.any fun q => q.cause == causeTRAPI && q.code == 7) = true ∧
    after (.brx c0 false 1 ⟨1, 2⟩ ⟨2, 0⟩) (sBr 7 0).asFirst (fun t => t.gangs.any fun g => g.table.map (·.pc) == [0x10000080, 0x10000058, 0x10000018]) = true := by decide +kernel

/-- A store asks for its line, and nothing has reached memory yet; eight bytes that cross a line raise ALIGN (R115, R117, R202). -/
theorem test_store : after (.sst c0 2 (m1 3)) (sr 2 7 (sr 1 0x20000040 s0)) (fun t => t.items.any (fun i => i.kind == .store && i.line == 0x20000000 && i.dst == .dev && i.accs.any fun a => a.off == 0x40 && a.val == 7) &&
    memNat t.mem 0x20000040 8 == 0) = true ∧
    after (.sld c0 2 (m1 3)) (sr 1 0x2000007C s0) (fun t => t.gangs.any fun g => g.trap.any fun q => q.cause == causeALIGN) = true := by decide +kernel

/-- The words of Table 10.2 and Table 10.3 of a claim that fits, and the result of QTRY without an event. -/
theorem test_words : after (.mtry c0 2 1) (sr 1 0x102 s0) (begins (.calc [.sreg 2 0x102])) = true ∧
    after (.qtry c0 3 2) (bound (.copy 1 4) (engines (some (.gang u0)) [] [] s0)) (begins (.calc [.sreg 3 0xFFFFFFFFFFFFFFFF])) = true := by decide +kernel

/-- Reset leaves boot stage 1, and a word placed after it is what the first step runs (log 1). -/
theorem test_first_step : State.reset.boot.stage = 1 ∧ (match step (State.reset.withFetchWord 96 0x78001000000190000014000C) with
    | .next t => writes [.sreg 5 100] 1 t || writes [.sreg 5 100] 2 t
    | _ => false) = true ∧ decodeTableWord 96 0x780000000000000000000080 = some (.nop c0) := by decide +kernel

/-! ### Decoding: one word of every instruction, written out field by field -/

/-- The fields of formats R and M: SETF 15, IMM18 [75:58], MOD [57:50], SC [49:42], SB [41:34], SA [33:26], DST [25:18], PG [15:12], FN [11:7] and OPC [6:0]
(Tables 07.2 and 07.3). -/
def wd (opc fn pg dst sa sb sc mod imm : Nat) : BitVec 96 :=
  BitVec.ofNat 96 (opc + fn * 2 ^ 7 + pg * 2 ^ 12 + dst * 2 ^ 18 + sa * 2 ^ 26 + sb * 2 ^ 34 + sc * 2 ^ 42 + mod * 2 ^ 50 + imm * 2 ^ 58 + 15 * 2 ^ 91)
/-- The fields of format B: RLINE [72:55], RSLOT [75:73], TLINE [51:34], TSLOT [54:52], SA [33:26], MODE [23:22] and KC [21:18] (R163). -/
def wb (fn rline rslot tline tslot sa mode kc : Nat) : BitVec 96 :=
  BitVec.ofNat 96 (0x20 + fn * 2 ^ 7 + kc * 2 ^ 18 + mode * 2 ^ 22 + sa * 2 ^ 26 + tline * 2 ^ 34 + tslot * 2 ^ 52 + rline * 2 ^ 55 + rslot * 2 ^ 73 + 15 * 2 ^ 91)
/-- The predicate K5. -/
def p5 : Pred := { pg := 5, pn := false }
/-- Every word decodes to the instruction beside it. -/
def allRead (t : List (BitVec 96 × Instr)) : Bool := t.all fun x => reads x.1 x.2

theorem test_words_misc : allRead [
    (wd 0x00 1 0 0 0 0 0 0 0, .nop c0), (wd 0x00 2 0 0 0 0 0 0 300, .pause c0 300), (wd 0x00 3 0 0 0 0 0 0 (5 * 4096 + 0x123), .waitf c0 0x123 5),
    (wd 0x00 4 0 0 0 0 0 0 0, .exit c0), (wd 0x00 5 0 0 0 0 0 0 0x1234, .trap c0 0x1234), (wd 0x00 6 0 0 0 0 0 0 0x1234, .brk c0 0x1234),
    (wd 0x00 7 0 9 0 0 0 0 5, .sget c0 5 9), (wd 0x00 8 0 0 0 0 0 0 0x0433, .setfmt c0 0x0433), (wd 0x00 9 0 9 0 0 0 0 0, .getfmt c0 9),
    (wd 0x00 10 0 0 3 0 0 0 0, .setexec c0 3), (wd 0x00 11 0 3 0 0 0 0 0, .getexec c0 3), (wd 0x00 12 0 0 9 0 0 0 10, .sset c0 10 9),
    (wd 0x01 0 0 0 0 0 0 0 0, .eret c0), (wd 0x01 1 0 9 0 0 0 0 0x11, .sysget c0 0x11 9), (wd 0x01 2 0 0 9 0 0 0 0x12, .sysset c0 0x12 9),
    (wd 0x01 3 0 0 4 6 0 0 0, .tlbinv c0 4 6), (wd 0x01 4 0 0 0 0 0 0 0x42, .kill c0 0x42), (wd 0x01 5 0 0 6 0 0 0 0, .idle c0 6),
    (wd 0x01 6 0 5 6 0 0 0 0, .pgpool c0 5 6)] = true := by decide +kernel

theorem test_words_scalar : allRead [
    (wd 0x08 0 0 2 4 6 0 0 0, .sadd c0 2 4 6), (wd 0x08 1 0 2 4 6 0 0 0, .ssub c0 2 4 6), (wd 0x08 2 0 2 4 6 0 0 0, .smul c0 2 4 6),
    (wd 0x08 3 0 2 4 6 0 0 0, .smulhi c0 2 4 6), (wd 0x08 4 0 2 4 6 0 0 0, .smulhu c0 2 4 6), (wd 0x08 5 0 2 4 6 0 0 0, .sdiv c0 2 4 6),
    (wd 0x08 6 0 2 4 6 0 0 0, .sdivu c0 2 4 6), (wd 0x08 7 0 2 4 6 0 0 0, .srem c0 2 4 6), (wd 0x08 8 0 2 4 6 0 0 0, .sremu c0 2 4 6),
    (wd 0x08 9 0 2 4 6 0 0 0, .sand c0 2 4 6), (wd 0x08 10 0 2 4 6 0 0 0, .sor c0 2 4 6), (wd 0x08 11 0 2 4 6 0 0 0, .sxor c0 2 4 6),
    (wd 0x08 12 0 2 4 6 0 0 0, .sandn c0 2 4 6), (wd 0x08 13 0 2 4 6 0 0 0, .sshl c0 2 4 6), (wd 0x08 14 0 2 4 6 0 0 0, .sshr c0 2 4 6),
    (wd 0x08 15 0 2 4 6 0 0 0, .ssar c0 2 4 6), (wd 0x08 16 0 2 4 6 0 0 0, .smin c0 2 4 6), (wd 0x08 17 0 2 4 6 0 0 0, .smax c0 2 4 6),
    (wd 0x08 18 0 2 4 6 0 0 0, .sminu c0 2 4 6), (wd 0x08 19 0 2 4 6 0 0 0, .smaxu c0 2 4 6), (wd 0x08 20 0 2 4 0 0 0 0, .spopc c0 2 4),
    (wd 0x08 21 0 2 4 0 0 0 0, .sclz c0 2 4), (wd 0x08 22 0 2 4 0 0 0 0, .sctz c0 2 4), (wd 0x08 23 0 2 4 0 0 0 0, .smov c0 2 4),
    (wd 0x08 24 0 2 4 6 3 0 0, .ssel c0 2 4 6 3), (wd 0x09 16 0 2 4 0 0 0 0x3FFFB, .salui c0 .min 2 4 (-5)), (wd 0x0A 7 0 3 4 6 0 0 0, .scmp c0 .leu 3 4 6),
    (wd 0x0B 2 0 3 4 0 0 0 9, .scmpi c0 .lt 3 4 9), (wd 0x0D 0 0 2 4 255 0 0x0A 9, .sld c0 2 { m1 2 with base := 4, sx := true, disp := 9 }),
    (wd 0x0D 1 0 2 4 255 0 0x03 9, .sst c0 2 { m1 3 with base := 4, disp := 9 })] = true := by decide +kernel

theorem test_words_vector : allRead [
    (wd 0x10 0 5 2 4 6 0 1 0, .vadd c0 p5 1 2 4 6), (wd 0x10 1 5 2 4 6 0 1 0, .vsub c0 p5 1 2 4 6), (wd 0x10 2 5 2 4 6 0 1 0, .vmul c0 p5 1 2 4 6),
    (wd 0x10 3 5 2 4 6 0 1 0, .vmulhi c0 p5 1 2 4 6), (wd 0x10 4 5 2 4 6 0 1 0, .vmulhu c0 p5 1 2 4 6), (wd 0x10 5 5 2 4 6 8 1 0, .vmad c0 p5 1 2 4 6 8),
    (wd 0x10 6 5 2 4 6 0 1 0, .vdiv c0 p5 1 2 4 6), (wd 0x10 7 5 2 4 6 0 1 0, .vdivu c0 p5 1 2 4 6), (wd 0x10 8 5 2 4 6 0 1 0, .vrem c0 p5 1 2 4 6),
    (wd 0x10 9 5 2 4 6 0 1 0, .vremu c0 p5 1 2 4 6), (wd 0x10 10 5 2 4 6 0 1 0, .vand c0 p5 1 2 4 6), (wd 0x10 11 5 2 4 6 0 1 0, .vor c0 p5 1 2 4 6),
    (wd 0x10 12 5 2 4 6 0 1 0, .vxor c0 p5 1 2 4 6), (wd 0x10 13 5 2 4 6 0 1 0, .vandn c0 p5 1 2 4 6), (wd 0x10 14 5 2 4 6 0 1 0, .vshl c0 p5 1 2 4 6),
    (wd 0x10 15 5 2 4 6 0 1 0, .vshr c0 p5 1 2 4 6), (wd 0x10 16 5 2 4 6 0 1 0, .vsar c0 p5 1 2 4 6), (wd 0x10 17 5 2 4 6 0 1 0, .vmin c0 p5 1 2 4 6),
    (wd 0x10 18 5 2 4 6 0 1 0, .vmax c0 p5 1 2 4 6), (wd 0x10 19 5 2 4 6 0 1 0, .vminu c0 p5 1 2 4 6), (wd 0x10 20 5 2 4 6 0 1 0, .vmaxu c0 p5 1 2 4 6),
    (wd 0x10 21 5 2 4 0 0 1 0, .vabs c0 p5 1 2 4), (wd 0x10 22 5 2 4 0 0 1 0, .vneg c0 p5 1 2 4), (wd 0x10 23 5 2 4 0 0 1 0, .vpopc c0 p5 1 2 4),
    (wd 0x10 24 5 2 4 0 0 1 0, .vclz c0 p5 1 2 4), (wd 0x10 25 5 2 4 6 0 6 0, .vadds c0 p5 true 2 2 4 6), (wd 0x10 26 5 2 4 6 0 6 0, .vsubs c0 p5 true 2 2 4 6),
    (wd 0x10 27 5 2 4 6 3 1 0, .vsel c0 p5 1 2 4 6 3), (wd 0x10 28 5 2 4 0 0 1 0, .vmov c0 p5 1 2 4), (wd 0x10 29 5 2 5 0 0 1 0, .vfroms c0 p5 1 2 5),
    (wd 0x10 30 5 3 4 7 0 1 0, .sfromv c0 p5 1 3 4 7), (wd 0x11 14 5 2 4 0 0 1 9, .valui c0 p5 .shl false 1 2 4 9),
    (wd 0x12 6 5 3 4 6 0 1 0, .vcmp c0 p5 .ltu 1 3 4 6), (wd 0x13 1 5 3 4 0 0 1 9, .vcmpi c0 p5 .ne 1 3 4 9)] = true := by decide +kernel

theorem test_words_float : allRead [
    (wd 0x14 0 5 2 4 6 0 9 0, .vfadd c0 p5 2 1 2 4 6), (wd 0x14 1 5 2 4 6 0 9 0, .vfsub c0 p5 2 1 2 4 6), (wd 0x14 2 5 2 4 6 0 9 0, .vfmul c0 p5 2 1 2 4 6),
    (wd 0x14 3 5 2 4 6 8 9 0, .vfma c0 p5 2 1 2 4 6 8), (wd 0x14 4 5 2 4 6 8 9 0, .vfms c0 p5 2 1 2 4 6 8), (wd 0x14 5 5 2 4 6 8 9 0, .vfnma c0 p5 2 1 2 4 6 8),
    (wd 0x14 6 5 2 4 6 0 1 0, .vfmin c0 p5 1 2 4 6), (wd 0x14 7 5 2 4 6 0 1 0, .vfmax c0 p5 1 2 4 6), (wd 0x14 8 5 2 4 6 0 9 0, .vfdiv c0 p5 2 1 2 4 6),
    (wd 0x14 9 5 2 4 0 0 9 0, .vfsqrt c0 p5 2 1 2 4), (wd 0x14 10 5 3 4 0 0 10 0, .vfrcp c0 p5 2 2 3 4), (wd 0x14 11 5 3 4 0 0 10 0, .vfrsq c0 p5 2 2 3 4),
    (wd 0x14 12 5 3 4 0 0 10 0, .vfexp2 c0 p5 2 2 3 4), (wd 0x14 13 5 3 4 0 0 10 0, .vflog2 c0 p5 2 2 3 4), (wd 0x14 14 5 2 4 0 0 1 0, .vfabs c0 p5 1 2 4),
    (wd 0x14 15 5 2 4 0 0 1 0, .vfneg c0 p5 1 2 4), (wd 0x14 16 5 2 4 0 0 1 0, .vfclass c0 p5 1 2 4), (wd 0x14 17 5 2 4 6 0 9 0, .vfscale c0 p5 2 1 2 4 6),
    (wd 0x14 18 5 2 4 0 0 9 0, .vfrint c0 p5 2 1 2 4), (wd 0x15 7 5 3 4 6 0 1 0, .vfcmp c0 p5 .unord 1 3 4 6),
    (wd 0x16 0x14 5 3 4 0 0 0x80 2, .vcvt c0 p5 true 4 8 0 2 3 4 0)] = true := by decide +kernel

theorem test_words_lanes : allRead [
    (wd 0x18 0 5 2 4 6 0 1 0, .vshuf c0 p5 1 2 4 6), (wd 0x18 1 5 2 4 7 0 1 0, .vbcast c0 p5 1 2 4 7), (wd 0x18 2 5 2 4 0 0 1 31, .vrot c0 p5 1 2 4 31),
    (wd 0x18 3 5 3 4 0 0 0x55 0, .vreduce c0 p5 2 5 1 3 4), (wd 0x18 4 5 2 4 0 0 0x55 0, .vscan c0 p5 2 5 1 2 4), (wd 0x18 5 5 3 4 0 0 1 0, .vmatch c0 p5 1 3 4),
    (wd 0x1A 0 0 2 4 6 0 0 0, .kand c0 2 4 6), (wd 0x1A 1 0 2 4 6 0 0 0, .kor c0 2 4 6), (wd 0x1A 2 0 2 4 6 0 0 0, .kxor c0 2 4 6),
    (wd 0x1A 3 0 2 4 6 0 0 0, .kandn c0 2 4 6), (wd 0x1A 4 0 2 4 0 0 0 0, .knot c0 2 4), (wd 0x1A 5 0 2 4 0 0 0 0, .kmov c0 2 4),
    (wd 0x1A 6 0 2 4 0 0 0 0, .kpopc c0 2 4), (wd 0x1A 7 0 2 4 0 0 0 0, .kffs c0 2 4), (wd 0x1A 8 0 2 4 0 0 0 0, .kfroms c0 2 4),
    (wd 0x1A 9 0 2 4 0 0 0 0, .ktos c0 2 4)] = true := by decide +kernel

theorem test_words_control : allRead [
    (wb 0 0 0 (2 ^ 18 - 2) 4 0 2 5, .bra c0 2 5 ⟨-2, 4⟩), (wb 1 7 3 (2 ^ 18 - 2) 4 0 2 5, .brx c0 true 5 ⟨-2, 4⟩ ⟨7, 3⟩),
    (wb 2 0 0 (2 ^ 18 - 2) 4 0 3 0, .jmp c0 (.direct ⟨-2, 4⟩)), (wb 3 0 0 0 0 9 3 1, .call c0 (.indirect 9)), (wb 4 0 0 0 0 9 3 0, .ret c0 9),
    (wd 0x22 0 0 32 4 0 0 0 0, .region c0 32 4), (wd 0x22 1 0 0 0 0 0 0 0, .rcommit c0), (wd 0x22 2 0 0 0 0 0 0 0, .rabort c0),
    (wd 0x24 0 0 2 0 0 0 0 9, .join c0 2 9), (wd 0x24 1 0 0 0 0 0 0 0, .leave c0), (wd 0x24 2 0 0 0 0 0 0 0, .bar c0), (wd 0x24 3 0 0 0 0 0 0 0, .bara c0),
    (wd 0x24 4 0 0 0 0 0 0 0, .barw c0), (wd 0x24 5 0 2 0 0 0 0 96, .rquota c0 2 96)] = true := by decide +kernel

theorem test_words_memory : allRead [
    (wd 0x28 0 5 2 4 6 0 0x69 9, .vld c0 p5 2 { pol := 1, scl := 2, sx := true, wid := 1, base := 4, off := 6, disp := 9 }),
    (wd 0x28 1 5 2 4 6 0 0x23 9, .vst c0 p5 2 { pol := 0, scl := 2, sx := false, wid := 3, base := 4, off := 6, disp := 9 }),
    (wd 0x28 2 5 2 4 6 8 0x23 9, .vldc c0 p5 2 8 { pol := 0, scl := 2, sx := false, wid := 3, base := 4, off := 6, disp := 9 }),
    (wd 0x28 3 5 2 4 6 8 0x23 9, .vstc c0 p5 2 8 { pol := 0, scl := 2, sx := false, wid := 3, base := 4, off := 6, disp := 9 }),
    (wd 0x28 4 5 2 4 6 0 0x23 (3 * 32768 + 9), .ldacq c0 p5 2 false { scl := 2, wid := 3, base := 4, off := 6, scope := 3, disp := 9 }),
    (wd 0x28 5 5 2 4 6 0 0x23 (3 * 32768 + 9), .strel c0 p5 2 { scl := 2, wid := 3, base := 4, off := 6, scope := 3, disp := 9 }),
    (wd 0x28 6 5 0 4 6 0 0x20 9, .prefetch c0 p5 { pol := 0, scl := 2, sx := false, wid := 0, base := 4, off := 6, disp := 9 }),
    (wd 0x28 7 5 0 4 6 0 0x20 9, .cflush c0 p5 { pol := 0, scl := 2, sx := false, wid := 0, base := 4, off := 6, disp := 9 }),
    (wd 0x29 10 5 2 4 6 8 0x23 (3 * 32768 + 9), .vatom c0 p5 .cas 2 8 { scl := 2, wid := 3, base := 4, off := 6, scope := 3, disp := 9 }),
    (wd 0x2A 9 0 2 4 255 0 0x03 (3 * 32768 + 9), .satom c0 .xchg 2 0 { q1 3 3 with base := 4, disp := 9 }), (wd 0x2B 0 0 0 0 0 0 0 (4 * 32768), .fenceAcq c0 4),
    (wd 0x2B 1 0 0 0 0 0 0 (4 * 32768), .fenceRel c0 4), (wd 0x2B 2 0 0 0 0 0 0 (4 * 32768), .fenceAcqrel c0 4), (wd 0x2B 3 0 0 0 0 0 0 (4 * 32768), .fenceSc c0 4),
    (wd 0x2C 0 0 2 4 255 8 0 9, .stashMap c0 2 4 8 9), (wd 0x2C 1 0 2 0 255 8 0 0, .stashUnmap c0 2 8), (wd 0x2C 2 0 2 0 255 8 0 0, .stashFlush c0 2 8),
    (wd 0x2C 3 0 2 0 255 8 0 0, .stashInval c0 2 8)] = true := by decide +kernel

theorem test_words_engines : allRead [
    (wd 0x40 0 0 2 4 0 0 0 0, .mclaim c0 2 4), (wd 0x40 1 0 2 4 0 0 0 0, .mtry c0 2 4), (wd 0x40 2 0 0 4 0 0 0 0, .mrel c0 4),
    (wd 0x40 3 0 0 4 6 8 1 0, .mload c0 true 4 6 8), (wd 0x40 4 0 0 4 0 0 0 0, .mzero c0 4), (wd 0x40 5 0 0 4 0 0 0 0, .mmac c0 4),
    (wd 0x40 6 0 2 4 0 0 0 0, .mloop c0 2 4), (wd 0x40 7 0 9 4 0 0 2 (7 * 32 + 3), .maccrd c0 2 3 7 9 4),
    (wd 0x40 8 0 9 4 0 0 2 (7 * 32 + 3), .maccwr c0 2 3 7 9 4), (wd 0x40 9 0 0 4 0 0 0x16 0, .mstore c0 true false true 2 4 0 0),
    (wd 0x40 10 0 2 4 6 8 1 0, .mdrain c0 true 2 4 6 8), (wd 0x40 11 0 2 4 0 0 0 0, .mstate c0 2 4), (wd 0x48 0 0 2 3 6 0 0 0, .qbind c0 2 3 6),
    (wd 0x48 1 0 2 3 6 0 0 5, .qpush c0 2 3 6 5), (wd 0x48 2 0 2 3 0 0 0 0, .qpop c0 2 3), (wd 0x48 3 0 2 3 0 0 0 0, .qtry c0 2 3),
    (wd 0x48 4 0 0 3 6 0 0 0, .tlwait c0 3 6), (wd 0x48 5 0 2 3 0 0 0 0, .tlread c0 2 3)] = true := by decide +kernel

theorem test_words_graded : allRead [
    (wd 0x50 0 0 2 4 6 0 0 0, .gnew c0 2 4 6), (wd 0x50 1 0 2 4 0 0 0 0, .gfree c0 2 4), (wd 0x50 2 0 2 4 6 0 1 2, .gpub c0 true 2 2 4 6),
    (wd 0x50 3 0 2 4 6 0 0 2, .gprom c0 2 2 4 6), (wd 0x50 4 0 2 4 0 0 0 0, .gqry c0 2 4), (wd 0x50 5 5 2 4 6 0 1 0, .tspawn c0 p5 true false 2 4 6),
    (wd 0x54 0 5 2 4 6 8 3 (3 * 32768), .rstv c0 p5 true true 3 2 4 6 8), (wd 0x54 1 0 7 0 0 0 1 (9 * 16 + 3), .hold c0 true 7 3 9),
    (wd 0x54 2 5 2 4 6 0 0 5, .regroup c0 p5 2 4 6 5), (wd 0x58 0 5 2 4 6 8 0x22 (4 * 32768 + 9), .collPut c0 p5 2 4 2 6 8 9),
    (wd 0x58 1 5 2 4 6 8 0x22 (4 * 32768 + 9), .collGet c0 p5 2 4 2 6 8 9), (wd 0x58 2 5 2 4 6 8 0x22 (4 * 32768 + 9), .collRaddF32 c0 p5 2 4 2 6 8 9),
    (wd 0x58 3 5 2 4 6 8 0x22 (4 * 32768 + 9), .collRaddBf16 c0 p5 2 4 2 6 8 9), (wd 0x58 4 5 2 4 6 8 0x22 (4 * 32768 + 9), .collRmaxF32 c0 p5 2 4 2 6 8 9),
    (wd 0x58 5 5 2 4 6 8 0x22 (4 * 32768 + 9), .collRaddI32 c0 p5 2 4 2 6 8 9), (wd 0x5C 0 5 3 4 6 8 1 7, .confx c0 p5 true 3 4 6 8 7),
    (wd 0x5C 1 5 3 4 6 0 1 7, .accept c0 p5 true 3 4 6 7), (wd 0x5C 2 5 2 4 6 0 0 0, .apport c0 p5 2 4 6), (wd 0x5C 3 5 2 4 6 0 1 0, .vrand c0 p5 true 2 4 6)] = true := by decide +kernel

/-- Format I: IMM32 at [73:42], and DST at [25:18] (R162). -/
theorem test_words_immediate : ([(0, Instr.smovi c0 2 0x89ABCDEF), (1, .smoviz c0 2 0x89ABCDEF), (2, .smovhi c0 2 0x89ABCDEF)].all fun x =>
    reads (BitVec.ofNat 96 (0x0C + x.1 * 2 ^ 7 + 2 * 2 ^ 18 + 0x89ABCDEF * 2 ^ 42 + 15 * 2 ^ 91)) x.2) = true := by decide +kernel

end Sys2Proof.Tests
end

section
/-! SUPPORT. Integer division: the integers that words stand for, quotient and remainder (R66), elements of a lane, and the lane that traps. -/

namespace Sys2Proof.Machine

/-! ### Words as integers (R65) -/

@[simp] theorem readInt_unsigned (w n : Nat) : readInt false w n = n := by simp [readInt]

/-- The sign bit of a word, as a digit of its number. -/
theorem toNat_sign_digit {n : Nat} (a : BitVec n) : (a.toNat / 2 ^ (n - 1) % 2 == 1) = a.msb := by
  rw [BitVec.msb_eq_getLsbD_last, ← BitVec.testBit_toNat, Nat.testBit_eq_decide_div_mod_eq]
  rfl

@[simp] theorem readInt_signed_toNat {n : Nat} (a : BitVec n) : readInt true n a.toNat = a.toInt := by
  simp only [readInt, toNat_sign_digit, Bool.true_and, BitVec.toInt_eq_msb_cond, Int.natCast_pow, Int.cast_ofNat_Int]

theorem wrapInt_eq_toNat_ofInt (n : Nat) (x : Int) : wrapInt n x = (BitVec.ofInt n x).toNat := by
  simp [wrapInt, BitVec.toNat_ofInt]

@[simp] theorem wrapInt_toInt {n : Nat} (a : BitVec n) : wrapInt n a.toInt = a.toNat := by
  rw [wrapInt_eq_toNat_ofInt, BitVec.ofInt_toInt]

@[simp] theorem wrapInt_toNat {n : Nat} (a : BitVec n) : wrapInt n a.toNat = a.toNat := by
  rw [wrapInt_eq_toNat_ofInt, BitVec.ofInt_natCast, BitVec.ofNat_toNat, BitVec.setWidth_eq]

theorem sdiv_eq_ofInt_tdiv {n : Nat} (a b : BitVec n) : a.sdiv b = BitVec.ofInt n (a.toInt.tdiv b.toInt) :=
  BitVec.eq_of_toInt_eq (by rw [BitVec.toInt_sdiv, BitVec.toInt_ofInt])

/-! ### Quotient and remainder (R66) -/

theorem divRem_zero {n : Nat} (signed rem : Bool) (a : Nat) : divRem signed rem n a 0 = if rem then a else 2 ^ n - 1 := by
  simp [divRem]

theorem divRem_of_ne_zero {n a b : Nat} (signed rem : Bool) (hb : b ≠ 0) :
    divRem signed rem n a b = wrapInt n
      (if rem then (readInt signed n a).tmod (readInt signed n b) else (readInt signed n a).tdiv (readInt signed n b)) := by
  simp [divRem, hb]

theorem VFn.isDiv_iff {fn : VFn} : VFn.isDiv fn = true ↔ fn = .div ∨ fn = .divu ∨ fn = .rem ∨ fn = .remu := by
  cases fn <;> simp [VFn.isDiv]

/-- The divisions of the model on numbers are those of the statements on words. -/
theorem vfn_toNat_of_isDiv {n : Nat} {fn : VFn} (hfn : VFn.isDiv fn = true) (u : Bool) (a b : BitVec n) :
    vfn fn u n a.toNat b.toNat = (intOf fn u a b).toNat := by
  rw [VFn.isDiv_iff] at hfn
  by_cases hb : b = 0
  · subst hb
    rcases hfn with rfl | rfl | rfl | rfl <;> simp [vfn, intOf, divRem_zero]
  · have hn : b.toNat ≠ 0 := fun h => hb (BitVec.eq_of_toNat_eq (by simpa using h))
    rcases hfn with rfl | rfl | rfl | rfl <;> simp only [vfn, intOf, divRem_of_ne_zero _ _ hn, if_neg hb, if_true, Bool.false_eq_true, if_false]
    · rw [readInt_signed_toNat, readInt_signed_toNat, wrapInt_eq_toNat_ofInt, sdiv_eq_ofInt_tdiv]
    · rw [readInt_unsigned, readInt_unsigned, ← Int.ofNat_tdiv, ← BitVec.toNat_udiv, wrapInt_toNat]
    · rw [readInt_signed_toNat, readInt_signed_toNat, ← BitVec.toInt_srem, wrapInt_toInt]
    · rw [readInt_unsigned, readInt_unsigned, ← Int.ofNat_tmod, ← BitVec.toNat_umod, wrapInt_toNat]

/-- The scalar functions are the vector functions of the same names at 64 bits. -/
theorem sfn_eq_vfn (f : SFn) (a b : Nat) : sfn f a b = vfn (SFn.vfn f) false 64 a b := by
  cases f <;> rfl

theorem SFn.isDiv_vfn (f : SFn) : VFn.isDiv (SFn.vfn f) = SFn.isDiv f := by
  cases f <;> rfl

theorem ofNat_sfn_of_isDiv {fn : SFn} (hfn : SFn.isDiv fn = true) (a b : W64) :
    BitVec.ofNat 64 (sfn fn a.toNat b.toNat) = intOf (SFn.vfn fn) false a b := by
  rw [sfn_eq_vfn, vfn_toNat_of_isDiv (by rwa [SFn.isDiv_vfn]), BitVec.ofNat_toNat, BitVec.setWidth_eq]

/-- A division by zero (R66). -/
theorem intOf_zero_divisor {n : Nat} (u : Bool) (a : BitVec n) :
    intOf .div u a 0 = BitVec.allOnes n ∧ intOf .divu u a 0 = BitVec.allOnes n ∧ intOf .rem u a 0 = a ∧ intOf .remu u a 0 = a := by
  simp [intOf]

/-- The quotient that does not fit wraps to the signed minimum (R66). -/
theorem intOf_intMin_allOnes {n : Nat} (u : Bool) (hn : 0 < n) :
    intOf .div u (BitVec.intMin n) (BitVec.allOnes n) = BitVec.intMin n ∧ intOf .rem u (BitVec.intMin n) (BitVec.allOnes n) = 0 := by
  have hone : (BitVec.allOnes n).toInt = -1 := by simp [BitVec.toInt_allOnes, hn]
  have hb : BitVec.allOnes n ≠ 0 := fun h => by simp [h] at hone
  simp only [intOf, if_neg hb]
  refine ⟨by rw [← BitVec.neg_one_eq_allOnes, BitVec.intMin_sdiv_neg_one], BitVec.eq_of_toInt_eq ?_⟩
  rw [BitVec.toInt_srem, hone, Int.tmod_neg, Int.tmod_one]
  exact BitVec.toInt_zero.symm

/-- Division truncates toward zero, and the remainder is what is left over (R66). -/
theorem toInt_intOf_division {n : Nat} (u : Bool) {a b : BitVec n} (hb : b ≠ 0)
    (hab : ¬ (a = BitVec.intMin n ∧ b = BitVec.allOnes n)) :
    (intOf .div u a b).toInt = a.toInt.tdiv b.toInt ∧ (intOf .rem u a b).toInt = a.toInt - b.toInt * a.toInt.tdiv b.toInt := by
  simp only [intOf, if_neg hb, BitVec.toInt_srem, Int.tmod_def, and_true]
  exact BitVec.toInt_sdiv_of_ne_or_ne a b (by rw [BitVec.neg_one_eq_allOnes]; exact Classical.not_and_iff_not_or_not.mp hab)

theorem toNat_intOf_division {n : Nat} (u : Bool) {a b : BitVec n} (hb : b ≠ 0) :
    (intOf .divu u a b).toNat = a.toNat / b.toNat ∧ (intOf .remu u a b).toNat = a.toNat - b.toNat * (a.toNat / b.toNat) := by
  simp only [intOf, if_neg hb, BitVec.toNat_udiv, BitVec.toNat_umod, Nat.mod_eq_sub_mul_div, and_self]

/-! ### Immediates (R177) -/

theorem imm64_eq_zero_iff (imm : BitVec 18) : imm64 imm = 0 ↔ imm = 0 := by
  rw [imm64, ← BitVec.toInt_inj, BitVec.toInt_signExtend_of_le (by decide), ← BitVec.toInt_inj (x := imm)]
  simp

/-! ### Elements of a lane (R182) -/

theorem elemOf_lane64 (g : Gang) (w : BitVec 2) (r : VR) (l e : Nat) :
    elemOf (vWidth w) e (g.lane64 (wide w) r l) = (g.elem w r l e).toNat :=
  (BitVec.toNat_ofNat _ _).symm

theorem onElems_succ (x n : Nat) (f : Nat → Nat) : onElems x (n + 1) f = onElems x n f + f n % 2 ^ x * 2 ^ (x * n) := by
  simp [onElems, List.range_succ]

theorem onElems_congr {x n : Nat} {f f' : Nat → Nat} (h : ∀ e < n, f e = f' e) : onElems x n f = onElems x n f' := by
  induction n with
  | zero => rfl
  | succ n ih => rw [onElems_succ, onElems_succ, ih fun e he => h e (by omega), h n (by omega)]

theorem onElems_lt (x n : Nat) (f : Nat → Nat) : onElems x n f < 2 ^ (x * n) := by
  induction n with
  | zero => simp [onElems]
  | succ n ih =>
    have hd : f n % 2 ^ x + 1 ≤ 2 ^ x := Nat.mod_lt _ (Nat.two_pow_pos x)
    calc onElems x (n + 1) f = onElems x n f + f n % 2 ^ x * 2 ^ (x * n) := onElems_succ x n f
      _ < 2 ^ (x * n) + f n % 2 ^ x * 2 ^ (x * n) := Nat.add_lt_add_right ih _
      _ = (f n % 2 ^ x + 1) * 2 ^ (x * n) := by rw [Nat.succ_mul, Nat.add_comm]
      _ ≤ 2 ^ x * 2 ^ (x * n) := Nat.mul_le_mul_right _ hd
      _ = 2 ^ (x * (n + 1)) := by rw [← Nat.pow_add, Nat.mul_succ, Nat.add_comm]

/-- Each element is read back as it was put. -/
theorem elemOf_onElems {x n e : Nat} (f : Nat → Nat) (he : e < n) : elemOf x e (onElems x n f) = f e % 2 ^ x := by
  induction n with
  | zero => omega
  | succ n ih =>
    rw [onElems_succ, elemOf]
    rcases Nat.lt_succ_iff_lt_or_eq.mp he with h | rfl
    · obtain ⟨k, rfl⟩ : ∃ k, n = e + 1 + k := ⟨n - (e + 1), by omega⟩
      have hp : f (e + 1 + k) % 2 ^ x * 2 ^ (x * (e + 1 + k)) = 2 ^ (x * e) * (2 ^ x * (2 ^ (x * k) * (f (e + 1 + k) % 2 ^ x))) := by
        rw [Nat.mul_add, Nat.mul_add, Nat.mul_one, Nat.pow_add, Nat.pow_add, Nat.mul_comm, Nat.mul_assoc, Nat.mul_assoc]
      rw [hp, Nat.add_mul_div_left _ _ (Nat.two_pow_pos _), Nat.add_mul_mod_self_left]
      exact ih h
    · rw [Nat.mul_comm, Nat.add_mul_div_left _ _ (Nat.two_pow_pos _), Nat.div_eq_of_lt (onElems_lt _ _ _), Nat.zero_add, Nat.mod_mod]

theorem vCount_pos (w : BitVec 2) : 0 < vCount w := by
  unfold vCount
  split <;> decide

/-- The operand of VALUI: every element is the low bits of the immediate (R186). -/
theorem elemOf_onElems_imm64 {w : BitVec 2} {e : Nat} (imm : BitVec 18) (he : e < vCount w) :
    elemOf (vWidth w) e (onElems (vWidth w) (vCount w) fun _ => (imm64 imm).toNat) = ((imm.signExtend 64).setWidth (vWidth w)).toNat := by
  rw [elemOf_onElems _ he, BitVec.toNat_setWidth, imm64]

/-! ### The first lane of a mask that meets a condition -/

theorem find?_lanesOf_eq_some {m : W32} {p : Nat → Bool} {l : Nat} :
    (lanesOf m).find? p = some l ↔ p l = true ∧ l < 32 ∧ m.getLsbD l = true ∧ ∀ j < l, m.getLsbD j = true → p j = false := by
  rw [lanesOf, List.find?_filter, List.find?_range_eq_some]
  simp only [List.mem_range, decide_eq_true_eq, Bool.not_eq_true', decide_eq_false_iff_not, not_and, Bool.not_eq_true]
  exact ⟨fun ⟨⟨ht, hp⟩, hl, hj⟩ => ⟨hp, hl, ht, hj⟩, fun ⟨hp, hl, ht, hj⟩ => ⟨⟨ht, hp⟩, hl, hj⟩⟩

theorem find?_lanesOf_eq_none {m : W32} {p : Nat → Bool} :
    (lanesOf m).find? p = none ↔ ∀ l < 32, m.getLsbD l = true → p l = false := by
  simp [lanesOf, List.find?_eq_none]

/-! ### The instruction that divides -/

theorem exec_saluInstr (fn : SFn) (c : Ctl) (d a b : SR) (s : State) :
    exec (saluInstr fn c d a b) s = issue (saluInstr fn c d a b) c s fun s g sp pc => saluOp fn c d (g.sr b) a s g sp pc := by
  cases fn <;> rfl

theorem exec_salui (fn : SFn) (c : Ctl) (d a : SR) (imm : BitVec 18) (s : State) :
    exec (.salui c fn d a imm) s = issue (.salui c fn d a imm) c s fun s g sp pc => saluOp fn c d (imm64 imm) a s g sp pc := rfl

theorem exec_valuInstr (fn : VFn) (u : Bool) (c : Ctl) (p : Pred) (w : BitVec 2) (d a b : VR) (s : State) :
    exec (valuInstr fn c p u w d a b) s =
      issue (valuInstr fn c p u w d a b) c s fun s g sp pc => valuOp fn u c p w d a (vsrc w b g) s g sp pc := by
  cases fn <;> rfl

theorem exec_valui (fn : VFn) (u : Bool) (c : Ctl) (p : Pred) (w : BitVec 2) (d a : VR) (imm : BitVec 18) (s : State) :
    exec (.valui c p fn u w d a imm) s = issue (.valui c p fn u w d a imm) c s fun s g sp pc =>
      valuOp fn u c p w d a (fun _ => onElems (vWidth w) (vCount w) fun _ => (imm64 imm).toNat) s g sp pc := rfl

theorem saluOp_accepts {fn : SFn} (hfn : SFn.isDiv fn = true) (c : Ctl) (d a : SR) {b : W64} (s : State) {g : Gang} (sp : Split) (pc : W64)
    (h : b ≠ 0 ∨ g.trapen.getLsbD 0 = false) :
    saluOp fn c d b a s g sp pc = (s.accept g sp c (.calc [.sreg d (intOf (SFn.vfn fn) false (g.sr a) b)])).2 := by
  have hz : (b == 0 && g.idz) = false := by
    rcases h with h | h
    · rw [beq_false_of_ne h, Bool.false_and]
    · rw [Gang.idz, h, Bool.and_false]
  simp only [saluOp, hfn, hz, ofNat_sfn_of_isDiv, State.long, if_true, Bool.false_eq_true, if_false]

theorem saluOp_traps {fn : SFn} (hfn : SFn.isDiv fn = true) (c : Ctl) (d a : SR) {b : W64} (s : State) {g : Gang} (sp : Split) (pc : W64)
    (hb : b = 0) (h : g.trapen.getLsbD 0 = true) : saluOp fn c d b a s g sp pc = s.trapAt g sp causeIDZ 0 0 0 pc 0 := by
  simp [saluOp, hfn, hb, h, Gang.idz]

/-- Some element of lane `l` of the divisor is zero. -/
theorem any_elemOf_eq_zero {w : BitVec 2} {v : Nat} {eb : Nat → BitVec (vWidth w)} (hv : ∀ e < vCount w, elemOf (vWidth w) e v = (eb e).toNat) :
    ((List.range (vCount w)).any fun e => elemOf (vWidth w) e v == 0) = true ↔ ∃ e < vCount w, eb e = 0 := by
  simp only [List.any_eq_true, List.mem_range, beq_iff_eq]
  refine exists_congr fun e => and_congr_right fun he => ?_
  rw [hv e he, ← BitVec.toNat_inj]
  simp

/-- The lanes of a division, element by element. -/
theorem vWrites_eq_vResult {fn : VFn} (hfn : VFn.isDiv fn = true) (u : Bool) (w : BitVec 2) (d a : VR) (lanes : W32) (g : Gang) {b : Nat → Nat}
    {eb : Nat → Nat → BitVec (vWidth w)} (hv : ∀ l, ∀ e < vCount w, elemOf (vWidth w) e (b l) = (eb l e).toNat) :
    vWrites (wide w) d lanes (fun l => onElems (vWidth w) (vCount w) fun e =>
        vfn fn u (vWidth w) (elemOf (vWidth w) e (g.lane64 (wide w) a l)) (elemOf (vWidth w) e (b l))) =
      vResult w d lanes fun l e => intOf fn u (g.elem w a l e) (eb l e) := by
  refine congrArg (vWrites (wide w) d lanes) (funext fun l => onElems_congr fun e he => ?_)
  rw [elemOf_lane64, hv l e he, vfn_toNat_of_isDiv hfn]

theorem valuOp_accepts {fn : VFn} (hfn : VFn.isDiv fn = true) (u : Bool) (c : Ctl) (p : Pred) (w : BitVec 2) (d a : VR) {b : Nat → Nat}
    {eb : Nat → Nat → BitVec (vWidth w)} (s : State) {g : Gang} {sp : Split} (pc : W64)
    (hv : ∀ l, ∀ e < vCount w, elemOf (vWidth w) e (b l) = (eb l e).toNat)
    (h : g.trapen.getLsbD 0 = false ∨ ∀ l < 32, (takes g sp p).getLsbD l = true → ∀ e < vCount w, eb l e ≠ 0) :
    valuOp fn u c p w d a b s g sp pc =
      (s.accept g sp c (.calc (vResult w d (takes g sp p) fun l e => intOf fn u (g.elem w a l e) (eb l e)))).2 := by
  rw [← vWrites_eq_vResult hfn u w d a _ g hv]
  simp only [valuOp, hfn, if_true, State.long]
  split
  next l hl =>
    obtain ⟨hz, hl32, ht, -⟩ := find?_lanesOf_eq_some.mp hl
    obtain ⟨e, he, h0⟩ := (any_elemOf_eq_zero (hv l)).mp hz
    have hidz : g.idz = false := h.resolve_right fun hn => hn l hl32 ht e he h0
    simp [hidz]
  next => rfl

theorem valuOp_traps {fn : VFn} (hfn : VFn.isDiv fn = true) (u : Bool) (c : Ctl) (p : Pred) (w : BitVec 2) (d a : VR) {b : Nat → Nat}
    {eb : Nat → Nat → BitVec (vWidth w)} (s : State) {g : Gang} {sp : Split} (pc : W64) {l : Nat}
    (hv : ∀ l, ∀ e < vCount w, elemOf (vWidth w) e (b l) = (eb l e).toNat)
    (h : g.trapen.getLsbD 0 = true) (hl : l < 32) (ht : (takes g sp p).getLsbD l = true) (hz : ∃ e < vCount w, eb l e = 0)
    (hlow : ∀ m < l, (takes g sp p).getLsbD m = true → ∀ e < vCount w, eb m e ≠ 0) :
    valuOp fn u c p w d a b s g sp pc = s.trapAt g sp causeIDZ 0 0 l pc 0 := by
  have hfind : (lanesOf (takes g sp p)).find? (fun l => (List.range (vCount w)).any fun e => elemOf (vWidth w) e (b l) == 0) = some l := by
    refine find?_lanesOf_eq_some.mpr ⟨(any_elemOf_eq_zero (hv l)).mpr hz, hl, ht, fun m hm htm => Bool.eq_false_iff.mpr fun hzm => ?_⟩
    obtain ⟨e, he, h0⟩ := (any_elemOf_eq_zero (hv m)).mp hzm
    exact hlow m hm htm e he h0
  simp only [valuOp, hfn, if_true, hfind, Gang.idz, h]

/-! ### The trap at issue (R317) -/

/-- A gang with a cause to be taken does not flow on. -/
theorem State.advance_setGang_of_trap (s : State) {g : Gang} {u : Nat} (sid : Nat) (pc : W64) (hu : g.uid = u) (ht : g.trap.isSome = true) :
    (s.setGang g).advance u sid pc = s.setGang g := by
  simp only [State.advance]
  split
  · rfl
  · rw [State.onGang_setGang s g u _ hu (by simp [ht, hu])]
    simp [ht]

@[simp] theorem Gang.beginAbort_uid (g : Gang) : g.beginAbort.uid = g.uid := by unfold Gang.beginAbort; split <;> rfl

/-- A cause that traps, raised by a gang that has just been put in place. -/
theorem State.raise_setGang (s : State) {g : Gang} {u : Nat} {q : TrapReq} (hu : g.uid = u) (hq : q.cause ≠ causeXLATE) :
    (s.setGang g).raise u q =
      ((s.stopLoops u).loseOpb u).setGang { g.beginAbort with trap := some { q with reg := g.region.isSome } } := by
  have hparks : (q.cause == causeXLATE && (((s.setGang g).gang? u).map (·.tl)).getD 0 == 0) = false := by simp [hq]
  simp only [State.raise, hparks, Bool.false_eq_true, if_false]
  exact State.onGang_setGang ((s.stopLoops u).loseOpb u) g u _ hu (by simp [hu])

/-- The cause record that the instruction in focus leaves (Table 17.2). -/
theorem State.trapAt_eq_raise {s : State} {f : Focus} {g : Gang} {sp : Split} (hf : s.focus = some f) (hs : sp.sid = f.sid)
    (cause sub : BitVec 8) (code : BitVec 16) (lane : Nat) (ret va : W64) :
    s.trapAt g sp cause sub code lane ret va = s.raise g.uid (trapReq f cause sub code (BitVec.ofNat 5 lane) ret va) := by
  have hp : s.focusPc = f.pc := by simp [State.focusPc, hf]
  rw [State.trapAt, hp, hs]
  rfl

/-- An instruction that issues and raises a cause that traps completes its step so. -/
theorem issue_trapAt {i : Instr} {c : Ctl} {s : State} {f : Focus} {g : Gang} {sp : Split} (h : Issues i c s f g sp)
    {body : State → Gang → Split → W64 → State} {cause sub : BitVec 8} {code : BitVec 16} {lane : Nat} {ret va : W64} (hc : cause ≠ causeXLATE)
    (hb : body (s.setGang (g.issued s.clock c f)) (g.issued s.clock c f) sp f.pc =
      (s.setGang (g.issued s.clock c f)).trapAt (g.issued s.clock c f) sp cause sub code lane ret va) :
    issue i c s body = .next (s.afterTrap f g c (trapReq f cause sub code (BitVec.ofNat 5 lane) ret va)) := by
  have hu := State.gang?_uid h.gang
  rw [issue_next h, hb, State.trapAt_eq_raise (s := s.setGang (g.issued s.clock c f)) h.focus (Gang.split?_sid h.split),
    State.raise_setGang s rfl hc, State.advance_setGang_of_trap _ _ _ (by simp [hu]) rfl]
  rfl

/-! ### What each division does when it issues -/

theorem causeIDZ_ne_causeXLATE : causeIDZ ≠ causeXLATE := by decide

section
variable {c : Ctl} {s : State} {f : Focus} {g : Gang} {sp : Split}

theorem exec_saluInstr_accepts {fn : SFn} {d a b : SR} (hfn : SFn.isDiv fn = true) (h : Issues (saluInstr fn c d a b) c s f g sp)
    (hb : g.sr b ≠ 0 ∨ g.trapen.getLsbD 0 = false) :
    exec (saluInstr fn c d a b) s = .next (s.afterAccept f g c (.calc [.sreg d (intOf (SFn.vfn fn) false (g.sr a) (g.sr b))])) := by
  rw [exec_saluInstr]
  exact issue_accept h (saluOp_accepts hfn c d a _ sp f.pc hb)

theorem exec_salui_accepts {fn : SFn} {d a : SR} {imm : BitVec 18} (hfn : SFn.isDiv fn = true) (h : Issues (.salui c fn d a imm) c s f g sp)
    (hb : imm ≠ 0 ∨ g.trapen.getLsbD 0 = false) :
    exec (.salui c fn d a imm) s =
      .next (s.afterAccept f g c (.calc [.sreg d (intOf (SFn.vfn fn) false (g.sr a) (imm.signExtend 64))])) := by
  rw [exec_salui]
  exact issue_accept h (saluOp_accepts hfn c d a _ sp f.pc (hb.imp_left (mt (imm64_eq_zero_iff imm).mp)))

theorem exec_valuInstr_accepts {fn : VFn} {u : Bool} {p : Pred} {w : BitVec 2} {d a b : VR} (hfn : VFn.isDiv fn = true)
    (h : Issues (valuInstr fn c p u w d a b) c s f g sp)
    (hb : g.trapen.getLsbD 0 = false ∨ ∀ l < 32, (takes g sp p).getLsbD l = true → ∀ e < vCount w, g.elem w b l e ≠ 0) :
    exec (valuInstr fn c p u w d a b) s = .next (s.afterAccept f g c (.calc
      (vResult w d (takes g sp p) fun l e => intOf fn u (g.elem w a l e) (g.elem w b l e)))) := by
  rw [exec_valuInstr]
  exact issue_accept h (valuOp_accepts hfn u c p w d a _ f.pc (fun l e _ => elemOf_lane64 g w b l e) hb)

theorem exec_valui_accepts {fn : VFn} {u : Bool} {p : Pred} {w : BitVec 2} {d a : VR} {imm : BitVec 18} (hfn : VFn.isDiv fn = true)
    (h : Issues (.valui c p fn u w d a imm) c s f g sp) (hb : g.trapen.getLsbD 0 = false ∨ (imm.signExtend 64).setWidth (vWidth w) ≠ 0) :
    exec (.valui c p fn u w d a imm) s = .next (s.afterAccept f g c (.calc
      (vResult w d (takes g sp p) fun l e => intOf fn u (g.elem w a l e) ((imm.signExtend 64).setWidth (vWidth w))))) := by
  rw [exec_valui]
  exact issue_accept h (valuOp_accepts hfn u c p w d a _ f.pc (fun _ _ he => elemOf_onElems_imm64 imm he)
    (hb.imp_right fun h _ _ _ _ _ => h))

theorem exec_saluInstr_traps {fn : SFn} {d a b : SR} (hz : g.trapen.getLsbD 0 = true) (hfn : SFn.isDiv fn = true)
    (h : Issues (saluInstr fn c d a b) c s f g sp) (hb : g.sr b = 0) :
    exec (saluInstr fn c d a b) s = .next (s.afterTrap f g c (trapReq f causeIDZ 0 0 0 f.pc 0)) := by
  rw [exec_saluInstr]
  exact issue_trapAt h causeIDZ_ne_causeXLATE (saluOp_traps hfn c d a _ sp f.pc hb hz)

theorem exec_salui_traps {fn : SFn} {d a : SR} {imm : BitVec 18} (hz : g.trapen.getLsbD 0 = true) (hfn : SFn.isDiv fn = true)
    (h : Issues (.salui c fn d a imm) c s f g sp) (hb : imm = 0) :
    exec (.salui c fn d a imm) s = .next (s.afterTrap f g c (trapReq f causeIDZ 0 0 0 f.pc 0)) := by
  rw [exec_salui]
  exact issue_trapAt h causeIDZ_ne_causeXLATE (saluOp_traps hfn c d a _ sp f.pc ((imm64_eq_zero_iff imm).mpr hb) hz)

theorem exec_valuInstr_traps {fn : VFn} {u : Bool} {p : Pred} {w : BitVec 2} {d a b : VR} {l : Nat} (hz : g.trapen.getLsbD 0 = true)
    (hfn : VFn.isDiv fn = true) (h : Issues (valuInstr fn c p u w d a b) c s f g sp) (hl : l < 32) (ht : (takes g sp p).getLsbD l = true)
    (hb : ∃ e < vCount w, g.elem w b l e = 0)
    (hlow : ∀ m < l, (takes g sp p).getLsbD m = true → ∀ e < vCount w, g.elem w b m e ≠ 0) :
    exec (valuInstr fn c p u w d a b) s = .next (s.afterTrap f g c (trapReq f causeIDZ 0 0 (BitVec.ofNat 5 l) f.pc 0)) := by
  rw [exec_valuInstr]
  exact issue_trapAt h causeIDZ_ne_causeXLATE
    (valuOp_traps hfn u c p w d a _ f.pc (fun l e _ => elemOf_lane64 g w b l e) hz hl ht hb hlow)

theorem exec_valui_traps {fn : VFn} {u : Bool} {p : Pred} {w : BitVec 2} {d a : VR} {imm : BitVec 18} {l : Nat}
    (hz : g.trapen.getLsbD 0 = true) (hfn : VFn.isDiv fn = true) (h : Issues (.valui c p fn u w d a imm) c s f g sp) (hl : l < 32)
    (ht : (takes g sp p).getLsbD l = true) (hb : (imm.signExtend 64).setWidth (vWidth w) = 0)
    (hlow : ∀ m < l, (takes g sp p).getLsbD m = false) :
    exec (.valui c p fn u w d a imm) s = .next (s.afterTrap f g c (trapReq f causeIDZ 0 0 (BitVec.ofNat 5 l) f.pc 0)) := by
  rw [exec_valui]
  exact issue_trapAt h causeIDZ_ne_causeXLATE
    (valuOp_traps hfn u c p w d a _ f.pc (fun _ _ he => elemOf_onElems_imm64 imm he) hz hl ht ⟨0, vCount_pos w, hb⟩
      fun m hm htm => absurd ((hlow m hm).symm.trans htm) Bool.false_ne_true)

end

/-- Settles O5: the values of R66, then acceptance and the trap IDZ of each of the four forms of a division. -/
theorem integerDivision : Obligations.IntegerDivision := by
  unfold Obligations.IntegerDivision
  refine ⟨fun n u a b => ⟨?zero, ?overflow, fun hb hab => toInt_intOf_division u hb hab, fun hb => toNat_intOf_division u hb⟩,
    ⟨?scalar, ?vector⟩, ?traps⟩
  case zero =>
    rintro rfl
    exact intOf_zero_divisor u a
  case overflow =>
    rintro hn rfl rfl
    exact intOf_intMin_allOnes u hn
  case scalar =>
    intro fn c d a b imm s f g sp hfn
    exact ⟨exec_saluInstr_accepts hfn, exec_salui_accepts hfn⟩
  case vector =>
    intro fn u c p w d a b imm s f g sp hfn
    exact ⟨exec_valuInstr_accepts hfn, exec_valui_accepts hfn⟩
  case traps =>
    intro c s f g sp hz
    refine ⟨?_, ?_, ?_, ?_⟩
    · intro fn d a b
      exact exec_saluInstr_traps hz
    · intro fn p u w d a b l
      exact exec_valuInstr_traps hz
    · intro fn d a imm
      exact exec_salui_traps hz
    · intro fn p u w d a imm l
      exact exec_valui_traps hz

end Sys2Proof.Machine
end

section
/-! SUPPORT. The acceptance run of ACCEPT (R279), and the counts of APPORT by largest remainder (R281). -/

namespace Sys2Proof.Machine

/-! ### Lanes of registers and masks -/

theorem lane_mkV (f : Nat → W32) {l : Nat} (hl : l < 32) : lane (mkV f) l = f l := by
  simp [lane, mkV, Vector.getD, hl]

theorem mem_lanesOf {m : W32} {l : Nat} : l ∈ lanesOf m ↔ l < 32 ∧ m.getLsbD l = true := by
  simp [lanesOf]

theorem lanesOf_ascending (m : W32) : (lanesOf m).Pairwise (· < ·) :=
  List.Pairwise.filter _ List.pairwise_lt_range

/-! ### The acceptance run (R279) -/

/-- Lane `l` is accepted: it is ok, and it starts a segment or the lane before it is accepted. -/
def accepted (start ok : Nat → Bool) : Nat → Bool
  | 0 => ok 0
  | l + 1 => (accepted start ok l || start (l + 1)) && ok (l + 1)

theorem accepted_iff {start ok : Nat → Bool} {l : Nat} :
    accepted start ok l = true ↔ ∃ j ≤ l, (j = 0 ∨ start j = true) ∧ ∀ i, j ≤ i → i ≤ l → ok i = true := by
  induction l with
  | zero =>
    constructor
    · intro h
      exact ⟨0, Nat.le_refl 0, .inl rfl, fun i _ hi => by rwa [Nat.le_zero.mp hi]⟩
    · rintro ⟨j, hj, -, hok⟩
      exact hok 0 hj (Nat.le_refl 0)
  | succ l ih =>
    rw [accepted, Bool.and_eq_true, Bool.or_eq_true, ih]
    constructor
    · rintro ⟨⟨j, hj, hs, hok⟩ | hs, hl⟩
      · refine ⟨j, by omega, hs, fun i hi hil => ?_⟩
        rcases Nat.le_succ_iff.mp hil with h | rfl
        · exact hok i hi h
        · exact hl
      · refine ⟨l + 1, Nat.le_refl _, .inr hs, fun i hi hil => ?_⟩
        rwa [Nat.le_antisymm hil hi]
    · rintro ⟨j, hj, hs, hok⟩
      refine ⟨?_, hok _ hj (Nat.le_refl _)⟩
      rcases Nat.le_succ_iff.mp hj with h | rfl
      · exact .inl ⟨j, h, hs, fun i hi hil => hok i hi (by omega)⟩
      · exact .inr (hs.resolve_left (by omega))

/-- The run writes the accepted lanes of those that it still has to visit. -/
theorem getLsbD_acceptRun (start ok : Nat → Bool) {i : Nat} (hi : i < 32) (n l : Nat) (run : Bool) (m : W32)
    (hrun : ((run || l == 0 || start l) && ok l) = accepted start ok l) :
    (acceptRun start ok n l run m).getLsbD i = (m.getLsbD i || decide (l ≤ i ∧ i < l + n) && accepted start ok i) := by
  induction n generalizing l run m with
  | zero =>
    have hnone : ¬ (l ≤ i ∧ i < l + 0) := by omega
    rw [acceptRun, decide_eq_false hnone, Bool.false_and, Bool.or_false]
  | succ n ih =>
    rw [acceptRun, hrun, ih (l + 1) _ _ (by simp [accepted])]
    have hbit : (if accepted start ok l then m ||| (1#32 <<< l) else m).getLsbD i =
        (m.getLsbD i || decide (i = l) && accepted start ok i) := by
      by_cases hil : i = l
      · subst hil
        cases accepted start ok i <;> simp [hi]
      · have hne : i < l ∨ ¬ i - l = 0 := by omega
        split <;> simp [hil, hi]
        omega
    rw [hbit, Bool.or_assoc, ← Bool.and_or_distrib_right, ← Bool.decide_or]
    congr 3
    exact propext (by omega)

theorem getLsbD_acceptRun_all (start ok : Nat → Bool) {l : Nat} (hl : l < 32) :
    (acceptRun start ok 32 0 false 0).getLsbD l = accepted start ok l := by
  rw [getLsbD_acceptRun start ok hl 32 0 false 0 (by simp [accepted])]
  simp [hl]

/-! ### Largest fractions first (R281) -/

/-- Position `i` goes before `j`: its fraction is larger, or equal and it stands lower. -/
def Precedes (fr : List Nat) (i j : Nat) : Prop :=
  fr.getD j 0 < fr.getD i 0 ∨ (fr.getD j 0 = fr.getD i 0 ∧ i ≤ j)

/-- The better of the best position so far and the next one. -/
def better (fr : List Nat) (b : Option Nat) (i : Nat) : Option Nat :=
  match b with
  | none => some i
  | some j => if fr.getD i 0 > fr.getD j 0 then some i else some j

theorem largestFrac_eq (fr cs : List Nat) :
    largestFrac fr cs = ((List.range fr.length).filter fun i => !cs.contains i).foldl (better fr) none := rfl

theorem foldl_better (fr : List Nat) (b : Nat) (l : List Nat) (h : (b :: l).Pairwise (· < ·)) :
    ∃ i ∈ b :: l, l.foldl (better fr) (some b) = some i ∧ ∀ j ∈ b :: l, Precedes fr i j := by
  induction l generalizing b with
  | nil => exact ⟨b, by simp, rfl, by simp [Precedes]⟩
  | cons x l ih =>
    obtain ⟨hb, hx⟩ := List.pairwise_cons.mp h
    rw [List.foldl_cons, better]
    split
    next hgt =>
      obtain ⟨i, hi, heq, hall⟩ := ih x hx
      refine ⟨i, List.mem_cons_of_mem _ hi, heq, List.forall_mem_cons.mpr ⟨.inl ?_, hall⟩⟩
      rcases hall x List.mem_cons_self with h | ⟨h, -⟩ <;> omega
    next hle =>
      obtain ⟨i, hi, heq, hall⟩ := ih b (h.sublist ((List.sublist_cons_self x l).cons_cons b))
      obtain ⟨hib, hil⟩ := List.forall_mem_cons.mp hall
      refine ⟨i, ?_, heq, List.forall_mem_cons.mpr ⟨hib, List.forall_mem_cons.mpr ⟨?_, hil⟩⟩⟩
      · exact List.mem_cons.mpr ((List.mem_cons.mp hi).imp_right (List.mem_cons_of_mem _))
      · have hbx : b < x := hb x List.mem_cons_self
        unfold Precedes at hib ⊢
        omega

/-- While a position is free, the one chosen goes before all that are. -/
theorem largestFrac_spec {fr cs : List Nat} (hfree : ∃ j < fr.length, j ∉ cs) :
    ∃ i, largestFrac fr cs = some i ∧ i < fr.length ∧ i ∉ cs ∧ ∀ j < fr.length, j ∉ cs → Precedes fr i j := by
  have hmem : ∀ j, j ∈ (List.range fr.length).filter (fun i => !cs.contains i) ↔ j < fr.length ∧ j ∉ cs := by simp
  have hasc : ((List.range fr.length).filter fun i => !cs.contains i).Pairwise (· < ·) := List.Pairwise.filter _ List.pairwise_lt_range
  obtain ⟨k, hk⟩ := hfree
  rw [largestFrac_eq]
  generalize (List.range fr.length).filter (fun i => !cs.contains i) = free at hmem hasc
  match free, hmem, hasc with
  | [], hmem, _ => exact absurd ((hmem k).mpr hk) (by simp)
  | b :: l, hmem, hasc =>
    obtain ⟨i, hi, heq, hall⟩ := foldl_better fr b l hasc
    obtain ⟨hlt, hnot⟩ := (hmem i).mp hi
    exact ⟨i, heq, hlt, hnot, fun j hj hjc => hall j ((hmem j).mpr ⟨hj, hjc⟩)⟩

/-- The positions `cs` are the `cs.length` that go before all others. -/
structure Foremost (fr cs : List Nat) : Prop where
  nodup : cs.Nodup
  lt    : ∀ i ∈ cs, i < fr.length
  first : ∀ i ∈ cs, ∀ j < fr.length, j ∉ cs → Precedes fr i j

theorem Foremost.nil (fr : List Nat) : Foremost fr [] := ⟨List.nodup_nil, by simp, by simp⟩

theorem countP_contains_range {cs : List Nat} {n : Nat} (hnd : cs.Nodup) (hlt : ∀ i ∈ cs, i < n) :
    (List.range n).countP (fun i => cs.contains i) = cs.length := by
  rw [List.countP_eq_length_filter]
  refine List.Perm.length_eq ((List.perm_ext_iff_of_nodup (List.nodup_range.filter _) hnd).mpr fun i => ?_)
  simpa using hlt i

theorem Foremost.exists_free {fr cs : List Nat} (h : Foremost fr cs) (hl : cs.length < fr.length) : ∃ j < fr.length, j ∉ cs := by
  by_cases hall : ∀ j < fr.length, j ∈ cs
  · have hcount : (List.range fr.length).countP (fun i => cs.contains i) = (List.range fr.length).length :=
      List.countP_eq_length.mpr fun j hj => List.contains_iff_mem.mpr (hall j (List.mem_range.mp hj))
    rw [countP_contains_range h.nodup h.lt, List.length_range] at hcount
    omega
  · simpa only [Classical.not_forall, exists_prop] using hall

theorem Foremost.append {fr cs : List Nat} {i : Nat} (h : Foremost fr cs) (hi : i < fr.length) (hn : i ∉ cs)
    (hmax : ∀ j < fr.length, j ∉ cs → Precedes fr i j) : Foremost fr (cs ++ [i]) where
  nodup := List.nodup_append.mpr ⟨h.nodup, List.pairwise_singleton _ i, fun a ha b hb => by
    rw [List.mem_singleton.mp hb]; exact fun e => hn (e ▸ ha)⟩
  lt := by
    intro j hj
    rcases List.mem_append.mp hj with hj | hj
    · exact h.lt j hj
    · rwa [List.mem_singleton.mp hj]
  first := by
    intro a ha j hj hjn
    have hjc : j ∉ cs := fun hc => hjn (List.mem_append_left _ hc)
    rcases List.mem_append.mp ha with ha | ha
    · exact h.first a ha j hj hjc
    · rw [List.mem_singleton.mp ha]; exact hmax j hj hjc

/-- Choosing the largest fraction `k` times more. -/
theorem foremost_pickRem {fr : List Nat} (k : Nat) {cs : List Nat} (h : Foremost fr cs) (hk : k + cs.length ≤ fr.length) :
    Foremost fr (pickRem fr k cs) ∧ (pickRem fr k cs).length = k + cs.length := by
  induction k generalizing cs with
  | zero => exact ⟨h, by simp [pickRem]⟩
  | succ k ih =>
    obtain ⟨i, heq, hi, hn, hmax⟩ := largestFrac_spec (h.exists_free (by omega))
    simp only [pickRem, heq]
    have hlen : (cs ++ [i]).length = cs.length + 1 := by simp
    obtain ⟨hf, hl⟩ := ih (h.append hi hn hmax) (by omega)
    exact ⟨hf, by omega⟩

/-! ### The counts of APPORT (R281) -/

/-- The floor of the exact share of a weight `x` in the total `t`, among `n` weights of sum `W`. -/
def floorShare (t n W x : Nat) : Nat := if W = 0 then t / n else t * x / W
/-- The fraction that the floor leaves, as a multiple of 1 / `W`. -/
def fracShare (t W x : Nat) : Nat := if W = 0 then 0 else t * x % W

theorem sum_div_mul_add_sum_mod (t W : Nat) (w : List Nat) :
    (w.map fun x => t * x / W).sum * W + (w.map fun x => t * x % W).sum = t * w.sum := by
  induction w with
  | nil => simp
  | cons x w ih =>
    have := Nat.div_add_mod' (t * x) W
    simp only [List.map_cons, List.sum_cons, Nat.add_mul, Nat.mul_add]
    omega

theorem sum_map_mod_le (t : Nat) {W : Nat} (hW : 0 < W) (w : List Nat) : (w.map fun x => t * x % W).sum ≤ w.length * W := by
  induction w with
  | nil => simp
  | cons x w ih =>
    have := Nat.mod_lt (t * x) hW
    simp only [List.map_cons, List.sum_cons, List.length_cons, Nat.add_mul]
    omega

theorem le_sum_of_mem {l : List Nat} {x : Nat} (hx : x ∈ l) : x ≤ l.sum := by
  induction l with
  | nil => exact absurd hx List.not_mem_nil
  | cons y l ih =>
    rw [List.sum_cons]
    rcases List.mem_cons.mp hx with rfl | hx
    · exact Nat.le_add_right x _
    · exact Nat.le_trans (ih hx) (Nat.le_add_left _ y)

/-- The floors leave at most one unit for each weight. -/
theorem sum_floorShare {w : List Nat} (hw : w ≠ []) (t : Nat) :
    (w.map (floorShare t w.length w.sum)).sum ≤ t ∧ t - (w.map (floorShare t w.length w.sum)).sum ≤ w.length := by
  have hn : 0 < w.length := List.length_pos_iff.mpr hw
  by_cases hW : w.sum = 0
  · have hall : w.map (floorShare t w.length w.sum) = List.replicate w.length (t / w.length) :=
      List.map_eq_replicate_iff.mpr fun x _ => if_pos hW
    have hsum : (w.map (floorShare t w.length w.sum)).sum = w.length * (t / w.length) := by rw [hall, List.sum_replicate_nat]
    have := Nat.div_add_mod t w.length
    have := Nat.mod_lt t hn
    omega
  · have hmap : w.map (floorShare t w.length w.sum) = w.map fun x => t * x / w.sum :=
      List.map_congr_left fun x _ => if_neg hW
    rw [hmap]
    have hall := sum_div_mul_add_sum_mod t w.sum w
    have hfr := sum_map_mod_le t (Nat.pos_of_ne_zero hW) w
    generalize (w.map fun x => t * x / w.sum).sum = a at *
    have hle : a * w.sum ≤ t * w.sum := by omega
    have hge : t * w.sum ≤ (a + w.length) * w.sum := by rw [Nat.add_mul]; omega
    have := Nat.le_of_mul_le_mul_right hle (Nat.pos_of_ne_zero hW)
    have := Nat.le_of_mul_le_mul_right hge (Nat.pos_of_ne_zero hW)
    omega

/-- The positions that receive one more than their floor. -/
def favoured (t : Nat) (w : List Nat) : List Nat :=
  pickRem (w.map (fracShare t w.sum)) (t - (w.map (floorShare t w.length w.sum)).sum) []

theorem favoured_spec {w : List Nat} (hw : w ≠ []) (t : Nat) :
    Foremost (w.map (fracShare t w.sum)) (favoured t w) ∧ (favoured t w).length = t - (w.map (floorShare t w.length w.sum)).sum := by
  simpa [favoured] using foremost_pickRem _ (Foremost.nil (w.map (fracShare t w.sum))) (by simpa using (sum_floorShare hw t).2)

@[simp] theorem length_apportWeights (ws : List Nat) : (apportWeights ws).length = ws.length := by
  simp only [apportWeights]
  split <;> simp

theorem apport_eq (t : Nat) (ws : List Nat) :
    apport t ws = ((apportWeights ws).map (floorShare t (apportWeights ws).length (apportWeights ws).sum)).mapIdx fun i x =>
      if (favoured t (apportWeights ws)).contains i then x + 1 else x := by
  simp only [apport, favoured, List.sum_eq_foldl, beq_iff_eq, length_apportWeights]
  rfl

@[simp] theorem length_apport (t : Nat) (ws : List Nat) : (apport t ws).length = ws.length := by simp [apport_eq]

theorem getElem_apport (t : Nat) (ws : List Nat) {i : Nat} (hi : i < (apport t ws).length) (hi' : i < (apportWeights ws).length) :
    (apport t ws)[i] = floorShare t (apportWeights ws).length (apportWeights ws).sum (apportWeights ws)[i] +
      if i ∈ favoured t (apportWeights ws) then 1 else 0 := by
  simp only [apport_eq, List.getElem_mapIdx, List.getElem_map, List.contains_iff_mem]
  split <;> rfl

theorem sum_mapIdx_add_one (l : List Nat) (p : Nat → Bool) :
    (l.mapIdx fun i x => if p i then x + 1 else x).sum = l.sum + (List.range l.length).countP p := by
  induction l generalizing p with
  | nil => rfl
  | cons x l ih =>
    rw [List.mapIdx_cons, List.sum_cons, ih fun i => p (i + 1), List.sum_cons, List.length_cons, List.range_succ_eq_map, List.countP_cons,
      List.countP_map]
    have hshift : p ∘ Nat.succ = fun i => p (i + 1) := rfl
    rw [hshift]
    split <;> omega

/-- The counts make the total (R281). -/
theorem sum_apport (t : Nat) {ws : List Nat} (hws : ws ≠ []) : (apport t ws).sum = t := by
  have hw : apportWeights ws ≠ [] := by simpa [← List.length_pos_iff] using hws
  obtain ⟨hf, hlen⟩ := favoured_spec hw t
  rw [apport_eq, sum_mapIdx_add_one, List.length_map, countP_contains_range hf.nodup (by simpa using hf.lt), hlen]
  exact Nat.add_sub_cancel' (sum_floorShare hw t).1

end Sys2Proof.Machine
end

section
/-! The INFER group when it issues (R277 to R282): the lanes of APPORT, ACCEPT and its trap, CONFX and VRAND, and the statement O34. -/

namespace Sys2Proof.Machine

/-! ### The weights and the lanes of APPORT (R281) -/

/-- The weight that a lane's value counts: beside a +∞ only the infinities, 1 each; else a positive number as a multiple of 2^−149. -/
def weightOf (infs : Bool) (v : FVal) : Nat :=
  if infs then (if v = .inf false then 1 else 0) else match v with
    | .fin false m e => m * 2 ^ (e + 149).toNat
    | _ => 0

theorem apportWeights_eq (ws : List Nat) : apportWeights ws = ws.map fun x => weightOf (ws.any fun x => f32 x == .inf false) (f32 x) := by
  have hq : fF32.qmin = -149 := by decide
  simp only [apportWeights, List.any_map, List.map_map, hq, Int.sub_neg]
  change (if ws.any (fun x => f32 x == .inf false) = true then _ else _) = _
  cases ws.any fun x => f32 x == .inf false
  · rfl
  · simp [weightOf, Function.comp_def]

/-- The register in which the lanes `ls` hold the counts `out`, in their order. -/
def countsIn (ls out : List Nat) : VReg :=
  mkV fun l => match ls.findIdx? (· == l) with | some i => BitVec.ofNat 32 (out.getD i 0) | none => 0

theorem toNat_lane_countsIn {ls out : List Nat} (hls : ls.Pairwise (· < ·)) (hlt : ∀ l ∈ ls, l < 32) (hout : ∀ x ∈ out, x < 2 ^ 32)
    {i : Nat} (hi : i < ls.length) (hi' : i < out.length) : (lane (countsIn ls out) ls[i]).toNat = out[i] := by
  have hfind : ls.findIdx? (· == ls[i]) = some i := by
    refine List.findIdx?_eq_some_iff_getElem.mpr ⟨hi, by simp, fun j hj => ?_⟩
    have := List.pairwise_iff_getElem.mp hls j i (by omega) hi hj
    have hne : ls[j] ≠ ls[i] := by omega
    simpa using hne
  rw [countsIn, lane_mkV _ (hlt _ (List.getElem_mem hi))]
  simp only [hfind, BitVec.toNat_ofNat, List.getD_eq_getElem?_getD, List.getElem?_eq_getElem hi', Option.getD_some]
  exact Nat.mod_eq_of_lt (hout _ (List.getElem_mem hi'))

theorem le_total_of_mem_apport {t : Nat} {ws : List Nat} {x : Nat} (hx : x ∈ apport t ws) : x ≤ t := by
  have hws : ws ≠ [] := by
    intro h
    have := List.length_pos_of_mem hx
    simp [h] at this
  calc x ≤ (apport t ws).sum := le_sum_of_mem hx
    _ = t := sum_apport t hws

/-- The weight of lane `l` among the lanes `ls` of a column `x` of F32 numbers. -/
def laneWeight (ls : List Nat) (x : Nat → Nat) (l : Nat) : Nat := weightOf (ls.any fun l => f32 (x l) == .inf false) (f32 (x l))

theorem apportWeights_map (ls : List Nat) (x : Nat → Nat) : apportWeights (ls.map x) = ls.map (laneWeight ls x) := by
  rw [apportWeights_eq, List.map_map, List.any_map]
  rfl

section
variable {t : Nat} {ls : List Nat} {x : Nat → Nat} (ht : t < 2 ^ 32) (hls : ls.Pairwise (· < ·)) (hlt : ∀ l ∈ ls, l < 32)
include ht hls hlt

theorem toNat_lane_counts {i : Nat} (hi : i < ls.length) :
    (lane (countsIn ls (apport t (ls.map x))) ls[i]).toNat = floorShare t ls.length (ls.map (laneWeight ls x)).sum (laneWeight ls x ls[i]) +
      if i ∈ favoured t (ls.map (laneWeight ls x)) then 1 else 0 := by
  rw [toNat_lane_countsIn hls hlt (fun _ hx => Nat.lt_of_le_of_lt (le_total_of_mem_apport hx) ht) hi (by simpa), getElem_apport t _ (by simpa) (by simpa)]
  simp [apportWeights_map]

theorem sum_lane_counts (hne : ls ≠ []) : (ls.map fun l => (lane (countsIn ls (apport t (ls.map x))) l).toNat).sum = t := by
  have hall : (ls.map fun l => (lane (countsIn ls (apport t (ls.map x))) l).toNat) = apport t (ls.map x) := by
    refine List.ext_getElem (by simp) fun i hi hi' => ?_
    rw [List.getElem_map]
    exact toNat_lane_countsIn hls hlt (fun _ hx => Nat.lt_of_le_of_lt (le_total_of_mem_apport hx) ht) _ hi'
  rw [hall, sum_apport t (by simpa)]

/-- Each count is the floor of its exact share, or one more. -/
theorem lane_counts_floor {l : Nat} (hl : l ∈ ls) :
    let v := (lane (countsIn ls (apport t (ls.map x))) l).toNat
    let floor := floorShare t ls.length (ls.map (laneWeight ls x)).sum (laneWeight ls x l)
    v = floor ∨ v = floor + 1 := by
  obtain ⟨i, hi, rfl⟩ := List.getElem_of_mem hl
  rw [toNat_lane_counts ht hls hlt hi]
  split
  · exact .inr rfl
  · exact .inl rfl

/-- One more than the floor goes to the lanes of the largest fractions, ties to the lower lane. -/
theorem lane_counts_favoured {l j : Nat} (hl : l ∈ ls) (hj : j ∈ ls) :
    let v := fun l => (lane (countsIn ls (apport t (ls.map x))) l).toNat
    let floor := fun l => floorShare t ls.length (ls.map (laneWeight ls x)).sum (laneWeight ls x l)
    let frac := fun l => fracShare t (ls.map (laneWeight ls x)).sum (laneWeight ls x l)
    v l = floor l + 1 → v j = floor j → frac j ≤ frac l ∧ (frac j = frac l → l < j) := by
  intro v floor frac
  obtain ⟨a, ha, rfl⟩ := List.getElem_of_mem hl
  obtain ⟨b, hb, rfl⟩ := List.getElem_of_mem hj
  have hne : ls.map (laneWeight ls x) ≠ [] := by simpa using List.ne_nil_of_mem hl
  obtain ⟨hf, -⟩ := favoured_spec hne t
  simp only [v, floor, toNat_lane_counts ht hls hlt ha, toNat_lane_counts ht hls hlt hb]
  intro hone hzero
  have hain : a ∈ favoured t (ls.map (laneWeight ls x)) := by
    refine Classical.byContradiction fun hnot => ?_
    rw [if_neg hnot] at hone
    omega
  have hbout : b ∉ favoured t (ls.map (laneWeight ls x)) := by
    intro hin
    rw [if_pos hin] at hzero
    omega
  have hab : a ≠ b := fun h => hbout (h ▸ hain)
  have hprec := hf.first a hain b (by simpa) hbout
  simp only [Precedes, List.getD_eq_getElem?_getD, List.getElem?_map, List.getElem?_eq_getElem ha, List.getElem?_eq_getElem hb,
    Option.map_some, Option.getD_some] at hprec
  rcases hprec with hlt' | ⟨heq, hle⟩
  · exact ⟨Nat.le_of_lt hlt', fun h => absurd h (Nat.ne_of_lt hlt')⟩
  · exact ⟨Nat.le_of_eq heq, fun _ => List.pairwise_iff_getElem.mp hls a b ha hb (by omega)⟩

end

/-! ### ACCEPT (R279, R280) -/

/-- ACCEPT's column `n` of lane `l`. -/
def Gang.col (g : Gang) (a : VR) (n l : Nat) : Nat := (lane (g.vr (a.toNat + n)) l).toNat

/-- The token of a taking-part lane is outside the vocabulary or within the padding. -/
def Gang.outOfRange (g : Gang) (t : W32) (a : VR) (b : SR) (l : Nat) : Bool :=
  t.getLsbD l && (g.col a 0 l ≥ ((g.sr b).extractLsb' 0 32).toNat ||
    (((g.sr (b + 1)).extractLsb' 0 32).toNat ≤ g.col a 0 l && g.col a 0 l < ((g.sr (b + 1)).extractLsb' 32 32).toNat))

/-- A taking-part lane whose token is in range passes its test. -/
def Gang.passes (g : Gang) (t : W32) (prob : Bool) (a : VR) (b : SR) (l : Nat) : Bool :=
  t.getLsbD l && !g.outOfRange t a b l && (if prob then probPass (g.col a 1 l) (g.col a 2 l) (g.col a 3 l) else g.col a 0 l == g.col a 1 l)

/-- The K register that ACCEPT writes. -/
def Gang.acceptMask (g : Gang) (t : W32) (prob : Bool) (a : VR) (b : SR) (seg : KR) : W32 :=
  acceptRun (fun l => (g.kr seg).getLsbD l) (g.passes t prob a b) 32 0 false 0

theorem getLsbD_acceptMask (g : Gang) (t : W32) (prob : Bool) (a : VR) (b : SR) (seg : KR) {l : Nat} (hl : l < 32) :
    (g.acceptMask t prob a b seg).getLsbD l = true ↔
      ∃ j ≤ l, (j = 0 ∨ (g.kr seg).getLsbD j = true) ∧ ∀ i, j ≤ i → i ≤ l → g.passes t prob a b i = true := by
  rw [Gang.acceptMask, getLsbD_acceptRun_all _ _ hl, accepted_iff]

theorem Gang.outOfRange_lt {g : Gang} {t : W32} {a : VR} {b : SR} {l : Nat} (h : g.outOfRange t a b l = true) : l < 32 := by
  rw [Gang.outOfRange, Bool.and_eq_true] at h
  exact BitVec.lt_of_getLsbD h.1

/-- What ACCEPT does once it issues. -/
def acceptBody (c : Ctl) (p : Pred) (prob : Bool) (k : KR) (a : VR) (b : SR) (seg : KR) (s : State) (g : Gang) (sp : Split) (pc : W64) : State :=
  let oor := g.outOfRange (takes g sp p) a b
  let any := (List.range 32).any oor
  if any && g.oorTrap then
    (s.onGang g.uid fun g => { g with gstat := g.gstat ||| gsDRAFTOOR }).trapAt g sp causeOOR 0 0 (((List.range 32).find? oor).getD 0) pc 0
  else s.long g sp c ([.kreg k (g.acceptMask (takes g sp p) prob a b seg)] ++ if any then [.gsSet gsDRAFTOOR] else [])

theorem any_outOfRange_eq_false {g : Gang} {t : W32} {a : VR} {b : SR} :
    (List.range 32).any (g.outOfRange t a b) = false ↔ ∀ l < 32, g.outOfRange t a b l = false := by
  simp only [List.any_eq_false, List.mem_range, Bool.not_eq_true]

theorem any_outOfRange_of {g : Gang} {t : W32} {a : VR} {b : SR} {l : Nat} (h : g.outOfRange t a b l = true) :
    (List.range 32).any (g.outOfRange t a b) = true :=
  List.any_eq_true.mpr ⟨l, List.mem_range.mpr (Gang.outOfRange_lt h), h⟩

section
variable {c : Ctl} {p : Pred} {prob : Bool} {k seg : KR} {a : VR} {b : SR} {s : State} {g : Gang} {sp : Split} {pc : W64}

theorem acceptBody_inRange (hin : ∀ l < 32, g.outOfRange (takes g sp p) a b l = false) :
    acceptBody c p prob k a b seg s g sp pc = (s.accept g sp c (.calc [.kreg k (g.acceptMask (takes g sp p) prob a b seg)])).2 := by
  simp [acceptBody, any_outOfRange_eq_false.mpr hin, State.long]

theorem acceptBody_outOfRange {l : Nat} (hl : g.outOfRange (takes g sp p) a b l = true) (hz : g.oorTrap = false) :
    acceptBody c p prob k a b seg s g sp pc =
      (s.accept g sp c (.calc [.kreg k (g.acceptMask (takes g sp p) prob a b seg), .gsSet gsDRAFTOOR])).2 := by
  simp [acceptBody, any_outOfRange_of hl, hz, State.long]

theorem acceptBody_traps {l : Nat} (hl : g.outOfRange (takes g sp p) a b l = true) (hlow : ∀ i < l, g.outOfRange (takes g sp p) a b i = false)
    (hz : g.oorTrap = true) :
    acceptBody c p prob k a b seg s g sp pc =
      (s.onGang g.uid fun g => { g with gstat := g.gstat ||| gsDRAFTOOR }).trapAt g sp causeOOR 0 0 l pc 0 := by
  have hfind : (List.range 32).find? (g.outOfRange (takes g sp p) a b) = some l :=
    List.find?_range_eq_some.mpr ⟨hl, List.mem_range.mpr (Gang.outOfRange_lt hl), fun i hi => by simp [hlow i hi]⟩
  simp [acceptBody, any_outOfRange_of hl, hz, hfind]

end

@[simp] theorem Gang.beginAbort_s (g : Gang) : g.beginAbort.s = g.s := by unfold Gang.beginAbort; split <;> rfl
@[simp] theorem Gang.beginAbort_k (g : Gang) : g.beginAbort.k = g.k := by unfold Gang.beginAbort; split <;> rfl
@[simp] theorem Gang.beginAbort_gstat (g : Gang) : g.beginAbort.gstat = g.gstat := by unfold Gang.beginAbort; split <;> rfl

/-- An instruction that issues, changes its gang, and raises a cause that traps completes its step so. -/
theorem issue_onGang_trapAt {i : Instr} {c : Ctl} {s : State} {f : Focus} {g : Gang} {sp : Split} (h : Issues i c s f g sp)
    {body : State → Gang → Split → W64 → State} {upd : Gang → Gang} {cause sub : BitVec 8} {code : BitVec 16} {n : Nat} {ret va : W64}
    (hc : cause ≠ causeXLATE) (hupd : (upd (g.issued s.clock c f)).uid = g.uid)
    (hb : body (s.setGang (g.issued s.clock c f)) (g.issued s.clock c f) sp f.pc =
      ((s.setGang (g.issued s.clock c f)).onGang g.uid upd).trapAt (g.issued s.clock c f) sp cause sub code n ret va) :
    issue i c s body = .next (((s.stopLoops g.uid).loseOpb g.uid).setGang
      { (upd (g.issued s.clock c f)).beginAbort with
        trap := some { trapReq f cause sub code (BitVec.ofNat 5 n) ret va with reg := (upd (g.issued s.clock c f)).region.isSome } }) := by
  have hu := State.gang?_uid h.gang
  rw [issue_next h, hb, State.onGang_setGang s (g.issued s.clock c f) g.uid upd rfl hupd,
    State.trapAt_eq_raise (s := s.setGang _) h.focus (Gang.split?_sid h.split), Gang.issued_uid, State.raise_setGang s hupd hc,
    State.advance_setGang_of_trap _ _ _ (by simp [hupd, hu]) rfl]

theorem exec_accept (c : Ctl) (p : Pred) (prob : Bool) (k : KR) (a : VR) (b : SR) (seg : KR) (s : State) :
    exec (.accept c p prob k a b seg) s = issue (.accept c p prob k a b seg) c s (acceptBody c p prob k a b seg) := rfl

theorem causeOOR_ne_causeXLATE : causeOOR ≠ causeXLATE := by decide

section
variable {c : Ctl} {p : Pred} {prob : Bool} {k seg : KR} {a : VR} {b : SR} {s : State} {f : Focus} {g : Gang} {sp : Split}
  (h : Issues (.accept c p prob k a b seg) c s f g sp)
include h

theorem exec_accept_inRange (hin : ∀ l < 32, g.outOfRange (takes g sp p) a b l = false) :
    exec (.accept c p prob k a b seg) s =
      .next (s.afterAccept f g c (.calc [.kreg k (g.acceptMask (takes g sp p) prob a b seg)])) := by
  rw [exec_accept]
  exact issue_accept h (acceptBody_inRange (g := g.issued s.clock c f) hin)

theorem exec_accept_outOfRange {l : Nat} (hl : g.outOfRange (takes g sp p) a b l = true) (hz : g.oorTrap = false) :
    exec (.accept c p prob k a b seg) s =
      .next (s.afterAccept f g c (.calc [.kreg k (g.acceptMask (takes g sp p) prob a b seg), .gsSet gsDRAFTOOR])) := by
  rw [exec_accept]
  exact issue_accept h (acceptBody_outOfRange (g := g.issued s.clock c f) hl hz)

/-- The trap prevents only the write of K[DST] (R280). -/
theorem exec_accept_traps {l : Nat} (hl : g.outOfRange (takes g sp p) a b l = true)
    (hlow : ∀ i < l, g.outOfRange (takes g sp p) a b i = false) (hz : g.oorTrap = true) :
    ∃ t g' x, exec (.accept c p prob k a b seg) s = .next t ∧ t.gang? g.uid = some g' ∧ g'.trap = some x ∧ x.cause = causeOOR ∧
      x.lane = BitVec.ofNat 5 l ∧ x.ip = f.pc ∧ g'.gstat = g.gstat ||| gsDRAFTOOR ∧ g'.s = g.s ∧ g'.k = g.k ∧ t.ops.length = s.ops.length := by
  have hgang : ((s.stopLoops g.uid).loseOpb g.uid).gang? g.uid = some g := by
    rw [State.gang?_uid h.gang]
    exact h.gang
  rw [exec_accept]
  refine ⟨_, _, _, issue_onGang_trapAt h causeOOR_ne_causeXLATE rfl (acceptBody_traps (g := g.issued s.clock c f) hl hlow hz),
    State.gang?_setGang hgang (Gang.beginAbort_uid _), rfl, rfl, rfl, rfl, Gang.beginAbort_gstat _, Gang.beginAbort_s _, Gang.beginAbort_k _, ?_⟩
  simp [State.stopLoops, State.loseOpb]

end

/-! ### CONFX, APPORT and VRAND (R277, R278, R281, R282) -/

theorem exec_confx (c : Ctl) (p : Pred) (emit : Bool) (k : KR) (a ver : VR) (b : SR) (q : QR) (s : State) :
    exec (.confx c p emit k a b ver q) s = execConfx c p emit k a b ver q s := rfl

theorem exec_apport (c : Ctl) (p : Pred) (d a : VR) (b : SR) (s : State) : exec (.apport c p d a b) s = execApport c p d a b s := rfl

theorem exec_vrand (c : Ctl) (p : Pred) (raw : Bool) (d a : VR) (b : SR) (s : State) :
    exec (.vrand c p raw d a b) s = execVrand c p raw d a b s := rfl

theorem exec_confx_plain {c : Ctl} {p : Pred} {k : KR} {a ver : VR} {b : SR} {q : QR} {s : State} {f : Focus} {g : Gang} {sp : Split}
    (h : Issues (.confx c p false k a b ver q) c s f g sp) :
    exec (.confx c p false k a b ver q) s = .next (s.afterAccept f g c (.calc [.kreg k (maskOf (takes g sp p) fun l =>
      confident (lane (g.vr a.toNat) l).toNat ((g.sr b).extractLsb' 0 32).toNat)])) := by
  rw [exec_confx, execConfx]
  exact issue_accept h rfl

theorem exec_confx_emit {c : Ctl} {p : Pred} {k : KR} {a ver : VR} {b : SR} {q : QR} {s : State} {f : Focus} {g : Gang} {sp : Split}
    (h : Issues (.confx c p true k a b ver q) c s f g sp) {die cfg : Nat} (hq : g.qbfe? q = some (die, cfg)) :
    let m := maskOf (takes g sp p) fun l => confident (lane (g.vr a.toNat) l).toNat ((g.sr b).extractLsb' 0 32).toNat
    let rows := (lanesOf m).map fun l => (l, (lane (g.vr (a.toNat + 1)) l).toNat, (lane (g.vr ver.toNat) l).toNat % 65536)
    exec (.confx c p true k a b ver q) s =
      .next (s.afterAccept f g c (.confx [.kreg k m] die cfg ((g.sr b).extractLsb' 32 8).toNat rows rows.length)) := by
  have hq' : (g.issued s.clock c f).qbfe? q = some (die, cfg) := hq
  intro m rows
  rw [exec_confx, execConfx]
  refine issue_accept h ?_
  simp only [hq']
  rfl

theorem exec_apport_accepts {c : Ctl} {p : Pred} {d a : VR} {b : SR} {s : State} {f : Focus} {g : Gang} {sp : Split}
    (h : Issues (.apport c p d a b) c s f g sp) :
    exec (.apport c p d a b) s = .next (s.afterAccept f g c (.calc [.vreg d (takes g sp p) 0xFFFFFFFF
      (countsIn (lanesOf (takes g sp p)) (apport ((g.sr b).extractLsb' 0 32).toNat
        ((lanesOf (takes g sp p)).map fun l => (lane (g.vr a.toNat) l).toNat)))])) := by
  rw [exec_apport, execApport]
  exact issue_accept h rfl

theorem exec_vrand_accepts {c : Ctl} {p : Pred} {raw : Bool} {d a : VR} {b : SR} {s : State} {f : Focus} {g : Gang} {sp : Split}
    (h : Issues (.vrand c p raw d a b) c s f g sp) :
    exec (.vrand c p raw d a b) s = .next (s.afterAccept f g c (.calc [.vreg d (takes g sp p) 0xFFFFFFFF (mkV fun l =>
      if raw then rawRand (lane (g.vr a.toNat) l) (g.sr b) else unitRand (rawRand (lane (g.vr a.toNat) l) (g.sr b)))])) := by
  rw [exec_vrand, execVrand]
  exact issue_accept h rfl

/-! ### The statement -/

/-- Settles O34: the lanes of CONFX, the run and the trap of ACCEPT, the largest remainders of APPORT, the hash of VRAND. -/
theorem confidenceAndApportionment : Obligations.ConfidenceAndApportionment := by
  unfold Obligations.ConfidenceAndApportionment
  refine ⟨?masks, ?values⟩
  case masks =>
    intro c p prob k seg a ver b q s f g sp t0 m rows col lo hi outside ends pass
    have houtside : ∀ l, outside l ↔ g.outOfRange t0 a b l = true := fun l => by
      simp only [outside, Gang.outOfRange, Bool.and_eq_true, Bool.or_eq_true, decide_eq_true_eq]
      rfl
    have hin : ∀ l, ¬ outside l → g.outOfRange t0 a b l = false := fun l h => by
      rwa [houtside, Bool.not_eq_true] at h
    have hpass : ∀ l, pass l ↔ g.passes t0 prob a b l = true := fun l => by
      simp only [pass, Gang.passes, houtside, Bool.and_eq_true, Bool.not_eq_true', Bool.not_eq_true, and_assoc]
      rfl
    refine ⟨exec_confx_plain, fun h die cfg => exec_confx_emit h, fun h hz => ⟨g.acceptMask t0 prob a b seg, ?_, ?_, ?_⟩, ?_⟩
    · exact fun hall => exec_accept_inRange h fun l hl => hin l (hall l hl)
    · exact fun l hl hout => exec_accept_outOfRange h ((houtside l).mp hout) (hz.resolve_right fun hall => hall l hl hout)
    · intro l hl
      simp only [hpass]
      exact getLsbD_acceptMask g t0 prob a b seg hl
    · exact fun h hz l _ hout hlow => exec_accept_traps h ((houtside l).mp hout) (fun i hi => hin i (hlow i hi)) hz
  case values =>
    intro c p d a b s f g sp
    have hlt : ∀ l ∈ lanesOf (takes g sp p), l < 32 := fun l hl => (mem_lanesOf.mp hl).1
    have hasc := lanesOf_ascending (takes g sp p)
    refine ⟨fun h => ⟨_, exec_apport_accepts h, ?_, ?_, ?_⟩, fun h => exec_vrand_accepts h, fun h => exec_vrand_accepts h⟩
    · exact sum_lane_counts (BitVec.isLt _) hasc hlt
    · exact fun l hl => lane_counts_floor (BitVec.isLt _) hasc hlt hl
    · exact fun l hl j hj => lane_counts_favoured (BitVec.isLt _) hasc hlt hl hj

end Sys2Proof.Machine
end

section
/-! SUPPORT. Which gangs and contexts a step leaves: what a gang's end and a context's kill do to them (R167, R324, R325). -/

namespace Sys2Proof.Machine

/-! ### Gangs and contexts under a replacement -/

theorem State.gang?_eq_none_iff {s : State} {u : Nat} : s.gang? u = none ↔ u ∉ s.gangs.map (·.uid) := by
  rw [State.gang?]
  simp

/-- A change of the gang `u` that keeps its name shows when it is looked up. -/
theorem State.gang?_onGang (s : State) (u : Nat) {f : Gang → Gang} (hf : ∀ g, (f g).uid = g.uid) :
    (s.onGang u f).gang? u = (s.gang? u).map f := by
  have hname : (fun g : Gang => (if g.uid == u then f g else g).uid == u) = fun g => g.uid == u := by
    funext g
    split <;> simp [hf]
  simp only [State.gang?, State.onGang, List.find?_map, Function.comp_def, hname]
  cases hg : s.gangs.find? (·.uid == u) with
  | none => rfl
  | some g =>
    have hu := List.find?_some hg
    simp only [hu, Option.map_some, if_true]

/-- Two changes of one gang are one. -/
theorem State.onGang_onGang (s : State) (u : Nat) {f : Gang → Gang} (h : Gang → Gang) (hf : ∀ g, (f g).uid = g.uid) :
    (s.onGang u f).onGang u h = s.onGang u fun g => h (f g) := by
  simp only [State.onGang, List.map_map, State.mk.injEq, true_and, and_true]
  refine List.map_congr_left fun x _ => ?_
  by_cases hx : x.uid = u <;> simp [hx, hf]

section
variable {s : State} {n : Nat} (hn : n ∈ s.ctxs.map (·.num))
include hn

theorem State.exists_ctx : ∃ c, s.ctxs.find? (·.num == n) = some c ∧ c.num = n := by
  obtain ⟨c, hc, hcn⟩ := List.mem_map.mp hn
  have hsome : (s.ctxs.find? (·.num == n)).isSome := List.find?_isSome.mpr ⟨c, hc, by simpa using hcn⟩
  obtain ⟨d, hd⟩ := Option.isSome_iff_exists.mp hsome
  exact ⟨d, hd, by simpa using List.find?_some hd⟩

theorem State.ctx_num : (s.ctx n).num = n := by
  obtain ⟨c, hc, hcn⟩ := State.exists_ctx hn
  simp [State.ctx, hc, hcn]

/-- The context that a replacement has put in place is found. -/
theorem State.ctx_setCtx {x : Context} (hx : x.num = n) : (s.setCtx x).ctx n = x := by
  obtain ⟨c, hc, -⟩ := State.exists_ctx hn
  have hname : (fun y : Context => (if y.num == x.num then x else y).num == n) = fun y => y.num == n := by
    funext y
    split <;> simp_all
  simp only [State.ctx, State.setCtx, List.find?_map, Function.comp_def, hname, hc]
  simpa [hx] using fun h => absurd (by simpa using List.find?_some hc) h

theorem State.ctx_onCtx {f : Context → Context} (hf : (f (s.ctx n)).num = (s.ctx n).num) : (s.onCtx n f).ctx n = f (s.ctx n) :=
  State.ctx_setCtx hn (hf.trans (State.ctx_num hn))

end

theorem State.setCtx_nums (s : State) (x : Context) : (s.setCtx x).ctxs.map (·.num) = s.ctxs.map (·.num) := by
  simp only [State.setCtx, List.map_map]
  refine List.map_congr_left fun c _ => ?_
  by_cases h : c.num = x.num <;> simp [h]

/-! ### Steps that bring no gang and change no context -/

/-- `t` has the contexts of `s`, and no gang that `s` has not. -/
structure State.Shrinks (s t : State) : Prop where
  ctxs : t.ctxs = s.ctxs
  uids : t.gangs.map (·.uid) ⊆ s.gangs.map (·.uid)

namespace State.Shrinks

variable {s t r : State}

theorem refl (s : State) : s.Shrinks s := ⟨rfl, List.Subset.refl _⟩
theorem trans (h : s.Shrinks t) (k : t.Shrinks r) : s.Shrinks r := ⟨k.ctxs.trans h.ctxs, List.Subset.trans k.uids h.uids⟩

theorem of_eq (hc : t.ctxs = s.ctxs) (hg : t.gangs = s.gangs) : s.Shrinks t := ⟨hc, by simp [hg]⟩

theorem gang?_none (h : s.Shrinks t) {u : Nat} (hu : s.gang? u = none) : t.gang? u = none :=
  State.gang?_eq_none_iff.mpr fun ht => State.gang?_eq_none_iff.mp hu (h.uids ht)

theorem ctx (h : s.Shrinks t) (n : Nat) : t.ctx n = s.ctx n := by simp only [State.ctx, h.ctxs]

theorem foldl {β : Type} {f : State → β → State} (hf : ∀ (s : State) b, s.Shrinks (f s b)) (l : List β) (s : State) : s.Shrinks (l.foldl f s) := by
  induction l generalizing s with
  | nil => exact refl s
  | cons b l ih => exact (hf s b).trans (ih _)

theorem onGang (s : State) (u : Nat) {f : Gang → Gang} (hf : ∀ g, (f g).uid = g.uid) : s.Shrinks (s.onGang u f) := by
  refine ⟨rfl, ?_⟩
  have hname : (fun g : Gang => (if g.uid == u then f g else g).uid) = fun g => g.uid := by
    funext g
    split <;> simp [hf]
  simp only [State.onGang, List.map_map, Function.comp_def, hname]
  exact List.Subset.refl _

theorem onCore (s : State) (d c : Nat) (f : Core → Core) : s.Shrinks (s.onCore d c f) :=
  of_eq (State.setCore_ctxs _ _) (State.setCore_gangs _ _)

theorem onDie (s : State) (d : Nat) (f : Die → Die) : s.Shrinks (s.onDie d f) := of_eq rfl rfl

end State.Shrinks

@[simp] theorem Gang.onPage_uid (g : Gang) (n : Nat) (f : StashPage → StashPage) : (g.onPage n f).uid = g.uid := by
  unfold Gang.onPage
  split <;> rfl

namespace State.Shrinks

variable (s : State)

/-! ### A write-back (R53) -/

theorem touchGated (uid n line : Nat) : s.Shrinks (s.touchGated uid n line) := by
  unfold State.touchGated
  split
  · exact refl s
  · split
    · exact (onCore s _ _ _).trans (onGang _ _ fun g => g.onPage_uid _ _)
    · exact refl s

theorem updateCopy (line : Nat) (bytes : List (Nat × Byte)) (c : CopyRef) : s.Shrinks (s.updateCopy line bytes c) := by
  cases c with
  | l1 d c => exact of_eq rfl rfl
  | l2 d => exact of_eq rfl rfl
  | stash uid n => exact (touchGated s uid n line).trans (onGang _ _ fun g => g.onPage_uid _ _)
  | host => exact of_eq rfl rfl

theorem noteWords (line : Nat) (offs : List Nat) : s.Shrinks (s.noteWords line offs) := by
  unfold State.noteWords
  dsimp only
  split
  · exact refl s
  · exact onDie s _ _

theorem putLine (line : Nat) (bytes : List (Nat × Byte)) : s.Shrinks (s.putLine line bytes) :=
  have hpoke : s.Shrinks (s.poke line bytes) := of_eq rfl rfl
  (hpoke.trans (foldl (fun s c => updateCopy s line bytes c) _ _)).trans (noteWords _ _ _)

theorem writeLine (line : Nat) (bytes : List (Nat × Byte)) : s.Shrinks (s.writeLine line bytes) := by
  unfold State.writeLine
  split
  · have hask : s.Shrinks (s.ask (.snoop line true)) := of_eq rfl rfl
    exact hask.trans (putLine _ _ _)
  · exact putLine s _ _

theorem writeBack (uid n ln : Nat) (dest : StLine) : s.Shrinks (s.writeBack uid n ln dest) := by
  have hmark : ∀ t : State, t.Shrinks _ := fun t => onGang t uid fun g => g.onPage_uid n fun p =>
    { p with lines := insertAt p.lines ln dest, stored := p.stored.filter fun o => o / 128 != ln }
  unfold State.writeBack
  split
  · exact refl s
  · dsimp only
    split
    · split
      · exact (writeLine s _ _).trans (hmark _)
      · exact hmark s
    · split
      · exact refl s
      · exact hmark s

theorem flushPages (uid : Nat) (pages : List Nat) (dest : StLine) (dirtyOnly : Bool) : s.Shrinks (s.flushPages uid pages dest dirtyOnly) := by
  have hline : ∀ (t : State) (n ln : Nat), t.Shrinks (match (t.gang? uid).bind fun g => g.stash[n]? with
      | some p => if dirtyOnly && p.lineState ln != .dirty then t else t.writeBack uid n ln dest
      | none => t) := by
    intro t n ln
    split
    · split
      · exact refl t
      · exact writeBack t _ _ _ _
    · exact refl t
  exact foldl (fun t n => foldl (fun t ln => hline t n ln) _ t) pages s

/-! ### What an owner gives back (R57, R246) -/

theorem respond (p : Pkt) (err : Bool) (aux : BitVec 32) (data : List Nat) (mask : Nat) : s.Shrinks (s.respond p err aux data mask) :=
  of_eq rfl rfl

theorem drainEnd (op : Nat) (pkt : Option Nat) (code : Nat) : s.Shrinks (s.drainEnd op pkt code) := by
  unfold State.drainEnd
  split
  · exact of_eq rfl rfl
  · split
    · exact respond s _ _ _ _ _
    · exact refl s

theorem reap (d c : Nat) : s.Shrinks (s.reap d c) :=
  (onCore s d c _).trans (foldl (fun _ _ => drainEnd _ _ _ _) _ _)

theorem ownerEnds (d c : Nat) (o : Owner) : s.Shrinks (s.ownerEnds d c o) := (onCore s d c _).trans (reap _ d c)

theorem bfeRelease (die idx : Nat) (discard : Bool) : s.Shrinks (s.bfeRelease die idx discard) := of_eq rfl rfl

theorem releaseBound (g : Gang) (discard : Bool) : s.Shrinks (s.releaseBound g discard) := by
  unfold State.releaseBound
  refine trans (foldl ?_ g.q s) (onGang _ _ fun _ => rfl)
  intro t p
  split
  · split
    · exact refl t
    · exact bfeRelease t _ _ _
  · exact refl t

theorem releaseBfes (d c n : Nat) : s.Shrinks (s.releaseBfes d c n) := by
  unfold State.releaseBfes
  refine foldl (fun t x => foldl ?_ _ t) s.dies s
  intro t b
  split
  · exact onDie t _ _
  · exact bfeRelease t _ _ _

theorem endBars (p : Op → Bool) : s.Shrinks (s.endBars p) := of_eq rfl rfl

theorem leaveCohort (uid : Nat) : s.Shrinks (s.leaveCohort uid) := by
  unfold State.leaveCohort
  split
  · exact refl s
  split
  · exact refl s
  extract_lets d c s1 s2 s3
  have hleft : s.Shrinks s3 := (onCore s d c _).trans ((endBars s1 _).trans (onGang s2 uid fun _ => rfl))
  split
  · split
    · exact hleft.trans ((onCore s3 d c _).trans ((ownerEnds _ d c _).trans (releaseBfes _ d c _)))
    · exact hleft
  · exact hleft

/-! ### A gang ends (R15, R167) -/

theorem endGang (uid : Nat) (discard : Bool) : s.Shrinks (s.endGang uid discard) := by
  unfold State.endGang
  split
  · exact refl s
  rename_i g _
  extract_lets d c s1 unset s2 s3 s4 s5 s6 s7 s8
  have h1 : s.Shrinks s1 := trans (of_eq rfl rfl : s.Shrinks (s.settleStash uid)) (flushPages _ _ _ _ _)
  have h4 : s1.Shrinks s4 := trans (of_eq rfl rfl : s1.Shrinks s3) (releaseBound s3 g discard)
  have h5 : s4.Shrinks s5 := by
    simp only [s5]
    split
    · split
      · exact refl s4
      · exact onCore s4 d c _
    · exact refl s4
  have h7 : s5.Shrinks s7 := (leaveCohort s5 uid).trans (foldl (fun t k => ownerEnds t _ _ _) _ s6)
  have h8 : s7.Shrinks s8 := by
    simp only [s8]
    split
    · exact onCore s7 d c _
    · exact refl s7
  have h9 : s8.Shrinks { s8 with gangs := s8.gangs.filter fun x => x.uid != uid } :=
    ⟨rfl, List.map_subset _ fun _ hx => (List.mem_filter.mp hx).1⟩
  exact h1.trans (h4.trans (h5.trans (h7.trans (h8.trans h9))))

end State.Shrinks

theorem State.gang?_endGang (s : State) (uid : Nat) (discard : Bool) : (s.endGang uid discard).gang? uid = none := by
  unfold State.endGang
  split
  · assumption
  · extract_lets
    simp [State.gang?]

/-! ### A context is killed (R324, R325) -/

/-- The named gangs end one after another, as at the kill of their context. -/
def State.endGangs (s : State) (us : List Nat) : State :=
  us.foldl (fun (s : State) u => (s.onGang u fun g => { g with region := none }).endGang u true) s

theorem State.Shrinks.endGangs (s : State) (us : List Nat) : s.Shrinks (s.endGangs us) :=
  foldl (fun t u => (onGang t u (f := fun g => { g with region := none }) fun _ => rfl).trans (endGang _ u true)) us s

theorem State.gang?_endGangs {us : List Nat} {u : Nat} (hu : u ∈ us) (s : State) : (s.endGangs us).gang? u = none := by
  induction us generalizing s with
  | nil => simp at hu
  | cons x us ih =>
    rcases List.mem_cons.mp hu with rfl | hu
    · exact (Shrinks.endGangs _ us).gang?_none (State.gang?_endGang _ u true)
    · exact ih hu _

section
variable {s : State} {n : Nat} (hk : (s.ctx n).killed = false)
include hk

/-- What the first kill event of a context leaves in its registers. -/
theorem State.ctx_killContext (hn : n ∈ s.ctxs.map (·.num)) (bits : W64) (snap : List W64) :
    (s.killContext n bits snap).ctx n =
      { s.ctx n with killed := true, ksnap := snap, faults := [], handlers := [], err := (s.ctx n).err ||| bits } := by
  unfold State.killContext
  extract_lets c s1 out mine s2 s3 s4 s5 s6 s7 s8 s9 s10
  rw [if_neg (by simp [c, hk])]
  have hmarked : s1.ctx n = { c with killed := true, ksnap := snap, faults := [], handlers := [] } := State.ctx_setCtx hn (State.ctx_num hn)
  have hended : s1.Shrinks s9 :=
    (Shrinks.of_eq rfl rfl : s1.Shrinks s2).trans ((Shrinks.endGangs s2 mine).trans (Shrinks.of_eq rfl rfl : s3.Shrinks s9))
  have hn9 : n ∈ s9.ctxs.map (·.num) := by
    rw [hended.ctxs, State.setCtx_nums]
    exact hn
  change s10.ctx n = _
  rw [State.ctx_onCtx hn9 rfl, hended.ctx, hmarked]

/-- Every gang of the context has ended. -/
theorem State.gang?_killContext {u : Nat} {g : Gang} (hg : s.gang? u = some g) (hgn : g.ctx = n) (bits : W64) (snap : List W64) :
    (s.killContext n bits snap).gang? u = none := by
  unfold State.killContext
  extract_lets c s1 out mine s2 s3 s4 s5 s6 s7 s8 s9 s10
  rw [if_neg (by simp [c, hk])]
  have hmine : u ∈ mine := List.mem_map.mpr ⟨g, List.mem_filter.mpr ⟨List.mem_of_find?_eq_some hg, by simpa using hgn⟩, State.gang?_uid hg⟩
  exact State.gang?_endGangs hmine s2

end

end Sys2Proof.Machine
end

section
/-! A cause is taken (R317 to R319): what waits, what parks, what kills the context, what enters a handler, and the statement O18. -/

namespace Sys2Proof.Machine

/-! ### Registers of a gang -/

@[simp] theorem Gang.sr_setS_same (g : Gang) (r : SR) (v : W64) : (g.setS r v).sr r = v := by
  simp [Gang.sr, Gang.setS, Vector.getD, r.isLt]

theorem Gang.sr_setS_other (g : Gang) {r x : SR} (h : x ≠ r) (v : W64) : (g.setS r v).sr x = g.sr x := by
  have hne : r.toNat ≠ x.toNat := fun e => h (BitVec.eq_of_toNat_eq e.symm)
  simp [Gang.sr, Gang.setS, Vector.getD, hne]

@[simp] theorem Gang.tregs_setTregs_same (g : Gang) (l : Nat) (t : TrapRegs) : (g.setTregs l t).tregs l = t := by
  unfold Gang.tregs Gang.setTregs
  split <;> rfl

/-- The trap registers of TL1 and of TL2 are apart. -/
theorem Gang.tregs_setTregs_other (g : Gang) {l m : Nat} (h : (l = 1) ≠ (m = 1)) (t : TrapRegs) : (g.setTregs l t).tregs m = g.tregs m := by
  unfold Gang.tregs Gang.setTregs
  by_cases hl : l = 1 <;> by_cases hm : m = 1 <;> simp_all

/-! ### The snapshot of a region comes back (R30) -/

/-- The split as it stood at the head of the region. -/
def Region.atHead (r : Region) (x : Split) : Split := { x with exec := r.snapE, fmt := r.snapF, pc := r.head, latch := none, chk := 1 }

theorem Gang.restore_of_none {g : Gang} (h : g.region = none) (sid : Nat) : g.restore sid = g := by simp [Gang.restore, h]

theorem Gang.restore_of_some {g : Gang} {r : Region} (h : g.region = some r) (sid : Nat) :
    g.restore sid = ({ g with region := none, s := r.snapS, k := r.snapK } : Gang).onSplit sid r.atHead := by
  simp only [Gang.restore, h]
  rfl

theorem Gang.restore_s {g : Gang} {r : Region} (h : g.region = some r) (sid : Nat) : (g.restore sid).s = r.snapS := by
  rw [Gang.restore_of_some h]
  rfl

theorem Gang.restore_k {g : Gang} {r : Region} (h : g.region = some r) (sid : Nat) : (g.restore sid).k = r.snapK := by
  rw [Gang.restore_of_some h]
  rfl

@[simp] theorem Gang.restore_uid (g : Gang) (sid : Nat) : (g.restore sid).uid = g.uid := by unfold Gang.restore; split <;> rfl
@[simp] theorem Gang.restore_ctx (g : Gang) (sid : Nat) : (g.restore sid).ctx = g.ctx := by unfold Gang.restore; split <;> rfl
@[simp] theorem Gang.restore_tl (g : Gang) (sid : Nat) : (g.restore sid).tl = g.tl := by unfold Gang.restore; split <;> rfl
@[simp] theorem Gang.restore_v (g : Gang) (sid : Nat) : (g.restore sid).v = g.v := by unfold Gang.restore; split <;> rfl
@[simp] theorem Gang.restore_fc (g : Gang) (sid : Nat) : (g.restore sid).fc = g.fc := by unfold Gang.restore; split <;> rfl
@[simp] theorem Gang.restore_fpstat (g : Gang) (sid : Nat) : (g.restore sid).fpstat = g.fpstat := by unfold Gang.restore; split <;> rfl
@[simp] theorem Gang.restore_gstat (g : Gang) (sid : Nat) : (g.restore sid).gstat = g.gstat := by unfold Gang.restore; split <;> rfl
@[simp] theorem Gang.restore_trapen (g : Gang) (sid : Nat) : (g.restore sid).trapen = g.trapen := by unfold Gang.restore; split <;> rfl
@[simp] theorem Gang.restore_tregs (g : Gang) (sid l : Nat) : (g.restore sid).tregs l = g.tregs l := by unfold Gang.restore; split <;> rfl
@[simp] theorem Gang.restore_region (g : Gang) (sid : Nat) : (g.restore sid).region = none := by
  cases h : g.region with
  | none => rw [Gang.restore_of_none h, h]
  | some r => rw [Gang.restore_of_some h]; rfl

theorem Gang.split?_onSplit (g : Gang) (n : Nat) {f : Split → Split} (hf : ∀ x, (f x).sid = x.sid) :
    (g.onSplit n f).split? n = (g.split? n).map f := by
  have hname : (fun x : Split => (if x.sid == n then f x else x).sid == n) = fun x => x.sid == n := by
    funext x
    split <;> simp [hf]
  simp only [Gang.split?, Gang.onSplit, List.find?_map, Function.comp_def, hname]
  cases hx : g.table.find? (·.sid == n) with
  | none => rfl
  | some x =>
    have hs := List.find?_some hx
    simp only [hs, Option.map_some, if_true]

theorem State.gang?_restore {s : State} {u : Nat} {g : Gang} (hg : s.gang? u = some g) (sid : Nat) :
    (s.onGang u fun g => g.restore sid).gang? u = some (g.restore sid) := by
  rw [State.gang?_onGang s u fun x => x.restore_uid sid, hg]
  rfl

/-! ### What the gang becomes (R319) -/

/-- The split stands at the handler: all lanes, FMT zero, a transfer-target check owed. -/
def Split.atVector (vec : W64) (x : Split) : Split := { x with exec := 0xFFFFFFFF, fmt := 0, pc := vec, latch := none, chk := 2 }

theorem statWord_false (fmt : BitVec 16) (exec : W32) : statWord false fmt exec = 0#16 ++ fmt ++ exec := rfl
theorem statWord_true (fmt : BitVec 16) (exec : W32) : statWord true fmt exec = 0#15 ++ 1#1 ++ fmt ++ exec := rfl

/-- The trap registers that an entry leaves. -/
def Gang.entryRegs (g : Gang) (l : Nat) (q : TrapReq) (sp : Split) : TrapRegs :=
  { g.tregs l with
    cause := q.word, ip := q.ip, ret := if q.reg then sp.pc else q.ret, va := q.va, stat := statWord q.reg sp.fmt sp.exec, scr := g.sr 63 }

theorem Gang.entryRegs_open (g : Gang) (l : Nat) (sp : Split) {q : TrapReq} (h : q.reg = false) :
    g.entryRegs l q sp = { cause := q.word, ret := q.ret, va := q.va, save := (g.tregs l).save, stat := 0#16 ++ sp.fmt ++ sp.exec, scr := g.sr 63, ip := q.ip } := by
  simp only [Gang.entryRegs, h, ← statWord_false, Bool.false_eq_true, if_false]

theorem Gang.entryRegs_region (g : Gang) (l : Nat) (sp : Split) {q : TrapReq} (h : q.reg = true) :
    g.entryRegs l q sp =
      { cause := q.word, ret := sp.pc, va := q.va, save := (g.tregs l).save, stat := 0#15 ++ 1#1 ++ sp.fmt ++ sp.exec, scr := g.sr 63, ip := q.ip } := by
  simp only [Gang.entryRegs, h, ← statWord_true, if_true]

/-- The gang once it has entered level `l` for `q`, raised by its split `sp`. -/
def Gang.entered (g : Gang) (l : Nat) (q : TrapReq) (vec : W64) (sp : Split) : Gang :=
  let t := g.entryRegs l q sp
  let g := (g.setTregs l t).setS 63 t.save
  { g with
    tl := l, trap := none, move := q.moves l g.move
    owed := (l, t.ret, if t.ret == sp.pc then sp.chk else 0) :: g.owed.filter (·.1 != l)
    turn := (g.turn.filter (· != q.sid)) ++ [q.sid]
    table := g.table.map fun x => if x.sid == q.sid then x.atVector vec else x }

/-- The same, with nothing done where no split has the name. -/
def Gang.enter (g : Gang) (l : Nat) (q : TrapReq) (vec : W64) : Gang :=
  match g.split? q.sid with
  | none => g
  | some sp => g.entered l q vec sp

section
variable (g : Gang) (l : Nat) (q : TrapReq) (vec : W64) (sp : Split)

@[simp] theorem Gang.setTregs_uid (t : TrapRegs) : (g.setTregs l t).uid = g.uid := by unfold Gang.setTregs; split <;> rfl
@[simp] theorem Gang.setTregs_sr (t : TrapRegs) (r : SR) : (g.setTregs l t).sr r = g.sr r := by unfold Gang.setTregs; split <;> rfl
@[simp] theorem Gang.setTregs_k (t : TrapRegs) : (g.setTregs l t).k = g.k := by unfold Gang.setTregs; split <;> rfl
@[simp] theorem Gang.setTregs_v (t : TrapRegs) : (g.setTregs l t).v = g.v := by unfold Gang.setTregs; split <;> rfl
@[simp] theorem Gang.setTregs_fc (t : TrapRegs) : (g.setTregs l t).fc = g.fc := by unfold Gang.setTregs; split <;> rfl
@[simp] theorem Gang.setTregs_fpstat (t : TrapRegs) : (g.setTregs l t).fpstat = g.fpstat := by unfold Gang.setTregs; split <;> rfl
@[simp] theorem Gang.setTregs_gstat (t : TrapRegs) : (g.setTregs l t).gstat = g.gstat := by unfold Gang.setTregs; split <;> rfl
@[simp] theorem Gang.setTregs_trapen (t : TrapRegs) : (g.setTregs l t).trapen = g.trapen := by unfold Gang.setTregs; split <;> rfl
@[simp] theorem Gang.setTregs_region (t : TrapRegs) : (g.setTregs l t).region = g.region := by unfold Gang.setTregs; split <;> rfl
@[simp] theorem Gang.setTregs_table (t : TrapRegs) : (g.setTregs l t).table = g.table := by unfold Gang.setTregs; split <;> rfl

@[simp] theorem Gang.entered_uid : (g.entered l q vec sp).uid = g.uid := Gang.setTregs_uid ..
@[simp] theorem Gang.entered_tl : (g.entered l q vec sp).tl = l := rfl
@[simp] theorem Gang.entered_trap : (g.entered l q vec sp).trap = none := rfl
@[simp] theorem Gang.entered_k : (g.entered l q vec sp).k = g.k := Gang.setTregs_k ..
@[simp] theorem Gang.entered_v : (g.entered l q vec sp).v = g.v := Gang.setTregs_v ..
@[simp] theorem Gang.entered_fc : (g.entered l q vec sp).fc = g.fc := Gang.setTregs_fc ..
@[simp] theorem Gang.entered_fpstat : (g.entered l q vec sp).fpstat = g.fpstat := Gang.setTregs_fpstat ..
@[simp] theorem Gang.entered_gstat : (g.entered l q vec sp).gstat = g.gstat := Gang.setTregs_gstat ..
@[simp] theorem Gang.entered_trapen : (g.entered l q vec sp).trapen = g.trapen := Gang.setTregs_trapen ..
@[simp] theorem Gang.entered_region : (g.entered l q vec sp).region = g.region := Gang.setTregs_region ..

theorem Gang.entered_sr63 : (g.entered l q vec sp).sr 63 = (g.tregs l).save := Gang.sr_setS_same _ _ _

theorem Gang.entered_sr {r : SR} (h : r ≠ 63) : (g.entered l q vec sp).sr r = g.sr r :=
  (Gang.sr_setS_other _ h _).trans (Gang.setTregs_sr ..)

@[simp] theorem Gang.entered_tregs : (g.entered l q vec sp).tregs l = g.entryRegs l q sp := Gang.tregs_setTregs_same g l _

theorem Gang.entered_tregs_other {m : Nat} (h : (l = 1) ≠ (m = 1)) : (g.entered l q vec sp).tregs m = g.tregs m :=
  Gang.tregs_setTregs_other g h _

theorem Gang.entered_table : (g.entered l q vec sp).table = g.table.map fun x => if x.sid == q.sid then x.atVector vec else x :=
  congrArg (List.map _) (Gang.setTregs_table ..)

theorem Gang.enter_uid : (g.enter l q vec).uid = g.uid := by
  unfold Gang.enter
  split
  · rfl
  · exact Gang.entered_uid ..

end

/-! ### A cause is taken (R318, R319) -/

/-- The counters have settled, in a region are zero, and no save area is to be read. -/
def Gang.mayTake (g : Gang) : Bool := g.move != .toRead && (if g.region.isSome then g.quiet else g.settled)

/-- TVEC of the level above the gang's. -/
def State.vector (s : State) (g : Gang) : W64 := if g.tl = 0 then (s.ctx g.ctx).tvec1 else (s.ctx g.ctx).tvec2

theorem not_instrAddr_iff {x : W64} : ¬ instrAddr x ↔ ((slotOf x).isNone || decide (x.toNat ≥ lwin)) = true := by
  cases h : slotOf x <;> simp [instrAddr, h]

section
variable {s : State} {g : Gang} {q : TrapReq} (hg : s.gang? g.uid = some g) (hq : g.trap = some q)
include hg hq

theorem State.takeTrap_waits (hr : g.mayTake = false) : s.takeTrap g.uid = s := by
  rw [Gang.mayTake] at hr
  simp [State.takeTrap, hg, hq, hr]

variable (hr : g.mayTake = true)
include hr

theorem State.takeTrap_parks (h0 : g.tl = 0) (hc : q.cause = causeXLATE) :
    s.takeTrap g.uid = (s.onGang g.uid fun g => g.restore q.sid).park g.uid q.sid q.va q.sub := by
  rw [Gang.mayTake] at hr
  simp [State.takeTrap, hg, hq, hr, h0, hc]

theorem State.takeTrap_kills_tl2 (h2 : g.tl = 2) :
    s.takeTrap g.uid = (s.onGang g.uid fun g => g.restore q.sid).killContext g.ctx (errTL2F ||| (q.cause.setWidth 64 <<< 16))
      ((s.onGang g.uid fun g => g.restore q.sid).snapshot g (q.cause.setWidth 64) q.ip q.va) := by
  rw [Gang.mayTake] at hr
  simp [State.takeTrap, hg, hq, hr, h2]

variable (hl : g.tl < 2) (hx : ¬ (g.tl = 0 ∧ q.cause = causeXLATE))
include hl hx

/-- A cause that neither parks nor stands at TL2 looks at the vector. -/
theorem State.takeTrap_at_vector :
    s.takeTrap g.uid =
      if s.vector g == 0 || (slotOf (s.vector g)).isNone || (s.vector g).toNat ≥ lwin then
        (s.onGang g.uid fun g => g.restore q.sid).killContext g.ctx errHVEC
          ((s.onGang g.uid fun g => g.restore q.sid).snapshot g (q.cause.setWidth 64) q.ip q.va)
      else s.onGang g.uid fun x => (x.restore q.sid).enter (g.tl + 1) q (s.vector g) := by
  have hparks : (g.tl == 0 && q.cause == causeXLATE) = false := by simpa using hx
  have htl2 : ¬ g.tl ≥ 2 := Nat.not_le.mpr hl
  have hvec : (if g.tl + 1 == 1 then (s.ctx g.ctx).tvec1 else (s.ctx g.ctx).tvec2) = s.vector g := by simp [State.vector]
  have hready : (g.move != .toRead && (if g.region.isSome then g.quiet else g.settled)) = true := hr
  rw [← State.onGang_onGang s g.uid (fun x => x.enter (g.tl + 1) q (s.vector g)) fun x => x.restore_uid q.sid, ← hvec]
  simp only [State.takeTrap, hg, hq, hready, hparks, if_neg htl2]
  rfl

theorem State.takeTrap_kills_vector (hv : s.vector g = 0 ∨ ¬ instrAddr (s.vector g)) :
    s.takeTrap g.uid = (s.onGang g.uid fun g => g.restore q.sid).killContext g.ctx errHVEC
      ((s.onGang g.uid fun g => g.restore q.sid).snapshot g (q.cause.setWidth 64) q.ip q.va) := by
  rw [State.takeTrap_at_vector hg hq hr hl hx, if_pos]
  rw [Bool.or_assoc, Bool.or_eq_true]
  exact hv.imp beq_iff_eq.mpr not_instrAddr_iff.mp

theorem State.takeTrap_enters (h0 : s.vector g ≠ 0) (hv : instrAddr (s.vector g)) :
    s.takeTrap g.uid = s.onGang g.uid fun x => (x.restore q.sid).enter (g.tl + 1) q (s.vector g) := by
  rw [State.takeTrap_at_vector hg hq hr hl hx, if_neg]
  rw [Bool.or_assoc, Bool.or_eq_true, beq_iff_eq, ← not_instrAddr_iff]
  exact not_or.mpr ⟨h0, not_not_intro hv⟩

end

/-! ### The gang parks (R318, R352) -/

@[simp] theorem State.enterFault_mem (s : State) (ctx va : Nat) (k : AccKind) : (s.enterFault ctx va k).mem = s.mem := by
  unfold State.enterFault
  dsimp only
  split
  · rfl
  · split
    · rfl
    · split <;> rfl

@[simp] theorem State.enterFault_gangs (s : State) (ctx va : Nat) (k : AccKind) : (s.enterFault ctx va k).gangs = s.gangs := by
  unfold State.enterFault
  dsimp only
  split
  · rfl
  · split
    · rfl
    · split <;> rfl

/-- The gang in PARKED-FAULT, with the translation it waits for. -/
def Gang.parked (g : Gang) (sid : Nat) (va : W64) (acc : BitVec 8) : Gang :=
  { g with status := .parkedFault, retry := false, pfAcc := some (va, acc.setWidth 2), pfSid := sid, trap := none }

theorem State.park_parks {s : State} {u : Nat} {g : Gang} (hg : s.gang? u = some g) (sid : Nat) (va : W64) (acc : BitVec 8) :
    (s.park u sid va acc).gang? u = some (g.parked sid va acc) ∧ (s.park u sid va acc).mem = s.mem := by
  have hgang : (s.onGang u fun g => g.parked sid va acc).gang? u = some (g.parked sid va acc) := by
    rw [State.gang?_onGang s u (f := fun g => g.parked sid va acc) fun _ => rfl, hg]
    rfl
  simp only [State.park, hg]
  refine ⟨?_, State.enterFault_mem ..⟩
  rw [State.gang?, State.enterFault_gangs]
  exact hgang

/-! ### The statement -/

theorem exec_trapEntry {s : State} {g : Gang} (h : s.gangAt g.loc = some g) : exec (.trapEntry g.loc) s = .next (s.takeTrap g.uid) := by
  show execTrapEntry g.loc s = _
  simp [execTrapEntry, h]

theorem State.onlyGangs_onGang (s : State) (u : Nat) (f : Gang → Gang) : s.onlyGangs (s.onGang u f) := rfl

theorem Gang.mayIssue_of_trap {g : Gang} {q : TrapReq} (h : g.trap = some q) : g.mayIssue = false := by simp [Gang.mayIssue, h]

theorem Gang.split?_restore {g : Gang} {r : Region} (hr : g.region = some r) {n : Nat} {sp : Split} (hsp : g.split? n = some sp) :
    (g.restore n).split? n = some (r.atHead sp) := by
  rw [Gang.restore_of_some hr, Gang.split?_onSplit]
  · exact congrArg (Option.map _) hsp
  · exact fun _ => rfl

theorem Gang.table_restore {g : Gang} {r : Region} (hr : g.region = some r) (n : Nat) :
    (g.restore n).table = g.table.map fun x => if x.sid = n then r.atHead x else x := by
  simp [Gang.restore_of_some hr, Gang.onSplit]

/-- Standing at the head or not, the split then stands at the handler. -/
theorem Gang.table_entered_restore (g : Gang) (l : Nat) (q : TrapReq) (vec : W64) (sp : Split) :
    ((g.restore q.sid).entered l q vec sp).table = g.table.map fun x => if x.sid = q.sid then x.atVector vec else x := by
  rw [Gang.entered_table]
  simp only [beq_iff_eq]
  cases hr : g.region with
  | none => rw [Gang.restore_of_none hr]
  | some r =>
    rw [Gang.table_restore hr, List.map_map]
    refine List.map_congr_left fun x _ => ?_
    by_cases hx : x.sid = q.sid <;> simp [hx, Split.atVector, Region.atHead]

/-- A cause that kills the context leaves it killed, with these bits, and the gang ended. -/
theorem exec_trapEntry_kills {s : State} {g : Gang} {q : TrapReq} {bits : W64} {snap : List W64}
    (hat : s.gangAt g.loc = some g) (hg : s.gang? g.uid = some g)
    (hkill : s.takeTrap g.uid = (s.onGang g.uid fun g => g.restore q.sid).killContext g.ctx bits snap)
    (hn : g.ctx ∈ s.ctxs.map (·.num)) (hk : (s.ctx g.ctx).killed = false) :
    ∃ t, exec (.trapEntry g.loc) s = .next t ∧ (t.ctx g.ctx).killed = true ∧ t.gang? g.uid = none ∧
      (t.ctx g.ctx).err = (s.ctx g.ctx).err ||| bits := by
  have hctx := State.ctx_killContext (s := s.onGang g.uid fun g => g.restore q.sid) hk hn bits snap
  have hexec := exec_trapEntry hat
  rw [hkill] at hexec
  refine ⟨_, hexec, by rw [hctx], ?_, ?_⟩
  · exact State.gang?_killContext (s := s.onGang g.uid fun g => g.restore q.sid) hk (State.gang?_restore hg q.sid) (g.restore_ctx q.sid) bits snap
  · rw [hctx]
    rfl

section
variable {s : State} {g : Gang} {q : TrapReq} (hat : s.gangAt g.loc = some g) (hg : s.gang? g.uid = some g) (hq : g.trap = some q)
include hat hg hq

theorem exec_trapEntry_waits (hr : g.mayTake = false) : exec (.trapEntry g.loc) s = .next s := by
  rw [exec_trapEntry hat, State.takeTrap_waits hg hq hr]

variable (hr : g.mayTake = true)
include hr

/-- The entry: the device but for the gang is as it was, and the gang has entered. -/
theorem exec_trapEntry_enters (hl : g.tl < 2) (hx : ¬ (g.tl = 0 ∧ q.cause = causeXLATE)) (h0 : s.vector g ≠ 0) (hv : instrAddr (s.vector g))
    {sp : Split} (hsp : (g.restore q.sid).split? q.sid = some sp) :
    ∃ t, exec (.trapEntry g.loc) s = .next t ∧ t.gang? g.uid = some ((g.restore q.sid).entered (g.tl + 1) q (s.vector g) sp) ∧
      s.onlyGangs t ∧ t.ops = s.ops := by
  refine ⟨_, by rw [exec_trapEntry hat, State.takeTrap_enters hg hq hr hl hx h0 hv], ?_, State.onlyGangs_onGang .., rfl⟩
  rw [State.gang?_onGang s g.uid fun x => (Gang.enter_uid ..).trans (x.restore_uid q.sid), hg]
  simp [Gang.enter, hsp]

theorem exec_trapEntry_parks (h0 : g.tl = 0) (hc : q.cause = causeXLATE) :
    ∃ t, exec (.trapEntry g.loc) s = .next t ∧ t.gang? g.uid = some ((g.restore q.sid).parked q.sid q.va q.sub) ∧ t.mem = s.mem := by
  obtain ⟨hgang, hmem⟩ := State.park_parks (State.gang?_restore hg q.sid) q.sid q.va q.sub
  exact ⟨_, by rw [exec_trapEntry hat, State.takeTrap_parks hg hq hr h0 hc], hgang, hmem⟩

end

/-- Settles O18: the restored gang enters, parks, or ends with its context, and until its counters have settled nothing happens. -/
theorem trapEntry : Obligations.TrapEntry := by
  unfold Obligations.TrapEntry
  refine ⟨?entry, ?others⟩
  case entry =>
    intro s g sp q hat hg hq hsp hl hx hm vec old word enters
    have hlevels : (g.tl + 1 = 1) ≠ (g.tl = 1) := by
      have : g.tl = 0 ∨ g.tl = 1 := by omega
      rcases this with h | h <;> simp [h]
    have henters : ∀ (x : Split) (t : State), t.gang? g.uid = some ((g.restore q.sid).entered (g.tl + 1) q vec x) → s.onlyGangs t →
        t.ops = s.ops → enters t ((g.restore q.sid).entered (g.tl + 1) q vec x) := by
      intro x t hgang honly hops
      refine ⟨hgang, honly, hops, rfl, rfl, (Gang.entered_sr63 ..).trans (congrArg _ (g.restore_tregs ..)), ?_⟩
      simp [Gang.entered_tregs_other _ _ q vec x hlevels]
    refine ⟨Gang.mayIssue_of_trap hq, ?_, ?_, fun h0 hv => ⟨?_, ?_⟩⟩
    · intro hnone hwait
      exact exec_trapEntry_waits hat hg hq (by simp [Gang.mayTake, hnone, hwait])
    · intro hsome hwait
      exact exec_trapEntry_waits hat hg hq (by simp [Gang.mayTake, Option.isSome_iff_ne_none.mpr hsome, hwait])
    · intro hnone hreg hsettled
      have hback := Gang.restore_of_none hnone q.sid
      obtain ⟨t, hexec, hgang, honly, hops⟩ := exec_trapEntry_enters hat hg hq (by simp [Gang.mayTake, hm, hnone, hsettled]) hl hx h0 hv
        (hback.symm ▸ hsp)
      refine ⟨t, _, hexec, henters sp t hgang honly hops, fun r hr => ?_, ?_, ?_, Gang.table_entered_restore ..⟩
      · rw [Gang.entered_sr _ _ _ _ _ hr, hback]
      · rw [Gang.entered_k, hback]
      · rw [Gang.entered_tregs, hback, Gang.entryRegs_open _ _ _ hreg]
        rfl
    · intro r hr hreg hquiet
      obtain ⟨t, hexec, hgang, honly, hops⟩ := exec_trapEntry_enters hat hg hq (by simp [Gang.mayTake, hm, hr, hquiet]) hl hx h0 hv
        (Gang.split?_restore hr hsp)
      refine ⟨t, _, hexec, henters _ t hgang honly hops, ?_, fun x hx => ?_, ?_, ?_, Gang.table_entered_restore ..⟩
      · rw [Gang.entered_region, Gang.restore_region]
      · rw [Gang.entered_sr _ _ _ _ _ hx, Gang.sr, Gang.restore_s hr]
      · rw [Gang.entered_k, Gang.restore_k hr]
      · rw [Gang.entered_tregs, Gang.entryRegs_region _ _ _ hreg, Gang.restore_tregs, Gang.sr, Gang.restore_s hr]
        rfl
  case others =>
    intro s g sp q hat hg hq hsp hm hopen hregion
    have hr : g.mayTake = true := by
      cases h : g.region with
      | none => simp [Gang.mayTake, hm, h, hopen h]
      | some r => simp [Gang.mayTake, hm, h, hregion (by simp [h])]
    refine ⟨fun h0 hc => ?_, fun hn hk => ⟨fun h2 => ?_, fun hl hx hv => ?_⟩⟩
    · obtain ⟨t, hexec, hgang, hmem⟩ := exec_trapEntry_parks hat hg hq hr h0 hc
      refine ⟨t, _, hexec, hgang, rfl, rfl, (g.restore_tl q.sid).trans h0, g.restore_region q.sid, hmem, fun hnone => ?_, fun r hr => ?_⟩
      · simp [Gang.parked, Gang.restore_of_none hnone]
      · exact ⟨Gang.restore_s hr q.sid, Gang.restore_k hr q.sid, g.restore_v q.sid, Gang.table_restore hr q.sid⟩
    · rw [BitVec.or_assoc]
      exact exec_trapEntry_kills hat hg (State.takeTrap_kills_tl2 hg hq hr h2) hn hk
    · exact exec_trapEntry_kills hat hg (State.takeTrap_kills_vector hg hq hr hl hx hv) hn hk

end Sys2Proof.Machine
end

section
/-! SUPPORT. Page tables: the entry a level reads, the three ways on from it (R344, R346), and the bits of a leaf that an answer looks at (R347). -/

namespace Sys2Proof.Machine

/-! ### Entries -/

theorem pteDev_ne_zero_iff (e : W64) : pteDev e ≠ 0 ↔ e.extractLsb' 52 12 ≠ 0 := by
  exact BitVec.toNat_ne_iff_ne (y := 0)

/-- The list of R346, as `malformed` tests it. -/
theorem malformed_iff (e : W64) (n : Nat) :
    malformed e n = true ↔ (pteL e = true ∧ n = 3) ∨ (pteL e = false ∧ n = 0) ∨ (pteL e = true ∧ pteFrame e % 2 ^ lvlBits n ≠ 0) ∨
      (pteL e = false ∧ (e.extractLsb' 2 9 ≠ 0 ∨ e.extractLsb' 52 12 ≠ 0)) ∨ (ptePeer e = true ∧ (pteHost e = true ∨ pteNC e = true)) ∨
      (e.extractLsb' 52 12 ≠ 0 ∧ ptePeer e = false) ∨ e.getLsbD 11 = true := by
  simp only [malformed, Bool.or_eq_true, Bool.and_eq_true, Bool.not_eq_true', beq_iff_eq, bne_iff_ne, pteDev_ne_zero_iff, or_assoc]

/-- Only a PROMOTABLE leaf of the device that is neither NC nor MIG counts (R346, Table 20.4). -/
theorem promOk_eq_false {e : W64} (h : ptePeer e = true ∨ pteHost e = true ∨ pteNC e = true ∨ pteMig e = true) : promOk e = false := by
  rcases h with h | h | h | h <;> simp [promOk, h]

/-- The frame of an entry changes with bits 12 to 51 alone. -/
theorem pteFrame_xor {m : W64} (h : m.extractLsb' 12 40 = 0) (e : W64) : pteFrame (e ^^^ m) = pteFrame e := by
  simp only [pteFrame, BitVec.extractLsb'_xor, h, BitVec.ofNat_eq_ofNat, BitVec.xor_zero]

/-- The bits of a leaf that decide an answer whatever the access, R, W, X, PEER, HOST and ADDR, are clear in `m`. -/
def clearOfAccess (m : W64) : Bool :=
  !pteR m && !pteW m && !pteX m && !ptePeer m && !pteHost m && m.extractLsb' 12 40 == 0

/-! ### The walk -/

/-- The entry that level `n` reads of the table at `t` (R344). -/
def State.tableEntry (s : State) (va n t : Nat) : W64 := BitVec.ofNat 64 (memNat s.mem (t + 8 * (va / 2 ^ lvlBits n % 512)) 8)

/-- VA[24 + 9n : 16 + 9n] is the index of the model's walk, for an address of 52 bits (R62, R344). -/
theorem vaIndex_eq {va : Nat} (h : va < 2 ^ 52) (n : Nat) :
    ((BitVec.ofNat 64 va).extractLsb' (16 + 9 * n) 9).toNat = va / 2 ^ lvlBits n % 512 := by
  have hlt : va < 2 ^ 64 := by omega
  rw [BitVec.extractLsb'_toNat, BitVec.toNat_ofNat, Nat.mod_eq_of_lt hlt, Nat.shiftRight_eq_div_pow, lvlBits]

section
variable {s : State} {ten va n t : Nat}

theorem State.walkFrom_fault (h : pteV (s.tableEntry va n t) = false ∨ malformed (s.tableEntry va n t) n = true) :
    s.walkFrom ten va n t = none := by
  unfold State.tableEntry at h
  rw [State.walkFrom.eq_def]
  rcases h with h | h <;> simp [h]

theorem State.walkFrom_leaf (hv : pteV (s.tableEntry va n t) = true) (hm : malformed (s.tableEntry va n t) n = false)
    (hl : pteL (s.tableEntry va n t) = true) : s.walkFrom ten va n t = some (n, s.tableEntry va n t) := by
  unfold State.tableEntry at *
  rw [State.walkFrom.eq_def]
  simp [hv, hm, hl]

theorem State.walkFrom_table (hv : pteV (s.tableEntry va (n + 1) t) = true) (hm : malformed (s.tableEntry va (n + 1) t) (n + 1) = false)
    (hl : pteL (s.tableEntry va (n + 1) t) = false) (hw : s.inFwin ten (pteFrame (s.tableEntry va (n + 1) t)) = true) :
    s.walkFrom ten va (n + 1) t = s.walkFrom ten va n (pteFrame (s.tableEntry va (n + 1) t)) := by
  unfold State.tableEntry at *
  rw [State.walkFrom.eq_def]
  simp [hv, hm, hl, hw]

end

/-! ### What a leaf answers -/

/-- An answer without the entry that it carries. -/
def XRes.place : XRes → XRes
  | .ok pa _ => .ok pa 0
  | y => y

section
variable {s : State} {ctx va n : Nat} {e : W64} {k : AccKind}

theorem State.translate_of_walk_none (hva : va < lwin) (h : s.walk ctx va = none) : s.translate ctx va k = .xlate := by
  rw [State.translate, if_neg (Nat.not_le.mpr hva), h]

/-- A leaf's page covers the low bits of its level, and what it gives carries the leaf. -/
theorem State.leafRes_ok {pa : Nat} {x : W64} (h : s.leafRes ctx va n e k = .ok pa x) : pa = pteFrame e + va % 2 ^ lvlBits n ∧ x = e := by
  unfold State.leafRes at h
  repeat' split at h
  all_goals cases h
  exact ⟨rfl, rfl⟩

/-- An answer does not look at the other bits of a leaf, and at PEND only where W is 0 (R346, R347). -/
theorem State.place_leafRes_xor {m : W64} (hm : clearOfAccess m = true) (hp : pteW e = true ∨ ptePend m = false) :
    (s.leafRes ctx va n (e ^^^ m) k).place = (s.leafRes ctx va n e k).place := by
  simp only [clearOfAccess, Bool.and_eq_true, Bool.not_eq_true', beq_iff_eq] at hm
  obtain ⟨⟨⟨⟨⟨hr, hw⟩, hx⟩, hpeer⟩, hhost⟩, hframe⟩ := hm
  have hflag : ∀ i, m.getLsbD i = false → (e ^^^ m).getLsbD i = e.getLsbD i := fun i h => by simp [h]
  have hR : pteR (e ^^^ m) = pteR e := hflag 2 hr
  have hW : pteW (e ^^^ m) = pteW e := hflag 3 hw
  have hX : pteX (e ^^^ m) = pteX e := hflag 4 hx
  have hPeer : ptePeer (e ^^^ m) = ptePeer e := hflag 6 hpeer
  have hHost : pteHost (e ^^^ m) = pteHost e := hflag 9 hhost
  simp only [State.leafRes, hR, hW, hX, hPeer, hHost, pteFrame_xor hframe]
  rcases hp with hset | hpend
  · simp only [hset, Bool.not_true, Bool.and_false, Bool.false_eq_true, if_false]
    repeat' split
    all_goals rfl
  · have hPend : ptePend (e ^^^ m) = ptePend e := hflag 10 hpend
    rw [hPend]
    repeat' split
    all_goals rfl

end

/-- Settles O54: the list of R346, the entry that the index names, and from it a fault, the leaf, or the table one level down; then what a leaf gives, and the
bits that change nothing. -/
theorem pageTables : Obligations.PageTables := by
  unfold Obligations.PageTables
  intro s ctx ten va t n e k _ entry answer
  have hentry : va < 2 ^ 52 → s.tableEntry va n t = entry := fun hva => by
    simp only [entry, State.tableEntry, vaIndex_eq hva]
  refine ⟨malformed_iff e n, fun hva h => ?fault, fun hva hv hm hl => ?leaf, fun hva m hn hv hm hl hw => ?table, rfl, State.translate_of_walk_none,
    fun _ _ => State.leafRes_ok, fun hw => State.place_leafRes_xor (by decide) (.inl hw), State.place_leafRes_xor (by decide) (.inr (by decide)), promOk_eq_false⟩
  case fault => exact State.walkFrom_fault (by rwa [hentry hva])
  case leaf =>
    rw [← hentry hva] at hv hm hl ⊢
    exact State.walkFrom_leaf hv hm hl
  case table =>
    subst hn
    rw [← hentry hva] at hv hm hl hw ⊢
    exact State.walkFrom_table hv hm hl hw

end Sys2Proof.Machine
end
